-- ==== Sys2Proof/Word.lean ====
section
/-! DEFINITION. The byte and the bit counts the manual's widths are made of (spec 12, the width scheme). -/
namespace Sys2Proof

/-- A byte of a frame payload or of a till record (spec 12). -/
abbrev Byte := BitVec 8

/-- The largest bank amount, 2^40 − 1 cents (R25). -/
abbrev amountMax : Nat := 1099511627775

/-- The largest bank count (R25). -/
abbrev countMax : Nat := 16777215

/-- The ledger limit, 2^63 − 1 cents (R14). -/
abbrev ledgerLimit : Nat := 9223372036854775807

/-- The largest period number (R95). -/
abbrev periodMax : Nat := 4294967295

end Sys2Proof
end

