-- ==== Sys2Proof/Syntax.lean ====
section
/-! DEFINITION. The commands of the station: one constructor for each row of spec/opcode_table.json, with the operands
that come from outside. A request step and a frame step carry none, because the record at the head of the request
queue (R173) or the owner's oldest inbound frame (R148) carries theirs. -/
namespace Sys2Proof

/-- Levels of the strap pins at a start (R181). -/
structure Straps where
  address : Nat
  rate : Nat
  clear : Bool
  deriving DecidableEq, Repr

/-- A hold's name: start count and counter (R32). -/
structure HoldId where
  start : Nat
  counter : Nat
  deriving DecidableEq, Repr

/-- When a station may start a frame (R140). -/
inductive StartMoment where
  /-- The line has just been recessive for 11 bit times. -/
  | busFree
  /-- A later bit time of the idle line. -/
  | idleBit
  /-- Another station's opening flag begins in this bit. -/
  | otherFlag
  deriving DecidableEq, Repr

/-- What the other stations do in the bits in which this station may start (R141). -/
inductive Contention where
  /-- No other station starts. -/
  | alone
  /-- Others start; the lowest arbitration value among them has this class and source. -/
  | rival (cls source : Nat)
  /-- A dominant level is read among the four recessive bits of the opening flag. -/
  | brokenFlag
  deriving DecidableEq, Repr

/-- What a receiver reads of a frame that it discards (R138). -/
inductive Reception where
  /-- The opening flag is broken. -/
  | brokenFlag
  /-- The levels read after the opening flag; `true` is recessive. -/
  | levels (bits : List Bool)
  deriving DecidableEq, Repr

/-- The commands, in the order of spec/opcode_table.json. -/
inductive Instr where
  /-- A WRITE transfer; the bytes the till clocked in after the transfer code (R172). -/
  | write (bytes : List Byte)
  /-- A READ transfer; how many bytes were clocked out after the status byte (R174). -/
  | read (clocked : Nat)
  /-- A PEEK transfer or one with an unknown code (R171). -/
  | peek (code : Byte)
  | issue
  | balance
  | redeem
  | complete
  | void
  | creditRequest
  | cashout
  | closePeriod
  | handover
  | status
  | peer
  | readPosition
  | readFloat
  | configure
  | join
  /-- A RESTART request; it latches the straps again (R181). -/
  | restart (straps : Straps)
  | badValueRequest
  | payout
  | adviceSettled
  | reportLatchPlaced
  /-- A frame reaches its acknowledgment slot; the levels read from its first class bit to the bit before the slot. -/
  | frameHeard (levels : List Bool)
  | frameDiscarded (what : Reception)
  /-- As FRAME_HEARD, for a frame with the own address as source (R146). -/
  | heardOwn (levels : List Bool)
  | auth
  | capture
  | release
  | creditFrame
  | enquire
  | advice
  | authReply
  | captureReply
  | creditReply
  | enquireReply
  | adviceReply
  | statement
  | close
  | beacon
  | depart
  | custody
  | offer
  | offerReply
  | cardTransfer
  | transferEnd
  | transferReply
  | abortHandover
  | busFree (moment : StartMoment) (contention : Contention)
  /-- A send reaches its acknowledgment slot; whether the slot reads dominant (R144). -/
  | sendEnd (dominant : Bool)
  | clashMismatch
  | stuck
  | stuckEnd
  | holdExpiry (hold : HoldId)
  | retentionEnd (hold : HoldId)
  | replyTimeout (reference : Nat)
  | abandonmentTimer (reference : Nat)
  | adviceReplyTimeout (reference : Nat)
  | statementWindow
  | drainLimit
  | offerReplyTimeout
  | transferEndTimeout
  | adoptionIdleLimit
  | pauseGuard
  | pauseEnd (station : Nat)
  | quiet (station : Nat)
  | absent (station : Nat)
  | beaconTimer
  | loadWindow
  | listenTimer
  | supplyWarning
  | departureLimit
  /-- The warning is found deasserted in RETAIN; the straps, and whether the backup supply held the store (R185). -/
  | supplyReturn (straps : Straps) (held : Bool)
  /-- Power is applied; the straps, and whether the backup supply held the store (R182, R183). -/
  | powerUp (straps : Straps) (held : Bool)
  /-- The reset pin is released; the straps, and whether the supply warning is still asserted afterwards (R186). -/
  | resetPin (straps : Straps) (warning : Bool)
  deriving DecidableEq, Repr

end Sys2Proof
end

