-- ==== Sys2Proof/Decode.lean ====
section
/-! DEFINITION. The command a word spells. No row of spec/opcode_table.json gives bits: every row's "fields" is empty,
and the station's commands are events, not words. So no word spells a command. -/
namespace Sys2Proof

/-- The command that the `nbits` low bits of `w` spell by the table: none, for no row gives bits. -/
def decodeTableWord (_nbits _w : Nat) : Option Instr := none

end Sys2Proof
end

