-- ==== Sys2Proof/Config.lean ====
section
/-! DEFINITION. The capacities of the part (spec 00, section 8) and the free values: constants with no body, one for
each value the manual leaves open. -/
namespace Sys2Proof.Config

/-- Card register, R7. -/
abbrev cardSlots : Nat := 6144
/-- Hold table, R31. -/
abbrev holdSlots : Nat := 96
/-- Transaction table, R53. -/
abbrev txnSlots : Nat := 16
/-- Advice queue, reservations included, R76. -/
abbrev advicePlaces : Nat := 64
/-- Home map, R167. -/
abbrev homeMapSlots : Nat := 16
/-- Adopted-home list, R16. -/
abbrev adoptedSlots : Nat := 3
/-- Inbound frame queue, R147. -/
abbrev inboundPlaces : Nat := 16
/-- Inbound places open to classes 1 to 3, R147. -/
abbrev inboundLow : Nat := 12
/-- Outbound frame queue, R149. -/
abbrev outboundPlaces : Nat := 24
/-- Outbound places open to classes 1 to 3, R149. -/
abbrev outboundLow : Nat := 18
/-- Request queue, R172. -/
abbrev requestPlaces : Nat := 8
/-- Result queue, R174. -/
abbrev resultSlots : Nat := 16
/-- Payout list, R115. -/
abbrev payoutPlaces : Nat := 4
/-- Sends of one frame, R144. -/
abbrev maxSends : Nat := 4
/-- Largest amount of one posting in cents, R34. -/
abbrev postingMax : Nat := 10000000

/-- FREE VALUE (log 10). The fields of a reply, report or record that the manual does not state, one number for each
value of the free counter. -/
opaque freeNat : Nat → Nat

/-- FREE VALUE (log 8). The filler bytes a transfer clocks out where the manual gives no data. -/
opaque fillerByte : Nat → Byte

/-- FREE VALUE (log 11). Whether READ POSITION of an address outside 1 to 239 is refused BAD-VALUE. -/
opaque badPeerRefused : Bool

/-- FREE VALUE (log 12). The reason byte given to an AUTH-REPLY status that has no reason of its own. -/
opaque reasonOfStatus : Nat → Nat

end Sys2Proof.Config
end

