-- ==== Sys2Proof/Machine/State.lean ====
section
/-! DEFINITION. The state of one station, block by block (spec 00, section 3), and its value right after reset. All of
it is plain data. An instant is a number of milliseconds on the station clock since the last start (R189); a timer is
the instant at which it runs out. -/
namespace Sys2Proof.Machine

/-- Records by number, rising, with the unlisted ones at their start value: position entries, lifetime records, the
peer table and the statement statuses, each of which the manual has for every address 1 to 239. -/
abbrev Table (α : Type) := List (Nat × α)

/-! ### Station Controller (spec 11) -/

/-- Station states, in the order of R171. -/
inductive StationState where
  | halted | unjoined | listening | joined | handingOver | retired | retain
  deriving DecidableEq, Repr

/-- R184. -/
inductive SupplyState where
  | normal | warned
  deriving DecidableEq, Repr

/-- R181. -/
inductive HaltCause where
  | badAddress | addressChanged
  deriving DecidableEq, Repr

/-- What became of the DEPART of the departure step (R184), in the order of the SUPPLY report (R189). -/
inductive DepartureOutcome where
  | sent | notSentLine | notSentState
  deriving DecidableEq, Repr

/-- The stop record (R184). -/
structure StopRecord where
  state : StationState
  outcome : DepartureOutcome
  deriving DecidableEq, Repr

/-- The configuration record (spec 10, section 10.6) with its defaults. The pins are the PINNED home-map entries. -/
structure ConfigRecord where
  cardCap : Nat := 100000
  feeRate : Nat := 150
  dormancy : Nat := 30
  /-- seconds -/
  holdExpiry : Nat := 120
  /-- milliseconds -/
  normalReply : Nat := 800
  /-- milliseconds -/
  busyReply : Nat := 1600
  /-- seconds -/
  retention : Nat := 90
  normalAttempts : Nat := 3
  busyAttempts : Nat := 1
  normalBudget : Nat := 25000
  busyBudget : Nat := 60000
  normalLimit : Nat := 2500
  busyLimit : Nat := 5000
  /-- seconds -/
  beaconInterval : Nat := 5
  upper : Nat := 400
  lower : Nat := 250
  dwell : Nat := 3
  /-- seconds -/
  statementWindow : Nat := 60
  /-- milliseconds -/
  pauseTime : Nat := 50
  deriving DecidableEq, Repr

/-- A record of the result queue or of a report latch (R189). -/
structure Record where
  kind : Nat
  tag : Nat := 0
  status : Nat := 0
  reason : Nat := 0
  fields : List Byte := []
  deriving DecidableEq, Repr

/-- What stands at the pins, and whether the store has been held, when the supply warning is deasserted (R181, R182). -/
structure SupplyPins where
  straps : Straps
  held : Bool
  deriving DecidableEq, Repr

/-- The Station Controller's state. -/
structure StationCtl where
  station : StationState := .unjoined
  supply : SupplyState := .normal
  straps : Straps
  haltCause : Option HaltCause := none
  startCount : Nat := 0
  storeValid : Bool := true
  storedAddress : Option Nat := none
  stopRecord : Option StopRecord := none
  committedMark : Bool := false
  latch : Option Record := none
  listenTimer : Option Nat := none
  /-- Last instant at which the DEPART of the departure step may start (R184). -/
  departure : Option Nat := none
  /-- The supply-warning input has been deasserted within the departure step, and with which pins; RETAIN tests it on entry
  (R185, log 32). -/
  returned : Option SupplyPins := none
  config : ConfigRecord := {}
  deriving DecidableEq, Repr

/-! ### Till Port (spec 10) -/

/-- A record of the request queue, as the till wrote it (R172, R189). -/
structure Request where
  kind : Nat
  tag : Nat
  fields : List Byte
  deriving DecidableEq, Repr

/-- A payout advice (R114). -/
structure Payout where
  period : Nat
  figure : Int
  feeOwed : Nat
  saturatedLeftOut : Nat
  issued : Nat
  cashOuts : Nat
  onUs : Nat
  standinLosses : Nat
  lateGross : Nat
  lateFee : Nat
  lateCredit : Nat
  lateStatements : Nat
  matched : Nat
  broken : Nat
  unconfirmed : Nat
  saturated : Nat
  undeliverable : Nat
  overwritten : Bool
  deriving DecidableEq, Repr

/-- The Till Port's state. -/
structure TillPort where
  requests : List Request := []
  /-- Readable order (R174). -/
  results : List Record := []
  /-- Number of reserved result slots (R173). -/
  reserved : Nat := 0
  overrun : Bool := false
  payouts : List Payout := []
  /-- Bytes clocked out to the till in the last transfer (R171). -/
  clockedOut : List Byte := []
  deriving DecidableEq, Repr

/-! ### Custody Unit (spec 01, 03, 07) -/

/-- A card number: home, serial and check digits (spec 01, section 1.1; R187). -/
structure CardNo where
  home : Nat
  serial : Nat
  check : Nat
  deriving DecidableEq, Repr

/-- A card key (R2). -/
structure Key where
  home : Nat
  serial : Nat
  deriving DecidableEq, Repr

/-- R3. -/
inductive CardState where
  | active | closed | pendingAdopt
  deriving DecidableEq, Repr

/-- A card record (spec 01, section 1.2). -/
structure Card where
  key : Key
  state : CardState
  balance : Nat
  issuePeriod : Nat
  lastActivity : Nat
  activity : Nat
  deriving DecidableEq, Repr

/-- The float ledger (R13). -/
structure Ledger where
  issued : Nat := 0
  credits : Nat := 0
  adoptedIn : Nat := 0
  redeemed : Nat := 0
  cashedOut : Nat := 0
  handedOut : Nat := 0
  deriving DecidableEq, Repr

/-- Spec 03, section 3.1. -/
inductive HoldKind where
  | redemption | credit
  deriving DecidableEq, Repr

/-- Spec 03, section 3.1. -/
inductive HoldState where
  | held | captured
  deriving DecidableEq, Repr

/-- Posting figures (R23). -/
structure Figures where
  posted : Nat := 0
  fee : Nat := 0
  net : Nat := 0
  short : Nat := 0
  stamp : Nat := 0
  deriving DecidableEq, Repr

/-- An entry of the hold table (spec 03, section 3.1). -/
structure Hold where
  id : HoldId
  kind : HoldKind
  key : Key
  amount : Nat
  station : Nat
  reference : Nat
  state : HoldState
  /-- Expiry instant of a HELD hold, end of retention of a CAPTURED entry. -/
  timer : Nat
  figures : Figures := {}
  late : Bool := false
  deriving DecidableEq, Repr

/-- Sub-states of a handover (spec 07, section 7.1). -/
inductive SubState where
  | draining | closing | offering | transferring | announcing
  deriving DecidableEq, Repr

/-- The handover state at the departing station (spec 07, section 7.1). -/
structure Handover where
  sub : SubState
  custodian : Nat
  tag : Nat
  homes : List Nat
  closingPeriod : Nat := 0
  count : Nat := 0
  total : Nat := 0
  highest : Nat := 0
  /-- The copied reply timeout in milliseconds. -/
  replyTimeout : Nat
  attemptsLeft : Nat := 0
  /-- The drain limit in DRAINING, the reply timer in OFFERING and TRANSFERRING. -/
  timer : Option Nat := none
  /-- The frame of the current attempt, or the DEPART of ANNOUNCING, not yet reported by the Line Controller. -/
  ticket : Option Nat := none
  /-- Cards still to be handed to the line (R123). -/
  toSend : List Card := []
  /-- CARD-TRANSFER frames handed and not yet acknowledged (R123). -/
  unacked : List Nat := []
  /-- TRANSFER-END is outstanding (R123, R128). -/
  ending : Bool := false
  deriving DecidableEq, Repr

/-- Why a handover fails, in the order of the HANDOVER-FAILED record (R130, R189). -/
inductive FailCause where
  | notDrained | custodianAbsent | refused | noReply | undeliverable | mismatch
  deriving DecidableEq, Repr

/-- An open adoption (R121). -/
structure Adoption where
  station : Nat
  homes : List Nat
  count : Nat
  total : Nat
  toCome : Nat
  fault : Bool
  idle : Nat
  deriving DecidableEq, Repr

/-- R126. -/
inductive AdoptionOutcome where
  | commit | mismatch | discarded
  deriving DecidableEq, Repr

/-- The last-adoption record (R126). -/
structure LastAdoption where
  station : Nat
  count : Nat
  total : Nat
  outcome : AdoptionOutcome
  deriving DecidableEq, Repr

/-- The Custody Unit's state. -/
structure Custody where
  cards : List Card := []
  ledger : Ledger := {}
  nextSerial : Nat := 1
  adopted : List Nat := []
  holds : List Hold := []
  holdCounter : Nat := 1
  /-- The last reply handed, while it may still wait for outbound room (R33). -/
  reply : Option Nat := none
  handover : Option Handover := none
  adoption : Option Adoption := none
  lastAdoption : Option LastAdoption := none
  deriving DecidableEq, Repr

/-! ### Request Broker (spec 04) -/

/-- Spec 04, section 4.1. -/
inductive TxnKind where
  | redeem | credit | enquire
  deriving DecidableEq, Repr

/-- States of an occupied slot, in the order of spec 04, section 4.1; FREE is the absence of a transaction. -/
inductive TxnState where
  | localHeld | authWait | remoteHeld | standinHeld | captureWait | creditWait | enquireWait
  deriving DecidableEq, Repr

/-- Operating modes (R165). -/
inductive Mode where
  | normal | busy
  deriving DecidableEq, Repr

/-- A transaction (spec 04, section 4.1). -/
structure Txn where
  reference : Nat
  tag : Nat
  kind : TxnKind
  card : CardNo
  amount : Nat
  /-- The amount the request asked for: a COMPLETE replaces `amount` (R65), and an ABANDONED report names this one (R72). -/
  approved : Nat
  /-- Absent for the local path. -/
  target : Option Nat
  hold : Option HoldId := none
  mode : Mode
  /-- Copied reply timeout in milliseconds (R55). -/
  replyTimeout : Nat
  /-- Copied AUTH, CREDIT and ENQUIRE attempts (R55). -/
  attempts : Nat
  attemptsLeft : Nat := 0
  /-- The request frame of the current attempt, not yet reported by the Line Controller (R60). -/
  ticket : Option Nat := none
  /-- Reply timer of the current attempt, or abandonment timer. -/
  timer : Option Nat := none
  state : TxnState
  /-- The RELEASE of a void that waits for outbound room (R71), and whether abandonment made it (R72). -/
  voiding : Option (Nat × Bool) := none
  deriving DecidableEq, Repr

/-- The Request Broker's state: the occupied slots in the order of opening. -/
structure Broker where
  txns : List Txn := []
  refCounter : Nat := 1
  latch : Option Record := none
  deriving DecidableEq, Repr

/-! ### Advice Unit (spec 05) -/

/-- Spec 05, section 5.1. -/
inductive AdviceKind where
  | standin | capture
  deriving DecidableEq, Repr

/-- Spec 05, section 5.1. -/
inductive AdviceState where
  | waiting | inDelivery | settled
  deriving DecidableEq, Repr

/-- A hold-off and the station it names (R87). -/
inductive HoldOff where
  | frame (station : Nat)
  | beacon (station : Nat)
  | locally (station : Nat)
  deriving DecidableEq, Repr

/-- Settlement figures of an advice (spec 05, section 5.1). -/
structure Settled where
  /-- Status code of the reply (spec 12, section 12.2). -/
  status : Nat
  figures : Figures
  station : Nat
  late : Bool
  deriving DecidableEq, Repr

/-- A committed advice (spec 05, section 5.1). -/
structure Advice where
  kind : AdviceKind
  card : CardNo
  amount : Nat
  reference : Nat
  hold : Option HoldId
  state : AdviceState := .waiting
  lastTarget : Option Nat := none
  holdOff : Option HoldOff := none
  settled : Option Settled := none
  /-- The ADVICE frame of the attempt, not yet reported by the Line Controller (R84). -/
  ticket : Option Nat := none
  /-- Reply timer (R84). -/
  timer : Option Nat := none
  deriving DecidableEq, Repr

/-- The Advice Unit's state; the queue in creation order (R76). -/
structure AdviceUnit where
  queue : List Advice := []
  reservations : Nat := 0
  deriving DecidableEq, Repr

/-! ### Settlement Unit (spec 02, 06) -/

/-- A position entry (spec 02, section 2.4). -/
structure PosEntry where
  gi : Nat := 0
  giN : Nat := 0
  fi : Nat := 0
  fiN : Nat := 0
  ci : Nat := 0
  ciN : Nat := 0
  gr : Nat := 0
  grN : Nat := 0
  fr : Nat := 0
  frN : Nat := 0
  cr : Nat := 0
  crN : Nat := 0
  lateGross : Nat := 0
  lateFee : Nat := 0
  lateCredit : Nat := 0
  standinLoss : Nat := 0
  saturated : Bool := false
  missed : Bool := false
  deriving DecidableEq, Repr

/-- Activity counters of a bank (R97). -/
structure Counters where
  issued : Nat := 0
  cashOuts : Nat := 0
  onUs : Nat := 0
  onUsLoss : Nat := 0
  lateStatements : Nat := 0
  deriving DecidableEq, Repr

/-- R96, in its order. -/
inductive CompareStatus where
  | none | pending | match | brk | unconfirmed | saturated
  deriving DecidableEq, Repr

/-- R96, in its order. -/
inductive SendStatus where
  | none | queued | sent | undeliverable
  deriving DecidableEq, Repr

/-- One received part of a statement (spec 06, section 6.4): part I is `redeemer = false`, part R is true. -/
structure StatementPart where
  redeemer : Bool
  gross : Nat
  fee : Nat
  credit : Nat
  grossN : Nat
  feeN : Nat
  creditN : Nat
  saturated : Bool
  deriving DecidableEq, Repr

/-- What a closing-bank entry carries of its own (R96). -/
structure StatementStatus where
  compare : CompareStatus := .none
  send : SendStatus := .none
  part : Option StatementPart := none
  deriving DecidableEq, Repr

/-- The closing bank in ROUND (R96). -/
structure Closing where
  period : Nat
  entries : Table PosEntry
  status : Table StatementStatus
  counters : Counters
  deriving DecidableEq, Repr

/-- A lifetime peer record (R19). -/
structure Lifetime where
  remainder : Nat := 0
  gross : Nat := 0
  fee : Nat := 0
  saturated : Bool := false
  deriving DecidableEq, Repr

/-- A statement being handed: its peer and the names of its two parts (R104). -/
structure StatementSend where
  peer : Nat
  partI : Nat
  partR : Nat
  deriving DecidableEq, Repr

/-- The Settlement Unit's state; `closing = none` is the round state EMPTY. -/
structure Settlement where
  openPeriod : Nat := 1
  entries : Table PosEntry := []
  counters : Counters := {}
  closing : Option Closing := none
  lifetime : Table Lifetime := []
  window : Option Nat := none
  sending : Option StatementSend := none
  latch : Option Record := none
  deriving DecidableEq, Repr

/-! ### Line Controller (spec 08) -/

/-- The contents of a BEACON (spec 12, section 12.2), the home bytes as sent. -/
structure BeaconData where
  period : Nat
  mode : Nat
  handover : Nat
  count : Nat
  h1 : Nat
  h2 : Nat
  h3 : Nat
  deriving DecidableEq, Repr

/-- The contents of a frame, kind by kind, in the order of the codes 1 to 23 (spec 12, section 12.2). Coded fields
are kept as their byte, so that codes outside the tables stay what they are (R188). -/
inductive Msg where
  | auth (card : CardNo) (amount reference : Nat)
  | authReply (reference status : Nat) (card : CardNo) (hold : HoldId) (amount room : Nat)
  | capture (card : CardNo) (hold : HoldId) (reference amount : Nat)
  | captureReply (reference status flags posted fee net short stamp : Nat)
  | release (card : CardNo) (hold : HoldId) (reference : Nat)
  | credit (card : CardNo) (amount reference : Nat)
  | creditReply (reference status amount stamp : Nat)
  | enquire (card : CardNo) (reference : Nat)
  | enquireReply (reference status balance available : Nat)
  | advice (card : CardNo) (amount reference kind : Nat) (hold : HoldId)
  | adviceReply (reference status flags posted fee net short stamp : Nat)
  | statement (part period gross fee credit grossN feeN creditN saturated : Nat)
  | close (period : Nat)
  | beacon (data : BeaconData)
  | pause (time : Nat)
  | depart (cause : Nat)
  | custody (home custodian : Nat)
  | offer (count total highest homeCount h1 h2 h3 h4 : Nat)
  | offerReply (verdict cause : Nat)
  | cardTransfer (home serial balance issuePeriod lastActivity activity : Nat)
  | transferEnd (count total : Nat)
  | transferReply (verdict : Nat)
  | abortHandover
  deriving DecidableEq, Repr

/-- A frame of the inbound queue (R147). -/
structure InFrame where
  source : Nat
  msg : Msg
  deriving DecidableEq, Repr

/-- A frame of the outbound queue or a request of the wait list (R144, R149); `ticket` is the model's name for it. -/
structure OutFrame where
  ticket : Nat
  dest : Nat
  msg : Msg
  sends : Nat := 0
  deriving DecidableEq, Repr

/-- A send in progress: the frame's name and what it is, and the levels of the whole frame (R137). -/
structure Sending where
  ticket : Nat
  dest : Nat
  kind : Nat
  levels : List Bool
  deriving DecidableEq, Repr

/-- What the line is to this station between events (R138, R140, R144). -/
inductive LineActivity where
  /-- Busy until the next bus free. -/
  | busy
  /-- Bus free has been reached and no frame has begun. -/
  | free
  /-- Another station's frame is being received. -/
  | receiving
  /-- This station has won the arbitration field. -/
  | sending (send : Sending)
  deriving DecidableEq, Repr

/-- Line states (R135, R155). -/
inductive LineState where
  | off | listenOnly | active | stuck
  deriving DecidableEq, Repr

/-- The Line Controller's state. -/
structure LineCtl where
  inbound : List InFrame := []
  /-- By class, lowest first, then by placing (R150). -/
  outbound : List OutFrame := []
  /-- In order of arrival (R149). -/
  waitList : List OutFrame := []
  /-- Pausing station and end instant (R152). -/
  pauses : List (Nat × Nat) := []
  pauseGuard : Option Nat := none
  sequence : Nat := 0
  /-- The instant at which STUCK was entered (R155). -/
  stuckSince : Option Nat := none
  activity : LineActivity := .busy
  /-- The last acknowledgment slot was driven dominant by this station (R143). -/
  ackDriven : Bool := false
  latch : Option Record := none
  clashes : Nat := 0
  nextTicket : Nat := 0
  deriving DecidableEq, Repr

/-! ### Peer Monitor (spec 09) -/

/-- R157. -/
inductive Presence where
  | unknown | present | quiet | absent
  deriving DecidableEq, Repr

/-- A peer-table entry (R157). -/
structure Peer where
  presence : Presence := .unknown
  degraded : Bool := false
  lastHeard : Option Nat := none
  failed : Nat := 0
  missed : Nat := 0
  lastSequence : Option Nat := none
  lastBeacon : Option BeaconData := none
  departure : Option Nat := none
  deriving DecidableEq, Repr

/-- A home-map entry (spec 09, section 9.6). `learned` is the learn time of a LEARNED entry, absent for a PINNED one. -/
structure HomeEntry where
  home : Nat
  custodian : Nat
  learned : Option Nat
  deriving DecidableEq, Repr

/-- The Peer Monitor's state. -/
structure PeerMon where
  peers : Table Peer := []
  mode : Mode := .normal
  /-- Counts of the windows of the current run, oldest first (R165). -/
  run : List Nat := []
  /-- End of the open load window. -/
  window : Option Nat := none
  windowCount : Nat := 0
  lastWindow : Nat := 0
  homeMap : List HomeEntry := []
  /-- The instant from which the beacon interval runs (R163). -/
  beaconFrom : Option Nat := none
  latch : Option Record := none
  deriving DecidableEq, Repr

/-! ### The station -/

/-- The state of the machine. -/
structure State where
  sc : StationCtl
  till : TillPort := {}
  cu : Custody := {}
  br : Broker := {}
  au : AdviceUnit := {}
  su : Settlement := {}
  lc : LineCtl := {}
  pm : PeerMon := {}
  /-- The station clock, in milliseconds since the last start. -/
  now : Nat := 0
  /-- The model's own counter, to which the free values are applied (log 10). -/
  free : Nat := 0
  /-- The commands waiting, first in, first out. -/
  pending : List Instr := []
  deriving DecidableEq, Repr

/-- The machine right after its first cold start (R183), with DESIGN CHOICE strap levels (log 1). -/
def State.reset : State := { sc := { straps := { address := 1, rate := 0, clear := false } } }

/-- Reasons a step stops with a fault. There is none: the manual names no event that stops the station and no command
without an effect, so no step faults, which is safe. -/
inductive Fault where
  deriving DecidableEq, Repr

/-- Reasons a step is refused. -/
inductive Refusal where
  /-- Raised by Dispatch for a command that has no meaning yet; no arm does. Safe: the machine stops. -/
  | notModelled (mnemonic : String)
  deriving DecidableEq, Repr

/-! ### Replacing one block -/

def State.setSc (s : State) (x : StationCtl) : State := { s with sc := x }
def State.setTill (s : State) (x : TillPort) : State := { s with till := x }
def State.setCu (s : State) (x : Custody) : State := { s with cu := x }
def State.setBr (s : State) (x : Broker) : State := { s with br := x }
def State.setAu (s : State) (x : AdviceUnit) : State := { s with au := x }
def State.setSu (s : State) (x : Settlement) : State := { s with su := x }
def State.setLc (s : State) (x : LineCtl) : State := { s with lc := x }
def State.setPm (s : State) (x : PeerMon) : State := { s with pm := x }
def State.setNow (s : State) (x : Nat) : State := { s with now := x }
def State.setFree (s : State) (x : Nat) : State := { s with free := x }
def State.setPending (s : State) (x : List Instr) : State := { s with pending := x }

end Sys2Proof.Machine
end

