-- ==== Sys2Proof/Machine/Ops.lean ====
section
/-! DEFINITION. Named operations on the collections: tables by address, searches for a free number, saturating sums
and timers. -/
namespace Sys2Proof.Machine

/-! ### Tables by address -/

/-- The entry at `a`, or the start value `d`. -/
def Table.get {α : Type} (d : α) : Table α → Nat → α
  | [], _ => d
  | (k, v) :: t, a => if k = a then v else Table.get d t a

/-- Replace the entry at `a`; an entry equal to the start value is not listed. -/
def Table.put {α : Type} [DecidableEq α] (d : α) (a : Nat) (v : α) : Table α → Table α
  | [] => if v = d then [] else [(a, v)]
  | (k, w) :: t =>
    if k < a then (k, w) :: Table.put d a v t
    else if k = a then (if v = d then t else (a, v) :: t)
    else (if v = d then (k, w) :: t else (a, v) :: (k, w) :: t)

/-- Apply `f` to the entry at `a`. -/
def Table.modify {α : Type} [DecidableEq α] (d : α) (t : Table α) (a : Nat) (f : α → α) : Table α :=
  Table.put d a (f (Table.get d t a)) t

/-- Apply `f` to every listed entry; for an `f` that keeps the start value this is every entry. -/
def Table.mapEntries {α : Type} [DecidableEq α] (d : α) (f : Nat → α → α) (t : Table α) : Table α :=
  t.filterMap fun e => if f e.1 e.2 = d then none else some (e.1, f e.1 e.2)

/-- The canonical form from address `low` on: rising addresses, no entry equal to the start value. -/
def Table.wfFrom {α : Type} [DecidableEq α] (d : α) : Nat → Table α → Bool
  | _, [] => true
  | low, (k, v) :: t => decide (low ≤ k) && decide (v ≠ d) && Table.wfFrom d (k + 1) t

/-- The canonical form of a table. -/
def Table.wf {α : Type} [DecidableEq α] (d : α) (t : Table α) : Bool := Table.wfFrom d 0 t

/-! ### Lists -/

/-- Replace the elements that satisfy `p` by their image under `f`. -/
def updateWhere {α : Type} (p : α → Bool) (f : α → α) (l : List α) : List α :=
  l.map fun x => if p x then f x else x

/-- The sum of `f` over a list. -/
def sumOf {α : Type} (f : α → Nat) : List α → Nat
  | [] => 0
  | x :: l => f x + sumOf f l

/-- The sum of an integer figure over a list. -/
def sumInt {α : Type} (f : α → Int) : List α → Int
  | [] => 0
  | x :: l => f x + sumInt f l

/-- The largest value of `f` over a list, 0 for none. -/
def maxOf {α : Type} (f : α → Nat) : List α → Nat
  | [] => 0
  | x :: l => max (f x) (maxOf f l)

/-- The first element satisfying `p`, and the list without it. -/
def takeFirst {α : Type} (p : α → Bool) : List α → Option (α × List α)
  | [] => none
  | x :: l =>
    if p x then some (x, l)
    else match takeFirst p l with
      | none => none
      | some (y, r) => some (y, x :: r)

/-- Insert by a key in rising order, behind equal keys. -/
def insertBy {α : Type} (key : α → Nat) (x : α) : List α → List α
  | [] => [x]
  | y :: l => if key x < key y then x :: y :: l else y :: insertBy key x l

/-- Sort by a key in rising order. -/
def sortBy {α : Type} (key : α → Nat) : List α → List α
  | [] => []
  | x :: l => insertBy key x (sortBy key l)

/-- Remove repeated members, keeping the first. -/
def dedupe : List Nat → List Nat
  | [] => []
  | x :: l => x :: (dedupe l).filter (fun y => y != x)

/-! ### Counters that run from 1 to a top and wrap -/

/-- The value after `n`, with `top` followed by 1. -/
def nextIn (top n : Nat) : Nat := if n ≥ top then 1 else n + 1

/-- From `n` upward with wrapping, the first value not in use; `fuel` bounds the values passed over. -/
def firstFree (top : Nat) (used : Nat → Bool) : Nat → Nat → Nat
  | 0, n => n
  | fuel + 1, n => if used n then firstFree top used fuel (nextIn top n) else n

/-! ### Saturation (spec 00, section 6.4) -/

/-- A sum that stays at its bound. -/
def satAdd (bound v add : Nat) : Nat := min (v + add) bound

/-- The sum would pass its bound. -/
def passes (bound v add : Nat) : Bool := bound < v + add

/-- The nearest value of a range. -/
def clampTo (low high v : Nat) : Nat := max low (min high v)

/-! ### The clock -/

/-- The clock has got to `t` at least: a timer's own event takes it to the timer's instant. -/
def State.reach (s : State) (t : Nat) : State := s.setNow (max s.now t)

/-- The `k`-th free number of this event (log 10). -/
def State.freeNat (s : State) (k : Nat) : Nat := Config.freeNat (s.free + k)

/-- Use up `k` free numbers. -/
def State.useFree (s : State) (k : Nat) : State := s.setFree (s.free + k)

end Sys2Proof.Machine
end

