-- ==== Sys2Proof/Machine/Operands.lean ====
section
/-! DEFINITION. The layouts the till controller and the other stations see (spec 12): bytes, card numbers, frame
payloads, the frame on the line with its check and stuffing (spec 08, section 8.2), request kinds and result records. -/
namespace Sys2Proof.Machine

/-! ### Bytes -/

/-- `v` in `n` bytes, most significant first. -/
def toBytes : Nat → Nat → List Byte
  | 0, _ => []
  | n + 1, v => BitVec.ofNat 8 (v / 256 ^ n) :: toBytes n v

/-- The number that bytes spell, most significant first. -/
def ofBytes : List Byte → Nat
  | [] => 0
  | b :: bs => b.toNat * 256 ^ bs.length + ofBytes bs

/-- The number in `len` bytes from offset `off`. -/
def fieldAt (bs : List Byte) (off len : Nat) : Nat := ofBytes ((bs.drop off).take len)

/-- A signed number in `n` bytes, two's complement. -/
def toSignedBytes (n : Nat) (v : Int) : List Byte := toBytes n (v % (256 ^ n : Nat)).toNat

/-- A mark or flag: one byte, 0 clear and 1 set (R189). -/
def markByte (b : Bool) : List Byte := toBytes 1 (if b then 1 else 0)

/-- An item that may be absent: a byte that says so, then its `n` bytes, 0 when absent (R189). -/
def optionalBytes (n : Nat) : Option Nat → List Byte
  | none => toBytes 1 0 ++ toBytes n 0
  | some v => toBytes 1 1 ++ toBytes n v

/-- An instant in a record: milliseconds modulo 2^32 (R189). -/
def instantBytes (t : Nat) : List Byte := toBytes 4 (t % 4294967296)

/-! ### Card numbers (R1, R187) -/

/-- The weighted sum of digits 1 to 8 (R1). -/
def weightedSum (home serial : Nat) : Nat :=
  (home / 100 % 10) * 3 + (home / 10 % 10) * 5 + (home % 10) * 7 + (serial / 10000 % 10) * 11
    + (serial / 1000 % 10) * 13 + (serial / 100 % 10) * 17 + (serial / 10 % 10) * 19 + (serial % 10) * 23

/-- The check value of a home and serial (R1). -/
def checkValue (home serial : Nat) : Nat := weightedSum home serial % 89 + 10

/-- The number of a card of this home and serial. -/
def CardNo.make (home serial : Nat) : CardNo := { home, serial, check := checkValue home serial }

/-- The card number test of R1. -/
def CardNo.valid (c : CardNo) : Bool :=
  c.check == checkValue c.home c.serial && 1 ≤ c.home && c.home ≤ 239 && 1 ≤ c.serial && c.serial ≤ 99999

/-- The key of a card number (R2). -/
def CardNo.key (c : CardNo) : Key := { home := c.home, serial := c.serial }

/-- The value of an ASCII decimal digit. -/
def digitOf (b : Byte) : Option Nat := if 48 ≤ b.toNat && b.toNat ≤ 57 then some (b.toNat - 48) else none

/-- The number that ASCII digits spell; none where a byte is no digit (R187). -/
def digitsOf : List Byte → Nat → Option Nat
  | [], acc => some acc
  | b :: bs, acc => match digitOf b with
    | none => none
    | some d => digitsOf bs (acc * 10 + d)

/-- A card number from the ten bytes of a till record, if it passes R1. -/
def cardFromTill (bs : List Byte) : Option CardNo :=
  match digitsOf (bs.take 3) 0, digitsOf ((bs.drop 3).take 5) 0, digitsOf ((bs.drop 8).take 2) 0 with
  | some home, some serial, some check =>
    if CardNo.valid { home, serial, check } then some { home, serial, check } else none
  | _, _, _ => none

/-- `n` decimal digits of `v` in ASCII. -/
def toDigits : Nat → Nat → List Byte
  | 0, _ => []
  | n + 1, v => BitVec.ofNat 8 (48 + v / 10 ^ n % 10) :: toDigits n v

/-- A card number in a till record: ten ASCII digits. -/
def cardToTill (c : CardNo) : List Byte := toDigits 3 c.home ++ toDigits 5 c.serial ++ toDigits 2 c.check

/-- A card number in a frame: home (1), serial (3), check (1). -/
def cardBytes (c : CardNo) : List Byte := toBytes 1 c.home ++ toBytes 3 c.serial ++ toBytes 1 c.check

/-- A card number read back from a frame. -/
def cardAt (bs : List Byte) (off : Nat) : CardNo :=
  { home := fieldAt bs off 1, serial := fieldAt bs (off + 1) 3, check := fieldAt bs (off + 4) 1 }

/-- A hold id: start count, then counter in two bytes. -/
def holdIdBytes (h : HoldId) : List Byte := toBytes 1 h.start ++ toBytes 2 h.counter

/-- A hold id read back. -/
def holdIdAt (bs : List Byte) (off : Nat) : HoldId :=
  { start := fieldAt bs off 1, counter := fieldAt bs (off + 1) 2 }

/-! ### Frame kinds (spec 12, section 12.2; R147) -/

/-- The kind code of a frame's contents. -/
def Msg.kind : Msg → Nat
  | .auth .. => 1
  | .authReply .. => 2
  | .capture .. => 3
  | .captureReply .. => 4
  | .release .. => 5
  | .credit .. => 6
  | .creditReply .. => 7
  | .enquire .. => 8
  | .enquireReply .. => 9
  | .advice .. => 10
  | .adviceReply .. => 11
  | .statement .. => 12
  | .close .. => 13
  | .beacon .. => 14
  | .pause .. => 15
  | .depart .. => 16
  | .custody .. => 17
  | .offer .. => 18
  | .offerReply .. => 19
  | .cardTransfer .. => 20
  | .transferEnd .. => 21
  | .transferReply .. => 22
  | .abortHandover => 23

/-- The class of a kind code; none for a code that is no kind (R147). -/
def kindClass : Nat → Option Nat
  | 1 | 3 | 5 | 6 | 8 => some 1
  | 2 | 4 | 7 | 9 | 11 => some 0
  | 10 => some 2
  | 12 => some 3
  | 13 | 14 | 16 | 17 => some 2
  | 15 => some 0
  | 18 | 21 | 23 => some 1
  | 19 | 22 => some 0
  | 20 => some 3
  | _ => none

/-- The kinds sent to all stations (R147). -/
def kindBroadcast (code : Nat) : Bool := 13 ≤ code && code ≤ 17

/-- The payload length of a kind code (spec 12, section 12.2). -/
def kindLength : Nat → Option Nat
  | 1 => some 11
  | 2 => some 19
  | 3 => some 14
  | 4 => some 24
  | 5 => some 10
  | 6 => some 11
  | 7 => some 11
  | 8 => some 7
  | 9 => some 11
  | 10 => some 15
  | 11 => some 24
  | 12 => some 30
  | 13 => some 4
  | 14 => some 10
  | 15 => some 1
  | 16 => some 1
  | 17 => some 2
  | 18 => some 16
  | 19 => some 2
  | 20 => some 18
  | 21 => some 7
  | 22 => some 1
  | 23 => some 0
  | _ => none

/-- The class of a frame's contents. -/
def Msg.cls (m : Msg) : Nat := (kindClass m.kind).getD 3

/-- The block that owns an inbound frame (R147). -/
inductive Owner where
  | custodyUnit | requestBroker | adviceUnit | settlementUnit | peerMonitor | lineController
  deriving DecidableEq, Repr

/-- R147. -/
def Msg.owner : Msg → Owner
  | .auth .. | .capture .. | .release .. | .credit .. | .enquire .. | .advice .. => .custodyUnit
  | .authReply .. | .captureReply .. | .creditReply .. | .enquireReply .. => .requestBroker
  | .adviceReply .. => .adviceUnit
  | .statement .. | .close .. => .settlementUnit
  | .beacon .. | .depart .. | .custody .. => .peerMonitor
  | .pause .. => .lineController
  | .offer .. | .offerReply .. | .cardTransfer .. | .transferEnd .. | .transferReply .. | .abortHandover => .custodyUnit

/-- A BEACON's payload, also the layout of a last beacon in a PEER result (R189). -/
def BeaconData.bytes (b : BeaconData) : List Byte :=
  toBytes 4 b.period ++ toBytes 1 b.mode ++ toBytes 1 b.handover ++ toBytes 1 b.count
    ++ toBytes 1 b.h1 ++ toBytes 1 b.h2 ++ toBytes 1 b.h3

/-- The payload of a frame (spec 12, section 12.2). -/
def Msg.encode : Msg → List Byte
  | .auth card amount reference => cardBytes card ++ toBytes 4 amount ++ toBytes 2 reference
  | .authReply reference status card hold amount room =>
    toBytes 2 reference ++ toBytes 1 status ++ cardBytes card ++ holdIdBytes hold ++ toBytes 4 amount ++ toBytes 4 room
  | .capture card hold reference amount => cardBytes card ++ holdIdBytes hold ++ toBytes 2 reference ++ toBytes 4 amount
  | .captureReply reference status flags posted fee net short stamp
  | .adviceReply reference status flags posted fee net short stamp =>
    toBytes 2 reference ++ toBytes 1 status ++ toBytes 1 flags ++ toBytes 4 posted ++ toBytes 4 fee ++ toBytes 4 net
      ++ toBytes 4 short ++ toBytes 4 stamp
  | .release card hold reference => cardBytes card ++ holdIdBytes hold ++ toBytes 2 reference
  | .credit card amount reference => cardBytes card ++ toBytes 4 amount ++ toBytes 2 reference
  | .creditReply reference status amount stamp =>
    toBytes 2 reference ++ toBytes 1 status ++ toBytes 4 amount ++ toBytes 4 stamp
  | .enquire card reference => cardBytes card ++ toBytes 2 reference
  | .enquireReply reference status balance available =>
    toBytes 2 reference ++ toBytes 1 status ++ toBytes 4 balance ++ toBytes 4 available
  | .advice card amount reference kind hold =>
    cardBytes card ++ toBytes 4 amount ++ toBytes 2 reference ++ toBytes 1 kind ++ holdIdBytes hold
  | .statement part period gross fee cred grossN feeN creditN saturated =>
    toBytes 1 part ++ toBytes 4 period ++ toBytes 5 gross ++ toBytes 5 fee ++ toBytes 5 cred ++ toBytes 3 grossN
      ++ toBytes 3 feeN ++ toBytes 3 creditN ++ toBytes 1 saturated
  | .close period => toBytes 4 period
  | .beacon data => data.bytes
  | .pause time => toBytes 1 time
  | .depart cause => toBytes 1 cause
  | .custody home custodian => toBytes 1 home ++ toBytes 1 custodian
  | .offer count total highest homeCount h1 h2 h3 h4 =>
    toBytes 2 count ++ toBytes 5 total ++ toBytes 4 highest ++ toBytes 1 homeCount ++ toBytes 1 h1 ++ toBytes 1 h2
      ++ toBytes 1 h3 ++ toBytes 1 h4
  | .offerReply verdict cause => toBytes 1 verdict ++ toBytes 1 cause
  | .cardTransfer home serial balance issuePeriod lastActivity activity =>
    toBytes 1 home ++ toBytes 3 serial ++ toBytes 4 balance ++ toBytes 4 issuePeriod ++ toBytes 4 lastActivity
      ++ toBytes 2 activity
  | .transferEnd count total => toBytes 2 count ++ toBytes 5 total
  | .transferReply verdict => toBytes 1 verdict
  | .abortHandover => []

/-- The contents that a payload of a kind code spells; none where the code is no kind or the length does not suit it. -/
def Msg.decode (code : Nat) (p : List Byte) : Option Msg :=
  if kindLength code = some p.length then
    match code with
    | 1 => some (.auth (cardAt p 0) (fieldAt p 5 4) (fieldAt p 9 2))
    | 2 => some (.authReply (fieldAt p 0 2) (fieldAt p 2 1) (cardAt p 3) (holdIdAt p 8) (fieldAt p 11 4) (fieldAt p 15 4))
    | 3 => some (.capture (cardAt p 0) (holdIdAt p 5) (fieldAt p 8 2) (fieldAt p 10 4))
    | 4 => some (.captureReply (fieldAt p 0 2) (fieldAt p 2 1) (fieldAt p 3 1) (fieldAt p 4 4) (fieldAt p 8 4)
        (fieldAt p 12 4) (fieldAt p 16 4) (fieldAt p 20 4))
    | 5 => some (.release (cardAt p 0) (holdIdAt p 5) (fieldAt p 8 2))
    | 6 => some (.credit (cardAt p 0) (fieldAt p 5 4) (fieldAt p 9 2))
    | 7 => some (.creditReply (fieldAt p 0 2) (fieldAt p 2 1) (fieldAt p 3 4) (fieldAt p 7 4))
    | 8 => some (.enquire (cardAt p 0) (fieldAt p 5 2))
    | 9 => some (.enquireReply (fieldAt p 0 2) (fieldAt p 2 1) (fieldAt p 3 4) (fieldAt p 7 4))
    | 10 => some (.advice (cardAt p 0) (fieldAt p 5 4) (fieldAt p 9 2) (fieldAt p 11 1) (holdIdAt p 12))
    | 11 => some (.adviceReply (fieldAt p 0 2) (fieldAt p 2 1) (fieldAt p 3 1) (fieldAt p 4 4) (fieldAt p 8 4)
        (fieldAt p 12 4) (fieldAt p 16 4) (fieldAt p 20 4))
    | 12 => some (.statement (fieldAt p 0 1) (fieldAt p 1 4) (fieldAt p 5 5) (fieldAt p 10 5) (fieldAt p 15 5)
        (fieldAt p 20 3) (fieldAt p 23 3) (fieldAt p 26 3) (fieldAt p 29 1))
    | 13 => some (.close (fieldAt p 0 4))
    | 14 => some (.beacon ⟨fieldAt p 0 4, fieldAt p 4 1, fieldAt p 5 1, fieldAt p 6 1, fieldAt p 7 1, fieldAt p 8 1,
        fieldAt p 9 1⟩)
    | 15 => some (.pause (fieldAt p 0 1))
    | 16 => some (.depart (fieldAt p 0 1))
    | 17 => some (.custody (fieldAt p 0 1) (fieldAt p 1 1))
    | 18 => some (.offer (fieldAt p 0 2) (fieldAt p 2 5) (fieldAt p 7 4) (fieldAt p 11 1) (fieldAt p 12 1)
        (fieldAt p 13 1) (fieldAt p 14 1) (fieldAt p 15 1))
    | 19 => some (.offerReply (fieldAt p 0 1) (fieldAt p 1 1))
    | 20 => some (.cardTransfer (fieldAt p 0 1) (fieldAt p 1 3) (fieldAt p 4 4) (fieldAt p 8 4) (fieldAt p 12 4)
        (fieldAt p 16 2))
    | 21 => some (.transferEnd (fieldAt p 0 2) (fieldAt p 2 5))
    | 22 => some (.transferReply (fieldAt p 0 1))
    | 23 => some .abortHandover
    | _ => none
  else none

/-! ### The frame on the line (R136 to R139) -/

/-- A frame's fields between the flags, less its check (spec 08, section 8.2). -/
structure RawFrame where
  cls : Nat
  source : Nat
  dest : Nat
  kind : Nat
  sequence : Nat
  payload : List Byte
  deriving DecidableEq, Repr

/-- `n` bits of `v`, most significant first. -/
def toBits : Nat → Nat → List Bool
  | 0, _ => []
  | n + 1, v => v.testBit n :: toBits n v

/-- The number that bits spell, most significant first. -/
def ofBits : List Bool → Nat
  | [] => 0
  | b :: bs => (if b then 2 ^ bs.length else 0) + ofBits bs

/-- The bits of a payload. -/
def payloadBits : List Byte → List Bool
  | [] => []
  | b :: bs => toBits 8 b.toNat ++ payloadBits bs

/-- The first `n` bytes that bits spell. -/
def bytesOfBits : Nat → List Bool → List Byte
  | 0, _ => []
  | n + 1, bits => BitVec.ofNat 8 (ofBits (bits.take 8)) :: bytesOfBits n (bits.drop 8)

/-- One step of the check register (R139). -/
def crcStep (r : BitVec 16) (b : Bool) : BitVec 16 :=
  if r.msb != b then (r <<< 1) ^^^ 0x2F15#16 else r <<< 1

/-- The check over bits (R139). -/
def crc (bits : List Bool) : BitVec 16 := bits.foldl crcStep 0xFFFF#16

/-- The bits of a frame from class to payload end (R136). -/
def RawFrame.bits (f : RawFrame) : List Bool :=
  toBits 2 f.cls ++ toBits 8 f.source ++ toBits 8 f.dest ++ toBits 6 f.kind ++ toBits 8 f.sequence
    ++ toBits 6 f.payload.length ++ payloadBits f.payload

/-- Insert a dominant bit after each run of three recessive bits; `run` counts the run so far (R137). -/
def stuff : Nat → List Bool → List Bool
  | _, [] => []
  | _, false :: bs => false :: stuff 0 bs
  | run, true :: bs => if run ≥ 2 then true :: false :: stuff 0 bs else true :: stuff (run + 1) bs

/-- The stuffed part of a frame: the levels from the first class bit to the bit before the acknowledgment slot (R137). -/
def RawFrame.levels (f : RawFrame) : List Bool := stuff 0 (f.bits ++ toBits 16 (crc f.bits).toNat)

/-- The opening and the closing flag: dominant, four recessive, dominant (spec 08, section 8.2). -/
def frameFlag : List Bool := [false, true, true, true, true, false]

/-- All the levels a sender sends: the opening flag, the stuffed part, the acknowledgment slot left recessive, and the
closing flag (R137). -/
def RawFrame.sentLevels (f : RawFrame) : List Bool := frameFlag ++ f.levels ++ true :: frameFlag

/-- How reading the stuffed part ended. -/
inductive Unstuffed where
  /-- All levels were read. -/
  | whole
  /-- A stuff bit is still due. -/
  | due
  /-- A fourth recessive bit in a row was read. -/
  | broken
  deriving DecidableEq, Repr

/-- Remove each dominant bit that follows three recessive bits (R138). A fourth recessive bit breaks the frame; where the
stuff bit after the last check bit is the one that reads recessive, that is the model's choice (log 47). -/
def unstuff : Nat → List Bool → List Bool × Unstuffed
  | run, [] => ([], if run ≥ 3 then .due else .whole)
  | run, false :: bs =>
    if run ≥ 3 then unstuff 0 bs
    else
      let r := unstuff 0 bs
      (false :: r.1, r.2)
  | run, true :: bs =>
    if run ≥ 3 then ([], .broken)
    else
      let r := unstuff (run + 1) bs
      (true :: r.1, r.2)

/-- What the levels of a reception come to at their end (R138, R139). -/
inductive Received where
  | frame (f : RawFrame)
  | discard
  /-- The levels are not those of a frame up to its slot. -/
  | partway
  deriving DecidableEq, Repr

/-- The fields that the unstuffed bits before the check spell. -/
def RawFrame.ofBitList (bits : List Bool) : RawFrame :=
  { cls := ofBits (bits.take 2), source := ofBits ((bits.drop 2).take 8), dest := ofBits ((bits.drop 10).take 8),
    kind := ofBits ((bits.drop 18).take 6), sequence := ofBits ((bits.drop 24).take 8),
    payload := bytesOfBits (ofBits ((bits.drop 32).take 6)) (bits.drop 38) }

/-- Read the stuffed part of a frame (R138, R139). -/
def receive (levels : List Bool) : Received :=
  let u := unstuff 0 levels
  let length := ofBits ((u.1.drop 32).take 6)
  if 38 ≤ u.1.length ∧ length > 40 then .discard
  else if u.2 = .broken then .discard
  else if u.2 = .whole ∧ u.1.length = 54 + 8 * length then
    if (crc (u.1.take (38 + 8 * length))).toNat = ofBits (u.1.drop (38 + 8 * length)) then
      .frame (RawFrame.ofBitList u.1)
    else .discard
  else .partway

/-! ### Request records (R176, R189) -/

/-- The sixteen request kinds, in the order of their codes. -/
inductive ReqKind where
  | issue | balance | redeem | complete | void | credit | cashout | closePeriod | handover | status | peer
  | readPosition | readFloat | configure | join | restart
  deriving DecidableEq, Repr

/-- The code of a request kind (R189). -/
def ReqKind.code : ReqKind → Nat
  | .issue => 1 | .balance => 2 | .redeem => 3 | .complete => 4 | .void => 5 | .credit => 6 | .cashout => 7
  | .closePeriod => 8 | .handover => 9 | .status => 10 | .peer => 11 | .readPosition => 12 | .readFloat => 13
  | .configure => 14 | .join => 15 | .restart => 16

/-- The request kind of a code. -/
def ReqKind.ofCode : Nat → Option ReqKind
  | 1 => some .issue | 2 => some .balance | 3 => some .redeem | 4 => some .complete | 5 => some .void
  | 6 => some .credit | 7 => some .cashout | 8 => some .closePeriod | 9 => some .handover | 10 => some .status
  | 11 => some .peer | 12 => some .readPosition | 13 => some .readFloat | 14 => some .configure | 15 => some .join
  | 16 => some .restart
  | _ => none

/-- The field length of a request kind (R189). -/
def ReqKind.length : ReqKind → Nat
  | .issue => 4 | .balance => 10 | .redeem => 14 | .complete => 6 | .void => 2 | .credit => 14 | .cashout => 10
  | .closePeriod => 0 | .handover => 1 | .status => 0 | .peer => 1 | .readPosition => 2 | .readFloat => 0
  | .configure => 50 | .join => 0 | .restart => 0

/-- The kind of a request record, if its code is one and its length suits it (R176). -/
def Request.kind? (r : Request) : Option ReqKind :=
  match ReqKind.ofCode r.kind with
  | some k => if r.fields.length = k.length then some k else none
  | none => none

/-- Which request kinds are handed to their owner in a station state; the others are refused WRONG-STATE (R176). -/
def ReqKind.served : ReqKind → StationState → Bool
  | .issue, st => st = .unjoined || st = .listening || st = .joined
  | .balance, st | .redeem, st | .complete, st | .void, st | .credit, st | .cashout, st =>
    st = .unjoined || st = .listening || st = .joined || st = .handingOver
  | .closePeriod, st => st = .joined
  | .handover, st => st = .joined || st = .handingOver
  | .status, _ | .peer, _ | .readPosition, _ | .readFloat, _ => true
  | .configure, st | .join, st => st = .unjoined
  | .restart, st => st ≠ .retired

/-! ### Result records (R189) -/

/-- Reasons of a DECLINED result, in the order of their codes. -/
inductive Reason where
  | insufficient | unknownCard | cardClosed | badNumber | homeBusy | homeUnreachable | overCap | notHome
  | registerFull | noSlot | adviceFull | wrongState | badRef | badValue
  deriving DecidableEq, Repr

/-- R189. -/
def Reason.code : Reason → Nat
  | .insufficient => 1 | .unknownCard => 2 | .cardClosed => 3 | .badNumber => 4 | .homeBusy => 5
  | .homeUnreachable => 6 | .overCap => 7 | .notHome => 8 | .registerFull => 9 | .noSlot => 10 | .adviceFull => 11
  | .wrongState => 12 | .badRef => 13 | .badValue => 14

/-- The success status of a request kind: OK 0, APPROVED 1, COMPLETED 2, VOIDED 3, CREDITED 4, CASHED-OUT 5, CLOSED 6,
HANDED-OVER 7 (R176, R189). -/
def ReqKind.success : ReqKind → Nat
  | .redeem => 1 | .complete => 2 | .void => 3 | .credit => 4 | .cashout => 5 | .closePeriod => 6 | .handover => 7
  | .issue | .balance | .status | .peer | .readPosition | .readFloat | .configure | .join | .restart => 0

/-- A success result. -/
def successRecord (k : ReqKind) (tag : Nat) (fields : List Byte) : Record :=
  { kind := k.code, tag, status := k.success, fields }

/-- A DECLINED result with a reason code and its one 4-byte field. -/
def declinedCode (kind tag reason carried : Nat) : Record :=
  { kind, tag, status := 8, reason, fields := toBytes 4 carried }

/-- A DECLINED result. -/
def declinedRecord (k : ReqKind) (tag : Nat) (reason : Reason) (carried : Nat := 0) : Record :=
  declinedCode k.code tag reason.code carried

/-- The bytes of a record as READ clocks them out (R189). -/
def Record.bytes (r : Record) : List Byte :=
  toBytes 1 r.kind ++ toBytes 1 r.tag ++ toBytes 1 r.status ++ toBytes 1 r.reason ++ toBytes 2 r.fields.length ++ r.fields

/-- The record of kind NONE that a READ of an empty queue clocks out. -/
def Record.empty : Record := { kind := 0 }

/-- The result flags byte: STANDIN bit 0, PENDING bit 1, LATE bit 2 (R189). -/
def resultFlags (standin pending late : Bool) : Nat :=
  (if standin then 1 else 0) + (if pending then 2 else 0) + (if late then 4 else 0)

/-- The flags byte of a reply frame: LATE in its lowest bit. -/
def replyFlags (late : Bool) : Nat := if late then 1 else 0

/-! ### Exchange status codes (spec 12, section 12.2) -/

/-- The statuses of replies. -/
inductive XStatus where
  | approved | insufficient | unknownCard | cardClosed | homeBusy | overCap | posted | postedShort | duplicate | notPosted
  deriving DecidableEq, Repr

/-- Their codes. -/
def XStatus.code : XStatus → Nat
  | .approved => 0 | .insufficient => 1 | .unknownCard => 2 | .cardClosed => 3 | .homeBusy => 4 | .overCap => 5
  | .posted => 8 | .postedShort => 9 | .duplicate => 10 | .notPosted => 11

/-- The status of a code. -/
def XStatus.ofCode : Nat → Option XStatus
  | 0 => some .approved | 1 => some .insufficient | 2 => some .unknownCard | 3 => some .cardClosed
  | 4 => some .homeBusy | 5 => some .overCap | 8 => some .posted | 9 => some .postedShort | 10 => some .duplicate
  | 11 => some .notPosted
  | _ => none

/-- POSTED, POSTED-SHORT, DUPLICATE and NOT-POSTED: the statuses that carry posting figures (R67, R90). -/
def XStatus.isPosting : XStatus → Bool
  | .posted | .postedShort | .duplicate | .notPosted => true
  | .approved | .insufficient | .unknownCard | .cardClosed | .homeBusy | .overCap => false

/-! ### One-byte positions of values in their lists (R189) -/

def StationState.code : StationState → Nat
  | .halted => 0 | .unjoined => 1 | .listening => 2 | .joined => 3 | .handingOver => 4 | .retired => 5 | .retain => 6
def HaltCause.code : HaltCause → Nat
  | .badAddress => 0 | .addressChanged => 1
def DepartureOutcome.code : DepartureOutcome → Nat
  | .sent => 0 | .notSentLine => 1 | .notSentState => 2
def SubState.code : SubState → Nat
  | .draining => 0 | .closing => 1 | .offering => 2 | .transferring => 3 | .announcing => 4
def FailCause.code : FailCause → Nat
  | .notDrained => 0 | .custodianAbsent => 1 | .refused => 2 | .noReply => 3 | .undeliverable => 4 | .mismatch => 5
/-- FREE is 0 (spec 04, section 4.1). -/
def TxnState.code : TxnState → Nat
  | .localHeld => 1 | .authWait => 2 | .remoteHeld => 3 | .standinHeld => 4 | .captureWait => 5 | .creditWait => 6
  | .enquireWait => 7
def Mode.code : Mode → Nat
  | .normal => 0 | .busy => 1
def AdviceKind.code : AdviceKind → Nat
  | .standin => 0 | .capture => 1
def CompareStatus.code : CompareStatus → Nat
  | .none => 0 | .pending => 1 | .match => 2 | .brk => 3 | .unconfirmed => 4 | .saturated => 5
def SendStatus.code : SendStatus → Nat
  | .none => 0 | .queued => 1 | .sent => 2 | .undeliverable => 3
/-- The position of a line state in R135's table; that STUCK, which R155 lays over it, stands behind the three is the model's
choice (log 56). -/
def LineState.code : LineState → Nat
  | .off => 0 | .listenOnly => 1 | .active => 2 | .stuck => 3
def Presence.code : Presence → Nat
  | .unknown => 0 | .present => 1 | .quiet => 2 | .absent => 3

end Sys2Proof.Machine
end

