-- ==== Sys2Proof/Machine/Flags.lean ====
section
/-! DEFINITION. What is computed from the state whenever it is read: line state, READY and RESULT, the port status byte,
free slots, available amounts, presence, routing, provisional outstanding, parameter sets. -/
namespace Sys2Proof.Machine

/-! ### Station -/

/-- The station's own address: the latched strap (R181). -/
def State.own (s : State) : Nat := s.sc.straps.address

/-- Blocks take events: not in the supply state WARNED and not in RETAIN (R184). -/
def State.live (s : State) : Bool := s.sc.supply = .normal && s.sc.station ≠ .retain

/-- The station state is JOINED or HANDING-OVER. -/
def State.onLine (s : State) : Bool := s.sc.station = .joined || s.sc.station = .handingOver

/-- The station state is LISTENING, JOINED or HANDING-OVER. -/
def State.hears (s : State) : Bool := s.sc.station = .listening || s.onLine

/-- The station is HANDING-OVER, in any sub-state. -/
def State.handing (s : State) : Bool := s.sc.station = .handingOver

/-- The sub-state of the handover, if one runs. -/
def State.sub (s : State) : Option SubState := s.cu.handover.map (·.sub)

/-! ### Line (R135, R155) -/

/-- The line state that a station state gives (R135). -/
def lineOf : StationState → LineState
  | .halted | .unjoined | .retired | .retain => .off
  | .listening => .listenOnly
  | .joined | .handingOver => .active

/-- The line state, with STUCK laid over it (R155). -/
def State.lineState (s : State) : LineState :=
  if s.lc.stuckSince.isSome && lineOf s.sc.station ≠ .off then .stuck else lineOf s.sc.station

/-- Frames of classes 1 to 3 in a queue. -/
def lowCount (q : List OutFrame) : Nat := (q.filter fun f => 1 ≤ f.msg.cls).length

/-- The outbound queue has room for a frame of this class (R149). -/
def LineCtl.hasRoom (l : LineCtl) (cls : Nat) : Bool :=
  l.outbound.length < Config.outboundPlaces && (cls = 0 || lowCount l.outbound < Config.outboundLow)

/-- A request with this name is on the wait list. -/
def State.waits (s : State) (ticket : Nat) : Bool := s.lc.waitList.any fun f => f.ticket = ticket

/-- A frame of this kind is in the outbound queue or on the wait list. -/
def State.hasOwn (s : State) (kind : Nat) : Bool :=
  s.lc.outbound.any (fun f => f.msg.kind = kind) || s.lc.waitList.any (fun f => f.msg.kind = kind)

/-- A station is in the pause list (R152). -/
def State.pausedBy (s : State) (a : Nat) : Bool := s.lc.pauses.any fun e => e.1 = a

/-- A frame may be started (R150). -/
def State.eligible (s : State) (f : OutFrame) : Bool := f.msg.cls < 2 || !s.pausedBy f.dest

/-! ### Till port -/

/-- A result slot is free (R173). -/
def State.slotFree (s : State) : Bool := s.till.results.length + s.till.reserved < Config.resultSlots

/-- The oldest SETTLED-UNREPORTED advice waits to report (R92). -/
def State.settledWaits (s : State) : Bool := s.au.queue.any fun a => a.state = .settled

/-- Some report source waits for a slot (R175). -/
def State.sourceWaits (s : State) : Bool :=
  !s.till.payouts.isEmpty || s.su.latch.isSome || s.settledWaits || s.br.latch.isSome || s.sc.latch.isSome
    || s.lc.latch.isSome || s.pm.latch.isSome

/-- The READY line (R172, R180, R184). -/
def State.ready (s : State) : Bool := s.live && s.till.requests.length < Config.requestPlaces

/-- The RESULT line (R174, R180, R184). -/
def State.resultLine (s : State) : Bool := s.live && !s.till.results.isEmpty

/-- The port status byte (R171; spec 12, section 12.3); in WARNED and RETAIN no places and no results are shown. -/
def State.portStatus (s : State) : Byte :=
  let places := if s.live then min 3 (Config.requestPlaces - s.till.requests.length) else 0
  let waiting := if s.live then min 3 s.till.results.length else 0
  BitVec.ofNat 8 (places * 64 + waiting * 16 + s.sc.station.code * 2 + if s.till.overrun then 1 else 0)

/-! ### Cards and holds -/

/-- A home whose cards are held here: the own address or an adopted home (R6). -/
def State.isHere (s : State) (home : Nat) : Bool := home = s.own || s.cu.adopted.contains home

/-- The record under a key, in any state (R2). -/
def Custody.record (c : Custody) (k : Key) : Option Card := c.cards.find? fun r => r.key = k

/-- The ACTIVE or CLOSED record under a key (R3, R6). -/
def Custody.served (c : Custody) (k : Key) : Option Card :=
  c.cards.find? fun r => r.key = k && r.state ≠ .pendingAdopt

/-- The held amount of a card (R4). -/
def heldOn (holds : List Hold) (k : Key) : Nat :=
  sumOf (fun h => if h.key = k && h.state = .held && h.kind = .redemption then h.amount else 0) holds

/-- The available amount under a key: 0 unless an ACTIVE record is here (R4, R44). -/
def Custody.available (c : Custody) (k : Key) : Nat :=
  match c.served k with
  | some r => if r.state = .active then r.balance - heldOn c.holds k else 0
  | none => 0

/-- The sum of the ACTIVE balances (R13). -/
def activeSum (cards : List Card) : Nat := sumOf (fun r => if r.state = .active then r.balance else 0) cards

/-- Number of records in a card state. -/
def countState (cards : List Card) (st : CardState) : Nat := (cards.filter fun r => r.state = st).length

/-- The incoming side of the ledger (R14). -/
def Ledger.incoming (l : Ledger) : Nat := l.issued + l.credits + l.adoptedIn

/-- What the ledger limit still allows (R14). -/
def Ledger.headroom (l : Ledger) : Nat := ledgerLimit - l.incoming

/-- A reclaim candidate (R7): CLOSED, or ACTIVE with balance 0 and dormant. -/
def State.reclaimable (s : State) (r : Card) : Bool :=
  r.state = .closed
    || (r.state = .active && r.balance = 0 && r.lastActivity + s.sc.config.dormancy ≤ s.su.openPeriod)

/-- The order of preference among candidates: group, last activity period, serial, home (R7). -/
def reclaimBefore (a b : Card) : Bool :=
  let ga := if a.state = .closed then 0 else 1
  let gb := if b.state = .closed then 0 else 1
  ga < gb || (ga = gb && (a.lastActivity < b.lastActivity
    || (a.lastActivity = b.lastActivity && (a.key.serial < b.key.serial
      || (a.key.serial = b.key.serial && a.key.home < b.key.home)))))

/-- The best of a list of candidates. -/
def bestOf : List Card → Option Card
  | [] => none
  | r :: l => match bestOf l with
    | none => some r
    | some b => if reclaimBefore b r then some b else some r

/-- The record to reclaim, if any (R7). -/
def State.reclaimChoice (s : State) : Option Card := bestOf (s.cu.cards.filter s.reclaimable)

/-- The usable-slot figure (R7). -/
def State.usableSlots (s : State) : Nat :=
  (Config.cardSlots - s.cu.cards.length) + (s.cu.cards.filter s.reclaimable).length

/-! ### Parameter sets (R166) -/

/-- The reply timeout in force, in milliseconds. -/
def State.replyTimeout (s : State) : Nat :=
  match s.pm.mode with
  | .normal => s.sc.config.normalReply
  | .busy => s.sc.config.busyReply

/-- The AUTH, CREDIT and ENQUIRE attempts in force. -/
def State.attempts (s : State) : Nat :=
  match s.pm.mode with
  | .normal => s.sc.config.normalAttempts
  | .busy => s.sc.config.busyAttempts

/-- The per-card stand-in limit in force. -/
def State.cardLimit (s : State) : Nat :=
  match s.pm.mode with
  | .normal => s.sc.config.normalLimit
  | .busy => s.sc.config.busyLimit

/-- The stand-in budget per home in force. -/
def State.budget (s : State) : Nat :=
  match s.pm.mode with
  | .normal => s.sc.config.normalBudget
  | .busy => s.sc.config.busyBudget

/-- The beacon interval in force, in milliseconds: twice the configured one in BUSY. -/
def State.beaconInterval (s : State) : Nat :=
  match s.pm.mode with
  | .normal => s.sc.config.beaconInterval * 1000
  | .busy => s.sc.config.beaconInterval * 2000

/-! ### Peers, routing, outstanding -/

/-- A peer-table entry (R157). -/
def State.peerAt (s : State) (p : Nat) : Peer := Table.get {} s.pm.peers p

/-- Worth sending to: neither ABSENT nor UNKNOWN (spec 09, section 9.2). -/
def Presence.reachable : Presence → Bool
  | .present | .quiet => true
  | .unknown | .absent => false

/-- The station that answers for a home by the home map (R56, R82, R167). -/
def State.custodianOf (s : State) (home : Nat) : Nat :=
  match s.pm.homeMap.find? fun e => e.home = home with
  | some e => e.custodian
  | none => home

/-- The current target of an advice (R82). An advice applied locally has none there; that it counts for the own address in
a PEER result is the model's choice (log 43). -/
def State.targetOf (s : State) (home : Nat) : Nat := if s.isHere home then s.own else s.custodianOf home

/-- The current target of a committed advice: in IN-DELIVERY the station it was last sent to, for it stays IN-DELIVERY with
that one when the target changes (R82). That a settled one counts for where its card's home is now is the model's choice
(log 61). -/
def State.currentTarget (s : State) (a : Advice) : Nat :=
  match a.state, a.lastTarget with
  | .inDelivery, some p => p
  | _, _ => s.targetOf a.card.home

/-- An advice that counts in provisional outstanding (R79). -/
def Advice.counts (a : Advice) : Bool := a.kind = .standin && a.state ≠ .settled

/-- The provisional outstanding over the cards that satisfy `p` (R79). -/
def State.outstandingWhere (s : State) (p : CardNo → Bool) : Nat :=
  sumOf (fun a => if a.counts && p a.card then a.amount else 0) s.au.queue
    + sumOf (fun t => if t.state = .standinHeld && p t.card then t.amount else 0) s.br.txns

/-- The provisional outstanding of a home (R79). -/
def State.outstandingHome (s : State) (home : Nat) : Nat := s.outstandingWhere fun c => c.home = home

/-- The provisional outstanding of a card (R79). -/
def State.outstandingCard (s : State) (k : Key) : Nat := s.outstandingWhere fun c => c.key = k

/-- The stand-in decision of R81. -/
def State.standinGranted (s : State) (card : CardNo) (amount : Nat) : Bool :=
  s.cardLimit ≠ 0 && s.outstandingCard card.key + amount ≤ s.cardLimit
    && s.outstandingHome card.home + amount ≤ s.budget

/-- Places of the advice queue in use (R76). -/
def AdviceUnit.used (a : AdviceUnit) : Nat := a.queue.length + a.reservations

/-! ### Positions -/

/-- A position entry of the open bank (R95). -/
def Settlement.openEntry (u : Settlement) (p : Nat) : PosEntry := Table.get {} u.entries p

/-- NET of an entry (R27). -/
def PosEntry.net (e : PosEntry) : Int := ((e.gr : Int) - e.fr - e.cr) - ((e.gi : Int) - e.fi - e.ci)

/-- Some of the six counts is above 0 (R103). -/
def PosEntry.active (e : PosEntry) : Bool :=
  e.giN != 0 || e.fiN != 0 || e.ciN != 0 || e.grN != 0 || e.frN != 0 || e.crN != 0

/-- No compare is PENDING and no statement is QUEUED (R112). -/
def Closing.finished (c : Closing) : Bool :=
  c.status.all fun e => e.2.compare ≠ .pending && e.2.send ≠ .queued

end Sys2Proof.Machine
end

