-- ==== Sys2Proof/Machine/Queues.lean ====
section
/-! DEFINITION. Shared operations on the result queue and the line's queues: writing a result into its reserved slot,
handing a frame to the Line Controller, placing it, freeing places and granting them (R149 to R151, R173, R174). -/
namespace Sys2Proof.Machine

/-- A record is written into a reserved slot and joins the readable order (R174). -/
def State.answer (s : State) (r : Record) : State :=
  s.setTill { s.till with reserved := s.till.reserved - 1, results := s.till.results ++ [r] }

/-- The contents of this station's BEACON at this moment (R163). That a departing station restarted before it took the proof
of commit lists the adopted homes it has kept (R17, R163; R132 has its beacons list none) is the model's choice (log 59). -/
def State.beaconData (s : State) : BeaconData :=
  let homes := if s.sub = some .announcing then [] else s.cu.adopted
  { period := s.su.openPeriod
    mode := s.pm.mode.code
    handover := if s.handing then 1 else 0
    count := homes.length
    h1 := homes.getD 0 0
    h2 := homes.getD 1 0
    h3 := homes.getD 2 0 }

/-- A BEACON's contents are read when it is placed (R163); every other frame has its contents from its owner. -/
def State.contents (s : State) (m : Msg) : Msg := if m.kind = 14 then .beacon s.beaconData else m

/-- Place a frame in the outbound queue, behind the frames of its class (R150); a PAUSE starts the pause guard (R151). -/
def State.placeFrame (s : State) (f : OutFrame) : State :=
  s.setLc { s.lc with
    outbound := insertBy (fun g => g.msg.cls) { f with msg := s.contents f.msg } s.lc.outbound
    pauseGuard := if f.msg.kind = 15 then some (s.now + s.sc.config.pauseTime) else s.lc.pauseGuard }

/-- The name that the next frame handed will have. -/
def State.ticket (s : State) : Nat := s.lc.nextTicket

/-- Hand a frame to the Line Controller: it is placed if there is room, and else its request joins the wait list (R149). -/
def State.hand (s : State) (dest : Nat) (m : Msg) : State :=
  let f : OutFrame := { ticket := s.ticket, dest, msg := m }
  let s1 := s.setLc { s.lc with nextTicket := s.lc.nextTicket + 1 }
  if s.lc.hasRoom m.cls then s1.placeFrame f
  else s1.setLc { s1.lc with waitList := s1.lc.waitList ++ [f] }

/-- Hand a broadcast frame. -/
def State.broadcast (s : State) (m : Msg) : State := s.hand 255 m

/-- Offer a freed place: to the oldest waiting class 0 request, and if none waits to the oldest of classes 1 to 3 (R149). -/
def State.grant (s : State) : State :=
  match takeFirst (fun f => f.msg.cls = 0) s.lc.waitList with
  | some (f, rest) =>
    if s.lc.hasRoom 0 then (s.setLc { s.lc with waitList := rest }).placeFrame f else s
  | none =>
    match s.lc.waitList with
    | [] => s
    | f :: rest =>
      if s.lc.hasRoom f.msg.cls then (s.setLc { s.lc with waitList := rest }).placeFrame f else s

/-- A frame leaves the outbound queue and its place is offered (R149, R150). -/
def State.removeFrame (s : State) (ticket : Nat) : State :=
  (s.setLc { s.lc with outbound := s.lc.outbound.filter fun f => f.ticket ≠ ticket }).grant

/-- The requests that satisfy `p` leave the wait list, for their operation has ended (R149). -/
def State.dropRequests (s : State) (p : OutFrame → Bool) : State :=
  s.setLc { s.lc with waitList := s.lc.waitList.filter fun f => !p f }

/-- The request of an ended operation leaves the wait list, if it is still there. -/
def State.dropRequest (s : State) : Option Nat → State
  | none => s
  | some t => s.dropRequests fun f => f.ticket = t

/-- Both frame queues are emptied without reports (R135, R156). -/
def State.emptyLine (s : State) : State :=
  s.setLc { s.lc with inbound := [], outbound := [], waitList := [] }

/-- The waiting hold-offs of kind LOCAL clear (R88). -/
def State.clearLocal (s : State) : State :=
  s.setAu { s.au with queue := s.au.queue.map fun a => match a.holdOff with
    | some (.locally _) => { a with holdOff := none }
    | _ => a }

end Sys2Proof.Machine
end

