-- ==== Sys2Proof/Machine/HandoverUnit.lean ====
section
/-! DEFINITION. The departing station's handover: its failure, the offer, the completion (R120, R123, R128 to R130). -/
namespace Sys2Proof.Machine

/-- Replace the handover state. -/
def State.setHandover (s : State) (h : Option Handover) : State := s.setCu { s.cu with handover := h }

/-- The frames of a handover's exchanges: OFFER, CARD-TRANSFER and TRANSFER-END. -/
def isHandoverFrame (f : OutFrame) : Bool := f.msg.kind = 18 || f.msg.kind = 20 || f.msg.kind = 21

/-- The HANDOVER-FAILED record (R130, R189). -/
def handoverFailedRecord (tag : Nat) (cause : FailCause) (refusal : Nat) : Record :=
  { kind := 40, tag, fields := toBytes 1 cause.code ++ toBytes 1 refusal }

/-- The handover fails (R130): ABORT-HANDOVER where due, back to JOINED, the record into the reserved slot, and the
LOCAL hold-offs clear because the state becomes JOINED (R88). -/
def State.failHandover (s : State) (cause : FailCause) (refusal : Nat) : State :=
  match s.cu.handover with
  | none => s
  | some h =>
    let s1 := s.dropRequests isHandoverFrame
    let s2 := if cause = .notDrained then s1 else s1.hand h.custodian .abortHandover
    let s3 := (s2.setHandover none).setSc { s2.sc with station := .joined }
    (s3.answer (handoverFailedRecord h.tag cause refusal)).clearLocal

/-- The ACTIVE records, by home and then serial: the cards of an offer (R120, R123). -/
def State.offered (s : State) : List Card :=
  sortBy (fun r => r.key.home * 16777216 + r.key.serial) (s.cu.cards.filter fun r => r.state = .active)

/-- OFFERING is entered (R120). -/
def State.enterOffering (s : State) : State :=
  match s.cu.handover with
  | none => s
  | some h =>
    let cards := s.cu.cards.filter fun r => r.state = .active
    let count := cards.length
    let total := sumOf (·.balance) cards
    let highest := maxOf (·.balance) cards
    let s1 := s.setHandover (some { h with sub := .offering, count, total, highest, timer := none })
    if (s.peerAt h.custodian).presence.reachable then
      let s2 := s1.hand h.custodian (.offer count total highest h.homes.length (h.homes.getD 0 0) (h.homes.getD 1 0)
        (h.homes.getD 2 0) (h.homes.getD 3 0))
      s2.setHandover (some { h with sub := .offering, count, total, highest, timer := none, ticket := some s.ticket })
    else s1.failHandover .custodianAbsent 0

/-- The Settlement Unit's notice that a round has finished (R113, R119). -/
def State.roundNotice (s : State) (period : Nat) : State :=
  match s.cu.handover with
  | some h => if h.sub = .closing && h.closingPeriod ≤ period then s.enterOffering else s
  | none => s

/-- The HANDED-OVER result (R128, R189). -/
def handedOverRecord (h : Handover) : Record :=
  successRecord .handover h.tag (toBytes 1 h.custodian ++ toBytes 2 h.count ++ toBytes 5 h.total)

/-- The handover completes on proof of commit, and ANNOUNCING is entered (R128, R129). -/
def State.completeHandover (s : State) : State :=
  match s.cu.handover with
  | none => s
  | some h =>
    let s1 := s.dropRequests isHandoverFrame
    let s2 := s1.setCu { s1.cu with
      cards := s1.cu.cards.filter fun r => r.state ≠ .active
      ledger := { s1.cu.ledger with handedOut := s1.cu.ledger.handedOut + h.total } }
    let s3 := (s2.setSc { s2.sc with committedMark := true }).answer (handedOverRecord h)
    let s4 := s3.setHandover (some { h with
      sub := .announcing, timer := none, ending := false, attemptsLeft := 0, ticket := some s3.ticket })
    s4.broadcast (.depart 0)

/-- Proof of commit from `c`: taken while TRANSFER-END toward `c` is outstanding, and else discarded (R128, R164, R168). -/
def State.proofOfCommit (s : State) (c : Nat) : State :=
  match s.cu.handover with
  | some h => if h.sub = .transferring && h.ending && h.custodian = c then s.completeHandover else s
  | none => s

/-- The next attempt of TRANSFER-END is handed (R123). -/
def State.sendTransferEnd (s : State) : State :=
  match s.cu.handover with
  | none => s
  | some h =>
    (s.hand h.custodian (.transferEnd h.count h.total)).setHandover (some { h with
      ending := true, attemptsLeft := h.attemptsLeft - 1, ticket := some s.ticket, timer := none })

/-- The station becomes RETIRED when its DEPART has gone (R129, R135): the hold table is empty from now on, entries still
in retention included (R52), the queues are emptied, STUCK ends, the load windows stop and the beacon timer stops. That the
pause list and the pause guard are left to run out is the model's reading of R135 and R152 (log 58). -/
def State.retire (s : State) : State :=
  let s1 := (s.setCu { s.cu with handover := none, holds := [] }).emptyLine
  let s2 := s1.setSc { s1.sc with station := .retired }
  let s3 := s2.setLc { s2.lc with stuckSince := none, activity := .busy }
  s3.setPm { s3.pm with window := none, windowCount := 0, beaconFrom := none }

end Sys2Proof.Machine
end

