-- ==== Sys2Proof/WellFormed.lean ====
section
/-! DEFINITION. Which command terms stand for an event that the pins and the line can give: operands inside the ranges
of the manual. The machine itself is total on every term. -/
namespace Sys2Proof

/-- Eight address pins and two rate pins (R181). -/
def Straps.wellFormed (p : Straps) : Bool := p.address < 256 && p.rate < 4

/-- Start count 0 to 255, counter 1 to 65,535 (R32). -/
def HoldId.wellFormed (h : HoldId) : Bool := h.start < 256 && 1 ≤ h.counter && h.counter < 65536

/-- A station address, 1 to 239 (spec 00, section 6.2). -/
def stationOk (a : Nat) : Bool := 1 ≤ a && a ≤ 239

/-- A reference, 1 to 65,535 (R54). -/
def referenceOk (r : Nat) : Bool := 1 ≤ r && r ≤ 65535

/-- A rival starts with a class 0 to 3 and a source 1 to 239 (R141). -/
def Contention.wellFormed : Contention → Bool
  | .alone => true
  | .rival cls source => cls < 4 && stationOk source
  | .brokenFlag => true

/-- The longest stuffed part: 374 bits and a stuff bit after every third (spec 08, section 8.2). -/
def levelsOk (bits : List Bool) : Bool := bits.length ≤ 498

/-- The operands of a command are in range. -/
def Instr.wellFormed : Instr → Bool
  | .peek code => code != 1#8 && code != 2#8
  | .restart straps => straps.wellFormed
  | .frameHeard bits => levelsOk bits
  | .frameDiscarded (.levels bits) => levelsOk bits
  | .heardOwn bits => levelsOk bits
  | .busFree _ contention => contention.wellFormed
  | .holdExpiry h => h.wellFormed
  | .retentionEnd h => h.wellFormed
  | .replyTimeout r => referenceOk r
  | .abandonmentTimer r => referenceOk r
  | .adviceReplyTimeout r => referenceOk r
  | .pauseEnd a => stationOk a
  | .quiet a => stationOk a
  | .absent a => stationOk a
  | .supplyReturn straps _ => straps.wellFormed
  | .powerUp straps _ => straps.wellFormed
  | .resetPin straps _ => straps.wellFormed
  | .frameDiscarded .brokenFlag => true
  | .write _ | .read _ | .issue | .balance | .redeem | .complete | .void | .creditRequest | .cashout
  | .closePeriod | .handover | .status | .peer | .readPosition | .readFloat | .configure | .join
  | .badValueRequest | .payout | .adviceSettled | .reportLatchPlaced | .auth | .capture | .release
  | .creditFrame | .enquire | .advice | .authReply | .captureReply | .creditReply | .enquireReply
  | .adviceReply | .statement | .close | .beacon | .depart | .custody | .offer | .offerReply
  | .cardTransfer | .transferEnd | .transferReply | .abortHandover | .sendEnd _ | .clashMismatch | .stuck
  | .stuckEnd | .statementWindow | .drainLimit | .offerReplyTimeout | .transferEndTimeout
  | .adoptionIdleLimit | .pauseGuard | .beaconTimer | .loadWindow | .listenTimer | .supplyWarning
  | .departureLimit => true

end Sys2Proof
end

