-- ==== Sys2Proof/Machine/PeerUnit.lean ====
section
/-! DEFINITION. Shared operations on the peer table and the home map (R157 to R162, R167 to R169). -/
namespace Sys2Proof.Machine

/-- Change one peer-table entry. -/
def State.modifyPeer (s : State) (p : Nat) (f : Peer → Peer) : State :=
  s.setPm { s.pm with peers := Table.modify {} s.pm.peers p f }

/-- A peer becomes ABSENT; the Custody Unit is told, and a handover in OFFERING or TRANSFERRING toward it fails
(R123, R161). -/
def State.makeAbsent (s : State) (p : Nat) : State :=
  if (s.peerAt p).presence = .absent then s
  else
    let s1 := s.modifyPeer p fun e => { e with presence := .absent }
    match s1.cu.handover with
    | some h =>
      if h.custodian = p && (h.sub = .offering || h.sub = .transferring) then s1.failHandover .custodianAbsent 0 else s1
    | none => s1

/-- One failed exchange with a peer (R160). -/
def State.failedExchange (s : State) (p : Nat) : State :=
  let n := min 3 ((s.peerAt p).failed + 1)
  let s1 := s.modifyPeer p fun e => { e with failed := n }
  if n = 3 && (s.peerAt p).presence.reachable then s1.makeAbsent p else s1

/-- The silence test for one peer against the beacon interval in force (R159). -/
def State.silenceTest (s : State) (p : Nat) : State :=
  let e := s.peerAt p
  match e.lastHeard with
  | none => s
  | some t =>
    if e.presence.reachable then
      if t + 10 * s.beaconInterval ≤ s.now then s.makeAbsent p
      else if e.presence = .present && t + 3 * s.beaconInterval ≤ s.now then
        s.modifyPeer p fun e => { e with presence := .quiet }
      else s
    else s

/-- Replace the home map. -/
def State.setHomeMap (s : State) (m : List HomeEntry) : State := s.setPm { s.pm with homeMap := m }

/-- The LEARNED entry to replace in a full map: the oldest learn time, the lowest home among equals (R168). -/
def oldestLearned : List HomeEntry → Option HomeEntry
  | [] => none
  | e :: l => match e.learned, oldestLearned l with
    | none, best => best
    | some _, none => some e
    | some t, some b =>
      let tb := b.learned.getD 0
      if tb < t || (tb = t && b.home < e.home) then some b else some e

/-- A custody statement that `c` is the custodian of `h`, from the frame's source (R168). -/
def State.learn (s : State) (h c source : Nat) : State :=
  if h = s.own then (if c = source then s.proofOfCommit c else s)
  else if s.cu.adopted.contains h || c = s.own || h = c || !stationOk h || !stationOk c then s
  else
    let fresh : HomeEntry := { home := h, custodian := c, learned := some s.now }
    match s.pm.homeMap.find? fun e => e.home = h with
    | some e =>
      if e.learned.isNone then s
      else s.setHomeMap (updateWhere (fun e => e.home = h) (fun _ => fresh) s.pm.homeMap)
    | none =>
      if s.pm.homeMap.length < Config.homeMapSlots then s.setHomeMap (s.pm.homeMap ++ [fresh])
      else match oldestLearned s.pm.homeMap with
        | some o => s.setHomeMap ((s.pm.homeMap.filter fun e => e.home ≠ o.home) ++ [fresh])
        | none => s

end Sys2Proof.Machine
end

