-- ==== Sys2Proof/Machine/SettlementUnit.lean ====
section
/-! DEFINITION. Fees, positions, periods and rounds: the operations of the Settlement Unit (spec 02, spec 06). -/
namespace Sys2Proof.Machine

/-! ### Position entries (R21, R22, R24, R25) -/

/-- A redemption posted here as home (R21). -/
def PosEntry.postHome (e : PosEntry) (amount fee : Nat) : PosEntry :=
  let n := if fee = 0 then 0 else 1
  { e with
    gi := satAdd amountMax e.gi amount
    giN := satAdd countMax e.giN 1
    fi := satAdd amountMax e.fi fee
    fiN := satAdd countMax e.fiN n
    saturated := e.saturated || passes amountMax e.gi amount || passes countMax e.giN 1 || passes amountMax e.fi fee
      || passes countMax e.fiN n }

/-- A credit posted here as home (R22). -/
def PosEntry.creditHome (e : PosEntry) (amount : Nat) : PosEntry :=
  { e with
    ci := satAdd amountMax e.ci amount
    ciN := satAdd countMax e.ciN 1
    saturated := e.saturated || passes amountMax e.ci amount || passes countMax e.ciN 1 }

/-- Figures booked as redeemer (R24). -/
def PosEntry.bookPosting (e : PosEntry) (posted fee : Nat) : PosEntry :=
  let n := if fee = 0 then 0 else 1
  { e with
    gr := satAdd amountMax e.gr posted
    grN := satAdd countMax e.grN 1
    fr := satAdd amountMax e.fr fee
    frN := satAdd countMax e.frN n
    saturated := e.saturated || passes amountMax e.gr posted || passes countMax e.grN 1 || passes amountMax e.fr fee
      || passes countMax e.frN n }

/-- A confirmed credit booked as redeemer (R24). -/
def PosEntry.bookCredit (e : PosEntry) (amount : Nat) : PosEntry :=
  { e with
    cr := satAdd amountMax e.cr amount
    crN := satAdd countMax e.crN 1
    saturated := e.saturated || passes amountMax e.cr amount || passes countMax e.crN 1 }

/-- The late amounts of figures booked late (R102). -/
def PosEntry.bookLate (e : PosEntry) (gross fee credit : Nat) : PosEntry :=
  { e with
    lateGross := satAdd amountMax e.lateGross gross
    lateFee := satAdd amountMax e.lateFee fee
    lateCredit := satAdd amountMax e.lateCredit credit
    saturated := e.saturated || passes amountMax e.lateGross gross || passes amountMax e.lateFee fee
      || passes amountMax e.lateCredit credit }

/-- A short booked as stand-in loss (R90). -/
def PosEntry.bookLoss (e : PosEntry) (short : Nat) : PosEntry :=
  { e with
    standinLoss := satAdd amountMax e.standinLoss short
    saturated := e.saturated || passes amountMax e.standinLoss short }

/-- Change one entry of the open bank. -/
def State.modifyOpen (s : State) (p : Nat) (f : PosEntry → PosEntry) : State :=
  s.setSu { s.su with entries := Table.modify {} s.su.entries p f }

/-- Change the activity counters of the open bank. -/
def State.modifyCounters (s : State) (f : Counters → Counters) : State :=
  s.setSu { s.su with counters := f s.su.counters }

/-! ### The fee computation (R20, R26) -/

/-- The sum S of R20: product plus carried remainder. -/
def feeSum (rate : Nat) (l : Lifetime) (amount : Nat) : Nat := amount * rate + l.remainder

/-- The fee F of R20. -/
def feeOf (rate : Nat) (l : Lifetime) (amount : Nat) : Nat := feeSum rate l amount / 10000

/-- The lifetime record after a fee computation (R20, R26). -/
def Lifetime.charge (l : Lifetime) (rate amount : Nat) : Lifetime :=
  { remainder := feeSum rate l amount % 10000
    gross := satAdd amountMax l.gross amount
    fee := satAdd amountMax l.fee (feeOf rate l amount)
    saturated := l.saturated || passes amountMax l.gross amount || passes amountMax l.fee (feeOf rate l amount) }

/-- A redemption of `amount` above 0 posted at the home for station `p`: the Settlement Unit's part and the figures,
with short 0 (R20, R21, R23, R46). -/
def State.postHome (s : State) (p amount : Nat) : State × Figures :=
  if p = s.own then
    (s.modifyCounters fun c => { c with onUs := satAdd amountMax c.onUs amount },
      { posted := amount, fee := 0, net := amount, short := 0, stamp := s.su.openPeriod })
  else
    let l := Table.get {} s.su.lifetime p
    let fee := feeOf s.sc.config.feeRate l amount
    let s1 := s.setSu { s.su with lifetime := Table.put {} p (l.charge s.sc.config.feeRate amount) s.su.lifetime }
    (s1.modifyOpen p fun e => e.postHome amount fee,
      { posted := amount, fee, net := amount - fee, short := 0, stamp := s.su.openPeriod })

/-! ### The finish of a round (R112 to R115) -/

/-- Number of entries that finish with a compare status. -/
def Closing.countCompare (c : Closing) (st : CompareStatus) : Nat :=
  (c.status.filter fun e => e.2.compare = st).length

/-- The payout figure: the sum of NET less the sum of Fi over the entries without the mark (R28). -/
def payoutFigure (entries : Table PosEntry) : Int :=
  sumInt (fun e => if e.2.saturated then 0 else e.2.net - e.2.fi) entries

/-- The payout advice of a closing bank, its OVERWRITTEN mark clear (R114). -/
def Closing.payout (c : Closing) : Payout where
  period := c.period
  figure := payoutFigure c.entries
  feeOwed := sumOf (fun e => if e.2.saturated then 0 else e.2.fi) c.entries
  saturatedLeftOut := (c.entries.filter fun e => e.2.saturated).length
  issued := c.counters.issued
  cashOuts := c.counters.cashOuts
  onUs := c.counters.onUs
  standinLosses := sumOf (fun e => e.2.standinLoss) c.entries + c.counters.onUsLoss
  lateGross := sumOf (fun e => e.2.lateGross) c.entries
  lateFee := sumOf (fun e => e.2.lateFee) c.entries
  lateCredit := sumOf (fun e => e.2.lateCredit) c.entries
  lateStatements := c.counters.lateStatements
  matched := c.countCompare .match
  broken := c.countCompare .brk
  unconfirmed := c.countCompare .unconfirmed
  saturated := c.countCompare .saturated
  undeliverable := (c.status.filter fun e => e.2.send = .undeliverable).length
  overwritten := false

/-- An advice joins the payout list; in a full list the oldest is removed and the new one is marked (R115). -/
def pushPayout (l : List Payout) (p : Payout) : List Payout :=
  if l.length < Config.payoutPlaces then l ++ [p] else l.drop 1 ++ [{ p with overwritten := true }]

/-- A statement part still waiting for outbound room is dropped, and the statement is no longer handed (R112). -/
def State.dropStatement (s : State) : State :=
  match s.su.sending with
  | none => s
  | some w =>
    let s1 := s.dropRequests fun f => f.ticket = w.partI || f.ticket = w.partR
    s1.setSu { s1.su with sending := none }

/-- A round finishes (R113). -/
def State.finishRound (s : State) : State :=
  match s.su.closing with
  | none => s
  | some c =>
    let s1 := s.setTill { s.till with payouts := pushPayout s.till.payouts c.payout }
    let s2 := s1.dropStatement
    let s3 := s2.setSu { s2.su with closing := none, window := none }
    s3.roundNotice c.period

/-- What the forced finish makes of one entry's statuses (R112). -/
def StatementStatus.force (st : StatementStatus) : StatementStatus :=
  { compare := if st.compare = .pending then .unconfirmed else st.compare
    send := if st.send = .queued then .undeliverable else st.send
    part := if st.compare = .pending then none else st.part }

/-- The forced finish (R112). -/
def State.forcedFinish (s : State) : State :=
  match s.su.closing with
  | none => s
  | some c =>
    (s.setSu { s.su with closing := some { c with status := Table.mapEntries {} (fun _ st => st.force) c.status } }).finishRound

/-! ### Closing a period (R98, R99, R101, R103) -/

/-- The statuses that a copied entry is given (R103). That an entry with the saturated mark and six counts of 0 gets NONE, as
R103's table has it, and not SATURATED, as R25 has it, is the model's choice (log 64). -/
def PosEntry.closeStatus (e : PosEntry) : StatementStatus :=
  if e.active then { compare := if e.saturated then .saturated else .pending, send := .queued } else {}

/-- The closing bank that a close makes of the open bank (R99, R103). -/
def Settlement.toClosing (u : Settlement) : Closing where
  period := u.openPeriod
  entries := u.entries
  status := (u.entries.map fun e => (e.1, e.2.closeStatus)).filter fun e => e.2 ≠ {}
  counters := u.counters

/-- The window timer's instant for a window that starts now (R111). -/
def State.windowEnd (s : State) : Nat := s.now + s.sc.config.statementWindow * 1000

/-- Steps 2 to 4 and 7 of a close: the banks, the open period and the window (R99, R111). -/
def State.rollBanks (s : State) (q : Nat) : State :=
  s.setSu { s.su with
    openPeriod := q
    entries := []
    counters := {}
    closing := some s.su.toClosing
    window := if s.onLine then some s.windowEnd else none }

/-- A close to period `q`, as one event (R99). Its statements are QUEUED here and handed by `settle` (R104). -/
def State.closeTo (s : State) (q : Nat) : State :=
  let s1 := s.forcedFinish
  let s2 := s1.rollBanks q
  let s3 := if s2.onLine then s2.broadcast (.close q) else s2
  let s4 := s3.setPm { s3.pm with
    peers := Table.mapEntries {} (fun _ e => { e with missed := 0, degraded := false }) s3.pm.peers }
  match s4.su.closing with
  | some c => if c.finished then s4.finishRound else s4
  | none => s4

/-- A heard or stamped period closes to it when it is above the open period (R98). -/
def State.catchUp (s : State) (q : Nat) : State := if s.su.openPeriod < q then s.closeTo q else s

/-! ### Booking by stamp at the redeemer (R102) -/

/-- The entry of the closing bank still takes postings of its period: PENDING and QUEUED (R102). -/
def Settlement.closingTakes (u : Settlement) (p stamp : Nat) : Bool :=
  match u.closing with
  | none => false
  | some c =>
    let st := Table.get {} c.status p
    c.period = stamp && st.compare = .pending && st.send = .queued

/-- The status of an entry after a posting in the closing bank: an entry that carries the saturated mark is SATURATED and
no longer compared (R25, R103); that this happens at the posting is the model's reading (log 45). -/
def StatementStatus.afterPosting (st : StatementStatus) (e : PosEntry) : StatementStatus :=
  if e.saturated then { st with compare := .saturated, part := none } else st

/-- Book on one entry of the closing bank. -/
def State.modifyClosing (s : State) (p : Nat) (f : PosEntry → PosEntry) : State :=
  match s.su.closing with
  | none => s
  | some c => s.setSu { s.su with closing := some { c with
      entries := Table.modify {} c.entries p f
      status := Table.modify {} c.status p fun st => st.afterPosting (f (Table.get {} c.entries p)) } }

/-- Book by stamp: `f` on the entry of the bank that the stamp names, with `late` besides in the last case (R102). -/
def State.bookByStamp (s : State) (p stamp : Nat) (f late : PosEntry → PosEntry) : State :=
  if stamp = s.su.openPeriod then s.modifyOpen p f
  else if s.su.closingTakes p stamp then s.modifyClosing p f
  else s.modifyOpen p fun e => late (f e)

/-- Posting figures brought by a reply from station `p`: the close that the stamp triggers, the figures by stamp with
the fee at most the posted amount, and a short as stand-in loss in the open bank (R24, R90, R102). -/
def State.bookFigures (s : State) (p : Nat) (g : Figures) : State :=
  let s1 := s.catchUp g.stamp
  let fee := min g.fee g.posted
  let s2 := if g.posted = 0 then s1
    else s1.bookByStamp p g.stamp (fun e => e.bookPosting g.posted fee) (fun e => e.bookLate g.posted fee 0)
  if g.short = 0 then s2 else s2.modifyOpen p fun e => e.bookLoss g.short

/-- A credit confirmed by station `p` (R24, R73, R102). -/
def State.bookCredit (s : State) (p amount stamp : Nat) : State :=
  (s.catchUp stamp).bookByStamp p stamp (fun e => e.bookCredit amount) (fun e => e.bookLate 0 0 amount)

end Sys2Proof.Machine
end

