-- ==== Sys2Proof/Machine/CustodyUnit.lean ====
section
/-! DEFINITION. Cards, holds and postings at the home: the operations of the Custody Unit that requests, frames and
local advices share (spec 01, spec 03, spec 07 sections 7.3 and 7.4). -/
namespace Sys2Proof.Machine

/-! ### The card register -/

/-- The record after an event that changes its balance (R5). -/
def Card.act (r : Card) (balance period : Nat) : Card :=
  { r with balance, lastActivity := period, activity := min 65535 (r.activity + 1) }

/-- Change the record under a key. -/
def State.modifyCard (s : State) (k : Key) (f : Card → Card) : State :=
  s.setCu { s.cu with cards := updateWhere (fun r => r.key = k) f s.cu.cards }

/-- Change the float ledger. -/
def State.modifyLedger (s : State) (f : Ledger → Ledger) : State :=
  s.setCu { s.cu with ledger := f s.cu.ledger }

/-- A free slot for a new record, reclaiming one if needed; none where there is neither (R7). -/
def State.makeRoom (s : State) : Option State :=
  if s.cu.cards.length < Config.cardSlots then some s
  else match s.reclaimChoice with
    | some r => some (s.setCu { s.cu with cards := s.cu.cards.filter fun x => x.key ≠ r.key })
    | none => none

/-- The serial that an ISSUE allocates (R8). -/
def State.freeSerial (s : State) : Nat :=
  firstFree 99999 (fun n => s.cu.cards.any fun r => r.key = { home := s.own, serial := n })
    (s.cu.cards.length + 1) s.cu.nextSerial

/-- The room of a credit (R11): card cap less balance, or the ledger's headroom if that is smaller. -/
def State.creditRoom (s : State) (r : Card) : Nat := min (s.sc.config.cardCap - r.balance) s.cu.ledger.headroom

/-- The tests of a credit at the home, in their order (R11); none where the credit can be made. -/
def State.creditRefusal (s : State) (k : Key) (amount : Nat) : Option (XStatus × Nat) :=
  match s.cu.served k with
  | none => some (.unknownCard, 0)
  | some r =>
    if r.state = .closed then some (.cardClosed, 0)
    else if s.handing then some (.homeBusy, 0)
    else if s.creditRoom r < amount then some (.overCap, s.creditRoom r)
    else none

/-- A credit at the home (R11): balance, activity, lifetime credits. -/
def State.creditCard (s : State) (k : Key) (amount : Nat) : State :=
  (s.modifyCard k fun r => r.act (r.balance + amount) s.su.openPeriod).modifyLedger fun l =>
    { l with credits := l.credits + amount }

/-- A redemption of `amount` above 0 posted on the card under `k` for station `p`: balance, activity, lifetime
redemptions and the Settlement Unit's part, with the figures (R39, R44, R46). -/
def State.postRedemption (s : State) (p : Nat) (k : Key) (amount : Nat) : State × Figures :=
  let s1 := s.modifyCard k fun r => r.act (r.balance - amount) s.su.openPeriod
  let s2 := s1.modifyLedger fun l => { l with redeemed := l.redeemed + amount }
  s2.postHome p amount

/-! ### The hold table -/

/-- Replace the hold table. -/
def State.setHolds (s : State) (h : List Hold) : State := s.setCu { s.cu with holds := h }

/-- The next hold id (R32). -/
def State.freshHoldId (s : State) : HoldId :=
  { start := s.sc.startCount
    counter := firstFree 65535 (fun n => s.cu.holds.any fun h => h.id.counter = n) (s.cu.holds.length + 1)
      s.cu.holdCounter }

/-- Add an entry under a fresh id, the counter going to the value after it (R32). -/
def State.addHold (s : State) (h : Hold) : State :=
  s.setCu { s.cu with
    holds := s.cu.holds ++ [{ h with id := s.freshHoldId }]
    holdCounter := nextIn 65535 s.freshHoldId.counter }

/-- The hold table is full (R31). -/
def State.holdsFull (s : State) : Bool := Config.holdSlots ≤ s.cu.holds.length

/-- The entry of a requester station and reference (R31). -/
def State.holdFor (s : State) (p reference : Nat) : Option Hold :=
  s.cu.holds.find? fun h => h.station = p && h.reference = reference

/-- The entry that a hold id, requester, reference and key name together (step 1 of R38). -/
def State.holdNamed (s : State) (id : HoldId) (p reference : Nat) (k : Key) : Option Hold :=
  s.cu.holds.find? fun h => h.id = id && h.station = p && h.reference = reference && h.key = k

/-- An entry leaves the hold table, and LOCAL hold-offs clear (R31, R88). -/
def State.removeHold (s : State) (id : HoldId) : State :=
  (s.setHolds (s.cu.holds.filter fun h => h.id ≠ id)).clearLocal

/-- The instant at which retention that starts now ends (R50). -/
def State.retentionEnd (s : State) : Nat := s.now + s.sc.config.retention * 1000

/-- The instant at which a hold placed now expires (R36). -/
def State.holdExpiry (s : State) : Nat := s.now + s.sc.config.holdExpiry * 1000

/-! ### AUTH (R35, R36) -/

/-- The answer to an AUTH: status, hold id and amount of the entry for APPROVED, and the available amount where one is
carried. -/
structure AuthAnswer where
  status : XStatus
  hold : Option HoldId := none
  amount : Nat := 0
  available : Nat := 0
  deriving DecidableEq, Repr

/-- Serve an AUTH for station `p` under a reference (R35, R36, R49). -/
def State.serveAuth (s : State) (p reference : Nat) (k : Key) (amount : Nat) : State × AuthAnswer :=
  match s.holdFor p reference with
  | some h => (s, { status := .approved, hold := some h.id, amount := h.amount, available := s.cu.available k })
  | none =>
    match s.cu.served k with
    | none => (s, { status := .unknownCard })
    | some r =>
      if r.state = .closed then (s, { status := .cardClosed })
      else if s.holdsFull || s.handing then (s, { status := .homeBusy })
      else if s.cu.available k < amount then (s, { status := .insufficient, available := s.cu.available k })
      else
        let s1 := s.addHold { id := s.freshHoldId, kind := .redemption, key := k, amount, station := p, reference,
                              state := .held, timer := s.holdExpiry }
        (s1, { status := .approved, hold := some s.freshHoldId, amount, available := s1.cu.available k })

/-! ### CAPTURE and ADVICE (R38 to R45) -/

/-- The answer to a CAPTURE or an ADVICE: status, posting figures and LATE flag. -/
structure PostAnswer where
  status : XStatus
  figures : Figures := {}
  late : Bool := false
  deriving DecidableEq, Repr

/-- The answer HOME-BUSY, with all figures 0 (R38). -/
def PostAnswer.busy : PostAnswer := { status := .homeBusy }

/-- The answer DUPLICATE from a stored entry (R40, R41, R43). -/
def PostAnswer.repeated (h : Hold) : PostAnswer := { status := .duplicate, figures := h.figures, late := h.late }

/-- The money part of a forced posting of `amount` with `available` on the card: figures, status and short (R44). -/
def State.forcedFigures (s : State) (p : Nat) (k : Key) (amount available : Nat) : State × XStatus × Figures :=
  let posted := min amount available
  if posted = 0 then (s, .notPosted, { short := amount, stamp := s.su.openPeriod })
  else
    let r := s.postRedemption p k posted
    (r.1, if posted = amount then .posted else .postedShort, { r.2 with short := amount - posted })

/-- A forced posting (R44, R45). `known` says that the card number is good and its home is held here; `released` is the
HELD hold that it replaces, already given back. -/
def State.forcedPosting (s : State) (p reference : Nat) (k : Key) (amount : Nat) (known late : Bool)
    (released : Option Hold) : State × PostAnswer :=
  let free := s.setHolds (match released with
    | some h => s.cu.holds.filter fun x => x.id ≠ h.id
    | none => s.cu.holds)
  let available := if known then free.cu.available k else 0
  let r := s.forcedFigures p k amount available
  let entry : Hold :=
    { id := s.freshHoldId, kind := .redemption, key := k, amount, station := p, reference, state := .captured,
      timer := s.retentionEnd, figures := r.2.2, late }
  let s2 := match released with
    | some h => r.1.setHolds (updateWhere (fun x => x.id = h.id) (fun h => { entry with id := h.id }) r.1.cu.holds)
    | none => r.1.addHold entry
  (s2, { status := r.2.1, figures := r.2.2, late })

/-- Serve a request that posts by requester and reference: an ADVICE, or a CAPTURE that no hold id matches (R41, R43,
R45). In HANDING-OVER one for a card of a home held here is HOME-BUSY (R49), and one for any other card number gets its entry
with nothing available, as in every state (R34, R44). That R49 takes in a number of a home held here that has no record is
the model's choice (log 40), and what a number not `known` means where its key matches a hold is another (log 41). -/
def State.servePosting (s : State) (p reference : Nat) (k : Key) (amount : Nat) (known late : Bool) :
    State × PostAnswer :=
  match s.holdFor p reference with
  | some h =>
    if h.state = .captured then (s, .repeated h)
    else if s.handing then (s, .busy)
    else s.forcedPosting p reference k amount known late (some h)
  | none =>
    if s.holdsFull || (known && s.handing) then (s, .busy)
    else s.forcedPosting p reference k amount known late none

/-- An ADVICE: the LATE flag is clear in every ADVICE-REPLY (R43). -/
def State.serveAdvice (s : State) (p reference : Nat) (k : Key) (amount : Nat) (known : Bool) : State × PostAnswer :=
  let r := s.servePosting p reference k amount known false
  (r.1, { r.2 with late := false })

/-- A HELD hold is captured (R39). That the entry keeps the amount of its AUTH is the model's reading of spec 03, section
3.1 (log 42). -/
def State.captureHold (s : State) (h : Hold) (final : Nat) : State × PostAnswer :=
  let posted := min final h.amount
  let r := if posted = 0 then (s, ({ stamp := s.su.openPeriod } : Figures)) else s.postRedemption h.station h.key posted
  (r.1.setHolds (updateWhere (fun x => x.id = h.id)
      (fun x => { x with state := .captured, figures := r.2, late := false, timer := s.retentionEnd }) r.1.cu.holds),
    { status := if posted = 0 then .notPosted else .posted, figures := r.2 })

/-- Serve a CAPTURE for station `p` (R38 to R41). What a bad card number means where its key matches an entry is the
model's choice (log 41). -/
def State.serveCapture (s : State) (p reference : Nat) (k : Key) (id : HoldId) (final : Nat) (known : Bool) :
    State × PostAnswer :=
  match s.holdNamed id p reference k with
  | some h =>
    if h.state = .captured then (s, .repeated h)
    else if known then s.captureHold h final
    else s.servePosting p reference k final known true
  | none => s.servePosting p reference k final known true

/-- Serve a RELEASE (R42). -/
def State.serveRelease (s : State) (p reference : Nat) (k : Key) (id : HoldId) : State :=
  match s.holdNamed id p reference k with
  | some h => if h.state = .held then s.removeHold h.id else s
  | none => s

/-! ### Adoption at the custodian (R121 to R127, R131) -/

/-- Replace the adoption record. -/
def State.setAdoption (s : State) (a : Option Adoption) : State := s.setCu { s.cu with adoption := a }

/-- An open adoption is closed without a commit: its PENDING-ADOPT records go and the last-adoption record is written
(R125, R126, R131). That the record then has the offered count and total is the model's choice (log 53). -/
def State.discardAdoption (s : State) (outcome : AdoptionOutcome) : State :=
  match s.cu.adoption with
  | none => s
  | some a => s.setCu { s.cu with
      cards := s.cu.cards.filter fun r => r.state ≠ .pendingAdopt
      adoption := none
      lastAdoption := some { station := a.station, count := a.count, total := a.total, outcome } }

/-- A CUSTODY notice for each home (R127). -/
def State.announce (s : State) : List Nat → State
  | [] => s
  | h :: l => (s.broadcast (.custody h s.own)).announce l

/-- The commit of an adoption (R127), less its reply. -/
def State.commitAdoption (s : State) (a : Adoption) : State :=
  let s1 := s.setCu { s.cu with
    cards := updateWhere (fun r => r.state = .pendingAdopt) (fun r => { r with state := .active }) s.cu.cards
    adopted := s.cu.adopted ++ a.homes
    ledger := { s.cu.ledger with adoptedIn := s.cu.ledger.adoptedIn + a.total }
    adoption := none
    lastAdoption := some { station := a.station, count := a.count, total := a.total, outcome := .commit } }
  let s2 := s1.setHomeMap (s1.pm.homeMap.filter fun e => !a.homes.contains e.home)
  s2.announce a.homes

end Sys2Proof.Machine
end

