-- ==== Sys2Proof/Machine/AdviceUnit.lean ====
section
/-! DEFINITION. Advices: commitment, sending, local application, failure and settlement (spec 05). -/
namespace Sys2Proof.Machine

/-- Replace the advice queue. -/
def State.setQueue (s : State) (q : List Advice) : State := s.setAu { s.au with queue := q }

/-- Change the advice with a requester reference. -/
def State.modifyAdvice (s : State) (reference : Nat) (f : Advice → Advice) : State :=
  s.setQueue (updateWhere (fun a => a.reference = reference) f s.au.queue)

/-- The advice with a requester reference. -/
def State.adviceFor (s : State) (reference : Nat) : Option Advice :=
  s.au.queue.find? fun a => a.reference = reference

/-- A reservation is taken (R77). -/
def State.reserve (s : State) : State := s.setAu { s.au with reservations := s.au.reservations + 1 }

/-- A reservation returns to the free places (R77). -/
def State.releaseReservation (s : State) : State := s.setAu { s.au with reservations := s.au.reservations - 1 }

/-- A transaction's reservation becomes a committed advice at the tail of the queue (R78). -/
def State.commitAdvice (s : State) (kind : AdviceKind) (t : Txn) : State :=
  s.setAu { s.au with
    reservations := s.au.reservations - 1
    queue := s.au.queue ++ [{ kind, card := t.card, amount := t.amount, reference := t.reference,
                              hold := if kind = .capture then t.hold else none }] }

/-- The hold-off does not hold the advice back from target `t` (R83). -/
def Advice.mayGo (a : Advice) (t : Nat) : Bool :=
  match a.holdOff with
  | none => true
  | some (.frame x) | some (.beacon x) | some (.locally x) => x ≠ t

/-- The oldest WAITING advice whose current target is `t` (R83). -/
def State.oldestFor (s : State) (t : Nat) : Option Advice :=
  s.au.queue.find? fun a => a.state = .waiting && s.targetOf a.card.home = t

/-- An advice may be sent now (R83); an advice for a home held here is applied locally instead (R88). -/
def State.maySend (s : State) (a : Advice) : Bool :=
  let t := s.targetOf a.card.home
  a.state = .waiting && s.onLine && !s.isHere a.card.home && (s.peerAt t).presence = .present && !s.pausedBy t
    && !(s.au.queue.any fun b => b.state = .inDelivery && b.lastTarget = some t) && a.mayGo t
    && (s.oldestFor t).map (·.reference) = some a.reference

/-- The ADVICE frame of an advice (R84; spec 12, section 12.2: hold id 0 for STANDIN). -/
def Advice.msg (a : Advice) : Msg :=
  .advice a.card a.amount a.reference a.kind.code (a.hold.getD { start := 0, counter := 0 })

/-- An advice is sent (R84). -/
def State.sendAdvice (s : State) (a : Advice) : State :=
  let t := s.targetOf a.card.home
  (s.hand t a.msg).modifyAdvice a.reference fun a =>
    { a with state := .inDelivery, lastTarget := some t, holdOff := none, ticket := some s.ticket, timer := none }

/-- An advice goes back to WAITING with a hold-off (R85, R86). -/
def Advice.back (a : Advice) (h : HoldOff) : Advice :=
  { a with state := .waiting, holdOff := some h, ticket := none, timer := none }

/-- An attempt to deliver an advice fails (R85). -/
def State.failAdvice (s : State) (a : Advice) : State :=
  let t := a.lastTarget.getD 0
  (s.modifyAdvice a.reference fun a => a.back (.frame t)).failedExchange t

/-- Steps 3 and 4 of R90: the advice becomes SETTLED-UNREPORTED with its figures, and a send that still waits for room
is dropped (R89, R91). -/
def State.markSettled (s : State) (a : Advice) (g : Settled) : State :=
  (s.dropRequest a.ticket).modifyAdvice a.reference fun a =>
    { a with state := .settled, settled := some g, holdOff := none, ticket := none, timer := none }

/-- A reply from another station settles an advice (R90). -/
def State.settleAdvice (s : State) (a : Advice) (g : Settled) : State :=
  (s.bookFigures g.station g.figures).markSettled a g

/-- An advice may be applied locally now (R88). -/
def State.mayApply (s : State) (a : Advice) : Bool :=
  a.state = .waiting && s.onLine && s.isHere a.card.home && a.mayGo s.own

/-- Local application of an advice (R88). -/
def State.applyAdvice (s : State) (a : Advice) : State :=
  let r := s.serveAdvice s.own a.reference a.card.key a.amount true
  if r.2.status = .homeBusy then r.1.modifyAdvice a.reference fun a => a.back (.locally s.own)
  else
    let s1 := r.1.modifyCounters fun c => { c with onUsLoss := satAdd amountMax c.onUsLoss r.2.figures.short }
    s1.markSettled a { status := r.2.status.code, figures := r.2.figures, station := s.own, late := false }

end Sys2Proof.Machine
end

