-- ==== Sys2Proof/Machine/BrokerUnit.lean ====
section
/-! DEFINITION. Transactions: opening, attempts, exhaustion, stand-in, voiding (spec 04). -/
namespace Sys2Proof.Machine

/-- Replace the transaction table. -/
def State.setTxns (s : State) (t : List Txn) : State := s.setBr { s.br with txns := t }

/-- The transaction with a reference. -/
def State.txnFor (s : State) (reference : Nat) : Option Txn := s.br.txns.find? fun t => t.reference = reference

/-- Change the transaction with a reference. -/
def State.modifyTxn (s : State) (reference : Nat) (f : Txn → Txn) : State :=
  s.setTxns (updateWhere (fun t => t.reference = reference) f s.br.txns)

/-- A slot returns to FREE; a request frame still waiting for room is dropped with its operation (R53, R149). -/
def State.freeTxn (s : State) (t : Txn) : State :=
  let s1 := s.dropRequest t.ticket
  s1.setTxns (s1.br.txns.filter fun x => x.reference ≠ t.reference)

/-- A FREE slot (R53). -/
def State.slotForTxn (s : State) : Bool := s.br.txns.length < Config.txnSlots

/-- The reference for a new transaction (R54). -/
def State.freshReference (s : State) : Nat :=
  firstFree 65535
    (fun n => s.br.txns.any (fun t => t.reference = n) || s.au.queue.any (fun a => a.reference = n))
    (s.br.txns.length + s.au.queue.length + 1) s.br.refCounter

/-- The reference counter moves past a reference given (R54). -/
def State.takeReference (s : State) : State :=
  s.setBr { s.br with refCounter := nextIn 65535 s.freshReference }

/-- A new transaction with the parameter set in force (R55). -/
def State.newTxn (s : State) (tag : Nat) (kind : TxnKind) (card : CardNo) (amount : Nat) (target : Option Nat)
    (state : TxnState) : Txn :=
  { reference := s.freshReference, tag, kind, card, amount, approved := amount, target, mode := s.pm.mode,
    replyTimeout := s.replyTimeout, attempts := s.attempts, state }

/-- A transaction takes a slot. -/
def State.openTxn (s : State) (t : Txn) : State :=
  let s1 := s.takeReference
  s1.setTxns (s1.br.txns ++ [t])

/-- The station of a remote transaction. -/
def Txn.station (t : Txn) : Nat := t.target.getD 0

/-- The hold id a transaction quotes. -/
def Txn.holdId (t : Txn) : HoldId := t.hold.getD { start := 0, counter := 0 }

/-- The abandonment instant of a transaction that starts to wait for the till now (R72). -/
def State.abandonAt (s : State) : Nat := s.now + s.sc.config.holdExpiry * 1000

/-- The request frame of a transaction's exchange, by its state (R59, R66, R73, R74). -/
def Txn.msg (t : Txn) : Option Msg :=
  match t.state with
  | .authWait => some (.auth t.card t.amount t.reference)
  | .captureWait => some (.capture t.card t.holdId t.reference t.amount)
  | .creditWait => some (.credit t.card t.amount t.reference)
  | .enquireWait => some (.enquire t.card t.reference)
  | .localHeld | .remoteHeld | .standinHeld => none

/-- One attempt of a transaction's exchange (R60, step 1). -/
def State.sendAttempt (s : State) (t : Txn) : State :=
  match t.msg with
  | none => s
  | some m => (s.hand t.station m).modifyTxn t.reference fun t =>
      { t with attemptsLeft := t.attemptsLeft - 1, ticket := some s.ticket, timer := none }

/-- The attempts a new exchange with a peer starts with: 1 if it is DEGRADED (R59, R73, R74, R162). -/
def State.startAttempts (s : State) (t : Txn) : Nat := if (s.peerAt t.station).degraded then 1 else t.attempts

/-! ### Results -/

/-- The APPROVED result of a REDEEM (R58, R62, R63, R189). -/
def approvedRecord (t : Txn) (standin : Bool) (available : Nat) : Record :=
  successRecord .redeem t.tag (toBytes 2 t.reference ++ toBytes 4 t.amount
    ++ toBytes 1 (resultFlags standin false false) ++ toBytes 4 available)

/-- A COMPLETED result with figures (R65, R67, R189). -/
def completedRecord (t : Txn) (g : Figures) (late : Bool) : Record :=
  successRecord .complete t.tag (toBytes 2 t.reference ++ toBytes 1 (resultFlags false false late)
    ++ toBytes 4 g.posted ++ toBytes 4 g.fee ++ toBytes 4 g.net ++ toBytes 4 g.short ++ toBytes 4 g.stamp)

/-- A COMPLETED result with the PENDING flag (R68, R70, R189). -/
def pendingRecord (t : Txn) : Record :=
  successRecord .complete t.tag (toBytes 2 t.reference ++ toBytes 1 (resultFlags false true false))

/-- The request kind whose result a transaction's exchange still owes. -/
def Txn.resultKind (t : Txn) : ReqKind :=
  match t.state with
  | .authWait | .localHeld | .remoteHeld | .standinHeld => .redeem
  | .captureWait => .complete
  | .creditWait => .credit
  | .enquireWait => .balance

/-- The transaction ends with a DECLINED result. -/
def State.declineTxn (s : State) (t : Txn) (reason : Reason) (carried : Nat := 0) : State :=
  (s.freeTxn t).answer (declinedRecord t.resultKind t.tag reason carried)

/-! ### Stand-in and exhaustion -/

/-- The stand-in decision for a REDEEM (R63, R81). -/
def State.standIn (s : State) (t : Txn) : State :=
  if s.standinGranted t.card t.amount then
    (s.modifyTxn t.reference fun t =>
      { t with state := .standinHeld, hold := none, ticket := none, timer := some s.abandonAt }).answer
      (approvedRecord t true 0)
  else (s.declineTxn t .homeUnreachable).releaseReservation

/-- A capture ends without a usable reply: its reservation becomes a CAPTURE advice (R68). -/
def State.captureToAdvice (s : State) (t : Txn) : State :=
  ((s.freeTxn t).commitAdvice .capture t).answer (pendingRecord t)

/-- The attempts of a transaction's exchange are exhausted (R63, R68, R73, R74). -/
def State.exhausted (s : State) (t : Txn) : State :=
  match t.state with
  | .authWait => s.standIn t
  | .captureWait => s.captureToAdvice t
  | .creditWait | .enquireWait => s.declineTxn t .homeUnreachable
  | .localHeld | .remoteHeld | .standinHeld => s

/-- An attempt fails (R60): one failed exchange, then the next attempt or exhaustion. -/
def State.failAttempt (s : State) (t : Txn) : State :=
  let s1 := (s.modifyTxn t.reference fun t => { t with ticket := none, timer := none }).failedExchange t.station
  let t1 := { t with ticket := none, timer := none }
  if 0 < t.attemptsLeft && (s1.peerAt t.station).presence.reachable then s1.sendAttempt t1 else s1.exhausted t1

/-! ### Voiding (R71, R72) -/

/-- The ABANDONED report: the reference, the amount that was approved, and the state (R72, R189). -/
def abandonedRecord (t : Txn) : Record :=
  { kind := 35, tag := t.tag, fields := toBytes 2 t.reference ++ toBytes 4 t.approved ++ toBytes 1 t.state.code }

/-- The end of a void: the slot is FREE, and the till gets VOIDED, or an ABANDONED report where the timer made it. -/
def State.endVoid (s : State) (t : Txn) (abandoned : Bool) : State :=
  let s1 := s.setTxns (s.br.txns.filter fun x => x.reference ≠ t.reference)
  let s2 := if t.state = .localHeld then s1 else s1.releaseReservation
  if abandoned then s2.setBr { s2.br with latch := some (abandonedRecord t) }
  else s2.answer (successRecord .void t.tag (toBytes 2 t.reference))

/-- The RELEASE frame of a transaction (R71). -/
def Txn.releaseMsg (t : Txn) : Msg := .release t.card t.holdId t.reference

/-- A transaction that waits for the till is voided (R71). -/
def State.voidTxn (s : State) (t : Txn) (abandoned : Bool) : State :=
  match t.state with
  | .localHeld => (s.serveRelease s.own t.reference t.card.key t.holdId).endVoid t abandoned
  | .remoteHeld =>
    let s1 := s.hand t.station t.releaseMsg
    if s1.waits s.ticket then
      s1.modifyTxn t.reference fun t => { t with voiding := some (s.ticket, abandoned), timer := none }
    else s1.endVoid t abandoned
  | .standinHeld => s.endVoid t abandoned
  | .authWait | .captureWait | .creditWait | .enquireWait => s

end Sys2Proof.Machine
end

