-- ==== Sys2Proof/Machine/Settle.lean ====
section
/-! DEFINITION. What a step brings about "as soon as these conditions come to hold" (R83), in one fixed order (log 17):
a void whose RELEASE has its place (R71), a statement whose parts have theirs (R104), the drain (R118), the finish of a
round (R112), the card transfers (R123), local application (R88), advice sends (R83), statements (R104). -/
namespace Sys2Proof.Machine

/-- A waiting void whose RELEASE frame has been placed ends (R71, R72). -/
def State.reactVoid (s : State) : Option State :=
  match s.br.txns.find? fun t => match t.voiding with
    | some v => !s.waits v.1
    | none => false with
  | some t => some (s.endVoid t (match t.voiding with
    | some v => v.2
    | none => false))
  | none => none

/-- A statement whose two parts have their places becomes SENT (R104). -/
def State.reactStatementPlaced (s : State) : Option State :=
  match s.su.sending with
  | none => none
  | some w =>
    if s.waits w.partI || s.waits w.partR then none
    else
      let s1 := s.setSu { s.su with sending := none }
      match s.su.closing with
      | none => some s1
      | some c => some (s1.setSu { s1.su with closing := some { c with
          status := Table.modify {} c.status w.peer fun st =>
            if st.send = .queued then { st with send := .sent } else st } })

/-- The drain holds (R118). -/
def State.drained (s : State) : Bool := !(s.cu.holds.any fun h => h.state = .held) && s.au.used = 0

/-- DRAINING ends and CLOSING is entered with its close (R118, R119). Where a heard period has taken the open period to
its largest value meanwhile, no close can be formed (R98, log 38). -/
def State.reactDrain (s : State) : Option State :=
  match s.cu.handover with
  | none => none
  | some h =>
    if h.sub = .draining && s.drained then
      let s1 := s.setHandover (some { h with sub := .closing, timer := none, closingPeriod := s.su.openPeriod })
      some (if s.su.openPeriod < periodMax then s1.closeTo (s.su.openPeriod + 1) else s1)
    else none

/-- A round with nothing PENDING and nothing QUEUED finishes (R112). -/
def State.reactRound (s : State) : Option State :=
  match s.su.closing with
  | none => none
  | some c => if c.finished then some s.finishRound else none

/-- The next CARD-TRANSFER is handed once the one before has its place; when all are acknowledged TRANSFER-END is
handed (R123). -/
def State.reactTransfer (s : State) : Option State :=
  match s.cu.handover with
  | none => none
  | some h =>
    if h.sub = .transferring && !h.ending then
      match h.toSend with
      | r :: rest =>
        if h.unacked.any s.waits then none
        else some ((s.hand h.custodian (.cardTransfer r.key.home r.key.serial r.balance r.issuePeriod r.lastActivity
          r.activity)).setHandover (some { h with toSend := rest, unacked := h.unacked ++ [s.ticket] }))
      | [] => if h.unacked.isEmpty then some s.sendTransferEnd else none
    else none

/-- The oldest advice that may be applied locally is applied (R88). -/
def State.reactApply (s : State) : Option State :=
  match s.au.queue.find? s.mayApply with
  | some a => some (s.applyAdvice a)
  | none => none

/-- The oldest advice that may be sent is sent (R83). -/
def State.reactSend (s : State) : Option State :=
  match s.au.queue.find? s.maySend with
  | some a => some (s.sendAdvice a)
  | none => none

/-- The QUEUED entry with the lowest peer address whose peer is PRESENT or QUIET (R104). -/
def State.nextStatement (s : State) (c : Closing) : Option Nat :=
  (c.status.find? fun e => e.2.send = .queued && (s.peerAt e.1).presence.reachable).map (·.1)

/-- Part I and part R of a statement (R104). -/
def statementMsgs (period : Nat) (e : PosEntry) : Msg × Msg :=
  let mark := if e.saturated then 1 else 0
  (.statement 0 period e.gi e.fi e.ci e.giN e.fiN e.ciN mark, .statement 1 period e.gr e.fr e.cr e.grN e.frN e.crN mark)

/-- The next statement is handed (R104). -/
def State.reactStatement (s : State) : Option State :=
  match s.su.closing, s.su.sending with
  | some c, none =>
    if s.onLine then
      match s.nextStatement c with
      | some p =>
        let m := statementMsgs c.period (Table.get {} c.entries p)
        let s1 := s.hand p m.1
        let s2 := s1.hand p m.2
        some (s2.setSu { s2.su with sending := some { peer := p, partI := s.ticket, partR := s1.ticket } })
      | none => none
    else none
  | _, _ => none

/-- The first thing that is due. -/
def State.react (s : State) : Option State :=
  s.reactVoid <|> s.reactStatementPlaced <|> s.reactDrain <|> s.reactRound <|> s.reactTransfer <|> s.reactApply
    <|> s.reactSend <|> s.reactStatement

/-- Do what is due until nothing is, `fuel` times at most. -/
def settleWith : Nat → State → State
  | 0, s => s
  | fuel + 1, s => match s.react with
    | some t => settleWith fuel t
    | none => s

/-- Do what is due. One event makes far fewer than 4,096 things due (log 17): at most 16 voids, 64 advices, 239
statements with two things each, 6,144 transfers of which the queue takes 19 in one event, and one run of a handover. -/
def State.settle (s : State) : State := settleWith 4096 s

/-- A step's event: it takes place only while blocks take events (R184). -/
def State.event (s : State) (f : State → State) : State := if s.live then f s else s

end Sys2Proof.Machine
end

