-- ==== Sys2Proof/Machine/Till.lean ====
section
/-! DEFINITION. The till port (spec 10, sections 10.1 to 10.4): transfers, intake, and the steps that give a free result
slot to a report source. -/
namespace Sys2Proof.Machine

/-! ### Transfers (R171, R172, R174) -/

/-- The bytes of a transfer, the status byte first (R171). -/
def State.clockOut (s : State) (bytes : List Byte) : State :=
  s.setTill { s.till with clockedOut := s.portStatus :: bytes }

/-- The filler bytes of `n` byte times (log 8). -/
def fillers : Nat → List Byte
  | 0 => []
  | n + 1 => fillers n ++ [Config.fillerByte n]

/-- The request record that the bytes of a WRITE hold, if it was clocked in whole (R172, R189). -/
def Request.ofBytes : List Byte → Option Request
  | kind :: tag :: length :: fields =>
    if length.toNat ≤ fields.length then
      some { kind := kind.toNat, tag := tag.toNat, fields := fields.take length.toNat }
    else none
  | _ => none

/-- A written record joins the queue, or is dropped with the overrun mark (R172). -/
def State.takeWritten (s : State) : Option Request → State
  | none => s
  | some r =>
    if s.till.requests.length < Config.requestPlaces then
      s.setTill { s.till with requests := s.till.requests ++ [r] }
    else s.setTill { s.till with overrun := true }

/-- A WRITE transfer ends (R171, R172); in WARNED and RETAIN the record is discarded and nothing follows the status
byte (R180, R184). -/
def execWrite (bytes : List Byte) (s : State) : Host.Outcome State Fault Refusal :=
  .next (if s.live then (s.clockOut (fillers bytes.length)).takeWritten (Request.ofBytes bytes) else s.clockOut [])

/-- The record a READ clocks out (R171). -/
def State.oldestResult (s : State) : Record := s.till.results.head?.getD Record.empty

/-- The end of a READ that clocked out `n` bytes after the status byte: a record clocked out whole leaves, and an
overrun mark that the status byte showed clears (R172, R174). -/
def State.endRead (s : State) (n : Nat) : State :=
  s.setTill { s.till with
    results := if s.oldestResult.bytes.length ≤ n then s.till.results.drop 1 else s.till.results
    overrun := false }

/-- A READ transfer (R171, R174). -/
def execRead (n : Nat) (s : State) : Host.Outcome State Fault Refusal :=
  .next (if s.live then
      (s.clockOut (s.oldestResult.bytes.take n ++ fillers (n - s.oldestResult.bytes.length))).endRead n
    else s.clockOut [])

/-- A PEEK transfer, or one with an unknown code (R171). -/
def execPeek (_code : Byte) (s : State) : Host.Outcome State Fault Refusal := .next (s.clockOut [])

/-! ### Intake (R173, R176) -/

/-- The head record of the request queue can be taken: a slot is free and no report source waits (R173). -/
def State.intakeOpen (s : State) : Bool := s.live && s.slotFree && !s.sourceWaits

/-- Intake takes the head record and reserves its slot (R173). -/
def State.popRequest (s : State) (rest : List Request) : State :=
  s.setTill { s.till with requests := rest, reserved := s.till.reserved + 1 }

/-- Intake of a request of kind `k`: the head record is taken if it is one, is refused WRONG-STATE by the table of R176
before any test of R1 (log 39), or handed to its owner. Where no such record can be taken the step cannot occur, and
nothing changes (log 3). -/
def State.intake (s : State) (k : ReqKind) (serve : State → Request → State) : State :=
  match s.till.requests with
  | [] => s
  | r :: rest =>
    if s.intakeOpen && r.kind? = some k then
      let s1 := s.popRequest rest
      if k.served s.sc.station then serve s1 r else s1.answer (declinedRecord k r.tag .wrongState)
    else s

/-- A record of an unknown kind or an unsuitable length is refused BAD-VALUE at intake (R176). -/
def execBadValueRequest (s : State) : Host.Outcome State Fault Refusal :=
  .next (match s.till.requests with
    | [] => s
    | r :: rest =>
      if s.intakeOpen && r.kind? = none then
        (s.popRequest rest).answer (declinedCode r.kind r.tag Reason.badValue.code 0)
      else s)

/-! ### Report records (R189) -/

/-- The PAYOUT report (R115, R189). -/
def payoutRecord (p : Payout) : Record :=
  { kind := 32
    fields := toBytes 4 p.period ++ toSignedBytes 8 p.figure ++ toBytes 8 p.feeOwed ++ toBytes 1 p.saturatedLeftOut
      ++ toBytes 5 p.issued ++ toBytes 5 p.cashOuts ++ toBytes 5 p.onUs ++ toBytes 8 p.standinLosses
      ++ toBytes 8 p.lateGross ++ toBytes 8 p.lateFee ++ toBytes 8 p.lateCredit ++ toBytes 3 p.lateStatements
      ++ toBytes 1 p.matched ++ toBytes 1 p.broken ++ toBytes 1 p.unconfirmed ++ toBytes 1 p.saturated
      ++ toBytes 1 p.undeliverable ++ markByte p.overwritten }

/-- The ADVICE-SETTLED report (R92, R189). -/
def adviceSettledRecord (a : Advice) (g : Settled) : Record :=
  { kind := 34
    fields := toBytes 2 a.reference ++ toBytes 1 a.kind.code ++ cardToTill a.card ++ toBytes 4 a.amount
      ++ toBytes 1 g.status ++ toBytes 4 g.figures.posted ++ toBytes 4 g.figures.fee ++ toBytes 4 g.figures.net
      ++ toBytes 4 g.figures.short ++ toBytes 4 g.figures.stamp ++ toBytes 1 g.station
      ++ toBytes 1 (resultFlags false false g.late) }

/-- A report is placed in a free slot and joins the readable order (R174, R175). -/
def State.placeReport (s : State) (r : Record) : State :=
  s.setTill { s.till with results := s.till.results ++ [r] }

/-! ### Slots for reports (R175) -/

/-- The payout list is given a free slot (R115, R175). That its advice leaves the retained list in HALTED too, beside R181, is
the model's choice (log 67). -/
def execPayout (s : State) : Host.Outcome State Fault Refusal :=
  .next (match s.till.payouts with
    | [] => s
    | p :: rest =>
      if s.live && s.slotFree then (s.setTill { s.till with payouts := rest }).placeReport (payoutRecord p) else s)

/-- The report of a settled advice, and the advice leaves the queue (R92). -/
def State.reportAdvice (s : State) (a : Advice) (rest : List Advice) : State :=
  (s.setQueue rest).placeReport (adviceSettledRecord a
    (a.settled.getD { status := 0, figures := {}, station := 0, late := false }))

/-- The advice queue is given a free slot: the payout list and the Settlement Unit's latch come before it (R92, R175).
That the advice leaves the retained queue in HALTED too (R93), beside R181, is the model's choice (log 67). -/
def execAdviceSettled (s : State) : Host.Outcome State Fault Refusal :=
  .next (match takeFirst (fun a => a.state = .settled) s.au.queue with
    | none => s
    | some (a, rest) =>
      if s.live && s.slotFree && s.till.payouts.isEmpty && s.su.latch.isNone then (s.reportAdvice a rest).settle else s)

/-- The first waiting source after the payout list, if it is a latch: its report, and the state with that latch empty.
The order is Settlement Unit, advice queue (no latch), Request Broker, Station Controller, Line Controller, Peer Monitor
(R175). A CLASH report placed starts the clash count again at 0 (R146). -/
def State.firstLatch (s : State) : Option (Record × State) :=
  match s.su.latch with
  | some r => some (r, s.setSu { s.su with latch := none })
  | none =>
    if s.settledWaits then none
    else match s.br.latch with
      | some r => some (r, s.setBr { s.br with latch := none })
      | none => match s.sc.latch with
        | some r => some (r, s.setSc { s.sc with latch := none })
        | none => match s.lc.latch with
          | some r => some (r, s.setLc { s.lc with
              latch := none, clashes := if r.kind = 38 then 0 else s.lc.clashes })
          | none => match s.pm.latch with
            | some r => some (r, s.setPm { s.pm with latch := none })
            | none => none

/-- A report latch is given a free slot (R175). -/
def execReportLatchPlaced (s : State) : Host.Outcome State Fault Refusal :=
  .next (match s.firstLatch with
    | none => s
    | some (r, s1) => if s.live && s.slotFree && s.till.payouts.isEmpty then s1.placeReport r else s)

end Sys2Proof.Machine
end

