-- ==== Sys2Proof/Machine/CardRequests.lean ====
section
/-! DEFINITION. The till's card requests (spec 01, section 1.4; spec 04): ISSUE, BALANCE, REDEEM, COMPLETE, VOID,
CREDIT, CASHOUT. -/
namespace Sys2Proof.Machine

/-- A request is refused (R173). -/
def State.decline (s : State) (k : ReqKind) (r : Request) (reason : Reason) (carried : Nat := 0) : State :=
  s.answer (declinedRecord k r.tag reason carried)

/-! ### ISSUE (R9) -/

/-- The new record, the serial, the ledger and the period's issued amount (R8, R9, R97); `s` has a free slot. -/
def State.issueCard (s : State) (amount : Nat) : State :=
  let serial := s.freeSerial
  let s1 := s.setCu { s.cu with
    cards := s.cu.cards ++ [{ key := { home := s.own, serial }, state := .active, balance := amount,
                              issuePeriod := s.su.openPeriod, lastActivity := s.su.openPeriod, activity := 1 }]
    nextSerial := nextIn 99999 serial
    ledger := { s.cu.ledger with issued := s.cu.ledger.issued + amount } }
  s1.modifyCounters fun c => { c with issued := satAdd amountMax c.issued amount }

/-- The slots promised to an open adoption leave none for an ISSUE (R122). -/
def State.slotsPromised (s : State) : Bool :=
  match s.cu.adoption with
  | some a => s.usableSlots ≤ a.toCome
  | none => false

/-- An ISSUE served (R9, R122). -/
def State.serveIssue (s : State) (r : Request) : State :=
  let amount := fieldAt r.fields 0 4
  if amount = 0 || s.sc.config.cardCap < amount || s.cu.ledger.headroom < amount then s.decline .issue r .badValue
  else if s.slotsPromised then s.decline .issue r .registerFull
  else match s.makeRoom with
    | none => s.decline .issue r .registerFull
    | some s1 => (s1.issueCard amount).answer (successRecord .issue r.tag
        (cardToTill (CardNo.make s.own s1.freeSerial) ++ toBytes 4 amount))

def execIssue (s : State) : Host.Outcome State Fault Refusal := .next (s.intake .issue State.serveIssue)

/-! ### Remote exchanges (R59, R73, R74) -/

/-- A transaction is opened in an exchange's WAIT state and its first attempt is made (R59, R60). -/
def State.openExchange (s : State) (t : Txn) : State :=
  (s.openTxn { t with attemptsLeft := s.startAttempts t }).sendAttempt t

/-- A CREDIT or an enquiry for another station's card, after the card number test (R73, R74). -/
def State.serveRemote (s : State) (k : ReqKind) (r : Request) (kind : TxnKind) (card : CardNo) (amount : Nat)
    (state : TxnState) : State :=
  if !s.slotForTxn then s.decline k r .noSlot
  else
    let t := s.newTxn r.tag kind card amount (some (s.custodianOf card.home)) state
    if (s.peerAt t.station).presence.reachable then s.openExchange t
    else s.takeReference.decline k r .homeUnreachable

/-! ### BALANCE (R10, R74) -/

/-- The local answer to a BALANCE (R10). -/
def State.localBalance (s : State) (r : Request) (k : Key) : State :=
  match s.cu.served k with
  | none => s.decline .balance r .unknownCard
  | some c =>
    if c.state = .closed then s.decline .balance r .cardClosed
    else s.answer (successRecord .balance r.tag (toBytes 4 c.balance ++ toBytes 4 (s.cu.available k)
      ++ toBytes 4 c.issuePeriod ++ toBytes 4 c.lastActivity ++ toBytes 2 c.activity))

/-- A BALANCE served (R10, R74). -/
def State.serveBalance (s : State) (r : Request) : State :=
  match cardFromTill r.fields with
  | none => s.decline .balance r .badNumber
  | some card =>
    if s.isHere card.home then s.localBalance r card.key
    else if s.sc.station ≠ .joined then s.decline .balance r .wrongState
    else s.serveRemote .balance r .enquire card 0 .enquireWait

def execBalance (s : State) : Host.Outcome State Fault Refusal := .next (s.intake .balance State.serveBalance)

/-! ### REDEEM (R57 to R59) -/

/-- The reason that a refusing exchange status gives the till. -/
def XStatus.reason : XStatus → Reason
  | .insufficient => .insufficient
  | .unknownCard => .unknownCard
  | .cardClosed => .cardClosed
  | .homeBusy => .homeBusy
  | .overCap => .overCap
  | .approved | .posted | .postedShort | .duplicate | .notPosted => .badValue

/-- A local REDEEM that has a slot (R58). -/
def State.localRedeem (s : State) (r : Request) (card : CardNo) (amount : Nat) : State :=
  let t := s.newTxn r.tag .redeem card amount none .localHeld
  let s1 := s.takeReference
  let a := s1.serveAuth s1.own t.reference card.key amount
  if a.2.status = .approved then
    (a.1.setTxns (a.1.br.txns ++ [{ t with hold := a.2.hold, timer := some s.abandonAt }])).answer
      (approvedRecord t false a.2.available)
  else a.1.decline .redeem r a.2.status.reason a.2.available

/-- A remote REDEEM that has a slot (R57 step 5, R59). -/
def State.remoteRedeem (s : State) (r : Request) (card : CardNo) (amount : Nat) : State :=
  if Config.advicePlaces ≤ s.au.used then s.takeReference.decline .redeem r .adviceFull
  else
    let t := s.newTxn r.tag .redeem card amount (some (s.custodianOf card.home)) .authWait
    if (s.peerAt t.station).presence.reachable then s.reserve.openExchange t
    else (s.reserve.openTxn t).standIn t

/-- A REDEEM served (R57). -/
def State.serveRedeem (s : State) (r : Request) : State :=
  let amount := fieldAt r.fields 10 4
  match cardFromTill (r.fields.take 10) with
  | none => s.decline .redeem r .badNumber
  | some card =>
    if !s.isHere card.home && s.sc.station ≠ .joined then s.decline .redeem r .wrongState
    else if amount = 0 || s.sc.config.cardCap < amount then s.decline .redeem r .badValue
    else if !s.slotForTxn then s.decline .redeem r .noSlot
    else if s.isHere card.home then s.localRedeem r card amount
    else s.remoteRedeem r card amount

def execRedeem (s : State) : Host.Outcome State Fault Refusal := .next (s.intake .redeem State.serveRedeem)

/-! ### COMPLETE (R65, R66, R70) -/

/-- The transaction that a COMPLETE or VOID names, or the refusal of steps 2 and 3 of R65. -/
def State.heldTxn (s : State) (reference : Nat) : Txn ⊕ Reason :=
  match s.txnFor reference with
  | none => .inr .badRef
  | some t =>
    if t.kind = .redeem && (t.state = .localHeld || t.state = .remoteHeld || t.state = .standinHeld)
        && t.voiding.isNone then .inl t
    else .inr .wrongState

/-- A COMPLETE of a local hold (R65). -/
def State.completeLocal (s : State) (t : Txn) : State :=
  let a := s.serveCapture s.own t.reference t.card.key t.holdId t.amount true
  if a.2.status = .homeBusy then
    (a.1.modifyTxn t.reference fun x => { x with timer := some s.abandonAt }).answer
      (declinedRecord .complete t.tag .homeBusy)
  else (a.1.freeTxn t).answer
    (completedRecord t { a.2.figures with fee := 0, net := a.2.figures.posted } a.2.late)

/-- A COMPLETE that passed its tests, on the transaction with its final amount (R65, R66, R70). -/
def State.completeTxn (s : State) (t : Txn) : State :=
  match t.state with
  | .localHeld => s.completeLocal t
  | .remoteHeld =>
    (s.modifyTxn t.reference fun x => { x with state := .captureWait, attemptsLeft := 3 }).sendAttempt
      { t with state := .captureWait, attemptsLeft := 3 }
  | .standinHeld => ((s.freeTxn t).commitAdvice .standin t).answer (pendingRecord t)
  | .authWait | .captureWait | .creditWait | .enquireWait => s

/-- A COMPLETE served (R65). -/
def State.serveComplete (s : State) (r : Request) : State :=
  let final := fieldAt r.fields 2 4
  match s.heldTxn (fieldAt r.fields 0 2) with
  | .inr reason => s.decline .complete r reason
  | .inl t =>
    if final = 0 || t.amount < final then s.decline .complete r .badValue
    else (s.modifyTxn t.reference fun x => { x with amount := final, timer := none }).completeTxn
      { t with amount := final, timer := none }

def execComplete (s : State) : Host.Outcome State Fault Refusal :=
  .next (s.event fun s => (s.intake .complete State.serveComplete).settle)

/-! ### VOID (R71) -/

/-- A VOID served (R71). -/
def State.serveVoid (s : State) (r : Request) : State :=
  match s.heldTxn (fieldAt r.fields 0 2) with
  | .inr reason => s.decline .void r reason
  | .inl t => (s.modifyTxn t.reference fun x => { x with timer := none }).voidTxn t false

def execVoid (s : State) : Host.Outcome State Fault Refusal :=
  .next (s.event fun s => (s.intake .void State.serveVoid).settle)

/-! ### CREDIT (R11, R73) -/

/-- A CREDIT of a card held here (R11). -/
def State.localCredit (s : State) (r : Request) (k : Key) (amount : Nat) : State :=
  match s.creditRefusal k amount with
  | some (st, room) => s.decline .credit r st.reason room
  | none =>
    let s1 := s.creditCard k amount
    s1.answer (successRecord .credit r.tag (toBytes 4 amount
      ++ toBytes 4 (match s1.cu.served k with
        | some c => c.balance
        | none => 0) ++ toBytes 4 0))

/-- A CREDIT request served (R11, R73). -/
def State.serveCreditRequest (s : State) (r : Request) : State :=
  let amount := fieldAt r.fields 10 4
  match cardFromTill (r.fields.take 10) with
  | none => s.decline .credit r .badNumber
  | some card =>
    if !s.isHere card.home && s.sc.station ≠ .joined then s.decline .credit r .wrongState
    else if amount = 0 || s.sc.config.cardCap < amount then s.decline .credit r .badValue
    else if s.isHere card.home then s.localCredit r card.key amount
    else s.serveRemote .credit r .credit card amount .creditWait

def execCreditRequest (s : State) : Host.Outcome State Fault Refusal :=
  .next (s.intake .credit State.serveCreditRequest)

/-! ### CASHOUT (R12) -/

/-- A card is cashed out (R12). -/
def State.cashOut (s : State) (c : Card) : State :=
  let s1 := s.modifyCard c.key fun x => { x.act 0 s.su.openPeriod with state := .closed }
  let s2 := s1.modifyLedger fun l => { l with cashedOut := l.cashedOut + c.balance }
  s2.modifyCounters fun n => { n with cashOuts := satAdd amountMax n.cashOuts c.balance }

/-- The card has a HELD hold (R12). -/
def Custody.hasHeld (c : Custody) (k : Key) : Bool :=
  c.holds.any fun h => h.key = k && h.state = .held && h.kind = .redemption

/-- A CASHOUT served (R12). -/
def State.serveCashout (s : State) (r : Request) : State :=
  match cardFromTill r.fields with
  | none => s.decline .cashout r .badNumber
  | some card =>
    if !s.isHere card.home then s.decline .cashout r .notHome
    else match s.cu.served card.key with
      | none => s.decline .cashout r .unknownCard
      | some c =>
        if c.state = .closed then s.decline .cashout r .cardClosed
        else if s.cu.hasHeld card.key || s.handing then s.decline .cashout r .homeBusy
        else (s.cashOut c).answer (successRecord .cashout r.tag (toBytes 4 c.balance))

def execCashout (s : State) : Host.Outcome State Fault Refusal := .next (s.intake .cashout State.serveCashout)

end Sys2Proof.Machine
end

