-- ==== Sys2Proof/Machine/Readings.lean ====
section
/-! DEFINITION. The requests that only read (R177, R157, R96, R13): STATUS, PEER, READ POSITION, READ FLOAT, with their
layouts by R189 (log 14). -/
namespace Sys2Proof.Machine

/-! ### STATUS (R177) -/

/-- The parameters of the configuration record in force, in their CONFIGURE widths (R189). -/
def ConfigRecord.bytes (c : ConfigRecord) : List Byte :=
  toBytes 4 c.cardCap ++ toBytes 2 c.feeRate ++ toBytes 1 c.dormancy ++ toBytes 2 c.holdExpiry ++ toBytes 2 c.normalReply
    ++ toBytes 2 c.busyReply ++ toBytes 2 c.retention ++ toBytes 1 c.normalAttempts ++ toBytes 1 c.busyAttempts
    ++ toBytes 4 c.normalBudget ++ toBytes 4 c.busyBudget ++ toBytes 4 c.normalLimit ++ toBytes 4 c.busyLimit
    ++ toBytes 1 c.beaconInterval ++ toBytes 2 c.upper ++ toBytes 2 c.lower ++ toBytes 1 c.dwell
    ++ toBytes 2 c.statementWindow ++ toBytes 1 c.pauseTime

/-- The PINNED entries. -/
def State.pins (s : State) : List HomeEntry := s.pm.homeMap.filter fun e => e.learned.isNone

/-- Pin places of two bytes: the PINNED entries from the first place on, the unused places behind them 0. That a pin does not
keep its CONFIGURE place, and that there are always four, is the model's choice (log 57). -/
def pinBytes (pins : List HomeEntry) : Nat → List Byte
  | 0 => []
  | n + 1 => match pins with
    | [] => toBytes 2 0 ++ pinBytes [] n
    | e :: rest => toBytes 1 e.home ++ toBytes 1 e.custodian ++ pinBytes rest n

/-- Station Controller items of STATUS. That the bit rate is the strap code of R134 is the model's choice (log 55). -/
def State.statusStation (s : State) : List Byte :=
  toBytes 1 s.sc.station.code ++ optionalBytes 1 (s.sc.haltCause.map (·.code)) ++ optionalBytes 1 (s.sub.map (·.code))
    ++ toBytes 1 s.sc.startCount ++ toBytes 1 s.sc.straps.address ++ optionalBytes 1 s.sc.storedAddress
    ++ toBytes 1 s.sc.straps.rate

/-- Card register items of STATUS. -/
def State.statusCards (s : State) : List Byte :=
  let c := s.cu.cards
  toBytes 2 (countState c .active) ++ toBytes 2 (countState c .closed) ++ toBytes 2 (countState c .pendingAdopt)
    ++ toBytes 2 s.usableSlots ++ toBytes 3 s.cu.nextSerial ++ optionalBytes 1 (s.cu.adoption.map (·.station))
    ++ toBytes 2 (countState c .pendingAdopt)
    ++ toBytes 2 (match s.cu.adoption with
      | some a => a.toCome
      | none => 0)

/-- Number of transactions in a state. -/
def State.txnsIn (s : State) (st : TxnState) : Nat := (s.br.txns.filter fun t => t.state = st).length

/-- Hold, transaction and advice items of STATUS; the transaction states begin with FREE. -/
def State.statusWork (s : State) : List Byte :=
  toBytes 1 (s.cu.holds.filter fun h => h.state = .held).length
    ++ toBytes 1 (s.cu.holds.filter fun h => h.state = .captured).length
    ++ toBytes 1 s.br.txns.length ++ toBytes 1 (Config.txnSlots - s.br.txns.length)
    ++ toBytes 1 (s.txnsIn .localHeld) ++ toBytes 1 (s.txnsIn .authWait) ++ toBytes 1 (s.txnsIn .remoteHeld)
    ++ toBytes 1 (s.txnsIn .standinHeld) ++ toBytes 1 (s.txnsIn .captureWait) ++ toBytes 1 (s.txnsIn .creditWait)
    ++ toBytes 1 (s.txnsIn .enquireWait)
    ++ toBytes 1 s.au.reservations ++ toBytes 1 (s.au.queue.filter fun a => a.state = .waiting).length
    ++ toBytes 1 (s.au.queue.filter fun a => a.state = .inDelivery).length
    ++ toBytes 1 (s.au.queue.filter fun a => a.state = .settled).length

/-- The closing bank's round state and period. -/
def State.roundBytes (s : State) : List Byte :=
  toBytes 1 (if s.su.closing.isSome then 1 else 0) ++ optionalBytes 4 (s.su.closing.map (·.period))

/-- Settlement Unit and Line Controller items of STATUS. -/
def State.statusLine (s : State) : List Byte :=
  toBytes 4 s.su.openPeriod ++ s.roundBytes ++ toBytes 1 s.till.payouts.length
    ++ toBytes 1 s.lineState.code ++ toBytes 1 s.lc.inbound.length
    ++ toBytes 1 (s.lc.outbound.filter fun f => f.msg.cls = 0).length
    ++ toBytes 1 (s.lc.outbound.filter fun f => f.msg.cls = 1).length
    ++ toBytes 1 (s.lc.outbound.filter fun f => f.msg.cls = 2).length
    ++ toBytes 1 (s.lc.outbound.filter fun f => f.msg.cls = 3).length
    ++ toBytes 1 s.lc.sequence

/-- Number of peers in a presence state; every peer not listed is UNKNOWN, and the own address is no peer (log 15). -/
def State.peersIn (s : State) (p : Presence) : Nat :=
  let listed := s.pm.peers.filter fun e => e.1 ≠ s.own
  let n := (listed.filter fun e => e.2.presence = p).length
  let all := if stationOk s.own then 238 else 239
  if p = .unknown then n + (all - listed.length) else n

/-- Peer Monitor and Till Port items of STATUS. -/
def State.statusPeers (s : State) : List Byte :=
  toBytes 1 (s.peersIn .unknown) ++ toBytes 1 (s.peersIn .present) ++ toBytes 1 (s.peersIn .quiet)
    ++ toBytes 1 (s.peersIn .absent) ++ toBytes 1 (s.pm.peers.filter fun e => e.2.degraded).length
    ++ toBytes 1 s.pm.mode.code ++ toBytes 1 s.pm.run.length ++ toBytes 2 s.pm.lastWindow
    ++ toBytes 1 (s.pm.homeMap.filter fun e => e.learned.isSome).length ++ toBytes 1 s.pins.length
    ++ toBytes 1 s.till.requests.length ++ toBytes 1 s.till.results.length ++ toBytes 1 s.till.reserved
    ++ markByte s.till.overrun

/-- The fields of a STATUS result (R177). -/
def State.statusFields (s : State) : List Byte :=
  s.statusStation ++ s.statusCards ++ s.statusWork ++ s.statusLine ++ s.statusPeers ++ s.sc.config.bytes
    ++ pinBytes s.pins 4

/-- A STATUS served (R177). -/
def State.serveStatus (s : State) (r : Request) : State := s.answer (successRecord .status r.tag s.statusFields)

def execStatus (s : State) : Host.Outcome State Fault Refusal := .next (s.intake .status State.serveStatus)

/-! ### PEER (R157) -/

/-- A last beacon in a PEER result: absent, or its payload. -/
def beaconBytes : Option BeaconData → List Byte
  | none => toBytes 1 0 ++ toBytes 10 0
  | some b => toBytes 1 1 ++ b.bytes

/-- A home-map entry in a PEER result; the learn time of a PINNED entry is a free value (log 13). -/
def State.homeEntryBytes (s : State) : Option HomeEntry → List Byte
  | none => toBytes 1 0 ++ toBytes 7 0
  | some e => toBytes 1 1 ++ toBytes 1 e.home ++ toBytes 1 e.custodian ++ toBytes 1 (if e.learned.isSome then 0 else 1)
      ++ (match e.learned with
        | some t => instantBytes t
        | none => toBytes 4 (s.freeNat 0))

/-- The end instant of a pause (R152). -/
def State.pauseEndOf (s : State) (a : Nat) : Option Nat := (s.lc.pauses.find? fun e => e.1 = a).map (·.2)

/-- The fields of a PEER result (R157). That the pause mark and its end instant are one optional item is the model's choice
(log 63). -/
def State.peerFields (s : State) (a : Nat) : List Byte :=
  let e := s.peerAt a
  toBytes 1 e.presence.code ++ markByte e.degraded ++ optionalBytes 4 (e.lastHeard.map (· % 4294967296))
    ++ toBytes 1 e.failed ++ toBytes 2 e.missed ++ optionalBytes 1 e.lastSequence ++ beaconBytes e.lastBeacon
    ++ optionalBytes 1 e.departure ++ optionalBytes 4 ((s.pauseEndOf a).map (· % 4294967296))
    ++ toBytes 3 (s.outstandingHome a)
    ++ toBytes 1 (s.au.queue.filter fun x => s.currentTarget x = a).length
    ++ s.homeEntryBytes (s.pm.homeMap.find? fun m => m.home = a)

/-- A PEER served (R157, R176). -/
def State.servePeer (s : State) (r : Request) : State :=
  let a := fieldAt r.fields 0 1
  if stationOk a then (s.answer (successRecord .peer r.tag (s.peerFields a))).useFree 1
  else s.decline .peer r .badValue

def execPeer (s : State) : Host.Outcome State Fault Refusal := .next (s.intake .peer State.servePeer)

/-! ### READ POSITION (R96) -/

/-- A position entry in a result, in the order of spec 02, section 2.4. -/
def PosEntry.bytes (e : PosEntry) : List Byte :=
  toBytes 5 e.gi ++ toBytes 3 e.giN ++ toBytes 5 e.fi ++ toBytes 3 e.fiN ++ toBytes 5 e.ci ++ toBytes 3 e.ciN
    ++ toBytes 5 e.gr ++ toBytes 3 e.grN ++ toBytes 5 e.fr ++ toBytes 3 e.frN ++ toBytes 5 e.cr ++ toBytes 3 e.crN
    ++ toBytes 5 e.lateGross ++ toBytes 5 e.lateFee ++ toBytes 5 e.lateCredit ++ toBytes 5 e.standinLoss
    ++ markByte e.saturated ++ markByte e.missed

/-- NET with its invalid indication (R27). -/
def PosEntry.netBytes (e : PosEntry) : List Byte := toSignedBytes 6 e.net ++ markByte e.saturated

/-- A lifetime record in a result (R19). -/
def Lifetime.bytes (l : Lifetime) : List Byte :=
  toBytes 2 l.remainder ++ toBytes 5 l.gross ++ toBytes 5 l.fee ++ markByte l.saturated

/-- The fields of a READ POSITION of the open bank. -/
def State.openFields (s : State) (p : Nat) : List Byte :=
  let e := s.su.openEntry p
  e.bytes ++ e.netBytes ++ (Table.get {} s.su.lifetime p : Lifetime).bytes

/-- The fields of a READ POSITION of the closing bank; all zero where it is EMPTY. -/
def State.closingFields (s : State) (p : Nat) : List Byte :=
  let e : PosEntry := match s.su.closing with
    | some c => Table.get {} c.entries p
    | none => {}
  let st : StatementStatus := match s.su.closing with
    | some c => Table.get {} c.status p
    | none => {}
  s.roundBytes ++ e.bytes ++ e.netBytes ++ toBytes 1 st.compare.code ++ toBytes 1 st.send.code

/-- `n` bytes that the manual does not state (log 11). -/
def State.freeBytes (s : State) (n : Nat) : List Byte := toBytes n (s.freeNat 0)

/-- A READ POSITION served (R96, R176). The manual does not say what an address outside 1 to 239 gives (log 11). -/
def State.serveReadPosition (s : State) (r : Request) : State :=
  let p := fieldAt r.fields 0 1
  let bank := fieldAt r.fields 1 1
  if 1 < bank then s.decline .readPosition r .badValue
  else if stationOk p then
    s.answer (successRecord .readPosition r.tag (if bank = 0 then s.openFields p else s.closingFields p))
  else if Config.badPeerRefused then (s.decline .readPosition r .badValue).useFree 1
  else (s.answer (successRecord .readPosition r.tag
    (s.freeBytes (if bank = 0 then (s.openFields p).length else (s.closingFields p).length)))).useFree 1

def execReadPosition (s : State) : Host.Outcome State Fault Refusal :=
  .next (s.intake .readPosition State.serveReadPosition)

/-! ### READ FLOAT (R13) -/

/-- The fields of a READ FLOAT result (R13, R189). That the ACTIVE sum takes 8 bytes is the model's choice (log 50). -/
def Custody.floatFields (c : Custody) : List Byte :=
  toBytes 8 c.ledger.issued ++ toBytes 8 c.ledger.credits ++ toBytes 8 c.ledger.adoptedIn ++ toBytes 8 c.ledger.redeemed
    ++ toBytes 8 c.ledger.cashedOut ++ toBytes 8 c.ledger.handedOut ++ toBytes 8 (activeSum c.cards)
    ++ toBytes 2 (countState c.cards .active) ++ toBytes 2 (countState c.cards .closed)
    ++ toBytes 2 (countState c.cards .pendingAdopt)

/-- A READ FLOAT served (R13). -/
def State.serveReadFloat (s : State) (r : Request) : State :=
  s.answer (successRecord .readFloat r.tag s.cu.floatFields)

def execReadFloat (s : State) : Host.Outcome State Fault Refusal := .next (s.intake .readFloat State.serveReadFloat)

end Sys2Proof.Machine
end

