-- ==== Sys2Proof/Machine/Control.lean ====
section
/-! DEFINITION. The till's control requests: CONFIGURE (R178), JOIN (R170, R179), CLOSE PERIOD (R100), HANDOVER (R117). -/
namespace Sys2Proof.Machine

/-! ### CONFIGURE (R178) -/

/-- The values a CONFIGURE request carries, as written. -/
def ConfigRecord.ofFields (f : List Byte) : ConfigRecord where
  cardCap := fieldAt f 0 4
  feeRate := fieldAt f 4 2
  dormancy := fieldAt f 6 1
  holdExpiry := fieldAt f 7 2
  normalReply := fieldAt f 9 2
  busyReply := fieldAt f 11 2
  retention := fieldAt f 13 2
  normalAttempts := fieldAt f 15 1
  busyAttempts := fieldAt f 16 1
  normalBudget := fieldAt f 17 4
  busyBudget := fieldAt f 21 4
  normalLimit := fieldAt f 25 4
  busyLimit := fieldAt f 29 4
  beaconInterval := fieldAt f 33 1
  upper := fieldAt f 34 2
  lower := fieldAt f 36 2
  dwell := fieldAt f 38 1
  statementWindow := fieldAt f 39 2
  pauseTime := fieldAt f 41 1

/-- The highest balance of an ACTIVE record (R15). -/
def State.highestActive (s : State) : Nat := maxOf (fun r => if r.state = .active then r.balance else 0) s.cu.cards

/-- The largest provisional outstanding of any home (R80). -/
def State.largestHome (s : State) : Nat :=
  max (maxOf (fun a => s.outstandingHome a.card.home) s.au.queue) (maxOf (fun t => s.outstandingHome t.card.home) s.br.txns)

/-- The largest provisional outstanding of any card (R80). -/
def State.largestCard (s : State) : Nat :=
  max (maxOf (fun a => s.outstandingCard a.card.key) s.au.queue) (maxOf (fun t => s.outstandingCard t.card.key) s.br.txns)

/-- The values taken for the values written, each step reading those already taken (R15, R18, R51, R80, R165, R166,
R178). -/
def State.adjust (s : State) (w : ConfigRecord) : ConfigRecord :=
  let cardCap := max (clampTo 1000 10000000 w.cardCap) s.highestActive
  let normalReply := clampTo 100 5000 w.normalReply
  let busyReply := max (clampTo 100 5000 w.busyReply) normalReply
  let normalBudget := min w.normalBudget 1000000
  let busyClamped := min w.busyBudget 1000000
  let normalLimit := min (min w.normalLimit cardCap) normalBudget
  let busyLowered := min (min w.busyLimit cardCap) busyClamped
  let upper := clampTo 1 4000 w.upper
  let lower := min w.lower 3999
  { cardCap
    feeRate := min w.feeRate 1000
    dormancy := clampTo 1 255 w.dormancy
    holdExpiry := clampTo 30 900 w.holdExpiry
    normalReply
    busyReply
    retention := max (clampTo 10 900 w.retention) ((3 * busyReply + 999) / 1000)
    normalAttempts := clampTo 1 5 w.normalAttempts
    busyAttempts := clampTo 1 5 w.busyAttempts
    normalBudget
    busyBudget := max busyClamped s.largestHome
    normalLimit
    busyLimit := max busyLowered s.largestCard
    beaconInterval := clampTo 1 30 w.beaconInterval
    upper
    lower := if lower < upper then lower else upper - 1
    dwell := clampTo 1 15 w.dwell
    statementWindow := clampTo 10 600 w.statementWindow
    pauseTime := clampTo 5 255 w.pauseTime }

/-- The parameters of a record in the order of their codes 1 to 19 (R189). -/
def ConfigRecord.values (c : ConfigRecord) : List Nat :=
  [c.cardCap, c.feeRate, c.dormancy, c.holdExpiry, c.normalReply, c.busyReply, c.retention, c.normalAttempts,
    c.busyAttempts, c.normalBudget, c.busyBudget, c.normalLimit, c.busyLimit, c.beaconInterval, c.upper, c.lower,
    c.dwell, c.statementWindow, c.pauseTime]

/-- An entry of the clamp list: parameter code, value written, value taken (R178). -/
structure ClampEntry where
  code : Nat
  written : Nat
  taken : Nat
  deriving DecidableEq, Repr

/-- One entry for each parameter whose value taken differs from the value written, from a code on. -/
def clampEntries : Nat → List Nat → List Nat → List ClampEntry
  | code, w :: ws, t :: ts =>
    if w = t then clampEntries (code + 1) ws ts else { code, written := w, taken := t } :: clampEntries (code + 1) ws ts
  | _, _, _ => []

/-- A pin place of a CONFIGURE request: its clamp code, home and custodian. -/
structure PinPlace where
  code : Nat
  home : Nat
  custodian : Nat
  deriving DecidableEq, Repr

/-- The pin places that are not empty: four pairs in the bytes 42 to 49, behind the parameters (R189). -/
def pinPlaces (f : List Byte) : List PinPlace :=
  ([20, 21, 22, 23].map fun code =>
    ({ code, home := fieldAt f (42 + 2 * (code - 20)) 1, custodian := fieldAt f (43 + 2 * (code - 20)) 1 } : PinPlace)).filter
    fun p => p.home ≠ 0 || p.custodian ≠ 0

/-- A pin is left out (R167); `earlier` are the pins before it in the list. -/
def State.pinDropped (s : State) (earlier : List PinPlace) (p : PinPlace) : Bool :=
  !stationOk p.home || !stationOk p.custodian || p.home = p.custodian || p.home = s.own || p.custodian = s.own
    || s.cu.adopted.contains p.home || earlier.any fun q => q.home = p.home

/-- The pins of a list, in order: those that are taken and those that are dropped (R167). -/
def State.sortPins (s : State) : List PinPlace → List PinPlace → List PinPlace × List PinPlace
  | _, [] => ([], [])
  | earlier, p :: rest =>
    let r := s.sortPins (earlier ++ [p]) rest
    if s.pinDropped earlier p then (r.1, p :: r.2) else (p :: r.1, r.2)

/-- The home map with the pins taken in place of all PINNED entries, each replacing a LEARNED entry of its home (R167). -/
def repin (m : List HomeEntry) (pins : List PinPlace) : List HomeEntry :=
  pins.map (fun p => { home := p.home, custodian := p.custodian, learned := none })
    ++ m.filter fun e => e.learned.isSome && !(pins.any fun p => p.home = e.home)

/-- The clamp entry of a dropped pin (R189). -/
def PinPlace.clamp (p : PinPlace) : ClampEntry := { code := p.code, written := p.home * 256 + p.custodian, taken := 0 }

/-- The fields of a CONFIGURE result (R189). -/
def clampFields (l : List ClampEntry) : List Byte :=
  toBytes 1 l.length ++ (l.map fun e => toBytes 1 e.code ++ toBytes 4 e.written ++ toBytes 4 e.taken).flatten

/-- The configuration record is replaced; a fee rate other than the one in force zeroes the lifetime records (R29). -/
def State.takeConfig (s : State) (c : ConfigRecord) : State :=
  let s1 := if c.feeRate = s.sc.config.feeRate then s else s.setSu { s.su with lifetime := [] }
  s1.setSc { s1.sc with config := c }

/-- A CONFIGURE served (R178). -/
def State.serveConfigure (s : State) (r : Request) : State :=
  let written := ConfigRecord.ofFields r.fields
  let taken := s.adjust written
  let pins := s.sortPins [] (pinPlaces r.fields)
  let s1 := (s.takeConfig taken).setHomeMap (repin s.pm.homeMap pins.1)
  s1.answer (successRecord .configure r.tag
    (clampFields (clampEntries 1 written.values taken.values ++ pins.2.map PinPlace.clamp)))

def execConfigure (s : State) : Host.Outcome State Fault Refusal := .next (s.intake .configure State.serveConfigure)

/-! ### JOIN (R170, R179) -/

/-- A JOIN served: LISTENING, the listen timer, the line busy until bus free (R135), and the load windows begin when the
line state first leaves OFF (R165). -/
def State.serveJoin (s : State) (r : Request) : State :=
  let s1 := s.setSc { s.sc with
    station := .listening
    listenTimer := some (s.now + 2 * (s.sc.config.beaconInterval * 1000)) }
  let s2 := s1.setLc { s1.lc with activity := .busy }
  let s3 := s2.setPm { s2.pm with window := some (s.now + 1000), windowCount := 0 }
  s3.answer (successRecord .join r.tag [])

def execJoin (s : State) : Host.Outcome State Fault Refusal := .next (s.intake .join State.serveJoin)

/-! ### CLOSE PERIOD (R100) -/

/-- A CLOSE PERIOD served (R100). -/
def State.serveClosePeriod (s : State) (r : Request) : State :=
  if periodMax ≤ s.su.openPeriod then s.decline .closePeriod r .wrongState
  else
    (s.closeTo (s.su.openPeriod + 1)).answer (successRecord .closePeriod r.tag
      (toBytes 4 s.su.openPeriod ++ toBytes 4 (s.su.openPeriod + 1)))

def execClosePeriod (s : State) : Host.Outcome State Fault Refusal :=
  .next (s.event fun s => (s.intake .closePeriod State.serveClosePeriod).settle)

/-! ### HANDOVER (R117) -/

/-- The tests of a HANDOVER request, in their order (R117). -/
def State.handoverRefusal (s : State) (c : Nat) : Option Reason :=
  if s.sc.station ≠ .joined then some .wrongState
  else if !stationOk c || c = s.own then some .badValue
  else if (s.peerAt c).presence ≠ .present then some .wrongState
  else if !s.br.txns.isEmpty then some .wrongState
  else if s.cu.adoption.isSome then some .wrongState
  else if periodMax ≤ s.su.openPeriod then some .wrongState
  else none

/-- A HANDOVER served (R117); its reserved slot stays reserved until the handover ends. -/
def State.serveHandover (s : State) (r : Request) : State :=
  let c := fieldAt r.fields 0 1
  match s.handoverRefusal c with
  | some reason => s.decline .handover r reason
  | none =>
    (s.setHandover (some { sub := .draining, custodian := c, tag := r.tag, homes := s.own :: s.cu.adopted,
                           replyTimeout := s.replyTimeout,
                           timer := some (s.now + 2 * (s.sc.config.holdExpiry * 1000)) })).setSc
      { s.sc with station := .handingOver }

def execHandover (s : State) : Host.Outcome State Fault Refusal :=
  .next (s.event fun s => (s.intake .handover State.serveHandover).settle)

end Sys2Proof.Machine
end

