-- ==== Sys2Proof/Machine/Supply.lean ====
section
/-! DEFINITION. Starts, the supply warning and RETAIN (spec 11), and RESTART (R179). -/
namespace Sys2Proof.Machine

/-! ### A start (R183) -/

/-- The latched address is a station address (R181). -/
def addressValid (p : Straps) : Bool := stationOk p.address

/-- What a start makes of the stored address and finds wrong with the latched one (R181). -/
def latchAddress (stored : Option Nat) (p : Straps) : Option Nat × Option HaltCause :=
  if !addressValid p then (stored, some .badAddress)
  else match stored with
    | none => (some p.address, none)
    | some a => if a = p.address then (some a, none) else (some a, some .addressChanged)

/-- The station after a cold start (R183): the stored address is absent after it (R181, log 9). -/
def State.coldStart (s : State) (p : Straps) : State :=
  { sc := { straps := p
            station := if addressValid p then .unjoined else .halted
            haltCause := if addressValid p then none else some .badAddress }
    till := { clockedOut := s.till.clockedOut }
    free := s.free
    pending := s.pending }

/-- A kept advice after a warm start (R94). -/
def Advice.restart (a : Advice) : Advice :=
  { a with
    state := if a.state = .inDelivery then .waiting else a.state
    holdOff := none
    ticket := none
    timer := none }

/-- A kept closing bank after a warm start: the part stores are empty (R116). -/
def Closing.restart (c : Closing) : Closing :=
  { c with status := Table.mapEntries {} (fun _ st => { st with part := none }) c.status }

/-- The station after a warm start (R183): the retained store of R182 is kept, everything else is at its start value. -/
def State.warmStart (s : State) (p : Straps) : State :=
  let address := latchAddress s.sc.storedAddress p
  { sc := { straps := p
            station := if address.2.isSome then .halted else if s.sc.committedMark then .retired else .unjoined
            haltCause := address.2
            startCount := (s.sc.startCount + 1) % 256
            storeValid := true
            storedAddress := address.1
            stopRecord := s.sc.stopRecord
            committedMark := s.sc.committedMark
            config := s.sc.config }
    till := { payouts := s.till.payouts, clockedOut := s.till.clockedOut }
    cu := { cards := s.cu.cards.filter fun r => r.state ≠ .pendingAdopt
            ledger := s.cu.ledger
            nextSerial := s.cu.nextSerial
            adopted := s.cu.adopted
            lastAdoption := s.cu.lastAdoption }
    br := { refCounter := s.br.refCounter }
    au := { queue := s.au.queue.map Advice.restart }
    su := { openPeriod := s.su.openPeriod
            entries := s.su.entries
            counters := s.su.counters
            closing := s.su.closing.map Closing.restart
            lifetime := s.su.lifetime }
    lc := { sequence := s.lc.sequence }
    pm := { homeMap := s.pm.homeMap.filter fun e => e.learned.isNone }
    free := s.free
    pending := s.pending }

/-- A start is cold when CLEAR is strapped or the validity mark reads bad; `held` says that the store has been held
without interruption (R182, R183). -/
def State.startCold (s : State) (p : Straps) (held : Bool) : Bool := p.clear || !(s.sc.storeValid && held)

/-- A start (R183). -/
def State.start (s : State) (p : Straps) (held : Bool) : State :=
  if s.startCold p held then s.coldStart p else s.warmStart p

/-- The SUPPLY report (R185, R189). -/
def supplyRecord (r : StopRecord) (startCount : Nat) : Record :=
  { kind := 39, fields := toBytes 1 r.state.code ++ toBytes 1 r.outcome.code ++ toBytes 1 startCount }

/-- The SUPPLY report goes to the latch and the stop record is cleared (R185). -/
def State.reportStop (s : State) : State :=
  match s.sc.stopRecord with
  | none => s
  | some r => s.setSc { s.sc with latch := some (supplyRecord r s.sc.startCount), stopRecord := none }

/-- RETAIN ends: a start, with the SUPPLY report after a warm one (R185). -/
def State.endRetain (s : State) (x : SupplyPins) : State :=
  if s.startCold x.straps x.held then s.coldStart x.straps else (s.warmStart x.straps).reportStop

/-- The supply-warning input is deasserted (R185): in RETAIN main supply has returned and RETAIN ends; in the departure step
the level is kept for the test that RETAIN makes on entry. -/
def execSupplyReturn (p : Straps) (held : Bool) (s : State) : Host.Outcome State Fault Refusal :=
  .next (if s.sc.station = .retain then s.endRetain { straps := p, held }
    else if s.sc.supply = .warned then s.setSc { s.sc with returned := some { straps := p, held } }
    else s)

/-- Power is applied (R182, R183). That it is a start in RETAIN as well is the model's choice (log 48). -/
def execPowerUp (p : Straps) (held : Bool) (s : State) : Host.Outcome State Fault Refusal := .next (s.start p held)

/-! ### The supply warning (R184) -/

/-- The station in RETAIN: the stop record is written, the line state is OFF and the load windows are stopped (R165,
R184). -/
def State.retained (s : State) (outcome : DepartureOutcome) : State :=
  let s1 := s.setSc { s.sc with
    stopRecord := some { state := s.sc.station, outcome }
    station := .retain
    departure := none }
  let s2 := s1.setLc { s1.lc with stuckSince := none, activity := .busy }
  s2.setPm { s2.pm with window := none, windowCount := 0, beaconFrom := none }

/-- The departure step ends: RETAIN is entered, and ends at once where the warning is found deasserted (R184, R185). -/
def State.enterRetain (s : State) (outcome : DepartureOutcome) : State :=
  match s.sc.returned with
  | none => s.retained outcome
  | some x => (s.retained outcome).endRetain x

/-- The supply-warning input is asserted (R184). -/
def State.warn (s : State) : State :=
  let s1 := s.setSc { s.sc with supply := .warned, returned := none }
  if s.onLine then
    let s2 := s1.setLc { s1.lc with outbound := [], waitList := [] }
    let s3 := s2.broadcast (.depart 1)
    s3.setSc { s3.sc with departure := some (s.now + 20) }
  else s1.enterRetain .notSentState

/-- SUPPLY_WARNING: taken in every station state but RETAIN; one asserted again within the departure step is the level that
RETAIN finds (R184, R185). -/
def execSupplyWarning (s : State) : Host.Outcome State Fault Refusal :=
  .next (if s.live then s.warn
    else if s.sc.station = .retain then s
    else s.setSc { s.sc with returned := none })

/-- A DEPART of the departure step is on the line. -/
def State.departStarted (s : State) : Bool :=
  match s.lc.activity with
  | .sending x => x.kind = 16 && s.lc.outbound.any fun f => f.ticket = x.ticket
  | .busy | .free | .receiving => false

/-- The 20 ms of the departure step pass (R184): with no send started the step ends. -/
def execDepartureLimit (s : State) : Host.Outcome State Fault Refusal :=
  .next (match s.sc.departure with
    | none => s
    | some t => if s.departStarted then s else (s.reach t).enterRetain .notSentLine)

/-! ### The reset pin and RESTART (R179, R183, R185, R186) -/

/-- The reset pin is released: no effect in RETAIN (R185); during the departure step it abandons the step, and RETAIN
follows only if the warning is still asserted when the start ends (R186). That a DEPART already on the line goes with the
step is the model's choice (log 49). -/
def execResetPin (p : Straps) (warning : Bool) (s : State) : Host.Outcome State Fault Refusal :=
  .next (if s.sc.station = .retain then s
    else if s.sc.supply = .warned && warning then (s.start p true).warn
    else s.start p true)

/-- A RESTART request is taken: a start, with no result (R179). -/
def execRestart (p : Straps) (s : State) : Host.Outcome State Fault Refusal :=
  .next (s.intake .restart fun s _ => s.start p true)

end Sys2Proof.Machine
end

