-- ==== Sys2Proof/Machine/LineReceive.lean ====
section
/-! DEFINITION. Reception on the mall line (spec 08, sections 8.2, 8.4 to 8.6, 8.8, 8.9): FRAME_HEARD, FRAME_DISCARDED,
HEARD_OWN. -/
namespace Sys2Proof.Machine

/-- A frame can be under reception: the line state is LISTEN-ONLY or ACTIVE, and since the last bus free nothing has been
discarded, ended or sent here (R138, R140, R142). -/
def State.receiving (s : State) : Bool :=
  (s.lineState = .listenOnly || s.lineState = .active) && (s.lc.activity = .free || s.lc.activity = .receiving)

/-- The frame on the line ends for this station: busy until the next bus free (R138). -/
def State.lineBusy (s : State) : State := s.setLc { s.lc with activity := .busy, ackDriven := false }

/-! ### Sequence gaps (R154, R162) -/

/-- Number of frames missed between the last sequence recorded and `q` (R154). -/
def missedBetween (last : Option Nat) (q : Nat) : Nat :=
  match last with
  | none => 0
  | some l => (q + 256 - l) % 256 - 1

/-- The sequence of a heard frame is tracked (R154), and missed frames are counted (R162). -/
def State.trackSequence (s : State) (p q : Nat) : State :=
  let d := missedBetween (s.peerAt p).lastSequence q
  let s1 := s.modifyPeer p fun e => { e with
    lastSequence := some q
    missed := satAdd 65535 e.missed d
    degraded := e.degraded || (d ≠ 0 && 8 ≤ e.missed + d) }
  if d = 0 then s1 else s1.modifyOpen p fun e => { e with missed := true }

/-! ### Presence (R158, R161) and hold-offs (R87) -/

/-- A frame other than a DEPART makes its sender PRESENT; a DEPART makes it ABSENT (R158, R161). -/
def State.heardFrom (s : State) (p kind : Nat) : State :=
  let s1 := s.modifyPeer p fun e => { e with lastHeard := some s.now, failed := 0 }
  if kind = 16 then s1.makeAbsent p else s1.modifyPeer p fun e => { e with presence := .present }

/-- A hold-off clears at a frame of this kind from this station (R87). -/
def HoldOff.clearedBy (h : HoldOff) (p kind : Nat) : Bool :=
  match h with
  | .frame x => x = p
  | .beacon x => x = p && kind = 14
  | .locally _ => false

/-- Hold-offs clear at a heard frame (R87). -/
def State.clearHoldOffs (s : State) (p kind : Nat) : State :=
  s.setQueue (s.au.queue.map fun a => match a.holdOff with
    | some h => if h.clearedBy p kind then { a with holdOff := none } else a
    | none => a)

/-! ### Acceptance (R143, R147) and PAUSE (R151, R152) -/

/-- The destination suits the kind (R147, test 2). -/
def State.destSuits (s : State) (f : RawFrame) : Bool :=
  if kindBroadcast f.kind then f.dest = 255 else f.dest = s.own

/-- The inbound queue has room for a frame of this class (R147, test 3). -/
def LineCtl.takes (l : LineCtl) (cls : Nat) : Bool :=
  l.inbound.length < (if cls = 0 then Config.inboundPlaces else Config.inboundLow)

/-- The contents of a frame that is accepted (R147); none where it is not. -/
def State.accepts (s : State) (f : RawFrame) : Option Msg :=
  if (s.lineState = .active || (s.lineState = .listenOnly && kindBroadcast f.kind))
      && kindClass f.kind = some f.cls && s.destSuits f && s.lc.takes f.cls then
    Msg.decode f.kind f.payload
  else none

/-- A PAUSE of time `t` from `x` (R152). -/
def State.takePause (s : State) (x t : Nat) : State :=
  if t = 0 then s
  else s.setLc { s.lc with
    pauses := if s.pausedBy x then s.lc.pauses.map fun e => if e.1 = x then (x, max e.2 (s.now + t)) else e
      else s.lc.pauses ++ [(x, s.now + t)] }

/-- The station hands itself a PAUSE where its inbound queue is filling (R151). That none is handed in the STUCK line state,
and none for it when STUCK ends, is the model's choice (log 46); that none is handed at the guard's end while a PAUSE of its
own still waits is another (log 60). -/
def State.pauseIfFull (s : State) : State :=
  if s.lineState = .active && Config.inboundLow ≤ s.lc.inbound.length && s.lc.pauseGuard.isNone && !s.hasOwn 15 then
    s.broadcast (.pause s.sc.config.pauseTime)
  else s

/-- An accepted frame: a PAUSE is acted on at once, every other frame joins the inbound queue (R148); the slot is driven
in the ACTIVE line state (R143). -/
def State.accept (s : State) (f : RawFrame) (m : Msg) : State :=
  let s1 : State := match m with
    | .pause t => s.takePause f.source t
    | m => s.setLc { s.lc with inbound := s.lc.inbound ++ [{ source := f.source, msg := m }] }
  (s1.setLc { s1.lc with ackDriven := decide (s.lineState = .active) }).pauseIfFull

/-- A frame of the load window (R165). -/
def State.countFrame (s : State) : State := s.setPm { s.pm with windowCount := s.pm.windowCount + 1 }

/-- A frame is heard (R142): tracking, presence, hold-offs, load, and acceptance by the tests of R147, which are made
before anything the presence change brings about. -/
def State.hearFrame (s : State) (f : RawFrame) : State :=
  let s1 := (s.lineBusy.trackSequence f.source f.sequence).heardFrom f.source f.kind
  let s2 := (s1.clearHoldOffs f.source f.kind).countFrame
  match s.accepts f with
  | some m => s2.accept f m
  | none => s2

/-- FRAME_HEARD: a frame with another station's address as source reaches its slot (R142). A source outside 1 to 239 is
not heard, and in the supply state WARNED a frame passes without effect on the blocks (R184). -/
def execFrameHeard (levels : List Bool) (s : State) : Host.Outcome State Fault Refusal :=
  .next (if s.receiving then
      match receive levels with
      | .frame f =>
        if f.source = s.own then s
        else if stationOk f.source && s.live then (s.hearFrame f).settle
        else s.lineBusy
      | .discard => s
      | .partway => s
    else s)

/-- FRAME_DISCARDED: a reception that R138 or R139 discards. -/
def execFrameDiscarded (what : Reception) (s : State) : Host.Outcome State Fault Refusal :=
  .next (if s.receiving then
      match what with
      | .brokenFlag => s.lineBusy
      | .levels bits => if receive bits = .discard then s.lineBusy else s
    else s)

/-! ### Clashes (R145, R146) -/

/-- The CLASH report (R146, R189): cause 0 MISMATCH, 1 HEARD-OWN. -/
def clashRecord (cause kind dest count : Nat) : Record :=
  { kind := 38, fields := toBytes 1 cause ++ toBytes 1 kind ++ toBytes 1 dest ++ toBytes 2 count }

/-- A clash is counted and its report goes to the latch, replacing what is there (R146). -/
def State.clash (s : State) (cause kind dest : Nat) : State :=
  let n := satAdd 65535 s.lc.clashes 1
  s.setLc { s.lc with clashes := n, latch := some (clashRecord cause kind dest n) }

/-- HEARD_OWN: a frame that would be heard carries the own address as source (R146). -/
def execHeardOwn (levels : List Bool) (s : State) : Host.Outcome State Fault Refusal :=
  .next (if s.receiving then
      match receive levels with
      | .frame f =>
        if f.source = s.own then (if s.live then s.lineBusy.clash 1 f.kind f.dest else s.lineBusy) else s
      | .discard => s
      | .partway => s
    else s)

end Sys2Proof.Machine
end

