-- ==== Sys2Proof/Machine/Exchanges.lean ====
section
/-! DEFINITION. The exchanges served at the home (spec 03): AUTH, CAPTURE, RELEASE, CREDIT, ENQUIRE and ADVICE frames taken
from the inbound queue. -/
namespace Sys2Proof.Machine

/-! ### Taking a frame (R148) -/

/-- A block takes its oldest inbound frame, if that is of the kind of the step and the block is ready; else the step
cannot occur, and nothing changes (log 3). -/
def State.takeFrame (s : State) (o : Owner) (kind : Nat) (isReady : Bool) (serve : State → Nat → Msg → State) : State :=
  match takeFirst (fun f => f.msg.owner = o) s.lc.inbound with
  | none => s
  | some (f, rest) =>
    if s.live && isReady && f.msg.kind = kind then serve (s.setLc { s.lc with inbound := rest }) f.source f.msg else s

/-- The Custody Unit takes frames in JOINED and HANDING-OVER, while none of its replies waits for room (R33, log 20). -/
def State.custodyReady (s : State) : Bool :=
  s.onLine && match s.cu.reply with
    | some t => !s.waits t
    | none => true

/-- A reply of the Custody Unit is handed (R33). -/
def State.reply (s : State) (dest : Nat) (m : Msg) : State :=
  let s1 := s.hand dest m
  s1.setCu { s1.cu with reply := some s.ticket }

/-! ### The form of an inbound frame (R34)

A requester reference of 0 is served like any other, here and in every exchange below; that is the model's choice (log 51). -/

/-- A card number in a frame names a card that could be held here (R34). -/
def State.knows (s : State) (card : CardNo) : Bool := card.valid && s.isHere card.home

/-- The requester and reference match an entry of another card (R34). -/
def State.otherCard (s : State) (p reference : Nat) (k : Key) : Bool :=
  match s.holdFor p reference with
  | some h => h.key ≠ k
  | none => false

/-- The requester and reference match an entry of a kind that does not suit the frame (R34). -/
def State.otherKind (s : State) (p reference : Nat) (kind : HoldKind) : Bool :=
  match s.holdFor p reference with
  | some h => h.kind ≠ kind
  | none => false

/-- The amount of an AUTH, CREDIT or ADVICE is out of range (R34). -/
def amountBad (amount : Nat) : Bool := amount = 0 || Config.postingMax < amount

/-! ### AUTH (R35, R36) -/

/-- The AUTH-REPLY of an answer. The manual states no hold id and amount for a refusal, and no available amount but for
INSUFFICIENT: those are free values (log 10). -/
def State.authReplyMsg (s : State) (reference : Nat) (card : CardNo) (a : AuthAnswer) : Msg :=
  let free : HoldId := { start := s.freeNat 0 % 256, counter := s.freeNat 1 % 65536 }
  .authReply reference a.status.code card (a.hold.getD free)
    (if a.status = .approved then a.amount else s.freeNat 2 % 4294967296)
    (if a.status = .approved || a.status = .insufficient then a.available else s.freeNat 3 % 4294967296)

/-- An AUTH frame served (R34 to R36). That a requester reference of 0 is served like any other is the model's choice
(log 51). -/
def State.serveAuthFrame (s : State) (p : Nat) (m : Msg) : State :=
  match m with
  | .auth card amount reference =>
    if amountBad amount || s.otherCard p reference card.key || s.otherKind p reference .redemption then s
    else
      let r := if s.knows card then s.serveAuth p reference card.key amount else (s, { status := .unknownCard })
      (r.1.reply p (s.authReplyMsg reference card r.2)).useFree 4
  | _ => s

def execAuth (s : State) : Host.Outcome State Fault Refusal :=
  .next (s.takeFrame .custodyUnit 1 s.custodyReady State.serveAuthFrame)

/-! ### CAPTURE and ADVICE (R38 to R45) -/

/-- The CAPTURE-REPLY of an answer. -/
def captureReplyMsg (reference : Nat) (a : PostAnswer) : Msg :=
  .captureReply reference a.status.code (replyFlags a.late) a.figures.posted a.figures.fee a.figures.net a.figures.short
    a.figures.stamp

/-- The ADVICE-REPLY of an answer. -/
def adviceReplyMsg (reference : Nat) (a : PostAnswer) : Msg :=
  .adviceReply reference a.status.code (replyFlags a.late) a.figures.posted a.figures.fee a.figures.net a.figures.short
    a.figures.stamp

/-- A CAPTURE frame is discarded by its form (R34). -/
def State.captureBad (s : State) (p : Nat) (card : CardNo) (id : HoldId) (reference final : Nat) : Bool :=
  (final = 0 && (s.holdNamed id p reference card.key).isNone) || Config.postingMax < final
    || s.otherCard p reference card.key || s.otherKind p reference .redemption

/-- A CAPTURE frame served, whatever its requester reference (log 51). -/
def State.serveCaptureFrame (s : State) (p : Nat) (m : Msg) : State :=
  match m with
  | .capture card id reference final =>
    if s.captureBad p card id reference final then s
    else
      let r := s.serveCapture p reference card.key id final (s.knows card)
      r.1.reply p (captureReplyMsg reference r.2)
  | _ => s

def execCapture (s : State) : Host.Outcome State Fault Refusal :=
  .next (s.event fun s => (s.takeFrame .custodyUnit 3 s.custodyReady State.serveCaptureFrame).settle)

/-- An ADVICE frame served, whatever its requester reference (log 51) and its advice kind (log 68). -/
def State.serveAdviceFrame (s : State) (p : Nat) (m : Msg) : State :=
  match m with
  | .advice card amount reference _ _ =>
    if amountBad amount || s.otherCard p reference card.key || s.otherKind p reference .redemption then s
    else
      let r := s.serveAdvice p reference card.key amount (s.knows card)
      r.1.reply p (adviceReplyMsg reference r.2)
  | _ => s

def execAdvice (s : State) : Host.Outcome State Fault Refusal :=
  .next (s.takeFrame .custodyUnit 10 s.custodyReady State.serveAdviceFrame)

/-! ### RELEASE (R42) -/

/-- A RELEASE frame served; it has no reply. -/
def State.serveReleaseFrame (s : State) (p : Nat) (m : Msg) : State :=
  match m with
  | .release card id reference => if s.knows card then s.serveRelease p reference card.key id else s
  | _ => s

def execRelease (s : State) : Host.Outcome State Fault Refusal :=
  .next (s.event fun s => (s.takeFrame .custodyUnit 5 s.custodyReady State.serveReleaseFrame).settle)

/-! ### CREDIT (R47) -/

/-- The answer to a CREDIT frame: status, amount or room where one is stated, stamped period where one is stated. -/
structure CreditAnswer where
  status : XStatus
  amount : Option Nat := none
  stamp : Option Nat := none
  deriving DecidableEq, Repr

/-- The CREDIT-REPLY of an answer; what the manual does not state is a free value (log 10). -/
def State.creditReplyMsg (s : State) (reference : Nat) (a : CreditAnswer) : Msg :=
  .creditReply reference a.status.code (a.amount.getD (s.freeNat 0 % 4294967296))
    (a.stamp.getD (s.freeNat 1 % 4294967296))

/-- A credit for a peer is made and recorded (R47, R22). -/
def State.creditForPeer (s : State) (p reference : Nat) (k : Key) (amount : Nat) : State :=
  let s1 := (s.creditCard k amount).modifyOpen p fun e => e.creditHome amount
  s1.addHold { id := s.freshHoldId, kind := .credit, key := k, amount, station := p, reference, state := .captured,
               timer := s.retentionEnd, figures := { stamp := s.su.openPeriod } }

/-- Serve a CREDIT of a card known here (R47, R49). -/
def State.serveCredit (s : State) (p reference : Nat) (k : Key) (amount : Nat) : State × CreditAnswer :=
  match s.holdFor p reference with
  | some h => (s, { status := .approved, amount := some h.amount, stamp := some h.figures.stamp })
  | none =>
    match s.creditRefusal k amount with
    | some (st, room) => (s, { status := st, amount := if st = .overCap then some room else none })
    | none =>
      if s.holdsFull then (s, { status := .homeBusy })
      else (s.creditForPeer p reference k amount,
        { status := .approved, amount := some amount, stamp := some s.su.openPeriod })

/-- A CREDIT frame served, whatever its requester reference (log 51). -/
def State.serveCreditFrame (s : State) (p : Nat) (m : Msg) : State :=
  match m with
  | .credit card amount reference =>
    if amountBad amount || s.otherCard p reference card.key || s.otherKind p reference .credit then s
    else
      let r := if s.knows card then s.serveCredit p reference card.key amount else (s, { status := .unknownCard })
      (r.1.reply p (s.creditReplyMsg reference r.2)).useFree 2
  | _ => s

def execCreditFrame (s : State) : Host.Outcome State Fault Refusal :=
  .next (s.takeFrame .custodyUnit 6 s.custodyReady State.serveCreditFrame)

/-! ### ENQUIRE (R48) -/

/-- The ENQUIRE-REPLY: the balance and available amount of an ACTIVE card, and free values for a refusal (log 10). -/
def State.enquireReplyMsg (s : State) (reference : Nat) (card : CardNo) : Msg :=
  let refusal (st : XStatus) : Msg :=
    .enquireReply reference st.code (s.freeNat 0 % 4294967296) (s.freeNat 1 % 4294967296)
  match if s.knows card then s.cu.served card.key else none with
  | none => refusal .unknownCard
  | some r =>
    if r.state = .closed then refusal .cardClosed
    else .enquireReply reference XStatus.approved.code r.balance (s.cu.available card.key)

/-- An ENQUIRE frame served, whatever its requester reference (log 51). -/
def State.serveEnquireFrame (s : State) (p : Nat) (m : Msg) : State :=
  match m with
  | .enquire card reference =>
    if s.otherCard p reference card.key then s
    else (s.reply p (s.enquireReplyMsg reference card)).useFree 2
  | _ => s

def execEnquire (s : State) : Host.Outcome State Fault Refusal :=
  .next (s.takeFrame .custodyUnit 8 s.custodyReady State.serveEnquireFrame)

end Sys2Proof.Machine
end

