-- ==== Sys2Proof/Machine/Replies.lean ====
section
/-! DEFINITION. The replies taken at the redeemer (spec 04, spec 05): AUTH-REPLY, CAPTURE-REPLY, CREDIT-REPLY,
ENQUIRE-REPLY and ADVICE-REPLY frames. -/
namespace Sys2Proof.Machine

/-- The transaction that a reply of a kind matches, by reference, source and state (R61). -/
def State.matching (s : State) (reference source : Nat) (state : TxnState) : Option Txn :=
  s.br.txns.find? fun t => t.reference = reference && t.target = some source && t.state = state

/-! ### AUTH-REPLY (R62, R64) -/

/-- A transaction enters REMOTE-HELD (R62); a repeated attempt still waiting for room is dropped with its exchange. -/
def State.remoteHeld (s : State) (t : Txn) (hold : HoldId) : State :=
  (s.dropRequest t.ticket).modifyTxn t.reference fun t =>
    { t with state := .remoteHeld, hold := some hold, ticket := none, timer := some s.abandonAt }

/-- The DECLINED result of a refusing AUTH-REPLY (R62, R188, log 12). -/
def authDeclined (t : Txn) (status room : Nat) : Record :=
  match XStatus.ofCode status with
  | some .insufficient => declinedRecord .redeem t.tag .insufficient room
  | some .unknownCard => declinedRecord .redeem t.tag .unknownCard
  | some .cardClosed => declinedRecord .redeem t.tag .cardClosed
  | some .homeBusy => declinedRecord .redeem t.tag .homeBusy
  | some .overCap => declinedRecord .redeem t.tag .overCap room
  | some .approved | some .posted | some .postedShort | some .duplicate | some .notPosted | none =>
    declinedCode ReqKind.redeem.code t.tag (Config.reasonOfStatus status) 0

/-- A matched AUTH-REPLY (R62). -/
def State.authReplied (s : State) (t : Txn) (status : Nat) (hold : HoldId) (room : Nat) : State :=
  if status = XStatus.approved.code then (s.remoteHeld t hold).answer (approvedRecord t false room)
  else ((s.freeTxn t).answer (authDeclined t status room)).releaseReservation

/-- A late APPROVED is a second answer to an exchange already answered (R64). -/
def State.answeredAlready (s : State) (reference source : Nat) (hold : HoldId) : Bool :=
  s.br.txns.any fun t => t.reference = reference && t.target = some source
    && (t.state = .remoteHeld || t.state = .captureWait) && t.hold = some hold

/-- An AUTH-REPLY taken (R61, R62, R64). -/
def State.serveAuthReply (s : State) (p : Nat) (m : Msg) : State :=
  match m with
  | .authReply reference status card hold _ room =>
    match s.matching reference p .authWait with
    | some t => s.authReplied t status hold room
    | none =>
      if status = XStatus.approved.code && !s.answeredAlready reference p hold then
        s.hand p (.release card hold reference)
      else s
  | _ => s

def execAuthReply (s : State) : Host.Outcome State Fault Refusal :=
  .next (s.takeFrame .requestBroker 2 s.onLine State.serveAuthReply)

/-! ### CAPTURE-REPLY (R67, R69, R91) -/

/-- The status code carries posting figures (R67, R90). -/
def isPostingCode (status : Nat) : Bool :=
  match XStatus.ofCode status with
  | some st => st.isPosting
  | none => false

/-- A matched CAPTURE-REPLY that carries figures (R67). -/
def State.captured (s : State) (t : Txn) (p : Nat) (g : Figures) (late : Bool) : State :=
  (((s.bookFigures p g).releaseReservation).freeTxn t).answer (completedRecord t g late)

/-- A CAPTURE-REPLY that the broker does not match goes to the Advice Unit (R69, R91). -/
def State.lateCapture (s : State) (reference status p : Nat) (g : Figures) (late : Bool) : State :=
  match s.au.queue.find? fun a => a.reference = reference && a.kind = .capture && a.state ≠ .settled with
  | some a =>
    if isPostingCode status then s.settleAdvice a { status, figures := g, station := p, late } else s
  | none => s

/-- A CAPTURE-REPLY taken (R61, R67, R69); a status that the rule does not list is discarded (R188). -/
def State.serveCaptureReply (s : State) (p : Nat) (m : Msg) : State :=
  match m with
  | .captureReply reference status flags posted fee net short stamp =>
    let g : Figures := { posted, fee, net, short, stamp }
    let late := decide (flags % 2 = 1)
    match s.matching reference p .captureWait with
    | some t =>
      if isPostingCode status then s.captured t p g late
      else if status = XStatus.homeBusy.code then s.captureToAdvice t
      else s
    | none => s.lateCapture reference status p g late
  | _ => s

def execCaptureReply (s : State) : Host.Outcome State Fault Refusal :=
  .next (s.event fun s => (s.takeFrame .requestBroker 4 s.onLine State.serveCaptureReply).settle)

/-! ### CREDIT-REPLY (R73) -/

/-- A CREDIT-REPLY taken (R61, R73). -/
def State.serveCreditReply (s : State) (p : Nat) (m : Msg) : State :=
  match m with
  | .creditReply reference status amount stamp =>
    match s.matching reference p .creditWait with
    | none => s
    | some t => match XStatus.ofCode status with
      | some .approved =>
        ((s.bookCredit p amount stamp).freeTxn t).answer
          (successRecord .credit t.tag (toBytes 4 amount ++ toBytes 4 0 ++ toBytes 4 stamp))
      | some .unknownCard => s.declineTxn t .unknownCard
      | some .cardClosed => s.declineTxn t .cardClosed
      | some .homeBusy => s.declineTxn t .homeBusy
      | some .overCap => s.declineTxn t .overCap amount
      | some .insufficient | some .posted | some .postedShort | some .duplicate | some .notPosted | none => s
  | _ => s

def execCreditReply (s : State) : Host.Outcome State Fault Refusal :=
  .next (s.event fun s => (s.takeFrame .requestBroker 7 s.onLine State.serveCreditReply).settle)

/-! ### ENQUIRE-REPLY (R74) -/

/-- An ENQUIRE-REPLY taken (R61, R74). -/
def State.serveEnquireReply (s : State) (p : Nat) (m : Msg) : State :=
  match m with
  | .enquireReply reference status balance available =>
    match s.matching reference p .enquireWait with
    | none => s
    | some t => match XStatus.ofCode status with
      | some .approved =>
        (s.freeTxn t).answer (successRecord .balance t.tag (toBytes 4 balance ++ toBytes 4 available))
      | some .unknownCard => s.declineTxn t .unknownCard
      | some .cardClosed => s.declineTxn t .cardClosed
      | some .insufficient | some .homeBusy | some .overCap | some .posted | some .postedShort | some .duplicate
      | some .notPosted | none => s
  | _ => s

def execEnquireReply (s : State) : Host.Outcome State Fault Refusal :=
  .next (s.takeFrame .requestBroker 9 s.onLine State.serveEnquireReply)

/-! ### ADVICE-REPLY (R86, R89, R90) -/

/-- The advice that an ADVICE-REPLY matches (R89). -/
def State.adviceMatching (s : State) (reference source : Nat) : Option Advice :=
  s.au.queue.find? fun a => a.reference = reference && a.lastTarget = some source && a.state ≠ .settled

/-- An ADVICE-REPLY taken (R86, R89, R90). -/
def State.serveAdviceReply (s : State) (p : Nat) (m : Msg) : State :=
  match m with
  | .adviceReply reference status flags posted fee net short stamp =>
    match s.adviceMatching reference p with
    | none => s
    | some a =>
      if isPostingCode status then
        s.settleAdvice a { status, figures := { posted, fee, net, short, stamp }, station := p, late := decide (flags % 2 = 1) }
      else if status = XStatus.homeBusy.code then
        (s.dropRequest a.ticket).modifyAdvice reference fun a => a.back (.beacon p)
      else s
  | _ => s

def execAdviceReply (s : State) : Host.Outcome State Fault Refusal :=
  .next (s.event fun s => (s.takeFrame .adviceUnit 11 s.onLine State.serveAdviceReply).settle)

end Sys2Proof.Machine
end

