-- ==== Sys2Proof/Machine/Notices.lean ====
section
/-! DEFINITION. Statements received (spec 06, section 6.5) and the broadcast notices: CLOSE, BEACON, DEPART and CUSTODY
frames (spec 06, spec 09). -/
namespace Sys2Proof.Machine

/-! ### STATEMENT (R105 to R110) -/

/-- The figures of one side with their counts, in the order of a BREAK report (R189). -/
structure Side where
  gi : Nat × Nat
  fi : Nat × Nat
  ci : Nat × Nat
  gr : Nat × Nat
  fr : Nat × Nat
  cr : Nat × Nat
  deriving DecidableEq, Repr

/-- This station's side of an entry. -/
def PosEntry.side (e : PosEntry) : Side :=
  { gi := (e.gi, e.giN), fi := (e.fi, e.fiN), ci := (e.ci, e.ciN), gr := (e.gr, e.grN), fr := (e.fr, e.frN),
    cr := (e.cr, e.crN) }

/-- The side that part I and part R of a statement give. -/
def sideOfParts (i r : StatementPart) : Side :=
  { gi := (i.gross, i.grossN), fi := (i.fee, i.feeN), ci := (i.credit, i.creditN), gr := (r.gross, r.grossN),
    fr := (r.fee, r.feeN), cr := (r.credit, r.creditN) }

/-- The side that a peer must have for a MATCH: home and redeemer figures changed over (R107). -/
def Side.mirror (d : Side) : Side := { gi := d.gr, fi := d.fr, ci := d.cr, gr := d.gi, fr := d.fi, cr := d.ci }

/-- An amount and its count. -/
def figureBytes (f : Nat × Nat) : List Byte := toBytes 5 f.1 ++ toBytes 3 f.2

/-- Twelve figures of a BREAK report (R189). -/
def Side.bytes (d : Side) : List Byte :=
  figureBytes d.gi ++ figureBytes d.fi ++ figureBytes d.ci ++ figureBytes d.gr ++ figureBytes d.fr ++ figureBytes d.cr

/-- The BREAK report (R110, R189). -/
def breakRecord (period p : Nat) (entry opened : PosEntry) (theirs : Side) : Record :=
  { kind := 33
    fields := toBytes 4 period ++ toBytes 1 p ++ entry.side.bytes ++ theirs.bytes
      ++ toBytes 5 entry.lateGross ++ toBytes 5 entry.lateFee ++ toBytes 5 entry.lateCredit
      ++ toBytes 5 opened.lateGross ++ toBytes 5 opened.lateFee ++ toBytes 5 opened.lateCredit
      ++ markByte entry.missed }

/-- Change the statuses of one entry of a closing bank. -/
def State.modifyStatus (s : State) (c : Closing) (p : Nat) (f : StatementStatus → StatementStatus) : State :=
  s.setSu { s.su with closing := some { c with status := Table.modify {} c.status p f } }

/-- A BREAK report is placed in the Settlement Unit's latch (R110). -/
def State.reportBreak (s : State) (c : Closing) (p : Nat) (theirs : Side) : State :=
  s.setSu { s.su with
    latch := some (breakRecord c.period p (Table.get {} c.entries p) (s.su.openEntry p) theirs) }

/-- The compare status of a complete statement for a PENDING entry (R107); the entry itself carries no saturated mark
(R103, log 45). -/
def compareSides (entry : PosEntry) (theirs : Side) (saturated : Bool) : CompareStatus :=
  if saturated then .saturated else if theirs = entry.side.mirror then .match else .brk

/-- A complete statement is compared (R107), or is a BREAK for a NONE entry (R109). That the mark of either part alone makes
the statement saturated is the model's choice (log 44). -/
def State.compareStatement (s : State) (c : Closing) (p : Nat) (i r : StatementPart) : State :=
  let st := Table.get {} c.status p
  let theirs := sideOfParts i r
  if st.compare = .none then
    (s.modifyStatus c p fun st => { st with compare := .brk, send := .queued, part := none }).reportBreak c p theirs
  else
    let result := compareSides (Table.get {} c.entries p) theirs (i.saturated || r.saturated)
    let s1 := s.modifyStatus c p fun st => { st with compare := result, part := none }
    if result = .brk then s1.reportBreak c p theirs else s1

/-- A part of a statement for a PENDING or NONE entry (R106, first case). -/
def State.storePart (s : State) (c : Closing) (p : Nat) (x : StatementPart) : State :=
  match (Table.get {} c.status p).part with
  | none => s.modifyStatus c p fun st => { st with part := some x }
  | some y =>
    if y.redeemer = x.redeemer then s.modifyStatus c p fun st => { st with part := some x }
    else if x.redeemer then s.compareStatement c p y x
    else s.compareStatement c p x y

/-- A late STATEMENT frame is counted (R106, last case; R97). -/
def State.lateStatement (s : State) : State :=
  s.modifyCounters fun n => { n with lateStatements := satAdd countMax n.lateStatements 1 }

/-- A STATEMENT frame is classified against the banks (R106). -/
def State.classifyPart (s : State) (p period : Nat) (x : StatementPart) : State :=
  match s.su.closing with
  | none => s.lateStatement
  | some c =>
    if c.period = period then
      match (Table.get {} c.status p).compare with
      | .pending | .none => s.storePart c p x
      | .match | .brk | .saturated | .unconfirmed => s
    else s.lateStatement

/-- A STATEMENT frame taken (R105): a period that cannot have been closed is discarded, a period not yet closed here is
closed first. A part code other than I and R names no part (log 23). -/
def State.serveStatement (s : State) (p : Nat) (m : Msg) : State :=
  match m with
  | .statement part period gross fee credit grossN feeN creditN mark =>
    if periodMax ≤ period then s
    else
      let s1 := s.catchUp (period + 1)
      if 1 < part then s1
      else s1.classifyPart p period
        { redeemer := decide (part = 1), gross, fee, credit, grossN, feeN, creditN, saturated := decide (mark ≠ 0) }
  | _ => s

def execStatement (s : State) : Host.Outcome State Fault Refusal :=
  .next (s.event fun s => (s.takeFrame .settlementUnit 12 s.onLine State.serveStatement).settle)

/-! ### CLOSE (R98, R101) -/

/-- A CLOSE frame taken. -/
def State.serveClose (s : State) (_p : Nat) (m : Msg) : State :=
  match m with
  | .close period => s.catchUp period
  | _ => s

def execClose (s : State) : Host.Outcome State Fault Refusal :=
  .next (s.event fun s => (s.takeFrame .settlementUnit 13 s.hears State.serveClose).settle)

/-! ### BEACON (R164) -/

/-- The adopted list of a BEACON. -/
def BeaconData.homes (b : BeaconData) : List Nat := [b.h1, b.h2, b.h3].take b.count

/-- Each home of a list is learned with its custodian (R168). -/
def State.learnAll (s : State) (c : Nat) : List Nat → State
  | [] => s
  | h :: l => (s.learn h c c).learnAll c l

/-- A BEACON frame taken (R164). That a mode or a handover flag outside its codes is recorded as it came is the model's
choice (log 68). -/
def State.serveBeacon (s : State) (p : Nat) (m : Msg) : State :=
  match m with
  | .beacon b =>
    ((s.modifyPeer p fun e => { e with lastBeacon := some b }).catchUp b.period).learnAll p b.homes
  | _ => s

def execBeacon (s : State) : Host.Outcome State Fault Refusal :=
  .next (s.event fun s => (s.takeFrame .peerMonitor 14 s.hears State.serveBeacon).settle)

/-! ### DEPART (R161) -/

/-- A DEPART frame taken: its cause is recorded (R161). That a cause byte other than 0 and 1 is recorded as it came is the
model's choice (log 62). -/
def State.serveDepart (s : State) (p : Nat) (m : Msg) : State :=
  match m with
  | .depart cause => s.modifyPeer p fun e => { e with departure := some cause }
  | _ => s

def execDepart (s : State) : Host.Outcome State Fault Refusal :=
  .next (s.takeFrame .peerMonitor 16 s.hears State.serveDepart)

/-! ### CUSTODY (R168) -/

/-- A CUSTODY frame taken. -/
def State.serveCustody (s : State) (p : Nat) (m : Msg) : State :=
  match m with
  | .custody home custodian => s.learn home custodian p
  | _ => s

def execCustody (s : State) : Host.Outcome State Fault Refusal :=
  .next (s.event fun s => (s.takeFrame .peerMonitor 17 s.hears State.serveCustody).settle)

end Sys2Proof.Machine
end

