-- ==== Sys2Proof/Machine/Adoption.lean ====
section
/-! DEFINITION. The frames of a handover (spec 07): OFFER, CARD-TRANSFER, TRANSFER-END and ABORT-HANDOVER at the custodian,
OFFER-REPLY and TRANSFER-REPLY at the departing station. -/
namespace Sys2Proof.Machine

/-- The adoption idle limit in milliseconds (R121). -/
abbrev adoptionIdle : Nat := 10000

/-- The open adoption of a departing station (R121). -/
def State.adoptionFrom (s : State) (p : Nat) : Option Adoption :=
  match s.cu.adoption with
  | some a => if a.station = p then some a else none
  | none => none

/-! ### OFFER (R121) -/

/-- Refusal causes of an OFFER-REPLY, in the order of their tests and codes from 1 (R121; spec 12, section 12.2). -/
inductive OfferCause where
  | handingOver | busy | conflict | tooManyHomes | overCap | noRoom
  deriving DecidableEq, Repr

/-- Their codes. -/
def OfferCause.code : OfferCause → Nat
  | .handingOver => 1 | .busy => 2 | .conflict => 3 | .tooManyHomes => 4 | .overCap => 5 | .noRoom => 6

/-- The tests of an OFFER in their order (R121). -/
def State.offerRefusal (s : State) (count total highest : Nat) (homes : List Nat) : Option OfferCause :=
  if s.handing then some .handingOver
  else if s.cu.adoption.isSome then some .busy
  else if homes.any s.isHere then some .conflict
  else if Config.adoptedSlots < s.cu.adopted.length + homes.length then some .tooManyHomes
  else if s.sc.config.cardCap < highest then some .overCap
  else if s.usableSlots < count || s.cu.ledger.headroom < total then some .noRoom
  else none

/-- The homes of an OFFER: the first of its four home bytes, each home once (log 22). That a count of 0 and a byte that is
no home address are taken as they come is the model's choice (log 65). -/
def offerHomes (homeCount h1 h2 h3 h4 : Nat) : List Nat := dedupe ([h1, h2, h3, h4].take homeCount)

/-- An OFFER frame served (R121), with a home count of 0 and with a byte that is no home address as well (log 65). -/
def State.serveOffer (s : State) (p : Nat) (m : Msg) : State :=
  match m with
  | .offer count total highest homeCount h1 h2 h3 h4 =>
    let homes := offerHomes homeCount h1 h2 h3 h4
    let s1 := if (s.adoptionFrom p).isSome then s.discardAdoption .discarded else s
    match s1.offerRefusal count total highest homes with
    | some cause => s1.reply p (.offerReply 1 cause.code)
    | none =>
      (s1.setAdoption (some { station := p, homes, count, total, toCome := count, fault := false,
                              idle := s.now + adoptionIdle })).reply p (.offerReply 0 0)
  | _ => s

def execOffer (s : State) : Host.Outcome State Fault Refusal :=
  .next (s.takeFrame .custodyUnit 18 s.custodyReady State.serveOffer)

/-! ### OFFER-REPLY (R120, R123) -/

/-- TRANSFERRING is entered (R123). -/
def State.enterTransferring (s : State) (h : Handover) : State :=
  (s.dropRequest h.ticket).setHandover (some { h with
    sub := .transferring, toSend := s.offered, unacked := [], ending := false, attemptsLeft := 3, ticket := none,
    timer := none })

/-- An OFFER-REPLY frame taken: discarded unless it comes from the custodian in OFFERING (R120, R188).
That a refusal cause outside its codes is kept as it came is the model's choice (log 68). -/
def State.serveOfferReply (s : State) (p : Nat) (m : Msg) : State :=
  match m, s.cu.handover with
  | .offerReply verdict cause, some h =>
    if h.sub = .offering && h.custodian = p then
      if verdict = 0 then s.enterTransferring h
      else if verdict = 1 then (s.dropRequest h.ticket).failHandover .refused cause
      else s
    else s
  | _, _ => s

def execOfferReply (s : State) : Host.Outcome State Fault Refusal :=
  .next (s.event fun s => (s.takeFrame .custodyUnit 19 s.custodyReady State.serveOfferReply).settle)

/-! ### CARD-TRANSFER (R124) -/

/-- The record that a CARD-TRANSFER frame carries. -/
def transferCard (home serial balance issuePeriod lastActivity activity : Nat) : Card :=
  { key := { home, serial }, state := .pendingAdopt, balance, issuePeriod, lastActivity, activity }

/-- The fault mark of an adoption is set. -/
def State.adoptionFault (s : State) (a : Adoption) : State := s.setAdoption (some { a with fault := true })

/-- A transferred card is treated by the first case that applies (R124); the idle timer has been started again.
That a serial outside 1 to 99,999 and a period of 0 are stored as they come is the model's choice (log 66). -/
def State.storeTransferred (s : State) (a : Adoption) (r : Card) : State :=
  if s.cu.record r.key = some r then s
  else if (s.cu.record r.key).isSome || s.sc.config.cardCap < r.balance then s.adoptionFault a
  else match s.makeRoom with
    | none => s.adoptionFault a
    | some s1 => (s1.setCu { s1.cu with cards := s1.cu.cards ++ [r] }).setAdoption
        (some { a with toCome := a.toCome - 1 })

/-- A CARD-TRANSFER frame served. -/
def State.serveCardTransfer (s : State) (p : Nat) (m : Msg) : State :=
  match m with
  | .cardTransfer home serial balance issuePeriod lastActivity activity =>
    match s.adoptionFrom p with
    | none => s
    | some a =>
      if a.homes.contains home then
        let a1 := { a with idle := s.now + adoptionIdle }
        (s.setAdoption (some a1)).storeTransferred a1
          (transferCard home serial balance issuePeriod lastActivity activity)
      else s
  | _ => s

def execCardTransfer (s : State) : Host.Outcome State Fault Refusal :=
  .next (s.takeFrame .custodyUnit 20 s.custodyReady State.serveCardTransfer)

/-! ### TRANSFER-END (R126, R127, R133) -/

/-- The PENDING-ADOPT records. -/
def State.pendingCards (s : State) : List Card := s.cu.cards.filter fun r => r.state = .pendingAdopt

/-- The conditions of a commit (R126). -/
def State.mayCommit (s : State) (a : Adoption) (count total : Nat) : Bool :=
  !a.fault && s.pendingCards.length = count && a.count = count && sumOf (·.balance) s.pendingCards = total
    && a.total = total && total ≤ s.cu.ledger.headroom

/-- The last-adoption record answers COMMIT again (R126). -/
def State.committedBefore (s : State) (p count total : Nat) : Bool :=
  s.cu.lastAdoption = some { station := p, count, total, outcome := .commit }

/-- A TRANSFER-END frame served: 0 is COMMIT and 1 is MISMATCH. -/
def State.serveTransferEnd (s : State) (p : Nat) (m : Msg) : State :=
  match m with
  | .transferEnd count total =>
    match s.adoptionFrom p with
    | some a =>
      if s.mayCommit a count total then (s.commitAdoption a).reply p (.transferReply 0)
      else (s.discardAdoption .mismatch).reply p (.transferReply 1)
    | none => s.reply p (.transferReply (if s.committedBefore p count total then 0 else 1))
  | _ => s

def execTransferEnd (s : State) : Host.Outcome State Fault Refusal :=
  .next (s.event fun s => (s.takeFrame .custodyUnit 21 s.custodyReady State.serveTransferEnd).settle)

/-! ### TRANSFER-REPLY (R123, R128) -/

/-- A TRANSFER-REPLY frame taken: discarded unless it comes from the custodian while TRANSFER-END is outstanding
(R123, R188, log 34). -/
def State.serveTransferReply (s : State) (p : Nat) (m : Msg) : State :=
  match m, s.cu.handover with
  | .transferReply verdict, some h =>
    if h.sub = .transferring && h.ending && h.custodian = p then
      if verdict = 0 then s.completeHandover
      else if verdict = 1 then s.failHandover .mismatch 0
      else s
    else s
  | _, _ => s

def execTransferReply (s : State) : Host.Outcome State Fault Refusal :=
  .next (s.event fun s => (s.takeFrame .custodyUnit 22 s.custodyReady State.serveTransferReply).settle)

/-! ### ABORT-HANDOVER (R131) -/

/-- An ABORT-HANDOVER frame taken. -/
def State.serveAbort (s : State) (p : Nat) (m : Msg) : State :=
  match m with
  | .abortHandover => if (s.adoptionFrom p).isSome then s.discardAdoption .discarded else s
  | _ => s

def execAbortHandover (s : State) : Host.Outcome State Fault Refusal :=
  .next (s.takeFrame .custodyUnit 23 s.custodyReady State.serveAbort)

end Sys2Proof.Machine
end

