-- ==== Sys2Proof/Machine/LineSend.lean ====
section
/-! DEFINITION. Sending on the mall line (spec 08, sections 8.3 to 8.5 and 8.10): BUS_FREE, SEND_END, CLASH_MISMATCH,
STUCK and STUCK_END, with what the owners of frames do on the Line Controller's reports (R144). -/
namespace Sys2Proof.Machine

/-! ### BUS_FREE (R140, R141, R150, R153) -/

/-- The line state lets this station take part: it is neither OFF nor STUCK. -/
def State.lineUp (s : State) : Bool := s.lineState = .active || s.lineState = .listenOnly

/-- The first eligible frame, where the line state is ACTIVE (R140, R150). -/
def State.startable (s : State) : Option OutFrame :=
  if s.lineState = .active then s.lc.outbound.find? s.eligible else none

/-- The 20 ms of a departure step are over (R184). -/
def State.departureOver (s : State) : Bool :=
  match s.sc.departure with
  | some t => t < s.now
  | none => false

/-- The arbitration value of a class and a source (spec 08, section 8.2). -/
def arbitration (cls source : Nat) : Nat := cls * 256 + source

/-- The frame as a send of it goes out with a sequence number (R136, R153). -/
def State.rawFrame (s : State) (f : OutFrame) (sequence : Nat) : RawFrame :=
  { cls := f.msg.cls, source := s.own, dest := f.dest, kind := f.msg.kind, sequence, payload := f.msg.encode }

/-- What the line is from now on. -/
def State.setActivity (s : State) (a : LineActivity) : State := s.setLc { s.lc with activity := a }

/-- A frame wins the arbitration field: the sequence counter rises and the send begins (R144, R153). -/
def State.winLine (s : State) (f : OutFrame) : State :=
  let sequence := (s.lc.sequence + 1) % 256
  s.setLc { s.lc with
    sequence
    activity := .sending { ticket := f.ticket, dest := f.dest, kind := f.msg.kind,
                           levels := (s.rawFrame f sequence).sentLevels } }

/-- A start of this station's frame against what the others do (R141). -/
def State.contend (s : State) (f : OutFrame) (c : Contention) : State :=
  match c with
  | .alone => s.winLine f
  | .rival cls source =>
    if arbitration cls source < arbitration f.msg.cls s.own then s.setActivity .receiving else s.winLine f
  | .brokenFlag => s.setActivity .busy

/-- The line where this station starts nothing (R138, R140). -/
def State.standBy (s : State) (m : StartMoment) (c : Contention) : State :=
  match c with
  | .alone => s.setActivity (if m = .otherFlag then .receiving else .free)
  | .rival _ _ => s.setActivity .receiving
  | .brokenFlag => s.setActivity .busy

/-- A moment at which a station may start (R140). -/
def State.startMoment (s : State) (m : StartMoment) : Bool :=
  s.lineUp && match s.lc.activity with
    | .free => true
    | .busy | .receiving => m = .busFree
    | .sending _ => false

/-- BUS_FREE: the first eligible frame is started, contends, and begins its send or waits (R140, R141). A DEPART of the
departure step starts within its 20 ms only (R184). -/
def execBusFree (m : StartMoment) (c : Contention) (s : State) : Host.Outcome State Fault Refusal :=
  .next (if s.startMoment m then
      if s.departureOver then s.enterRetain .notSentLine
      else match s.startable with
        | some f => s.contend f c
        | none => s.standBy m c
    else s)

/-! ### Reports to the owners (R144) -/

/-- The transaction whose request frame this is, if it still waits for the report. -/
def State.txnOfTicket (s : State) (ticket : Nat) : Option Txn := s.br.txns.find? fun t => t.ticket = some ticket

/-- The advice whose ADVICE frame this is, if it still waits for the report. -/
def State.adviceOfTicket (s : State) (ticket : Nat) : Option Advice := s.au.queue.find? fun a => a.ticket = some ticket

/-- The handover whose OFFER, TRANSFER-END or DEPART frame this is. -/
def State.handoverOfTicket (s : State) (ticket : Nat) : Option Handover :=
  match s.cu.handover with
  | some h => if h.ticket = some ticket then some h else none
  | none => none

/-- The owner is told ACKNOWLEDGED: reply timers start (R60, R84, R120, R123) and card transfers are counted off (R123). -/
def State.acknowledged (s : State) (f : OutFrame) : State :=
  match f.msg with
  | .auth .. | .capture .. | .credit .. | .enquire .. =>
    match s.txnOfTicket f.ticket with
    | some t => s.modifyTxn t.reference fun t => { t with ticket := none, timer := some (s.now + t.replyTimeout) }
    | none => s
  | .advice .. =>
    match s.adviceOfTicket f.ticket with
    | some a => s.modifyAdvice a.reference fun a => { a with ticket := none, timer := some (s.now + s.replyTimeout) }
    | none => s
  | .offer .. | .transferEnd .. =>
    match s.handoverOfTicket f.ticket with
    | some h => s.setHandover (some { h with ticket := none, timer := some (s.now + h.replyTimeout) })
    | none => s
  | .cardTransfer .. =>
    match s.cu.handover with
    | some h => s.setHandover (some { h with unacked := h.unacked.filter fun n => n ≠ f.ticket })
    | none => s
  | .authReply .. | .captureReply .. | .release .. | .creditReply .. | .enquireReply .. | .adviceReply ..
  | .statement .. | .close .. | .beacon .. | .pause .. | .depart .. | .custody .. | .offerReply .. | .transferReply ..
  | .abortHandover => s

/-- An attempt of TRANSFER-END fails (R123): one failed exchange and the next attempt, or NO-REPLY when the attempts are
exhausted (log 18). -/
def State.failTransferEnd (s : State) (h : Handover) : State :=
  if h.attemptsLeft = 0 then (s.failHandover .noReply 0).failedExchange h.custodian
  else
    let s1 := (s.setHandover (some { h with ticket := none, timer := none })).failedExchange h.custodian
    if s1.cu.handover.isSome then s1.sendTransferEnd else s1

/-- A statement part of a round that still runs is undeliverable (R104). That the other part keeps its place on the wait
list, and holds the next statement back until it is placed, is the model's choice (log 52). -/
def State.statementUndeliverable (s : State) (p period : Nat) : State :=
  match s.su.closing with
  | some c =>
    if c.period = period then
      (s.setSu { s.su with closing := some { c with
        status := Table.modify {} c.status p fun st => { st with send := .undeliverable } } }).failedExchange p
    else s
  | none => s

/-- The owner is told UNDELIVERABLE (R144). -/
def State.undeliverable (s : State) (f : OutFrame) : State :=
  match f.msg with
  | .auth .. | .capture .. | .credit .. | .enquire .. =>
    match s.txnOfTicket f.ticket with
    | some t => s.failAttempt t
    | none => s
  | .release .. => s.failedExchange f.dest
  | .advice .. =>
    match s.adviceOfTicket f.ticket with
    | some a => s.failAdvice a
    | none => s
  | .statement _ period .. => s.statementUndeliverable f.dest period
  | .offer .. =>
    match s.handoverOfTicket f.ticket with
    | some h => (s.failHandover .undeliverable 0).failedExchange h.custodian
    | none => s
  | .cardTransfer .. =>
    match s.cu.handover with
    | some h =>
      if h.unacked.contains f.ticket then (s.failHandover .undeliverable 0).failedExchange h.custodian else s
    | none => s
  | .transferEnd .. =>
    match s.handoverOfTicket f.ticket with
    | some h => s.failTransferEnd h
    | none => s
  | .authReply .. | .captureReply .. | .creditReply .. | .enquireReply .. | .adviceReply .. | .close .. | .beacon ..
  | .pause .. | .depart .. | .custody .. | .offerReply .. | .transferReply .. | .abortHandover => s

/-- The owner is told SENT or DROPPED: the DEPART of ANNOUNCING has gone (R129); no other owner acts. -/
def State.broadcastGone (s : State) (f : OutFrame) : State :=
  match f.msg, s.handoverOfTicket f.ticket with
  | .depart _, some h => if h.sub = .announcing then s.retire else s
  | _, _ => s

/-- A frame goes to all stations. -/
def OutFrame.isBroadcast (f : OutFrame) : Bool := f.dest = 255

/-- A send ends without reaching its slot, or a unicast send finds its slot recessive (R144). -/
def State.failSend (s : State) (f : OutFrame) : State :=
  if f.sends + 1 < Config.maxSends then
    s.setLc { s.lc with
      outbound := updateWhere (fun g => g.ticket = f.ticket) (fun g => { g with sends := g.sends + 1 }) s.lc.outbound }
  else
    let s1 := s.removeFrame f.ticket
    if f.isBroadcast then s1.broadcastGone f else s1.undeliverable f

/-- A send reaches its slot (R144). -/
def State.endSend (s : State) (f : OutFrame) (dominant : Bool) : State :=
  if f.isBroadcast then (s.removeFrame f.ticket).broadcastGone f
  else if dominant then (s.removeFrame f.ticket).acknowledged f
  else s.failSend f

/-- The frame of the send in progress. -/
def State.sent (s : State) (x : Sending) : Option OutFrame := s.lc.outbound.find? fun f => f.ticket = x.ticket

/-- The beacon interval runs from now (R163). -/
def State.restartBeacon (s : State) : State := s.setPm { s.pm with beaconFrom := some s.now }

/-! ### SEND_END (R144, R184) -/

/-- SEND_END while blocks take events. -/
def State.slotReached (s : State) (x : Sending) (dominant : Bool) : State :=
  match s.sent x with
  | some f => (s.lineBusy.restartBeacon.endSend f dominant).settle
  | none => s.lineBusy.restartBeacon

/-- A send reaches its slot. In WARNED the DEPART of the departure step ends the step, and any other send only ends
(R184, log 25). -/
def execSendEnd (dominant : Bool) (s : State) : Host.Outcome State Fault Refusal :=
  .next (match s.lc.activity with
    | .sending x =>
      if s.live then s.slotReached x dominant
      else if s.departStarted then (s.lineBusy.removeFrame x.ticket).enterRetain .sent
      else s.lineBusy
    | .busy | .free | .receiving => s)

/-! ### CLASH_MISMATCH (R145, R146) -/

/-- An aborted send while blocks take events. -/
def State.sendAborted (s : State) (x : Sending) : State :=
  let s1 := s.lineBusy.clash 0 x.kind x.dest
  match s.sent x with
  | some f => (s1.failSend f).settle
  | none => s1

/-- A send is aborted by a clash. In WARNED a clash of the DEPART ends the departure step (R184). -/
def execClashMismatch (s : State) : Host.Outcome State Fault Refusal :=
  .next (match s.lc.activity with
    | .sending x =>
      if s.live then s.sendAborted x
      else if s.departStarted then s.lineBusy.enterRetain .notSentLine
      else s.lineBusy
    | .busy | .free | .receiving => s)

/-! ### STUCK and STUCK_END (R155) -/

/-- The LINE-STUCK report (R155, R189): phase 0 START, 1 END. -/
def stuckRecord (phase duration : Nat) : Record := { kind := 37, fields := toBytes 1 phase ++ toBytes 4 duration }

/-- The line state becomes STUCK. The duration in a START report is a free value (log 13). -/
def State.enterStuck (s : State) : State :=
  (s.setLc { s.lc with
    stuckSince := some s.now, activity := .busy, ackDriven := false
    latch := some (stuckRecord 0 (s.freeNat 0 % 4294967296)) }).useFree 1

/-- A send in progress is cut off (R144, R155). -/
def State.cutOff (s : State) (a : LineActivity) : State :=
  match a with
  | .sending x =>
    match s.sent x with
    | some f => s.failSend f
    | none => s
  | .busy | .free | .receiving => s

/-- 512 dominant bit times in a row (R155). In WARNED the departure step ends (R184). -/
def execStuck (s : State) : Host.Outcome State Fault Refusal :=
  .next (if s.lineUp then
      if s.live then (s.enterStuck.cutOff s.lc.activity).settle else s.enterRetain .notSentLine
    else s)

/-- STUCK ends at bus free (R155); in WARNED no report is placed. That a duration past its 4 bytes is taken modulo 2^32 is
the model's choice (log 54). -/
def State.leaveStuck (s : State) (since : Nat) : State :=
  s.setLc { s.lc with
    stuckSince := none
    activity := .free
    latch := if s.live then some (stuckRecord 1 ((s.now - since) % 4294967296)) else s.lc.latch }

/-- The line has been recessive for 11 bit times in STUCK. -/
def execStuckEnd (s : State) : Host.Outcome State Fault Refusal :=
  .next (match s.lc.stuckSince with
    | some t => if s.lineState = .stuck then s.leaveStuck t else s
    | none => s)

end Sys2Proof.Machine
end

