-- ==== Sys2Proof/Machine/Timers.lean ====
section
/-! DEFINITION. The steps that a timer brings about. Each takes the station clock to the timer's instant at least (log 2);
where its timer does not run the step cannot occur, and nothing changes (log 3). -/
namespace Sys2Proof.Machine

/-! ### Holds (R37, R50) -/

/-- The entry with an id, in a state. -/
def State.holdIn (s : State) (id : HoldId) (st : HoldState) : Option Hold :=
  s.cu.holds.find? fun h => h.id = id && h.state = st

/-- The timer of an entry runs out and the entry leaves the table (R37, R50). -/
def State.holdTimer (s : State) (id : HoldId) (st : HoldState) : State :=
  match s.holdIn id st with
  | some h => ((s.reach h.timer).removeHold id).settle
  | none => s

/-- A HELD hold expires (R37). -/
def execHoldExpiry (id : HoldId) (s : State) : Host.Outcome State Fault Refusal :=
  .next (s.event fun s => s.holdTimer id .held)

/-- The retention of a CAPTURED entry ends (R50). -/
def execRetentionEnd (id : HoldId) (s : State) : Host.Outcome State Fault Refusal :=
  .next (s.event fun s => s.holdTimer id .captured)

/-! ### Transactions (R60, R72) -/

/-- The states in which a transaction's exchange waits for a reply. -/
def TxnState.waiting : TxnState → Bool
  | .authWait | .captureWait | .creditWait | .enquireWait => true
  | .localHeld | .remoteHeld | .standinHeld => false

/-- The transaction with a reference whose timer runs, waiting for a reply or for the till, and the timer's instant. -/
def State.timedTxn (s : State) (reference : Nat) (waiting : Bool) : Option (Txn × Nat) :=
  match s.txnFor reference with
  | some t => match t.timer with
    | some at_ => if t.state.waiting = waiting then some (t, at_) else none
    | none => none
  | none => none

/-- The reply timer of an attempt runs out (R60). -/
def execReplyTimeout (reference : Nat) (s : State) : Host.Outcome State Fault Refusal :=
  .next (s.event fun s => match s.timedTxn reference true with
    | some (t, at_) => ((s.reach at_).failAttempt t).settle
    | none => s)

/-- The abandonment timer of a transaction runs out (R72). -/
def execAbandonmentTimer (reference : Nat) (s : State) : Host.Outcome State Fault Refusal :=
  .next (s.event fun s => match s.timedTxn reference false with
    | some (t, at_) => ((s.reach at_).voidTxn t true).settle
    | none => s)

/-! ### Advices (R85) -/

/-- The reply timer of an advice attempt runs out (R85). -/
def execAdviceReplyTimeout (reference : Nat) (s : State) : Host.Outcome State Fault Refusal :=
  .next (s.event fun s => match s.adviceFor reference with
    | some a => match a.timer with
      | some at_ => if a.state = .inDelivery then ((s.reach at_).failAdvice a).settle else s
      | none => s
    | none => s)

/-! ### Rounds (R112) -/

/-- The statement window runs out (R112). -/
def execStatementWindow (s : State) : Host.Outcome State Fault Refusal :=
  .next (s.event fun s => match s.su.window with
    | some at_ => (s.reach at_).forcedFinish.settle
    | none => s)

/-! ### Handover and adoption (R118, R120, R123, R125) -/

/-- The handover in a sub-state whose timer runs, and the timer's instant. -/
def State.timedHandover (s : State) (sub : SubState) : Option (Handover × Nat) :=
  match s.cu.handover with
  | some h => match h.timer with
    | some at_ => if h.sub = sub then some (h, at_) else none
    | none => none
  | none => none

/-- The drain limit runs out (R118). -/
def execDrainLimit (s : State) : Host.Outcome State Fault Refusal :=
  .next (s.event fun s => match s.timedHandover .draining with
    | some (_, at_) => ((s.reach at_).failHandover .notDrained 0).settle
    | none => s)

/-- The OFFER's reply timer runs out (R120). -/
def execOfferReplyTimeout (s : State) : Host.Outcome State Fault Refusal :=
  .next (s.event fun s => match s.timedHandover .offering with
    | some (h, at_) => (((s.reach at_).failHandover .noReply 0).failedExchange h.custodian).settle
    | none => s)

/-- The reply timer of a TRANSFER-END attempt runs out (R123). -/
def execTransferEndTimeout (s : State) : Host.Outcome State Fault Refusal :=
  .next (s.event fun s => match s.timedHandover .transferring with
    | some (h, at_) => ((s.reach at_).failTransferEnd h).settle
    | none => s)

/-- The idle timer of an open adoption runs out (R125). -/
def execAdoptionIdleLimit (s : State) : Host.Outcome State Fault Refusal :=
  .next (s.event fun s => match s.cu.adoption with
    | some a => (s.reach a.idle).discardAdoption .discarded
    | none => s)

/-! ### Pause (R151, R152) -/

/-- The pause guard runs out; another PAUSE is handed if the inbound queue is still filling (R151). -/
def execPauseGuard (s : State) : Host.Outcome State Fault Refusal :=
  .next (s.event fun s => match s.lc.pauseGuard with
    | some at_ =>
      let s1 := s.reach at_
      (s1.setLc { s1.lc with pauseGuard := none }).pauseIfFull
    | none => s)

/-- An entry of the pause list ends (R152). -/
def execPauseEnd (a : Nat) (s : State) : Host.Outcome State Fault Refusal :=
  .next (s.event fun s => match s.pauseEndOf a with
    | some at_ =>
      let s1 := s.reach at_
      (s1.setLc { s1.lc with pauses := s1.lc.pauses.filter fun e => e.1 ≠ a }).settle
    | none => s)

/-! ### Presence (R159) -/

/-- A PRESENT peer's silence reaches three beacon intervals (R159). -/
def execQuiet (p : Nat) (s : State) : Host.Outcome State Fault Refusal :=
  .next (s.event fun s => match (s.peerAt p).lastHeard with
    | some t =>
      if (s.peerAt p).presence = .present then
        (s.reach (t + 3 * s.beaconInterval)).modifyPeer p fun e => { e with presence := .quiet }
      else s
    | none => s)

/-- A PRESENT or QUIET peer's silence reaches ten beacon intervals (R159, R161). -/
def execAbsent (p : Nat) (s : State) : Host.Outcome State Fault Refusal :=
  .next (s.event fun s => match (s.peerAt p).lastHeard with
    | some t =>
      if (s.peerAt p).presence.reachable then ((s.reach (t + 10 * s.beaconInterval)).makeAbsent p).settle else s
    | none => s)

/-! ### Beacons (R163) -/

/-- A BEACON is handed; its contents are read when it is placed. -/
def State.handBeacon (s : State) : State := s.broadcast (.beacon s.beaconData)

/-- The instant at which a BEACON falls due, while the beacon timer runs and no BEACON of its own waits (R163). -/
def State.beaconDue (s : State) : Option Nat :=
  if s.onLine && !s.hasOwn 14 then s.pm.beaconFrom.map (· + s.beaconInterval) else none

/-- The beacon interval has passed without a send that reached its slot (R163). -/
def execBeaconTimer (s : State) : Host.Outcome State Fault Refusal :=
  .next (s.event fun s => match s.beaconDue with
    | some at_ => (s.reach at_).handBeacon
    | none => s)

/-! ### The load monitor (R165) -/

/-- The other mode. -/
def Mode.other : Mode → Mode
  | .normal => .busy
  | .busy => .normal

/-- A window with this count raises the run in the mode (R165). -/
def ConfigRecord.raisesRun (c : ConfigRecord) (m : Mode) (count : Nat) : Bool :=
  match m with
  | .normal => c.upper ≤ count
  | .busy => count ≤ c.lower

/-- The counts of a run in a MODE report, two bytes each. -/
def runBytes : List Nat → List Byte
  | [] => []
  | n :: l => toBytes 2 n ++ runBytes l

/-- The MODE report (R165, R189). -/
def modeRecord (m : Mode) (run : List Nat) : Record :=
  { kind := 36, fields := toBytes 1 m.code ++ toBytes 1 run.length ++ runBytes run }

/-- The run after a window (R165). -/
def State.runAfter (s : State) : List Nat :=
  if s.sc.config.raisesRun s.pm.mode s.pm.windowCount then s.pm.run ++ [s.pm.windowCount] else []

/-- The run reaches the dwell, and the mode changes (R165). -/
def State.dwellReached (s : State) : Bool := s.sc.config.dwell ≤ s.runAfter.length

/-- The window that ends at `t` is judged and the next one opens (R165). -/
def State.judgeWindow (s : State) (t : Nat) : State :=
  s.setPm { s.pm with
    mode := if s.dwellReached then s.pm.mode.other else s.pm.mode
    run := if s.dwellReached then [] else s.runAfter
    latch := if s.dwellReached then some (modeRecord s.pm.mode.other s.runAfter) else s.pm.latch
    window := some (t + 1000)
    windowCount := 0
    lastWindow := s.pm.windowCount }

/-- The silence test for each of a list of peers (R159). -/
def State.silenceTests (s : State) : List Nat → State
  | [] => s
  | p :: l => (s.silenceTest p).silenceTests l

/-- What a change of mode brings about at once: presence against the new interval (R159), a BEACON that is already due
(R163). -/
def State.modeChanged (s : State) : State :=
  let s1 := s.silenceTests (s.pm.peers.map (·.1))
  match s1.beaconDue with
  | some t => if t ≤ s1.now then s1.handBeacon else s1
  | none => s1

/-- A load window ends (R165). -/
def execLoadWindow (s : State) : Host.Outcome State Fault Refusal :=
  .next (s.event fun s => match s.pm.window with
    | some t =>
      let s1 := (s.reach t).judgeWindow t
      if s.dwellReached then s1.modeChanged.settle else s1
    | none => s)

/-! ### The end of listening (R170) -/

/-- The station becomes JOINED (R170): a BEACON is handed, the beacon timer starts (log 24), a resumed round's statement
window starts (R111, R116), LOCAL hold-offs clear (R88). -/
def State.becomeJoined (s : State) : State :=
  let s1 := s.setSc { s.sc with station := .joined, listenTimer := none }
  let s2 := s1.restartBeacon.handBeacon
  let s3 := if s2.su.closing.isSome && s2.su.window.isNone then s2.setSu { s2.su with window := some s2.windowEnd } else s2
  s3.clearLocal

/-- The listen timer runs out (R170). -/
def execListenTimer (s : State) : Host.Outcome State Fault Refusal :=
  .next (s.event fun s => match s.sc.listenTimer with
    | some at_ => if s.sc.station = .listening then ((s.reach at_).becomeJoined).settle else s
    | none => s)

end Sys2Proof.Machine
end

