-- ==== Sys2Proof/Machine/Dispatch.lean ====
section
/-! DEFINITION. One arm for each command: a direct call of its meaning. -/
namespace Sys2Proof.Machine

def exec (i : Instr) (s : State) : Host.Outcome State Fault Refusal :=
  match i with
  | .write bytes => Sys2Proof.Machine.execWrite bytes s
  | .read clocked => Sys2Proof.Machine.execRead clocked s
  | .peek code => Sys2Proof.Machine.execPeek code s
  | .issue => Sys2Proof.Machine.execIssue s
  | .balance => Sys2Proof.Machine.execBalance s
  | .redeem => Sys2Proof.Machine.execRedeem s
  | .complete => Sys2Proof.Machine.execComplete s
  | .void => Sys2Proof.Machine.execVoid s
  | .creditRequest => Sys2Proof.Machine.execCreditRequest s
  | .cashout => Sys2Proof.Machine.execCashout s
  | .closePeriod => Sys2Proof.Machine.execClosePeriod s
  | .handover => Sys2Proof.Machine.execHandover s
  | .status => Sys2Proof.Machine.execStatus s
  | .peer => Sys2Proof.Machine.execPeer s
  | .readPosition => Sys2Proof.Machine.execReadPosition s
  | .readFloat => Sys2Proof.Machine.execReadFloat s
  | .configure => Sys2Proof.Machine.execConfigure s
  | .join => Sys2Proof.Machine.execJoin s
  | .restart straps => Sys2Proof.Machine.execRestart straps s
  | .badValueRequest => Sys2Proof.Machine.execBadValueRequest s
  | .payout => Sys2Proof.Machine.execPayout s
  | .adviceSettled => Sys2Proof.Machine.execAdviceSettled s
  | .reportLatchPlaced => Sys2Proof.Machine.execReportLatchPlaced s
  | .frameHeard levels => Sys2Proof.Machine.execFrameHeard levels s
  | .frameDiscarded what => Sys2Proof.Machine.execFrameDiscarded what s
  | .heardOwn levels => Sys2Proof.Machine.execHeardOwn levels s
  | .auth => Sys2Proof.Machine.execAuth s
  | .capture => Sys2Proof.Machine.execCapture s
  | .release => Sys2Proof.Machine.execRelease s
  | .creditFrame => Sys2Proof.Machine.execCreditFrame s
  | .enquire => Sys2Proof.Machine.execEnquire s
  | .advice => Sys2Proof.Machine.execAdvice s
  | .authReply => Sys2Proof.Machine.execAuthReply s
  | .captureReply => Sys2Proof.Machine.execCaptureReply s
  | .creditReply => Sys2Proof.Machine.execCreditReply s
  | .enquireReply => Sys2Proof.Machine.execEnquireReply s
  | .adviceReply => Sys2Proof.Machine.execAdviceReply s
  | .statement => Sys2Proof.Machine.execStatement s
  | .close => Sys2Proof.Machine.execClose s
  | .beacon => Sys2Proof.Machine.execBeacon s
  | .depart => Sys2Proof.Machine.execDepart s
  | .custody => Sys2Proof.Machine.execCustody s
  | .offer => Sys2Proof.Machine.execOffer s
  | .offerReply => Sys2Proof.Machine.execOfferReply s
  | .cardTransfer => Sys2Proof.Machine.execCardTransfer s
  | .transferEnd => Sys2Proof.Machine.execTransferEnd s
  | .transferReply => Sys2Proof.Machine.execTransferReply s
  | .abortHandover => Sys2Proof.Machine.execAbortHandover s
  | .busFree moment contention => Sys2Proof.Machine.execBusFree moment contention s
  | .sendEnd dominant => Sys2Proof.Machine.execSendEnd dominant s
  | .clashMismatch => Sys2Proof.Machine.execClashMismatch s
  | .stuck => Sys2Proof.Machine.execStuck s
  | .stuckEnd => Sys2Proof.Machine.execStuckEnd s
  | .holdExpiry hold => Sys2Proof.Machine.execHoldExpiry hold s
  | .retentionEnd hold => Sys2Proof.Machine.execRetentionEnd hold s
  | .replyTimeout reference => Sys2Proof.Machine.execReplyTimeout reference s
  | .abandonmentTimer reference => Sys2Proof.Machine.execAbandonmentTimer reference s
  | .adviceReplyTimeout reference => Sys2Proof.Machine.execAdviceReplyTimeout reference s
  | .statementWindow => Sys2Proof.Machine.execStatementWindow s
  | .drainLimit => Sys2Proof.Machine.execDrainLimit s
  | .offerReplyTimeout => Sys2Proof.Machine.execOfferReplyTimeout s
  | .transferEndTimeout => Sys2Proof.Machine.execTransferEndTimeout s
  | .adoptionIdleLimit => Sys2Proof.Machine.execAdoptionIdleLimit s
  | .pauseGuard => Sys2Proof.Machine.execPauseGuard s
  | .pauseEnd station => Sys2Proof.Machine.execPauseEnd station s
  | .quiet station => Sys2Proof.Machine.execQuiet station s
  | .absent station => Sys2Proof.Machine.execAbsent station s
  | .beaconTimer => Sys2Proof.Machine.execBeaconTimer s
  | .loadWindow => Sys2Proof.Machine.execLoadWindow s
  | .listenTimer => Sys2Proof.Machine.execListenTimer s
  | .supplyWarning => Sys2Proof.Machine.execSupplyWarning s
  | .departureLimit => Sys2Proof.Machine.execDepartureLimit s
  | .supplyReturn straps held => Sys2Proof.Machine.execSupplyReturn straps held s
  | .powerUp straps held => Sys2Proof.Machine.execPowerUp straps held s
  | .resetPin straps warning => Sys2Proof.Machine.execResetPin straps warning s

end Sys2Proof.Machine
end

