-- ==== Sys2Proof/Safety.lean ====
section
/-! DEFINITION. What the statements about the station are said with: when a step can occur, the bounds of the queues,
lists and tables and the canonical form of the tables by address (spec 00, section 8; R16, R31, R53, R76, R115, R167, R173,
R174), and what the Custody Unit keeps true of its cards, holds and ledger (R4, R13, R118, R120). -/
namespace Sys2Proof.Machine

/-! ### When a step can occur -/

/-- Intake can take the head record `r`, a whole record of kind `k` (R173, R176). -/
abbrev State.HeadIs (s : State) (k : ReqKind) (r : Request) (rest : List Request) : Prop :=
  s.live = true ∧ s.slotFree = true ∧ s.sourceWaits = false ∧ s.till.requests = r :: rest ∧ r.kind = k.code
    ∧ r.fields.length = k.length

/-- Intake takes `r` and hands it to its owner, for the table of R176 serves it. -/
abbrev State.Serves (s : State) (k : ReqKind) (r : Request) (rest : List Request) : Prop :=
  s.HeadIs k r rest ∧ k.served s.sc.station = true

/-- The frame `m` from `src` is the oldest inbound frame of its owner `o`, with `before` ahead of it and `after` behind
(R148). -/
abbrev State.Holds (s : State) (o : Owner) (src : Nat) (m : Msg) (before after : List InFrame) : Prop :=
  s.live = true ∧ s.lc.inbound = before ++ { source := src, msg := m } :: after ∧ (∀ g ∈ before, g.msg.owner ≠ o)
    ∧ m.owner = o

/-- The inbound queue is `q`. -/
def State.withInbound (s : State) (q : List InFrame) : State := s.setLc { s.lc with inbound := q }

/-- The command that serves a request kind. -/
def ReqKind.command (p : Straps) : ReqKind → Instr
  | .issue => .issue | .balance => .balance | .redeem => .redeem | .complete => .complete | .void => .void
  | .credit => .creditRequest | .cashout => .cashout | .closePeriod => .closePeriod | .handover => .handover
  | .status => .status | .peer => .peer | .readPosition => .readPosition | .readFloat => .readFloat
  | .configure => .configure | .join => .join | .restart => .restart p

/-- The steps of these request kinds end with what they make due. -/
def ReqKind.settles : ReqKind → Bool
  | .complete | .void | .closePeriod | .handover => true
  | .issue | .balance | .redeem | .credit | .cashout | .status | .peer | .readPosition | .readFloat | .configure
  | .join | .restart => false

/-- The state after a request's slot is filled with `x`, its record gone from the queue (R173, R174). -/
def State.answered (s : State) (rest : List Request) (x : Record) : State :=
  s.setTill { s.till with requests := rest, results := s.till.results ++ [x] }

/-! ### Transactions -/

/-- The transaction that a request for another station's card opens, its first attempt handed (R54, R55, R59, R60). -/
def State.exchangeTxn (s : State) (r : Request) (kind : TxnKind) (card : CardNo) (amount : Nat) (state : TxnState) : Txn where
  reference := s.freshReference
  tag := r.tag
  kind := kind
  card := card
  amount := amount
  approved := amount
  target := some (s.custodianOf card.home)
  mode := s.pm.mode
  replyTimeout := s.replyTimeout
  attempts := s.attempts
  attemptsLeft := (if (s.peerAt (s.custodianOf card.home)).degraded then 1 else s.attempts) - 1
  ticket := some s.ticket
  state := state

/-- The transaction table with one more transaction, the reference counter past its reference (R53, R54). -/
def State.withTxn (s : State) (t : Txn) : State :=
  s.setBr { s.br with txns := s.br.txns ++ [t], refCounter := if 65535 ≤ t.reference then 1 else t.reference + 1 }

/-- The transaction table without the transaction of a reference. -/
def State.withoutTxn (s : State) (reference : Nat) : State :=
  s.setBr { s.br with txns := s.br.txns.filter fun x => x.reference ≠ reference }

/-- The transaction that a COMPLETE or a VOID names: it waits for the till in state `st`, with no void under way
(R65, R71). -/
abbrev State.HeldTxn (s : State) (t : Txn) (st : TxnState) : Prop :=
  s.txnFor t.reference = some t ∧ t.kind = .redeem ∧ t.state = st ∧ t.voiding = none

/-! ### Starts -/

/-- The latched address is a station address (R181). -/
abbrev StrapsValid (p : Straps) : Prop := 1 ≤ p.address ∧ p.address ≤ 239

/-- What a warm start keeps and what it clears (R17, R52, R53, R75, R94, R116, R132, R133, R156, R157, R169, R174, R182,
R183): `t` is `s` after a warm start with the straps `p`. The report latch and the stop record of the Station Controller
are left out here, for the return from RETAIN moves one into the other (R185). -/
structure State.WarmStarted (s : State) (p : Straps) (t : State) : Prop where
  straps : t.sc.straps = p
  halted : ¬ StrapsValid p → t.sc.station = .halted ∧ t.sc.haltCause = some .badAddress
    ∧ t.sc.storedAddress = s.sc.storedAddress
  changed : StrapsValid p → (∃ a, s.sc.storedAddress = some a ∧ a ≠ p.address) →
    t.sc.station = .halted ∧ t.sc.haltCause = some .addressChanged ∧ t.sc.storedAddress = s.sc.storedAddress
  started : StrapsValid p → (s.sc.storedAddress = none ∨ s.sc.storedAddress = some p.address) →
    t.sc.station = (if s.sc.committedMark then .retired else .unjoined) ∧ t.sc.haltCause = none
      ∧ t.sc.storedAddress = some p.address
  controller : t.sc.supply = .normal ∧ t.sc.startCount = (s.sc.startCount + 1) % 256 ∧ t.sc.storeValid = true
    ∧ t.sc.committedMark = s.sc.committedMark ∧ t.sc.config = s.sc.config ∧ t.sc.listenTimer = none
    ∧ t.sc.departure = none ∧ t.sc.returned = none
  till : t.till = { payouts := s.till.payouts, clockedOut := s.till.clockedOut }
  custody : t.cu = { cards := s.cu.cards.filter fun r => r.state ≠ .pendingAdopt, ledger := s.cu.ledger,
                     nextSerial := s.cu.nextSerial, adopted := s.cu.adopted, lastAdoption := s.cu.lastAdoption }
  broker : t.br = { refCounter := s.br.refCounter }
  advices : t.au = { queue := s.au.queue.map fun a => { a with
    state := if a.state = .inDelivery then .waiting else a.state, holdOff := none, ticket := none, timer := none } }
  banks : t.su = { openPeriod := s.su.openPeriod, entries := s.su.entries, counters := s.su.counters,
                   closing := s.su.closing.map Closing.restart, lifetime := s.su.lifetime }
  line : t.lc = { sequence := s.lc.sequence }
  peers : t.pm = { homeMap := s.pm.homeMap.filter fun e => e.learned.isNone }
  clock : t.now = 0
  queue : t.pending = s.pending

/-- The state after a cold start with the straps `p` (R183): every block at its start value, no stored address. -/
def State.coldStarted (s : State) (p : Straps) : State :=
  { sc := { straps := p
            station := if 1 ≤ p.address ∧ p.address ≤ 239 then .unjoined else .halted
            haltCause := if 1 ≤ p.address ∧ p.address ≤ 239 then none else some .badAddress }
    till := { clockedOut := s.till.clockedOut }
    free := s.free
    pending := s.pending }

/-! ### Frames -/

/-- A card number whose fields are within their widths in a frame. -/
abbrev CardNo.Fits (c : CardNo) : Prop := c.home < 256 ∧ c.serial < 16777216 ∧ c.check < 256

/-- A hold id whose fields are within their widths in a frame. -/
abbrev holdIdFits (h : HoldId) : Prop := h.start < 256 ∧ h.counter < 65536

/-- A number within `n` bytes. -/
abbrev FitsIn (n v : Nat) : Prop := v < 256 ^ n

/-- Every field of a frame's contents is within its width (spec 12, section 12.2). -/
def Msg.Fits : Msg → Prop
  | .auth card amount reference | .credit card amount reference => card.Fits ∧ FitsIn 4 amount ∧ FitsIn 2 reference
  | .authReply reference status card hold amount room =>
    FitsIn 2 reference ∧ FitsIn 1 status ∧ card.Fits ∧ holdIdFits hold ∧ FitsIn 4 amount ∧ FitsIn 4 room
  | .capture card hold reference amount => card.Fits ∧ holdIdFits hold ∧ FitsIn 2 reference ∧ FitsIn 4 amount
  | .captureReply reference status flags posted fee net short stamp
  | .adviceReply reference status flags posted fee net short stamp =>
    FitsIn 2 reference ∧ FitsIn 1 status ∧ FitsIn 1 flags ∧ FitsIn 4 posted ∧ FitsIn 4 fee ∧ FitsIn 4 net
      ∧ FitsIn 4 short ∧ FitsIn 4 stamp
  | .release card hold reference => card.Fits ∧ holdIdFits hold ∧ FitsIn 2 reference
  | .creditReply reference status amount stamp =>
    FitsIn 2 reference ∧ FitsIn 1 status ∧ FitsIn 4 amount ∧ FitsIn 4 stamp
  | .enquire card reference => card.Fits ∧ FitsIn 2 reference
  | .enquireReply reference status balance available =>
    FitsIn 2 reference ∧ FitsIn 1 status ∧ FitsIn 4 balance ∧ FitsIn 4 available
  | .advice card amount reference kind hold =>
    card.Fits ∧ FitsIn 4 amount ∧ FitsIn 2 reference ∧ FitsIn 1 kind ∧ holdIdFits hold
  | .statement part period gross fee cred grossN feeN creditN saturated =>
    FitsIn 1 part ∧ FitsIn 4 period ∧ FitsIn 5 gross ∧ FitsIn 5 fee ∧ FitsIn 5 cred ∧ FitsIn 3 grossN ∧ FitsIn 3 feeN
      ∧ FitsIn 3 creditN ∧ FitsIn 1 saturated
  | .close period => FitsIn 4 period
  | .beacon b =>
    FitsIn 4 b.period ∧ FitsIn 1 b.mode ∧ FitsIn 1 b.handover ∧ FitsIn 1 b.count ∧ FitsIn 1 b.h1 ∧ FitsIn 1 b.h2
      ∧ FitsIn 1 b.h3
  | .pause v | .depart v | .transferReply v => FitsIn 1 v
  | .custody a b | .offerReply a b => FitsIn 1 a ∧ FitsIn 1 b
  | .offer count total highest homeCount h1 h2 h3 h4 =>
    FitsIn 2 count ∧ FitsIn 5 total ∧ FitsIn 4 highest ∧ FitsIn 1 homeCount ∧ FitsIn 1 h1 ∧ FitsIn 1 h2 ∧ FitsIn 1 h3
      ∧ FitsIn 1 h4
  | .cardTransfer home serial balance issuePeriod lastActivity activity =>
    FitsIn 1 home ∧ FitsIn 3 serial ∧ FitsIn 4 balance ∧ FitsIn 4 issuePeriod ∧ FitsIn 4 lastActivity
      ∧ FitsIn 2 activity
  | .transferEnd count total => FitsIn 2 count ∧ FitsIn 5 total
  | .abortHandover => True

/-! ### Capacities -/

/-- Inbound frames of classes 1 to 3. -/
def lowInbound (q : List InFrame) : Nat := (q.filter fun f => 1 ≤ f.msg.cls).length

/-- A transaction holds a reservation of the Advice Unit in these states (R53). -/
def TxnState.reserves : TxnState → Bool
  | .authWait | .remoteHeld | .standinHeld | .captureWait => true
  | .localHeld | .creditWait | .enquireWait => false

/-- A transaction still owes the till a result: it waits for a reply, or its VOID waits for outbound room (R57, R66, R71). -/
def Txn.owes (t : Txn) : Bool :=
  t.state.waiting || match t.voiding with
    | some v => !v.2
    | none => false

/-- A handover owes the till its result until it completes or fails (R117). -/
def Handover.owes (h : Handover) : Bool := h.sub ≠ .announcing

/-- Results owed to the till: each has its reserved slot (R173). -/
def State.owed (s : State) : Nat :=
  (s.br.txns.filter Txn.owes).length + match s.cu.handover with
    | some h => if h.owes then 1 else 0
    | none => 0

/-- The Till Port is within its places (R115, R172 to R174). -/
structure State.TillFits (s : State) : Prop where
  requests : s.till.requests.length ≤ Config.requestPlaces
  payouts : s.till.payouts.length ≤ Config.payoutPlaces
  /-- Records and reserved slots together. -/
  results : s.till.results.length + s.till.reserved ≤ Config.resultSlots
  /-- Every reserved slot belongs to a result still owed. -/
  reserved : s.till.reserved = s.owed

/-- The Line Controller is within its places (R147, R149). -/
structure State.LineFits (s : State) : Prop where
  inbound : s.lc.inbound.length ≤ Config.inboundPlaces
  inboundLow : lowInbound s.lc.inbound ≤ Config.inboundLow
  outbound : s.lc.outbound.length ≤ Config.outboundPlaces
  outboundLow : lowCount s.lc.outbound ≤ Config.outboundLow
  /-- The names of waiting frames have been given out, so that the next frame's name is new. -/
  names : ∀ f ∈ s.lc.outbound ++ s.lc.waitList, f.ticket < s.lc.nextTicket

/-- The Custody Unit is within its slots (R7, R16, R31), an open adoption's homes included (R121). A handover runs in
HANDING-OVER alone or is lost in RETAIN, and in ANNOUNCING waits for its DEPART alone (R117, R129, R184). -/
structure State.CustodyFits (s : State) : Prop where
  cards : s.cu.cards.length ≤ Config.cardSlots
  holds : s.cu.holds.length ≤ Config.holdSlots
  adopted : s.cu.adopted.length ≤ Config.adoptedSlots
  adopting : ∀ a, s.cu.adoption = some a → s.cu.adopted.length + a.homes.length ≤ Config.adoptedSlots
  handing : s.cu.handover.isSome = true → s.sc.station = .handingOver ∨ s.sc.station = .retain
  /-- Cards are on their way only before TRANSFER-END, and no exchange of the handover is outstanding with them (R123). -/
  sending : ∀ h, s.cu.handover = some h →
    (h.unacked = [] ∨ h.sub = .transferring ∧ h.ending = false)
    ∧ (h.sub = .transferring → h.ending = false → h.timer = none ∧ h.ticket = none)
  announcing : ∀ h, s.cu.handover = some h → h.sub = .announcing →
    (∀ t, h.ticket = some t → t < s.lc.nextTicket)
    ∧ ∀ f ∈ s.lc.outbound ++ s.lc.waitList, h.ticket = some f.ticket → f.msg.kind = 16

/-- The transaction table and the advice queue are within their slots (R53, R76). -/
structure State.BrokerFits (s : State) : Prop where
  txns : s.br.txns.length ≤ Config.txnSlots
  advices : s.au.queue.length + s.au.reservations ≤ Config.advicePlaces
  /-- Every reservation belongs to a transaction (R53). -/
  reservations : s.au.reservations = (s.br.txns.filter fun t => t.state.reserves).length
  /-- No two transactions share a reference (R53). -/
  references : (s.br.txns.map (·.reference)).Nodup
  counter : 1 ≤ s.br.refCounter ∧ s.br.refCounter ≤ 65535
  /-- A void that waits for room is of a REMOTE-HELD transaction whose timer has stopped (R71). -/
  voiding : ∀ t ∈ s.br.txns, t.voiding.isSome = true → t.state = .remoteHeld ∧ t.timer = none

/-- The home map is within its places (R167), and UNJOINED has no LEARNED entry (R169). -/
structure State.MapFits (s : State) : Prop where
  entries : s.pm.homeMap.length ≤ Config.homeMapSlots
  pins : s.pins.length ≤ 4
  unjoined : s.sc.station = .unjoined → ∀ e ∈ s.pm.homeMap, e.learned = none

/-- The tables by address are in their canonical form: rising addresses, no entry at its start value. -/
structure State.TablesCanonical (s : State) : Prop where
  entries : Table.wf {} s.su.entries = true
  lifetime : Table.wf {} s.su.lifetime = true
  peers : Table.wf {} s.pm.peers = true
  closing : ∀ c, s.su.closing = some c → Table.wf {} c.entries = true ∧ Table.wf {} c.status = true

/-- Every collection is within its capacity (spec 00, section 8) and in its form. -/
structure State.WithinCapacity (s : State) : Prop where
  till : s.TillFits
  line : s.LineFits
  custody : s.CustodyFits
  broker : s.BrokerFits
  homeMap : s.MapFits
  tables : s.TablesCanonical

/-! ### Custody -/

/-- The float ledger agrees with the cards (R13). -/
abbrev Custody.LedgerAgrees (c : Custody) : Prop :=
  activeSum c.cards + c.ledger.redeemed + c.ledger.cashedOut + c.ledger.handedOut
    = c.ledger.issued + c.ledger.credits + c.ledger.adoptedIn

/-- What the Custody Unit keeps true of its cards, its holds, its ledger, an open adoption and a handover. -/
structure State.CustodyOk (s : State) : Prop where
  /-- No two records under one key (R2). -/
  keys : (s.cu.cards.map (·.key)).Nodup
  /-- The register is within its slots (R7). -/
  slots : s.cu.cards.length ≤ Config.cardSlots
  /-- A CLOSED record's balance is 0 (R12). -/
  closed : ∀ r ∈ s.cu.cards, r.state = .closed → r.balance = 0
  /-- The holds of an ACTIVE card stay within its balance (R4, R36). -/
  held : ∀ r ∈ s.cu.cards, r.state = .active → heldOn s.cu.holds r.key ≤ r.balance
  /-- A HELD hold is a redemption, and an amount above 0 is held on an ACTIVE card. -/
  backed : ∀ h ∈ s.cu.holds, h.state = .held →
    h.kind = .redemption ∧ (0 < h.amount → ∃ r ∈ s.cu.cards, r.key = h.key ∧ r.state = .active)
  /-- PENDING-ADOPT records belong to an open adoption (R124 to R127). -/
  pendingCards : s.cu.adoption = none → ∀ r ∈ s.cu.cards, r.state ≠ .pendingAdopt
  /-- R13. -/
  ledger : s.cu.LedgerAgrees
  /-- A handover runs in HANDING-OVER alone, or is lost in RETAIN (R117, R184). -/
  handing : s.cu.handover.isSome = true → s.sc.station = .handingOver ∨ s.sc.station = .retain
  /-- No adoption is open at a departing station (R117, R121). -/
  alone : s.cu.handover.isSome = true → s.cu.adoption = none
  /-- After DRAINING no hold is HELD (R118). -/
  drained : ∀ h, s.cu.handover = some h → h.sub ≠ .draining → ∀ x ∈ s.cu.holds, x.state ≠ .held
  /-- The offered total is the ACTIVE sum until the handover completes (R120, R128). -/
  total : ∀ h, s.cu.handover = some h → h.sub = .offering ∨ h.sub = .transferring → h.total = activeSum s.cu.cards

end Sys2Proof.Machine
end

