-- ==== Sys2Proof/Certificates/Slice0/Obligations.lean ====
section
/-! DEFINITION. The statements about the station, for the provers. -/
open Sys2Proof Sys2Proof.Machine

/-! ### The step, the reset and the till port -/

/-- A step takes the command at the front of the queue, which is the model's own (log 5), and gives it its effect on the
rest. On an empty queue a millisecond of the station clock passes and nothing else, which is the model's choice (log 2). -/
def Obligations.StepTakesTheFrontCommand : Prop :=
  (∀ (c : Instr) (rest : List Instr) (s : State), s.pending = c :: rest → step s = exec c (s.setPending rest))
  ∧ (∀ (s : State), s.pending = [] → step s = .next (s.setNow (s.now + 1)))

/-- The values of R183's cold start, in an UNJOINED station with an empty queue; that the model's first start finds a
valid address is the model's choice (log 1). -/
def Obligations.ResetIsAColdStart : Prop :=
  State.reset.sc.station = .unjoined ∧ State.reset.sc.supply = .normal ∧ State.reset.sc.startCount = 0
    ∧ State.reset.sc.storedAddress = none ∧ State.reset.sc.stopRecord = none ∧ State.reset.sc.committedMark = false
    ∧ State.reset.sc.storeValid = true ∧ State.reset.sc.latch = none
    ∧ State.reset.sc.config = {
        cardCap := 100000, feeRate := 150, dormancy := 30, holdExpiry := 120, normalReply := 800,
        busyReply := 1600, retention := 90, normalAttempts := 3, busyAttempts := 1, normalBudget := 25000,
        busyBudget := 60000, normalLimit := 2500, busyLimit := 5000, beaconInterval := 5, upper := 400, lower := 250,
        dwell := 3, statementWindow := 60, pauseTime := 50 }
    ∧ State.reset.till.requests = [] ∧ State.reset.till.results = [] ∧ State.reset.till.reserved = 0
    ∧ State.reset.till.overrun = false ∧ State.reset.till.payouts = []
    ∧ State.reset.cu.cards = [] ∧ State.reset.cu.ledger = ⟨0, 0, 0, 0, 0, 0⟩ ∧ State.reset.cu.nextSerial = 1
    ∧ State.reset.cu.adopted = [] ∧ State.reset.cu.holds = [] ∧ State.reset.cu.holdCounter = 1
    ∧ State.reset.cu.handover = none ∧ State.reset.cu.adoption = none ∧ State.reset.cu.lastAdoption = none
    ∧ State.reset.br.txns = [] ∧ State.reset.br.refCounter = 1 ∧ State.reset.br.latch = none
    ∧ State.reset.au.queue = [] ∧ State.reset.au.reservations = 0
    ∧ State.reset.su.openPeriod = 1 ∧ State.reset.su.entries = [] ∧ State.reset.su.closing = none
    ∧ State.reset.su.lifetime = [] ∧ State.reset.su.latch = none
    ∧ State.reset.lc.inbound = [] ∧ State.reset.lc.outbound = [] ∧ State.reset.lc.waitList = []
    ∧ State.reset.lc.pauses = [] ∧ State.reset.lc.pauseGuard = none ∧ State.reset.lc.sequence = 0
    ∧ State.reset.lc.latch = none ∧ State.reset.lc.clashes = 0 ∧ State.reset.lineState = .off
    ∧ State.reset.pm.peers = [] ∧ State.reset.pm.mode = .normal ∧ State.reset.pm.run = []
    ∧ State.reset.pm.window = none ∧ State.reset.pm.homeMap = [] ∧ State.reset.pm.latch = none
    ∧ State.reset.pending = []

/-- A WRITE (R171, R172): a whole record joins the request queue, or is dropped with the overrun mark where 8 wait; a
record cut short is discarded; in WARNED and RETAIN nothing is taken. The status byte is clocked out first. That bytes behind
a whole record are ignored is the model's choice, and the filler bytes are free values (log 8). -/
def Obligations.WriteCompletes : Prop :=
  (∀ (s : State) (kind tag length : Byte) (fields : List Byte), s.live = true → length.toNat ≤ fields.length →
    s.till.requests.length < 8 →
    exec (.write (kind :: tag :: length :: fields)) s = .next (s.setTill { s.till with
      requests := s.till.requests ++ [{ kind := kind.toNat, tag := tag.toNat, fields := fields.take length.toNat }]
      clockedOut := s.portStatus :: fillers (fields.length + 3) }))
  ∧ (∀ (s : State) (kind tag length : Byte) (fields : List Byte), s.live = true → length.toNat ≤ fields.length →
    8 ≤ s.till.requests.length →
    exec (.write (kind :: tag :: length :: fields)) s = .next (s.setTill { s.till with
      overrun := true, clockedOut := s.portStatus :: fillers (fields.length + 3) }))
  ∧ (∀ (s : State) (kind tag length : Byte) (fields : List Byte), s.live = true → fields.length < length.toNat →
    exec (.write (kind :: tag :: length :: fields)) s = .next (s.setTill { s.till with
      clockedOut := s.portStatus :: fillers (fields.length + 3) }))
  ∧ (∀ (s : State) (bytes : List Byte), s.live = true → bytes.length < 3 →
    exec (.write bytes) s = .next (s.setTill { s.till with clockedOut := s.portStatus :: fillers bytes.length }))
  ∧ (∀ (s : State) (bytes : List Byte), s.live = false →
    exec (.write bytes) s = .next (s.setTill { s.till with clockedOut := [s.portStatus] }))

/-- A READ (R171, R172, R174): the oldest record clocked out whole leaves the queue, one read in part stays, an empty
queue gives the record of kind NONE; the overrun mark clears. In WARNED and RETAIN nothing follows the status byte. A PEEK
or an unknown code clocks out the status byte alone and changes nothing. The status byte has the free request places in its
bits 7 and 6, the results waiting in 5 and 4, the station state in 3 to 1 and the overrun mark in bit 0 (R171; spec 12,
section 12.3). Bytes past a record's end are free values (log 8); that WARNED and RETAIN show the overrun mark and keep it is
the model's reading (log 26). -/
def Obligations.ReadAndPeekComplete : Prop :=
  (∀ (s : State) (r : Record) (rest : List Record) (n : Nat), s.live = true → s.till.results = r :: rest →
    r.bytes.length ≤ n →
    exec (.read n) s = .next (s.setTill { s.till with
      results := rest, overrun := false
      clockedOut := s.portStatus :: (r.bytes ++ fillers (n - r.bytes.length)) }))
  ∧ (∀ (s : State) (r : Record) (rest : List Record) (n : Nat), s.live = true → s.till.results = r :: rest →
    n < r.bytes.length →
    exec (.read n) s = .next (s.setTill { s.till with overrun := false, clockedOut := s.portStatus :: r.bytes.take n }))
  ∧ (∀ (s : State), s.live = true → s.till.results = [] →
    exec (.read 6) s = .next (s.setTill { s.till with
      overrun := false, clockedOut := [s.portStatus, 0#8, 0#8, 0#8, 0#8, 0#8, 0#8] }))
  ∧ (∀ (s : State) (n : Nat), s.live = false →
    exec (.read n) s = .next (s.setTill { s.till with clockedOut := [s.portStatus] }))
  ∧ (∀ (s : State) (code : Byte), exec (.peek code) s = .next (s.setTill { s.till with clockedOut := [s.portStatus] }))
  ∧ (∀ (s : State), s.portStatus.toNat
      = (if s.live = true then min 3 (8 - s.till.requests.length) else 0) * 64
        + (if s.live = true then min 3 s.till.results.length else 0) * 16
        + (match s.sc.station with
          | .halted => 0
          | .unjoined => 1
          | .listening => 2
          | .joined => 3
          | .handingOver => 4
          | .retired => 5
          | .retain => 6) * 2
        + if s.till.overrun = true then 1 else 0)

/-- A request that the table of R176 does not serve in the station state is refused WRONG-STATE, whatever its kind and before
any test of its card number (log 39); a record of an unknown kind, or whose length does not suit its kind, is refused
BAD-VALUE (R176). -/
def Obligations.RequestsRefusedAtIntake : Prop :=
  (∀ (s : State) (k : ReqKind) (r : Request) (rest : List Request) (p : Straps),
    s.HeadIs k r rest → k.served s.sc.station = false →
    exec (k.command p) s = .next (
      let t := s.answered rest { kind := k.code, tag := r.tag, status := 8, reason := 12, fields := toBytes 4 0 }
      if k.settles then t.settle else t))
  ∧ (∀ (s : State) (r : Request) (rest : List Request),
    s.live = true → s.slotFree = true → s.sourceWaits = false → s.till.requests = r :: rest →
    (∀ k : ReqKind, r.kind = k.code → r.fields.length ≠ k.length) →
    exec .badValueRequest s = .next (s.answered rest
      { kind := r.kind, tag := r.tag, status := 8, reason := 14, fields := toBytes 4 0 }))

/-! ### Card requests -/

/-- An ISSUE within the cap and the ledger limit writes an ACTIVE record under the next free serial, in a free slot or in
the slot of the reclaimed record, and raises lifetime and period issued (R7, R8, R9, R97). One that fails a test of R9 or
R122 is refused and changes nothing else. The record reclaimed is a CLOSED one before an ACTIVE one with balance 0 that has
been dormant for the dormancy parameter, among equals the one with the lowest last activity period, then serial, then home;
with no candidate there is none (R7). -/
def Obligations.IssueCompletes : Prop :=
  (∀ (s : State) (r : Request) (rest : List Request) (kept : List Card),
    s.Serves .issue r rest → 0 < fieldAt r.fields 0 4 → fieldAt r.fields 0 4 ≤ s.sc.config.cardCap →
    fieldAt r.fields 0 4 ≤ s.cu.ledger.headroom → s.slotsPromised = false →
    (s.cu.cards.length < 6144 ∧ kept = s.cu.cards
      ∨ 6144 ≤ s.cu.cards.length ∧ ∃ old, s.reclaimChoice = some old
          ∧ kept = s.cu.cards.filter fun x => x.key ≠ old.key) →
    let serial := firstFree 99999 (fun n => kept.any fun x => x.key = { home := s.own, serial := n })
      (kept.length + 1) s.cu.nextSerial
    let amount := fieldAt r.fields 0 4
    exec .issue s = .next ((((s.setCu { s.cu with
        cards := kept ++ [{ key := { home := s.own, serial }, state := .active, balance := amount,
                            issuePeriod := s.su.openPeriod, lastActivity := s.su.openPeriod, activity := 1 }]
        nextSerial := if 99999 ≤ serial then 1 else serial + 1
        ledger := { s.cu.ledger with issued := s.cu.ledger.issued + amount } }).setSu { s.su with
        counters := { s.su.counters with issued := min (s.su.counters.issued + amount) amountMax } })).answered rest
      { kind := 1, tag := r.tag, status := 0, fields := cardToTill (CardNo.make s.own serial) ++ toBytes 4 amount }))
  ∧ (∀ (s : State) (r : Request) (rest : List Request), s.Serves .issue r rest →
    ((fieldAt r.fields 0 4 = 0 ∨ s.sc.config.cardCap < fieldAt r.fields 0 4
        ∨ s.cu.ledger.headroom < fieldAt r.fields 0 4) →
      exec .issue s = .next (s.answered rest (declinedRecord .issue r.tag .badValue)))
    ∧ (¬ (fieldAt r.fields 0 4 = 0 ∨ s.sc.config.cardCap < fieldAt r.fields 0 4
        ∨ s.cu.ledger.headroom < fieldAt r.fields 0 4) →
      (s.slotsPromised = true ∨ 6144 ≤ s.cu.cards.length ∧ s.reclaimChoice = none) →
      exec .issue s = .next (s.answered rest (declinedRecord .issue r.tag .registerFull))))
  ∧ (∀ (s : State),
    let candidate (r : Card) : Prop :=
      r.state = .closed ∨ r.state = .active ∧ r.balance = 0 ∧ r.lastActivity + s.sc.config.dormancy ≤ s.su.openPeriod
    (s.reclaimChoice = none ↔ ∀ r ∈ s.cu.cards, ¬ candidate r)
    ∧ (∀ old, s.reclaimChoice = some old → old ∈ s.cu.cards ∧ candidate old
      ∧ ∀ r ∈ s.cu.cards, candidate r →
        (r.state = .closed → old.state = .closed)
        ∧ ((old.state = .closed ↔ r.state = .closed) →
          old.lastActivity < r.lastActivity ∨ old.lastActivity = r.lastActivity ∧ (old.key.serial < r.key.serial
            ∨ old.key.serial = r.key.serial ∧ old.key.home ≤ r.key.home))))

/-- A BALANCE of a card held here is answered from its record, or refused (R10). A CREDIT of an ACTIVE card held here within
its room raises its balance and lifetime credits (R5, R11); a CASHOUT of one without HELD holds pays it out and closes it
(R5, R12, R97). A BALANCE, REDEEM, CREDIT or CASHOUT whose card number fails R1 is refused BAD-NUMBER and has no other
effect. The number is ten ASCII digits d1 to d10 (R187), and it passes when its home is 1 to 239, its serial 1 to 99,999 and
its last two digits the check value (R1). A CREDIT or a CASHOUT that fails a test of R11 or R12 is refused with the reason
of the first that applies, an OVER-CAP with its room, and changes nothing else. -/
def Obligations.BalanceCreditAndCashoutHereComplete : Prop :=
  (∀ (s : State) (r : Request) (rest : List Request) (card : CardNo),
    s.Serves .balance r rest → cardFromTill r.fields = some card → s.isHere card.home = true →
    (∀ c, s.cu.served card.key = some c → c.state = .active →
      exec .balance s = .next (s.answered rest {
        kind := 2, tag := r.tag, status := 0, fields := toBytes 4 c.balance
        ++ toBytes 4 (c.balance - heldOn s.cu.holds card.key) ++ toBytes 4 c.issuePeriod ++ toBytes 4 c.lastActivity
        ++ toBytes 2 c.activity }))
    ∧ (∀ c, s.cu.served card.key = some c → c.state = .closed →
      exec .balance s = .next (s.answered rest (declinedRecord .balance r.tag .cardClosed)))
    ∧ (s.cu.served card.key = none →
      exec .balance s = .next (s.answered rest (declinedRecord .balance r.tag .unknownCard))))
  ∧ (∀ (s : State) (r : Request) (rest : List Request) (card : CardNo) (c : Card),
    s.Serves .credit r rest → cardFromTill (r.fields.take 10) = some card → s.isHere card.home = true →
    s.sc.station ≠ .handingOver → s.cu.served card.key = some c → c.state = .active → 0 < fieldAt r.fields 10 4 →
    fieldAt r.fields 10 4 ≤ s.sc.config.cardCap → fieldAt r.fields 10 4 ≤ s.sc.config.cardCap - c.balance →
    fieldAt r.fields 10 4 ≤ s.cu.ledger.headroom →
    let amount := fieldAt r.fields 10 4
    exec .creditRequest s = .next ((s.setCu { s.cu with
        cards := updateWhere (fun x => x.key = card.key) (fun x => { x with
          balance := x.balance + amount, lastActivity := s.su.openPeriod, activity := min 65535 (x.activity + 1) })
          s.cu.cards
        ledger := { s.cu.ledger with credits := s.cu.ledger.credits + amount } }).answered rest
      { kind := 6, tag := r.tag, status := 4, fields := toBytes 4 amount ++ toBytes 4 (c.balance + amount) ++ toBytes 4 0 }))
  ∧ (∀ (s : State) (r : Request) (rest : List Request) (card : CardNo) (c : Card),
    s.Serves .cashout r rest → cardFromTill r.fields = some card → s.isHere card.home = true →
    s.sc.station ≠ .handingOver → s.cu.served card.key = some c → c.state = .active →
    (∀ h ∈ s.cu.holds, h.key = card.key → h.state = .held → h.kind ≠ .redemption) →
    exec .cashout s = .next (((s.setCu { s.cu with
        cards := updateWhere (fun x => x.key = card.key) (fun x => { x with
          state := .closed, balance := 0, lastActivity := s.su.openPeriod, activity := min 65535 (x.activity + 1) })
          s.cu.cards
        ledger := { s.cu.ledger with cashedOut := s.cu.ledger.cashedOut + c.balance } }).setSu { s.su with
        counters := { s.su.counters with cashOuts := min (s.su.counters.cashOuts + c.balance) amountMax } }).answered rest
      { kind := 7, tag := r.tag, status := 5, fields := toBytes 4 c.balance }))
  ∧ (∀ (s : State) (k : ReqKind) (r : Request) (rest : List Request) (p : Straps), s.Serves k r rest →
    k = .balance ∨ k = .redeem ∨ k = .credit ∨ k = .cashout → cardFromTill (r.fields.take 10) = none →
    exec (k.command p) s = .next (s.answered rest
      { kind := k.code, tag := r.tag, status := 8, reason := 4, fields := toBytes 4 0 }))
  ∧ (∀ (bytes : List Byte) (card : CardNo), cardFromTill bytes = some card ↔ ∃ d : Nat → Nat,
    (∀ i, 1 ≤ i → i ≤ 10 → d i ≤ 9 ∧ bytes[i - 1]? = some (BitVec.ofNat 8 (48 + d i)))
    ∧ card.home = d 1 * 100 + d 2 * 10 + d 3
    ∧ card.serial = d 4 * 10000 + d 5 * 1000 + d 6 * 100 + d 7 * 10 + d 8 ∧ card.check = d 9 * 10 + d 10
    ∧ card.check = (d 1 * 3 + d 2 * 5 + d 3 * 7 + d 4 * 11 + d 5 * 13 + d 6 * 17 + d 7 * 19 + d 8 * 23) % 89 + 10
    ∧ 1 ≤ card.home ∧ card.home ≤ 239 ∧ 1 ≤ card.serial ∧ card.serial ≤ 99999)
  ∧ (∀ (c : CardNo),
    let d (v n : Nat) := v / n % 10
    c.valid = true ↔ c.check = (d c.home 100 * 3 + d c.home 10 * 5 + d c.home 1 * 7 + d c.serial 10000 * 11
        + d c.serial 1000 * 13 + d c.serial 100 * 17 + d c.serial 10 * 19 + d c.serial 1 * 23) % 89 + 10
      ∧ 1 ≤ c.home ∧ c.home ≤ 239 ∧ 1 ≤ c.serial ∧ c.serial ≤ 99999)
  ∧ (∀ (s : State) (r : Request) (rest : List Request) (card : CardNo),
    s.Serves .credit r rest → cardFromTill (r.fields.take 10) = some card → s.isHere card.home = true →
    let amount := fieldAt r.fields 10 4
    let refused (reason carried : Nat) : State := s.answered rest
      { kind := 6, tag := r.tag, status := 8, reason, fields := toBytes 4 carried }
    (amount = 0 ∨ s.sc.config.cardCap < amount → exec .creditRequest s = .next (refused 14 0))
    ∧ (0 < amount → amount ≤ s.sc.config.cardCap →
      (s.cu.served card.key = none → exec .creditRequest s = .next (refused 2 0))
      ∧ (∀ c, s.cu.served card.key = some c →
        (c.state = .closed → exec .creditRequest s = .next (refused 3 0))
        ∧ (c.state = .active → s.sc.station = .handingOver → exec .creditRequest s = .next (refused 5 0))
        ∧ (c.state = .active → s.sc.station ≠ .handingOver →
          let room := min (s.sc.config.cardCap - c.balance) (9223372036854775807
            - (s.cu.ledger.issued + s.cu.ledger.credits + s.cu.ledger.adoptedIn))
          room < amount → exec .creditRequest s = .next (refused 7 room)))))
  ∧ (∀ (s : State) (r : Request) (rest : List Request) (card : CardNo),
    s.Serves .cashout r rest → cardFromTill r.fields = some card →
    let refused (reason : Nat) : State := s.answered rest
      { kind := 7, tag := r.tag, status := 8, reason, fields := toBytes 4 0 }
    (s.isHere card.home = false → exec .cashout s = .next (refused 8))
    ∧ (s.isHere card.home = true →
      (s.cu.served card.key = none → exec .cashout s = .next (refused 2))
      ∧ (∀ c, s.cu.served card.key = some c →
        (c.state = .closed → exec .cashout s = .next (refused 3))
        ∧ (c.state = .active →
          ((∃ h ∈ s.cu.holds, h.key = card.key ∧ h.state = .held ∧ h.kind = .redemption) ∨ s.sc.station = .handingOver) →
          exec .cashout s = .next (refused 5)))))

/-- A BALANCE or a CREDIT for the card of another station opens a transaction and hands its first ENQUIRE or CREDIT frame
(R54, R55, R60, R73, R74); the reference is free, as FreshReferenceIsFree says. With the target ABSENT or UNKNOWN it is
declined HOME-UNREACHABLE with no frame, and a full transaction table gives NO-SLOT (R53). Outside JOINED both are refused
WRONG-STATE, and a CREDIT of 0 or above the card cap BAD-VALUE. The transaction has the reference, the tag, the home map's
custodian or else the home as target, and copies of the parameters in force; of its attempts, or of the one attempt that a
DEGRADED target gets, the first is spent (R54 to R56, R59, R60, R162). -/
def Obligations.RemoteBalanceAndCreditComplete : Prop :=
  (∀ (s : State) (r : Request) (rest : List Request) (card : CardNo),
    s.Serves .balance r rest → cardFromTill r.fields = some card → s.isHere card.home = false →
    s.sc.station = .joined → s.br.txns.length < 16 → s.txnFor s.freshReference = none →
    (s.peerAt (s.custodianOf card.home)).presence.reachable = true →
    exec .balance s = .next (((s.popRequest rest).withTxn (s.exchangeTxn r .enquire card 0 .enquireWait)).hand
      (s.custodianOf card.home) (.enquire card s.freshReference)))
  ∧ (∀ (s : State) (r : Request) (rest : List Request) (card : CardNo),
    s.Serves .credit r rest → cardFromTill (r.fields.take 10) = some card → s.isHere card.home = false →
    s.sc.station = .joined → 0 < fieldAt r.fields 10 4 → fieldAt r.fields 10 4 ≤ s.sc.config.cardCap →
    s.br.txns.length < 16 → s.txnFor s.freshReference = none →
    (s.peerAt (s.custodianOf card.home)).presence.reachable = true →
    exec .creditRequest s = .next (((s.popRequest rest).withTxn
      (s.exchangeTxn r .credit card (fieldAt r.fields 10 4) .creditWait)).hand
      (s.custodianOf card.home) (.credit card (fieldAt r.fields 10 4) s.freshReference)))
  ∧ (∀ (s : State) (r : Request) (rest : List Request) (card : CardNo),
    s.isHere card.home = false → s.sc.station = .joined →
    (s.Serves .balance r rest → cardFromTill r.fields = some card → 16 ≤ s.br.txns.length →
      exec .balance s = .next (s.answered rest (declinedRecord .balance r.tag .noSlot)))
    ∧ (s.Serves .balance r rest → cardFromTill r.fields = some card → s.br.txns.length < 16 →
      (s.peerAt (s.custodianOf card.home)).presence.reachable = false →
      exec .balance s = .next (s.takeReference.answered rest (declinedRecord .balance r.tag .homeUnreachable)))
    ∧ (s.Serves .credit r rest → cardFromTill (r.fields.take 10) = some card → 0 < fieldAt r.fields 10 4 →
      fieldAt r.fields 10 4 ≤ s.sc.config.cardCap → s.br.txns.length < 16 →
      (s.peerAt (s.custodianOf card.home)).presence.reachable = false →
      exec .creditRequest s = .next (s.takeReference.answered rest (declinedRecord .credit r.tag .homeUnreachable))))
  ∧ (∀ (s : State) (r : Request) (rest : List Request) (card : CardNo),
    s.isHere card.home = false →
    (s.Serves .balance r rest → cardFromTill r.fields = some card → s.sc.station ≠ .joined →
      exec .balance s = .next (s.answered rest
        { kind := 2, tag := r.tag, status := 8, reason := 12, fields := toBytes 4 0 }))
    ∧ (s.Serves .credit r rest → cardFromTill (r.fields.take 10) = some card →
      let amount := fieldAt r.fields 10 4
      let refused (reason : Nat) : State := s.answered rest
        { kind := 6, tag := r.tag, status := 8, reason, fields := toBytes 4 0 }
      (s.sc.station ≠ .joined → exec .creditRequest s = .next (refused 12))
      ∧ (s.sc.station = .joined →
        (amount = 0 ∨ s.sc.config.cardCap < amount → exec .creditRequest s = .next (refused 14))
        ∧ (0 < amount → amount ≤ s.sc.config.cardCap → 16 ≤ s.br.txns.length →
          exec .creditRequest s = .next (refused 10)))))
  ∧ (∀ (s : State) (r : Request) (kind : TxnKind) (card : CardNo) (amount : Nat) (state : TxnState),
    let target := ((s.pm.homeMap.find? fun e => e.home = card.home).map (·.custodian)).getD card.home
    let attempts := if s.pm.mode = .normal then s.sc.config.normalAttempts else s.sc.config.busyAttempts
    s.exchangeTxn r kind card amount state = {
      reference := s.freshReference, tag := r.tag, kind, card, amount, approved := amount, target := some target
      hold := none, mode := s.pm.mode, attempts
      replyTimeout := if s.pm.mode = .normal then s.sc.config.normalReply else s.sc.config.busyReply
      attemptsLeft := (if (s.peerAt target).degraded = true then 1 else attempts) - 1
      ticket := some s.lc.nextTicket, timer := none, state, voiding := none })

/-- A REDEEM of an ACTIVE card held here that covers it places a HELD hold for this station and is APPROVED (R36, R57, R58).
One of the card of another station takes a reservation, opens a transaction and hands its first AUTH; without a place in the
advice queue it is declined ADVICE-FULL (R57, R59, R60, R77). With the target ABSENT or UNKNOWN it goes to the stand-in
decision without a frame: within the limits of the set in force it is APPROVED with the STANDIN flag, and else declined
HOME-UNREACHABLE (R59, R63, R81). One that fails a test of R57 is refused with its reason, and one for a card held here that
the Custody Unit refuses frees its slot and is refused with that reason, INSUFFICIENT with the available amount (R36, R57,
R58). -/
def Obligations.RedeemCompletes : Prop :=
  (∀ (s : State) (r : Request) (rest : List Request) (card : CardNo) (c : Card),
    s.Serves .redeem r rest → cardFromTill (r.fields.take 10) = some card → s.isHere card.home = true →
    0 < fieldAt r.fields 10 4 → fieldAt r.fields 10 4 ≤ s.sc.config.cardCap → s.br.txns.length < 16 →
    s.sc.station ≠ .handingOver → s.holdFor s.own s.freshReference = none → s.cu.holds.length < 96 →
    s.cu.served card.key = some c → c.state = .active →
    fieldAt r.fields 10 4 ≤ c.balance - heldOn s.cu.holds card.key →
    let amount := fieldAt r.fields 10 4
    let expiry := s.now + s.sc.config.holdExpiry * 1000
    exec .redeem s = .next ((((s.setCu { s.cu with
        holds := s.cu.holds ++ [{ id := s.freshHoldId, kind := .redemption, key := card.key, amount, station := s.own,
                                  reference := s.freshReference, state := .held, timer := expiry }]
        holdCounter := if 65535 ≤ s.freshHoldId.counter then 1 else s.freshHoldId.counter + 1 }).withTxn
        { reference := s.freshReference, tag := r.tag, kind := .redeem, card, amount, approved := amount, target := none,
          hold := some s.freshHoldId, mode := s.pm.mode, replyTimeout := s.replyTimeout, attempts := s.attempts,
          timer := some expiry, state := .localHeld }).answered rest
      { kind := 3, tag := r.tag, status := 1, fields := toBytes 2 s.freshReference ++ toBytes 4 amount ++ toBytes 1 0
          ++ toBytes 4 (c.balance - (heldOn s.cu.holds card.key + amount)) })))
  ∧ (∀ (s : State) (r : Request) (rest : List Request) (card : CardNo),
    s.Serves .redeem r rest → cardFromTill (r.fields.take 10) = some card → s.isHere card.home = false →
    s.sc.station = .joined → 0 < fieldAt r.fields 10 4 → fieldAt r.fields 10 4 ≤ s.sc.config.cardCap →
    s.br.txns.length < 16 → s.txnFor s.freshReference = none →
    (s.au.queue.length + s.au.reservations < 64 →
      (s.peerAt (s.custodianOf card.home)).presence.reachable = true →
      exec .redeem s = .next ((((s.popRequest rest).setAu { s.au with reservations := s.au.reservations + 1 }).withTxn
        (s.exchangeTxn r .redeem card (fieldAt r.fields 10 4) .authWait)).hand (s.custodianOf card.home)
        (.auth card (fieldAt r.fields 10 4) s.freshReference)))
    ∧ (64 ≤ s.au.queue.length + s.au.reservations →
      exec .redeem s = .next (s.takeReference.answered rest (declinedRecord .redeem r.tag .adviceFull))))
  ∧ (∀ (s : State) (r : Request) (rest : List Request) (card : CardNo),
    s.Serves .redeem r rest → cardFromTill (r.fields.take 10) = some card → s.isHere card.home = false →
    s.sc.station = .joined → 0 < fieldAt r.fields 10 4 → fieldAt r.fields 10 4 ≤ s.sc.config.cardCap →
    s.br.txns.length < 16 → s.txnFor s.freshReference = none → s.au.queue.length + s.au.reservations < 64 →
    (s.peerAt (s.custodianOf card.home)).presence.reachable = false →
    let amount := fieldAt r.fields 10 4
    let granted := s.cardLimit ≠ 0 ∧ s.outstandingCard card.key + amount ≤ s.cardLimit
      ∧ s.outstandingHome card.home + amount ≤ s.budget
    (granted → exec .redeem s = .next (((s.setAu { s.au with reservations := s.au.reservations + 1 }).withTxn
        { reference := s.freshReference, tag := r.tag, kind := .redeem, card, amount, approved := amount,
          target := some (s.custodianOf card.home), mode := s.pm.mode, replyTimeout := s.replyTimeout,
          attempts := s.attempts, timer := some (s.now + s.sc.config.holdExpiry * 1000), state := .standinHeld }).answered rest
        { kind := 3, tag := r.tag, status := 1, fields := toBytes 2 s.freshReference ++ toBytes 4 amount ++ toBytes 1 1
            ++ toBytes 4 0 }))
    ∧ (¬ granted → exec .redeem s = .next (s.takeReference.answered rest
        (declinedRecord .redeem r.tag .homeUnreachable))))
  ∧ (∀ (s : State) (r : Request) (rest : List Request) (card : CardNo),
    s.Serves .redeem r rest → cardFromTill (r.fields.take 10) = some card →
    let amount := fieldAt r.fields 10 4
    let declined (u : State) (reason carried : Nat) : State := u.answered rest
      { kind := 3, tag := r.tag, status := 8, reason, fields := toBytes 4 carried }
    (s.isHere card.home = false → s.sc.station ≠ .joined → exec .redeem s = .next (declined s 12 0))
    ∧ (s.isHere card.home = true ∨ s.sc.station = .joined →
      (amount = 0 ∨ s.sc.config.cardCap < amount → exec .redeem s = .next (declined s 14 0))
      ∧ (0 < amount → amount ≤ s.sc.config.cardCap →
        (16 ≤ s.br.txns.length → exec .redeem s = .next (declined s 10 0))
        ∧ (s.br.txns.length < 16 → s.isHere card.home = true → s.holdFor s.own s.freshReference = none →
          (s.cu.served card.key = none → exec .redeem s = .next (declined s.takeReference 2 0))
          ∧ (∀ c, s.cu.served card.key = some c →
            (c.state = .closed → exec .redeem s = .next (declined s.takeReference 3 0))
            ∧ (c.state = .active → 96 ≤ s.cu.holds.length ∨ s.sc.station = .handingOver →
              exec .redeem s = .next (declined s.takeReference 5 0))
            ∧ (c.state = .active → s.cu.holds.length < 96 → s.sc.station ≠ .handingOver →
              let available := c.balance - heldOn s.cu.holds card.key
              available < amount → exec .redeem s = .next (declined s.takeReference 1 available)))))))

/-- A COMPLETE of a local hold posts its final amount on-us, with no fee and no position entry, captures the hold and
frees the slot (R21, R39, R46, R65); where the hold has gone it is forced-posted by what the card has, with the LATE flag and
the short, or declined HOME-BUSY and the transaction waits on (R41, R44, R45, R49, R65; NOT-POSTED is log 35). One of a remote
hold hands the first of 3 CAPTURE attempts (R66); one of a stand-in turns its reservation into a STANDIN advice and is
COMPLETED with the PENDING flag (R70, R78). An unknown reference, a transaction that does not wait for the till and a final
amount out of range are refused (R65). That a result of the transaction carries the tag of its opening request, and a refusal
by the tests that of the COMPLETE, is the model's reading (log 33). -/
def Obligations.CompleteCompletes : Prop :=
  (∀ (s : State) (r : Request) (rest : List Request) (t : Txn) (h : Hold),
    s.Serves .complete r rest → fieldAt r.fields 0 2 = t.reference → s.HeldTxn t .localHeld → t.ticket = none →
    0 < fieldAt r.fields 2 4 → fieldAt r.fields 2 4 ≤ t.amount →
    s.holdNamed t.holdId s.own t.reference t.card.key = some h → h.state = .held → 0 < h.amount →
    let posted := min (fieldAt r.fields 2 4) h.amount
    let figures : Figures := { posted, fee := 0, net := posted, short := 0, stamp := s.su.openPeriod }
    exec .complete s = .next (State.settle (((((s.setCu { s.cu with
        cards := updateWhere (fun x => x.key = t.card.key) (fun x => { x with
          balance := x.balance - posted, lastActivity := s.su.openPeriod, activity := min 65535 (x.activity + 1) })
          s.cu.cards
        ledger := { s.cu.ledger with redeemed := s.cu.ledger.redeemed + posted }
        holds := updateWhere (fun x => x.id = h.id) (fun x => { x with
          state := .captured, figures, late := false, timer := s.now + s.sc.config.retention * 1000 }) s.cu.holds
        }).setSu { s.su with
        counters := { s.su.counters with onUs := min (s.su.counters.onUs + posted) amountMax } }).withoutTxn
        t.reference)).answered rest
      { kind := 4, tag := t.tag, status := 2, fields := toBytes 2 t.reference ++ toBytes 1 0 ++ toBytes 4 posted
          ++ toBytes 4 0 ++ toBytes 4 posted ++ toBytes 4 0 ++ toBytes 4 s.su.openPeriod })))
  ∧ (∀ (s : State) (r : Request) (rest : List Request) (t : Txn),
    s.Serves .complete r rest → fieldAt r.fields 0 2 = t.reference → s.HeldTxn t .localHeld → t.ticket = none →
    0 < fieldAt r.fields 2 4 → fieldAt r.fields 2 4 ≤ t.amount → s.holdFor s.own t.reference = none →
    let final := fieldAt r.fields 2 4
    let posted := min final (s.cu.available t.card.key)
    let entry (g : Figures) : Hold :=
      { id := s.freshHoldId, kind := .redemption, key := t.card.key, amount := final, station := s.own,
        reference := t.reference, state := .captured, timer := s.now + s.sc.config.retention * 1000, figures := g, late := true }
    let counter := if 65535 ≤ s.freshHoldId.counter then 1 else s.freshHoldId.counter + 1
    let completed : Record :=
      { kind := 4, tag := t.tag, status := 2, fields := toBytes 2 t.reference ++ toBytes 1 4 ++ toBytes 4 posted
          ++ toBytes 4 0 ++ toBytes 4 posted ++ toBytes 4 (final - posted) ++ toBytes 4 s.su.openPeriod }
    (s.sc.station ≠ .handingOver → s.cu.holds.length < 96 → 0 < posted →
      exec .complete s = .next (State.settle ((((s.setCu { s.cu with
        cards := updateWhere (fun x => x.key = t.card.key) (fun x => { x with
          balance := x.balance - posted, lastActivity := s.su.openPeriod, activity := min 65535 (x.activity + 1) })
          s.cu.cards
        ledger := { s.cu.ledger with redeemed := s.cu.ledger.redeemed + posted }
        holds := s.cu.holds ++ [entry { posted, fee := 0, net := posted, short := final - posted, stamp := s.su.openPeriod }]
        holdCounter := counter }).setSu { s.su with
        counters := { s.su.counters with onUs := min (s.su.counters.onUs + posted) amountMax } }).withoutTxn
        t.reference).answered rest completed)))
    ∧ (s.sc.station ≠ .handingOver → s.cu.holds.length < 96 → posted = 0 →
      exec .complete s = .next (State.settle (((s.setCu { s.cu with
        holds := s.cu.holds ++ [entry { short := final, stamp := s.su.openPeriod }]
        holdCounter := counter }).withoutTxn t.reference).answered rest completed)))
    ∧ (s.sc.station = .handingOver ∨ 96 ≤ s.cu.holds.length →
      exec .complete s = .next (State.settle ((s.setBr { s.br with
        txns := updateWhere (fun x => x.reference = t.reference) (fun x => { x with
          amount := final, timer := some (s.now + s.sc.config.holdExpiry * 1000) }) s.br.txns }).answered rest
        (declinedRecord .complete t.tag .homeBusy)))))
  ∧ (∀ (s : State) (r : Request) (rest : List Request) (t : Txn) (target : Nat),
    s.Serves .complete r rest → fieldAt r.fields 0 2 = t.reference → s.HeldTxn t .remoteHeld → t.target = some target →
    0 < fieldAt r.fields 2 4 → fieldAt r.fields 2 4 ≤ t.amount →
    exec .complete s = .next (State.settle ((((s.popRequest rest).setBr { s.br with
        txns := updateWhere (fun x => x.reference = t.reference) (fun x => { x with
          amount := fieldAt r.fields 2 4, state := .captureWait, attemptsLeft := 2, ticket := some s.ticket,
          timer := none }) s.br.txns }).hand target
      (.capture t.card t.holdId t.reference (fieldAt r.fields 2 4))))))
  ∧ (∀ (s : State) (r : Request) (rest : List Request) (t : Txn),
    s.Serves .complete r rest → fieldAt r.fields 0 2 = t.reference → s.HeldTxn t .standinHeld → t.ticket = none →
    0 < fieldAt r.fields 2 4 → fieldAt r.fields 2 4 ≤ t.amount →
    exec .complete s = .next (State.settle ((((s.withoutTxn t.reference).setAu { s.au with
        reservations := s.au.reservations - 1
        queue := s.au.queue ++ [{ kind := .standin, card := t.card, amount := fieldAt r.fields 2 4,
                                  reference := t.reference, hold := none }] })).answered rest
      { kind := 4, tag := t.tag, status := 2, fields := toBytes 2 t.reference ++ toBytes 1 2 })))
  ∧ (∀ (s : State) (r : Request) (rest : List Request), s.Serves .complete r rest →
    let refused (reason : Reason) := State.settle (s.answered rest (declinedRecord .complete r.tag reason))
    (s.txnFor (fieldAt r.fields 0 2) = none → exec .complete s = .next (refused .badRef))
    ∧ (∀ t, s.txnFor (fieldAt r.fields 0 2) = some t →
      (t.kind ≠ .redeem ∨ t.voiding.isSome = true ∨ t.state = .authWait ∨ t.state = .captureWait ∨ t.state = .creditWait
        ∨ t.state = .enquireWait → exec .complete s = .next (refused .wrongState))
      ∧ (t.kind = .redeem → t.voiding = none → (t.state = .localHeld ∨ t.state = .remoteHeld ∨ t.state = .standinHeld) →
        (fieldAt r.fields 2 4 = 0 ∨ t.amount < fieldAt r.fields 2 4) → exec .complete s = .next (refused .badValue))))

/-- A VOID (R71): a local hold is released, a remote one by a RELEASE frame with a place in the outbound queue, a stand-in
without a frame; the slot is FREE, a reservation is free again, and the till receives VOIDED. Where the RELEASE has no room
the void waits with it, the abandonment timer stopped. That VOIDED carries the tag of the opening request is the model's
reading (log 33). -/
def Obligations.VoidCompletes : Prop :=
  (∀ (s : State) (r : Request) (rest : List Request) (t : Txn) (h : Hold),
    s.Serves .void r rest → fieldAt r.fields 0 2 = t.reference → s.HeldTxn t .localHeld →
    s.holdNamed t.holdId s.own t.reference t.card.key = some h → h.state = .held →
    exec .void s = .next (State.settle ((((s.withoutTxn t.reference).removeHold h.id)).answered rest
      { kind := 5, tag := t.tag, status := 3, fields := toBytes 2 t.reference })))
  ∧ (∀ (s : State) (r : Request) (rest : List Request) (t : Txn) (target : Nat),
    s.Serves .void r rest → fieldAt r.fields 0 2 = t.reference → s.HeldTxn t .remoteHeld → t.target = some target →
    s.lc.hasRoom 1 = true → (∀ f ∈ s.lc.waitList, f.ticket ≠ s.ticket) →
    exec .void s = .next (State.settle (((((s.withoutTxn t.reference).setAu
        { s.au with reservations := s.au.reservations - 1 }).hand target
        (.release t.card t.holdId t.reference))).answered rest
      { kind := 5, tag := t.tag, status := 3, fields := toBytes 2 t.reference })))
  ∧ (∀ (s : State) (r : Request) (rest : List Request) (t : Txn),
    s.Serves .void r rest → fieldAt r.fields 0 2 = t.reference → s.HeldTxn t .standinHeld →
    exec .void s = .next (State.settle ((((s.withoutTxn t.reference).setAu
        { s.au with reservations := s.au.reservations - 1 })).answered rest
      { kind := 5, tag := t.tag, status := 3, fields := toBytes 2 t.reference })))
  ∧ (∀ (s : State) (r : Request) (rest : List Request) (t : Txn) (target : Nat),
    s.Serves .void r rest → fieldAt r.fields 0 2 = t.reference → s.HeldTxn t .remoteHeld → t.target = some target →
    s.lc.hasRoom 1 = false →
    exec .void s = .next (State.settle (((s.popRequest rest).setBr { s.br with
        txns := updateWhere (fun x => x.reference = t.reference) (fun x => { x with
          timer := none, voiding := some (s.ticket, false) }) s.br.txns }).hand target
      (.release t.card t.holdId t.reference))))

/-! ### Control requests, starts and reports -/

/-- A CLOSE PERIOD below the last period closes to open + 1 and is answered CLOSED with both periods; at the last period
it is refused WRONG-STATE (R100). A close with an EMPTY closing bank and some activity (R99, R101, R103, R111): the open
bank becomes the closing bank with the statuses of R103, the open bank is clear, the open period is q, CLOSE(q) is handed
from JOINED and HANDING-OVER and the window starts there, and every peer's missed count and DEGRADED mark clear. A close
with no activity at all places its payout advice at once (R112 to R114). A close over a closing bank in ROUND finishes that
round first, forced (R99, R112, R113): its payout advice joins the list, and the close goes on with an EMPTY bank. That an
entry with the saturated mark and six counts of 0 gets NONE is the model's choice between R103 and R25 (log 64). -/
def Obligations.ClosePeriodMovesTheOpenBank : Prop :=
  (∀ (s : State) (r : Request) (rest : List Request), s.Serves .closePeriod r rest →
    (s.su.openPeriod < 4294967295 →
      exec .closePeriod s = .next (State.settle (((s.popRequest rest).closeTo (s.su.openPeriod + 1)).answer
        { kind := 8, tag := r.tag, status := 6,
          fields := toBytes 4 s.su.openPeriod ++ toBytes 4 (s.su.openPeriod + 1) })))
    ∧ (4294967295 ≤ s.su.openPeriod →
      exec .closePeriod s = .next (State.settle (s.answered rest (declinedRecord .closePeriod r.tag .wrongState)))))
  ∧ (∀ (s : State) (q : Nat), s.su.closing = none →
    (∃ e ∈ s.su.entries, e.2.active = true) →
    let t := s.closeTo q
    t.su = { s.su with
        openPeriod := q, entries := [], counters := {}, window := if s.onLine then some s.windowEnd else none
        closing := some {
          period := s.su.openPeriod, entries := s.su.entries, counters := s.su.counters
          status := (s.su.entries.map fun e => (e.1,
            if e.2.active then
              ({ compare := if e.2.saturated then .saturated else .pending, send := .queued } : StatementStatus)
            else {})).filter fun e => e.2 ≠ {} } }
    ∧ t.lc = (if s.onLine then (s.broadcast (.close q)).lc else s.lc)
    ∧ t.pm = { s.pm with
        peers := Table.mapEntries {} (fun _ e => { e with missed := 0, degraded := false }) s.pm.peers }
    ∧ t.sc = s.sc ∧ t.till = s.till ∧ t.cu = s.cu ∧ t.br = s.br ∧ t.au = s.au ∧ t.now = s.now ∧ t.free = s.free
    ∧ t.pending = s.pending)
  ∧ (∀ (s : State) (q : Nat), s.su.closing = none → s.cu.handover = none → s.su.sending = none →
    (∀ e ∈ s.su.entries, e.2.active = false) →
    (s.closeTo q).su.closing = none ∧ (s.closeTo q).su.window = none ∧ (s.closeTo q).su.openPeriod = q
    ∧ ∃ p : Payout, (s.closeTo q).till.payouts = pushPayout s.till.payouts p ∧ p.period = s.su.openPeriod
        ∧ p.issued = s.su.counters.issued ∧ p.cashOuts = s.su.counters.cashOuts ∧ p.onUs = s.su.counters.onUs
        ∧ p.matched = 0 ∧ p.broken = 0 ∧ p.unconfirmed = 0 ∧ p.saturated = 0 ∧ p.undeliverable = 0
        ∧ p.overwritten = false)
  ∧ (∀ (s : State) (q : Nat) (c : Closing), s.su.closing = some c → s.su.sending = none → s.cu.handover = none →
    let finished : Closing := { c with status := Table.mapEntries {} (fun _ st => {
      compare := if st.compare = .pending then .unconfirmed else st.compare
      send := if st.send = .queued then .undeliverable else st.send
      part := if st.compare = .pending then none else st.part }) c.status }
    s.closeTo q = ((s.setTill { s.till with payouts := pushPayout s.till.payouts finished.payout }).setSu { s.su with
      closing := none, window := none }).closeTo q)

/-- A HANDOVER that passes the tests of R117 enters DRAINING with its drain limit and keeps its reserved slot; one that
fails a test is refused with that test's reason. -/
def Obligations.HandoverRequestCompletes : Prop :=
  (∀ (s : State) (r : Request) (rest : List Request) (c : Nat),
    s.Serves .handover r rest → fieldAt r.fields 0 1 = c → s.sc.station = .joined → 1 ≤ c → c ≤ 239 → c ≠ s.own →
    (s.peerAt c).presence = .present → s.br.txns = [] → s.cu.adoption = none → s.su.openPeriod < 4294967295 →
    exec .handover s = .next (State.settle (((s.popRequest rest).setCu { s.cu with
        handover := some {
          sub := .draining, custodian := c, tag := r.tag, homes := s.own :: s.cu.adopted, replyTimeout := s.replyTimeout
          timer := some (s.now + 2 * (s.sc.config.holdExpiry * 1000)) } }).setSc
        { s.sc with station := .handingOver })))
  ∧ (∀ (s : State) (r : Request) (rest : List Request),
    s.Serves .handover r rest → s.sc.station = .joined →
    (¬ (1 ≤ fieldAt r.fields 0 1 ∧ fieldAt r.fields 0 1 ≤ 239 ∧ fieldAt r.fields 0 1 ≠ s.own) →
      exec .handover s = .next (State.settle (s.answered rest (declinedRecord .handover r.tag .badValue))))
    ∧ ((1 ≤ fieldAt r.fields 0 1 ∧ fieldAt r.fields 0 1 ≤ 239 ∧ fieldAt r.fields 0 1 ≠ s.own) →
      ((s.peerAt (fieldAt r.fields 0 1)).presence ≠ .present ∨ s.br.txns ≠ [] ∨ s.cu.adoption ≠ none
        ∨ 4294967295 ≤ s.su.openPeriod) →
      exec .handover s = .next (State.settle (s.answered rest (declinedRecord .handover r.tag .wrongState)))))

/-- STATUS, PEER, READ POSITION and READ FLOAT are answered from the state and change nothing but the result queue; a bad
address or bank is refused BAD-VALUE (R13, R96, R157, R177). The items of STATUS and PEER stand in the order of R177 and
R157; the widths that chapter 12 does not name, and an EMPTY closing bank read as zeros, are the model's reading (log 14),
as is the peer count without the own address (log 15). The PEER count takes an IN-DELIVERY advice for the station it was
sent to and every other for its current target (R82, R93, R157). What an advice for a home held here (log 43) and a settled
one (log 61) count for, the pause mark and its end as one optional item (log 63), the 8 bytes of the ACTIVE sum (log 50),
the bit rate as its strap code (log 55), the code of STUCK (log 56) and the places of the pins (log 57) are the model's
choice. The learn time of a PINNED entry in a PEER result is a free value (log 13), for which the free counter moves on.
READ POSITION gives an entry's figures and marks, NET with its invalid mark, and the lifetime record or the statuses (R19,
R25, R27, R96). -/
def Obligations.ReadingsChangeNothingElse : Prop :=
  (∀ (s : State) (r : Request) (rest : List Request), s.Serves .status r rest →
    exec .status s = .next (s.answered rest
      { kind := 10, tag := r.tag, status := 0, fields := (s.popRequest rest).statusFields }))
  ∧ (∀ (s : State) (r : Request) (rest : List Request) (a : Nat), s.Serves .peer r rest → fieldAt r.fields 0 1 = a →
    (1 ≤ a ∧ a ≤ 239 → exec .peer s = .next ((s.answered rest
        { kind := 11, tag := r.tag, status := 0, fields := s.peerFields a }).useFree 1))
    ∧ (¬ (1 ≤ a ∧ a ≤ 239) → exec .peer s = .next (s.answered rest (declinedRecord .peer r.tag .badValue))))
  ∧ (∀ (s : State) (r : Request) (rest : List Request) (a : Nat),
    s.Serves .readPosition r rest → fieldAt r.fields 0 1 = a →
    (1 ≤ a → a ≤ 239 → fieldAt r.fields 1 1 = 0 → exec .readPosition s = .next (s.answered rest
        { kind := 12, tag := r.tag, status := 0, fields := (Table.get {} s.su.entries a : PosEntry).bytes
            ++ (Table.get {} s.su.entries a : PosEntry).netBytes ++ (Table.get {} s.su.lifetime a : Lifetime).bytes }))
    ∧ (1 ≤ a → a ≤ 239 → fieldAt r.fields 1 1 = 1 → exec .readPosition s = .next (s.answered rest
        { kind := 12, tag := r.tag, status := 0, fields := s.closingFields a }))
    ∧ (1 < fieldAt r.fields 1 1 →
      exec .readPosition s = .next (s.answered rest (declinedRecord .readPosition r.tag .badValue))))
  ∧ (∀ (s : State) (r : Request) (rest : List Request), s.Serves .readFloat r rest →
    exec .readFloat s = .next (s.answered rest {
      kind := 13, tag := r.tag, status := 0
      fields := toBytes 8 s.cu.ledger.issued ++ toBytes 8 s.cu.ledger.credits ++ toBytes 8 s.cu.ledger.adoptedIn
        ++ toBytes 8 s.cu.ledger.redeemed ++ toBytes 8 s.cu.ledger.cashedOut ++ toBytes 8 s.cu.ledger.handedOut
        ++ toBytes 8 (activeSum s.cu.cards) ++ toBytes 2 (countState s.cu.cards .active)
        ++ toBytes 2 (countState s.cu.cards .closed) ++ toBytes 2 (countState s.cu.cards .pendingAdopt) }))
  ∧ (∀ (s : State),
    let counted {α : Type} (p : α → Bool) (l : List α) := toBytes 1 (l.filter p).length
    let listed := s.pm.peers.filter fun e => e.1 ≠ s.own
    let pin (k : Nat) : List Byte := match (s.pm.homeMap.filter fun e => e.learned.isNone)[k]? with
      | some e => toBytes 1 e.home ++ toBytes 1 e.custodian
      | none => toBytes 2 0
    let c := s.sc.config
    s.statusFields =
      -- Station Controller
      toBytes 1 s.sc.station.code ++ optionalBytes 1 (s.sc.haltCause.map HaltCause.code)
      ++ optionalBytes 1 (s.cu.handover.map fun h => h.sub.code) ++ toBytes 1 s.sc.startCount
      ++ toBytes 1 s.sc.straps.address ++ optionalBytes 1 s.sc.storedAddress ++ toBytes 1 s.sc.straps.rate
      -- card register, hold table, transaction table, advice queue
      ++ toBytes 2 (countState s.cu.cards .active) ++ toBytes 2 (countState s.cu.cards .closed)
      ++ toBytes 2 (countState s.cu.cards .pendingAdopt) ++ toBytes 2 s.usableSlots ++ toBytes 3 s.cu.nextSerial
      ++ optionalBytes 1 (s.cu.adoption.map (·.station)) ++ toBytes 2 (countState s.cu.cards .pendingAdopt)
      ++ toBytes 2 ((s.cu.adoption.map (·.toCome)).getD 0)
      ++ counted (fun h => h.state = .held) s.cu.holds ++ counted (fun h => h.state = .captured) s.cu.holds
      ++ toBytes 1 s.br.txns.length ++ toBytes 1 (16 - s.br.txns.length)
      ++ counted (fun t => t.state = .localHeld) s.br.txns ++ counted (fun t => t.state = .authWait) s.br.txns
      ++ counted (fun t => t.state = .remoteHeld) s.br.txns ++ counted (fun t => t.state = .standinHeld) s.br.txns
      ++ counted (fun t => t.state = .captureWait) s.br.txns ++ counted (fun t => t.state = .creditWait) s.br.txns
      ++ counted (fun t => t.state = .enquireWait) s.br.txns ++ toBytes 1 s.au.reservations
      ++ counted (fun a => a.state = .waiting) s.au.queue ++ counted (fun a => a.state = .inDelivery) s.au.queue
      ++ counted (fun a => a.state = .settled) s.au.queue
      -- Settlement Unit, Line Controller
      ++ toBytes 4 s.su.openPeriod ++ toBytes 1 (if s.su.closing.isSome = true then 1 else 0)
      ++ optionalBytes 4 (s.su.closing.map (·.period)) ++ toBytes 1 s.till.payouts.length
      ++ toBytes 1 s.lineState.code ++ toBytes 1 s.lc.inbound.length
      ++ counted (fun f => f.msg.cls = 0) s.lc.outbound ++ counted (fun f => f.msg.cls = 1) s.lc.outbound
      ++ counted (fun f => f.msg.cls = 2) s.lc.outbound ++ counted (fun f => f.msg.cls = 3) s.lc.outbound
      ++ toBytes 1 s.lc.sequence
      -- Peer Monitor, Till Port
      ++ toBytes 1 ((listed.filter fun e => e.2.presence = .unknown).length
        + ((if 1 ≤ s.own ∧ s.own ≤ 239 then 238 else 239) - listed.length))
      ++ counted (fun e => e.2.presence = .present) listed ++ counted (fun e => e.2.presence = .quiet) listed
      ++ counted (fun e => e.2.presence = .absent) listed ++ counted (fun e => e.2.degraded) s.pm.peers
      ++ toBytes 1 s.pm.mode.code ++ toBytes 1 s.pm.run.length ++ toBytes 2 s.pm.lastWindow
      ++ counted (fun e => e.learned.isSome) s.pm.homeMap ++ counted (fun e => e.learned.isNone) s.pm.homeMap
      ++ toBytes 1 s.till.requests.length ++ toBytes 1 s.till.results.length ++ toBytes 1 s.till.reserved
      ++ toBytes 1 (if s.till.overrun = true then 1 else 0)
      -- the configuration record
      ++ toBytes 4 c.cardCap ++ toBytes 2 c.feeRate ++ toBytes 1 c.dormancy ++ toBytes 2 c.holdExpiry
      ++ toBytes 2 c.normalReply ++ toBytes 2 c.busyReply ++ toBytes 2 c.retention ++ toBytes 1 c.normalAttempts
      ++ toBytes 1 c.busyAttempts ++ toBytes 4 c.normalBudget ++ toBytes 4 c.busyBudget ++ toBytes 4 c.normalLimit
      ++ toBytes 4 c.busyLimit ++ toBytes 1 c.beaconInterval ++ toBytes 2 c.upper ++ toBytes 2 c.lower ++ toBytes 1 c.dwell
      ++ toBytes 2 c.statementWindow ++ toBytes 1 c.pauseTime ++ pin 0 ++ pin 1 ++ pin 2 ++ pin 3)
  ∧ (∀ (s : State) (a : Nat), ∃ open_ : Nat,
    let e := s.peerAt a
    let instant (t : Nat) := t % 4294967296
    let target (x : Advice) : Nat :=
      let current := if s.isHere x.card.home = true then s.own
        else ((s.pm.homeMap.find? fun m => m.home = x.card.home).map (·.custodian)).getD x.card.home
      if x.state = .inDelivery then x.lastTarget.getD current else current
    s.peerFields a =
      toBytes 1 e.presence.code ++ toBytes 1 (if e.degraded = true then 1 else 0)
      ++ optionalBytes 4 (e.lastHeard.map instant) ++ toBytes 1 e.failed ++ toBytes 2 e.missed
      ++ optionalBytes 1 e.lastSequence
      ++ (match e.lastBeacon with
        | none => toBytes 1 0 ++ toBytes 10 0
        | some b => toBytes 1 1 ++ toBytes 4 b.period ++ toBytes 1 b.mode ++ toBytes 1 b.handover ++ toBytes 1 b.count
            ++ toBytes 1 b.h1 ++ toBytes 1 b.h2 ++ toBytes 1 b.h3)
      ++ optionalBytes 1 e.departure
      ++ optionalBytes 4 ((s.lc.pauses.find? fun x => x.1 = a).map fun x => instant x.2)
      ++ toBytes 3 (s.outstandingHome a)
      ++ toBytes 1 (s.au.queue.filter fun x => target x = a).length
      ++ match s.pm.homeMap.find? fun m => m.home = a with
        | none => toBytes 1 0 ++ toBytes 7 0
        | some m => toBytes 1 1 ++ toBytes 1 m.home ++ toBytes 1 m.custodian
            ++ match m.learned with
              | some t => toBytes 1 0 ++ toBytes 4 (instant t)
              | none => toBytes 1 1 ++ toBytes 4 open_)
  ∧ (∀ (e : PosEntry) (l : Lifetime),
    let mark (b : Bool) : List Byte := toBytes 1 (if b = true then 1 else 0)
    e.bytes = toBytes 5 e.gi ++ toBytes 3 e.giN ++ toBytes 5 e.fi ++ toBytes 3 e.fiN ++ toBytes 5 e.ci ++ toBytes 3 e.ciN
      ++ toBytes 5 e.gr ++ toBytes 3 e.grN ++ toBytes 5 e.fr ++ toBytes 3 e.frN ++ toBytes 5 e.cr ++ toBytes 3 e.crN
      ++ toBytes 5 e.lateGross ++ toBytes 5 e.lateFee ++ toBytes 5 e.lateCredit ++ toBytes 5 e.standinLoss
      ++ mark e.saturated ++ mark e.missed
    ∧ e.netBytes = toSignedBytes 6 (((e.gr : Int) - e.fr - e.cr) - ((e.gi : Int) - e.fi - e.ci)) ++ mark e.saturated
    ∧ l.bytes = toBytes 2 l.remainder ++ toBytes 5 l.gross ++ toBytes 5 l.fee ++ mark l.saturated)
  ∧ (∀ (s : State) (a : Nat),
    (∀ c, s.su.closing = some c →
      let e : PosEntry := Table.get {} c.entries a
      let st : StatementStatus := Table.get {} c.status a
      s.closingFields a = toBytes 1 1 ++ (toBytes 1 1 ++ toBytes 4 c.period) ++ e.bytes ++ e.netBytes
        ++ toBytes 1 st.compare.code ++ toBytes 1 st.send.code)
    ∧ (s.su.closing = none → s.closingFields a = toBytes 6 0 ++ PosEntry.bytes {} ++ PosEntry.netBytes {} ++ toBytes 2 0))

/-- A CONFIGURE takes the adjusted record and the pins, zeroes the lifetime records when the fee rate taken is not the one
in force, and is answered with the clamp list (R29, R167, R178, R189). The four pin places are the bytes 42 to 49, each a
home and a custodian, an empty one both 0; a pin is dropped for the causes of R167. That the clamp list rises by its codes
with the dropped pins last, and that a dropped pin shuts out a later one of its home, is the model's reading (log 27). The
fields read from the record, the order of the parameters, the entry for each that differs, a dropped pin's entry with its
two bytes as one number (log 27) and the bytes of the list, numbers most significant byte first, are those of R189. A JOIN
makes the station LISTENING for twice the NORMAL beacon interval, with the line LISTEN-ONLY and busy until the next bus
free, and opens the first load window (R135, R165, R170). -/
def Obligations.ConfigureAndJoinComplete : Prop :=
  (∀ (s : State) (r : Request) (rest : List Request), s.Serves .configure r rest →
    let written := ConfigRecord.ofFields r.fields
    let taken := s.adjust written
    let pins := s.sortPins [] (pinPlaces r.fields)
    exec .configure s = .next ((((s.setSc { s.sc with config := taken }).setSu { s.su with
        lifetime := if taken.feeRate = s.sc.config.feeRate then s.su.lifetime else [] }).setPm { s.pm with
        homeMap := pins.1.map (fun p => { home := p.home, custodian := p.custodian, learned := none })
          ++ s.pm.homeMap.filter fun e => e.learned.isSome && !(pins.1.any fun p => p.home = e.home) }).answered rest
      { kind := 14, tag := r.tag, status := 0,
        fields := clampFields (clampEntries 1 written.values taken.values ++ pins.2.map PinPlace.clamp) }))
  ∧ (∀ (s : State) (r : Request) (rest : List Request), s.Serves .join r rest →
    exec .join s = .next ((((s.setSc { s.sc with
        station := .listening, listenTimer := some (s.now + 2 * (s.sc.config.beaconInterval * 1000)) }).setLc
        { s.lc with activity := .busy }).setPm { s.pm with window := some (s.now + 1000), windowCount := 0 }).answered rest
      { kind := 15, tag := r.tag, status := 0 }))
  ∧ (∀ (f : List Byte), pinPlaces f = ([
      { code := 20, home := fieldAt f 42 1, custodian := fieldAt f 43 1 },
      { code := 21, home := fieldAt f 44 1, custodian := fieldAt f 45 1 },
      { code := 22, home := fieldAt f 46 1, custodian := fieldAt f 47 1 },
      { code := 23, home := fieldAt f 48 1, custodian := fieldAt f 49 1 }] : List PinPlace).filter
      fun p => ¬ (p.home = 0 ∧ p.custodian = 0))
  ∧ (∀ (s : State) (earlier : List PinPlace) (p : PinPlace), s.pinDropped earlier p = true ↔
    ¬ (1 ≤ p.home ∧ p.home ≤ 239) ∨ ¬ (1 ≤ p.custodian ∧ p.custodian ≤ 239) ∨ p.home = p.custodian ∨ p.home = s.own
      ∨ p.custodian = s.own ∨ p.home ∈ s.cu.adopted ∨ ∃ q ∈ earlier, q.home = p.home)
  ∧ (∀ (f : List Byte), ConfigRecord.ofFields f = {
      cardCap := fieldAt f 0 4, feeRate := fieldAt f 4 2, dormancy := fieldAt f 6 1, holdExpiry := fieldAt f 7 2
      normalReply := fieldAt f 9 2, busyReply := fieldAt f 11 2, retention := fieldAt f 13 2
      normalAttempts := fieldAt f 15 1, busyAttempts := fieldAt f 16 1, normalBudget := fieldAt f 17 4
      busyBudget := fieldAt f 21 4, normalLimit := fieldAt f 25 4, busyLimit := fieldAt f 29 4
      beaconInterval := fieldAt f 33 1, upper := fieldAt f 34 2, lower := fieldAt f 36 2, dwell := fieldAt f 38 1
      statementWindow := fieldAt f 39 2, pauseTime := fieldAt f 41 1 })
  ∧ (∀ (c : ConfigRecord), c.values = [c.cardCap, c.feeRate, c.dormancy, c.holdExpiry, c.normalReply, c.busyReply,
      c.retention, c.normalAttempts, c.busyAttempts, c.normalBudget, c.busyBudget, c.normalLimit, c.busyLimit,
      c.beaconInterval, c.upper, c.lower, c.dwell, c.statementWindow, c.pauseTime])
  ∧ (∀ (written taken : List Nat), clampEntries 1 written taken =
      (((written.zip taken).zipIdx 1).filter fun x => x.1.1 ≠ x.1.2).map fun x =>
        { code := x.2, written := x.1.1, taken := x.1.2 })
  ∧ (∀ (s : State) (earlier : List PinPlace) (p : PinPlace) (rest : List PinPlace),
    s.sortPins earlier [] = ([], [])
    ∧ (s.pinDropped earlier p = true → s.sortPins earlier (p :: rest)
        = ((s.sortPins (earlier ++ [p]) rest).1, p :: (s.sortPins (earlier ++ [p]) rest).2))
    ∧ (s.pinDropped earlier p = false → s.sortPins earlier (p :: rest)
        = (p :: (s.sortPins (earlier ++ [p]) rest).1, (s.sortPins (earlier ++ [p]) rest).2))
    ∧ p.clamp = { code := p.code, written := p.home * 256 + p.custodian, taken := 0 })
  ∧ (∀ (l : List ClampEntry), clampFields l = toBytes 1 l.length
      ++ l.flatMap fun e => toBytes 1 e.code ++ toBytes 4 e.written ++ toBytes 4 e.taken)
  ∧ (∀ (f : List Byte) (offset length : Nat),
      fieldAt f offset length = ((f.drop offset).take length).foldl (fun v b => v * 256 + b.toNat) 0)
  ∧ (∀ (n v : Nat), toBytes n v = (List.range n).map fun i => BitVec.ofNat 8 (v / 256 ^ (n - 1 - i)))

/-- Whatever is written, the values taken are in their ranges and stand in the relations of R15, R18, R51, R80, R165 and
R166: the BUSY budget passes 1,000,000 only to cover the largest outstanding of a home, and the BUSY per-card limit passes
the card cap and its budget as taken only to cover that of a card, for which the raised budget has room. Each value taken is
the written one clamped to the nearest in its range, then raised to what is outstanding, to the highest ACTIVE balance or to
what the other values ask, or lowered under them, as those rules give; a record that is in range and in its relations is
taken as written. -/
def Obligations.ConfiguredValuesAreInRange : Prop :=
  (∀ (s : State) (w : ConfigRecord), (∀ r ∈ s.cu.cards, r.state = .active → r.balance ≤ 10000000) →
    let c := s.adjust w
    1000 ≤ c.cardCap ∧ c.cardCap ≤ 10000000 ∧ (∀ r ∈ s.cu.cards, r.state = .active → r.balance ≤ c.cardCap)
    ∧ c.feeRate ≤ 1000 ∧ 1 ≤ c.dormancy ∧ c.dormancy ≤ 255 ∧ 30 ≤ c.holdExpiry ∧ c.holdExpiry ≤ 900
    ∧ 100 ≤ c.normalReply ∧ c.normalReply ≤ 5000 ∧ c.normalReply ≤ c.busyReply ∧ c.busyReply ≤ 5000
    ∧ 10 ≤ c.retention ∧ c.retention ≤ 900 ∧ 3 * c.busyReply ≤ c.retention * 1000
    ∧ 1 ≤ c.normalAttempts ∧ c.normalAttempts ≤ 5 ∧ 1 ≤ c.busyAttempts ∧ c.busyAttempts ≤ 5
    ∧ c.normalBudget ≤ 1000000 ∧ c.normalLimit ≤ c.cardCap ∧ c.normalLimit ≤ c.normalBudget
    ∧ s.largestHome ≤ c.busyBudget ∧ c.busyBudget ≤ max 1000000 s.largestHome
    ∧ s.largestCard ≤ c.busyLimit ∧ c.busyLimit ≤ max (min c.cardCap c.busyBudget) s.largestCard
    ∧ c.busyLimit ≤ c.busyBudget
    ∧ 1 ≤ c.beaconInterval ∧ c.beaconInterval ≤ 30 ∧ 1 ≤ c.upper ∧ c.upper ≤ 4000 ∧ c.lower < c.upper
    ∧ 1 ≤ c.dwell ∧ c.dwell ≤ 15 ∧ 10 ≤ c.statementWindow ∧ c.statementWindow ≤ 600
    ∧ 5 ≤ c.pauseTime ∧ c.pauseTime ≤ 255)
  ∧ (∀ (s : State) (w : ConfigRecord),
    let clamp (low high v : Nat) := if v < low then low else if high < v then high else v
    let c := s.adjust w
    c.cardCap = max (clamp 1000 10000000 w.cardCap) s.highestActive ∧ c.feeRate = clamp 0 1000 w.feeRate
    ∧ c.dormancy = clamp 1 255 w.dormancy ∧ c.holdExpiry = clamp 30 900 w.holdExpiry
    ∧ c.normalReply = clamp 100 5000 w.normalReply ∧ c.busyReply = max (clamp 100 5000 w.busyReply) c.normalReply
    ∧ c.retention = max (clamp 10 900 w.retention) ((3 * c.busyReply + 999) / 1000)
    ∧ c.normalAttempts = clamp 1 5 w.normalAttempts ∧ c.busyAttempts = clamp 1 5 w.busyAttempts
    ∧ c.normalBudget = clamp 0 1000000 w.normalBudget
    ∧ c.busyBudget = max (clamp 0 1000000 w.busyBudget) s.largestHome
    ∧ c.normalLimit = min (min w.normalLimit c.cardCap) c.normalBudget
    ∧ c.busyLimit = max (min (min w.busyLimit c.cardCap) (clamp 0 1000000 w.busyBudget)) s.largestCard
    ∧ c.beaconInterval = clamp 1 30 w.beaconInterval ∧ c.upper = clamp 1 4000 w.upper
    ∧ c.lower = (if clamp 0 3999 w.lower < c.upper then clamp 0 3999 w.lower else c.upper - 1)
    ∧ c.dwell = clamp 1 15 w.dwell ∧ c.statementWindow = clamp 10 600 w.statementWindow
    ∧ c.pauseTime = clamp 5 255 w.pauseTime)
  ∧ (∀ (s : State) (w : ConfigRecord),
    1000 ≤ w.cardCap → w.cardCap ≤ 10000000 → s.highestActive ≤ w.cardCap → w.feeRate ≤ 1000 →
    1 ≤ w.dormancy → w.dormancy ≤ 255 → 30 ≤ w.holdExpiry → w.holdExpiry ≤ 900 →
    100 ≤ w.normalReply → w.normalReply ≤ w.busyReply → w.busyReply ≤ 5000 →
    10 ≤ w.retention → w.retention ≤ 900 → 3 * w.busyReply ≤ w.retention * 1000 →
    1 ≤ w.normalAttempts → w.normalAttempts ≤ 5 → 1 ≤ w.busyAttempts → w.busyAttempts ≤ 5 →
    w.normalBudget ≤ 1000000 → w.normalLimit ≤ w.cardCap → w.normalLimit ≤ w.normalBudget →
    s.largestHome ≤ w.busyBudget → w.busyBudget ≤ 1000000 →
    s.largestCard ≤ w.busyLimit → w.busyLimit ≤ w.cardCap → w.busyLimit ≤ w.busyBudget →
    1 ≤ w.beaconInterval → w.beaconInterval ≤ 30 → w.upper ≤ 4000 → w.lower < w.upper →
    1 ≤ w.dwell → w.dwell ≤ 15 → 10 ≤ w.statementWindow → w.statementWindow ≤ 600 → 5 ≤ w.pauseTime → w.pauseTime ≤ 255 →
    s.adjust w = w)
  ∧ (∀ (s : State),
    let advised (p : CardNo → Bool) := (s.au.queue.filter fun a => a.kind = .standin && a.state ≠ .settled && p a.card)
    let standing (p : CardNo → Bool) := (s.br.txns.filter fun t => t.state = .standinHeld && p t.card)
    let outstanding (p : CardNo → Bool) := ((advised p).map (·.amount)).sum + ((standing p).map (·.amount)).sum
    (∀ home, s.outstandingHome home = outstanding fun c => c.home = home)
    ∧ (∀ k, s.outstandingCard k = outstanding fun c => c.key = k)
    ∧ (∀ home, s.outstandingHome home ≤ s.largestHome)
    ∧ (s.largestHome = 0 ∨ ∃ home, s.outstandingHome home = s.largestHome)
    ∧ (∀ k, s.outstandingCard k ≤ s.largestCard) ∧ (s.largestCard = 0 ∨ ∃ k, s.outstandingCard k = s.largestCard)
    ∧ (∀ r ∈ s.cu.cards, r.state = .active → r.balance ≤ s.highestActive)
    ∧ (s.highestActive = 0 ∨ ∃ r ∈ s.cu.cards, r.state = .active ∧ r.balance = s.highestActive))

/-- POWER_UP, RESET_PIN, RESTART and SUPPLY_RETURN make the same warm start where CLEAR is not strapped and the store has
been held; the return from RETAIN turns the stop record into a SUPPLY report (R183, R185, R186). That POWER_UP makes the same
start in RETAIN, with no report, is the model's choice (log 48). -/
def Obligations.WarmStartsKeepTheRetainedStore : Prop :=
  (∀ (s : State) (p : Straps), p.clear = false → s.sc.storeValid = true →
    ∃ t, exec (.powerUp p true) s = .next t ∧ s.WarmStarted p t ∧ t.sc.latch = none
      ∧ t.sc.stopRecord = s.sc.stopRecord)
  ∧ (∀ (s : State) (p : Straps) (warning : Bool), p.clear = false → s.sc.storeValid = true → s.sc.station ≠ .retain →
    (s.sc.supply = .normal ∨ warning = false) →
    ∃ t, exec (.resetPin p warning) s = .next t ∧ s.WarmStarted p t ∧ t.sc.latch = none
      ∧ t.sc.stopRecord = s.sc.stopRecord)
  ∧ (∀ (s : State) (r : Request) (rest : List Request) (p : Straps), s.Serves .restart r rest → p.clear = false →
    s.sc.storeValid = true →
    ∃ t, exec (.restart p) s = .next t ∧ s.WarmStarted p t ∧ t.sc.latch = none ∧ t.sc.stopRecord = s.sc.stopRecord)
  ∧ (∀ (s : State) (p : Straps) (x : StopRecord), s.sc.station = .retain → p.clear = false → s.sc.storeValid = true →
    s.sc.stopRecord = some x →
    ∃ t, exec (.supplyReturn p true) s = .next t ∧ s.WarmStarted p t ∧ t.sc.stopRecord = none
      ∧ t.sc.latch = some {
          kind := 39, fields := toBytes 1 x.state.code ++ toBytes 1 x.outcome.code
            ++ toBytes 1 ((s.sc.startCount + 1) % 256) })

/-- The four starts are cold where CLEAR is strapped or the store has not been held, and then clear everything (R183); no
SUPPLY report is placed (R185). The reset pin has no effect in RETAIN (R185). A warning deasserted in the departure step is
kept, with the pins at that moment, for the test on entry to RETAIN (R185; the pins are log 32); with no warning asserted
there is no such event, and that it changes nothing is the model's choice (log 3). That POWER_UP starts a station in RETAIN
as well is another (log 48). That no stored address is left is the model's reading of R181 and R183 (log 9). -/
def Obligations.ColdStartsClearEverything : Prop :=
  (∀ (s : State) (p : Straps) (held : Bool), p.clear = true ∨ s.sc.storeValid = false ∨ held = false →
    exec (.powerUp p held) s = .next (s.coldStarted p))
  ∧ (∀ (s : State) (p : Straps) (warning : Bool), p.clear = true ∨ s.sc.storeValid = false → s.sc.station ≠ .retain →
    (s.sc.supply = .normal ∨ warning = false) → exec (.resetPin p warning) s = .next (s.coldStarted p))
  ∧ (∀ (s : State) (r : Request) (rest : List Request) (p : Straps), s.Serves .restart r rest →
    p.clear = true ∨ s.sc.storeValid = false → exec (.restart p) s = .next (s.coldStarted p))
  ∧ (∀ (s : State) (p : Straps) (held : Bool), s.sc.station = .retain →
    p.clear = true ∨ s.sc.storeValid = false ∨ held = false →
    exec (.supplyReturn p held) s = .next (s.coldStarted p))
  ∧ (∀ (s : State) (p : Straps) (warning : Bool), s.sc.station = .retain → exec (.resetPin p warning) s = .next s)
  ∧ (∀ (s : State) (p : Straps) (held : Bool), s.sc.station ≠ .retain →
    (s.sc.supply = .warned →
      exec (.supplyReturn p held) s = .next (s.setSc { s.sc with returned := some { straps := p, held } }))
    ∧ (s.sc.supply = .normal → exec (.supplyReturn p held) s = .next s))

/-- A free slot goes to the payout list first, then to the Settlement Unit's latch, then to the oldest settled advice, then
to the other latches in their order, and the report leaves its source (R92, R115, R146, R175). A PAYOUT report carries the
fields of its advice in 77 bytes, an ADVICE-SETTLED report those of its settled advice in 40 (R92, R114, R189); that its
last byte has LATE in bit 2, as a result's flags byte has, is the model's reading (log 28), and that both are placed in
HALTED too, beside R181, is its choice (log 67). -/
def Obligations.ReportsArePlacedInTheirOrder : Prop :=
  (∀ (s : State) (p : Payout) (rest : List Payout), s.live = true → s.slotFree = true → s.till.payouts = p :: rest →
    exec .payout s = .next (s.setTill { s.till with payouts := rest, results := s.till.results ++ [payoutRecord p] }))
  ∧ (∀ (s : State) (a : Advice) (g : Settled) (before after : List Advice), s.live = true → s.slotFree = true →
    s.till.payouts = [] → s.su.latch = none → s.au.queue = before ++ a :: after →
    (∀ b ∈ before, b.state ≠ .settled) → a.state = .settled → a.settled = some g →
    exec .adviceSettled s = .next (State.settle ((s.setAu { s.au with queue := before ++ after }).setTill
      { s.till with results := s.till.results ++ [adviceSettledRecord a g] })))
  ∧ (∀ (s : State) (r : Record), s.live = true → s.slotFree = true → s.till.payouts = [] →
    let placed (t : State) := t.setTill { s.till with results := s.till.results ++ [r] }
    (s.su.latch = some r →
      exec .reportLatchPlaced s = .next (placed (s.setSu { s.su with latch := none })))
    ∧ (s.su.latch = none → s.settledWaits = false →
      (s.br.latch = some r → exec .reportLatchPlaced s = .next (placed (s.setBr { s.br with latch := none })))
      ∧ (s.br.latch = none →
        (s.sc.latch = some r → exec .reportLatchPlaced s = .next (placed (s.setSc { s.sc with latch := none })))
        ∧ (s.sc.latch = none →
          (s.lc.latch = some r → exec .reportLatchPlaced s = .next (placed (s.setLc { s.lc with
            latch := none, clashes := if r.kind = 38 then 0 else s.lc.clashes })))
          ∧ (s.lc.latch = none → s.pm.latch = some r →
            exec .reportLatchPlaced s = .next (placed (s.setPm { s.pm with latch := none })))))))
  ∧ (∀ (p : Payout), payoutRecord p = {
      kind := 32
      fields := toBytes 4 p.period ++ toSignedBytes 8 p.figure ++ toBytes 8 p.feeOwed ++ toBytes 1 p.saturatedLeftOut
        ++ toBytes 5 p.issued ++ toBytes 5 p.cashOuts ++ toBytes 5 p.onUs ++ toBytes 8 p.standinLosses
        ++ toBytes 8 p.lateGross ++ toBytes 8 p.lateFee ++ toBytes 8 p.lateCredit ++ toBytes 3 p.lateStatements
        ++ toBytes 1 p.matched ++ toBytes 1 p.broken ++ toBytes 1 p.unconfirmed ++ toBytes 1 p.saturated
        ++ toBytes 1 p.undeliverable ++ toBytes 1 (if p.overwritten = true then 1 else 0) }
    ∧ (payoutRecord p).fields.length = 77)
  ∧ (∀ (a : Advice) (g : Settled), adviceSettledRecord a g = {
      kind := 34
      fields := toBytes 2 a.reference ++ toBytes 1 (if a.kind = .standin then 0 else 1) ++ cardToTill a.card
        ++ toBytes 4 a.amount ++ toBytes 1 g.status ++ toBytes 4 g.figures.posted ++ toBytes 4 g.figures.fee
        ++ toBytes 4 g.figures.net ++ toBytes 4 g.figures.short ++ toBytes 4 g.figures.stamp ++ toBytes 1 g.station
        ++ toBytes 1 (if g.late = true then 4 else 0) }
    ∧ (adviceSettledRecord a g).fields.length = 40)

/-! ### The mall line -/

/-- A frame is accepted exactly when its line state, kind, class, destination, length and the inbound occupancy pass the
tests of R147. -/
def Obligations.AcceptanceFollowsItsTests : Prop :=
  ∀ (s : State) (f : RawFrame) (m : Msg), s.accepts f = some m ↔
    ((s.lineState = .active ∨ s.lineState = .listenOnly ∧ 13 ≤ f.kind ∧ f.kind ≤ 17)
      ∧ kindClass f.kind = some f.cls
      ∧ f.dest = (if 13 ≤ f.kind ∧ f.kind ≤ 17 then 255 else s.own)
      ∧ s.lc.inbound.length < (if f.cls = 0 then 16 else 12)
      ∧ kindLength f.kind = some f.payload.length ∧ Msg.decode f.kind f.payload = some m)

/-- A heard frame other than a DEPART (R87, R142, R143, R147, R148, R154, R158, R162, R165): its sender is PRESENT, the
frames missed since its last sequence are counted and mark the open entry, hold-offs clear, the load window counts it, and
an accepted frame joins the inbound queue with the slot driven in ACTIVE, an accepted PAUSE makes or extends its sender's
entry or, carrying 0, does nothing (R152). Nothing else changes before what is then due. A DEPART heard makes its sender
ABSENT at its slot, whether or not it is accepted (R161). A handover to it in OFFERING or TRANSFERRING fails by it, with the
cause CUSTODIAN-ABSENT (R123, R161); the refusal cause 0 is the model's reading (log 36). -/
def Obligations.FrameHeardCompletes : Prop :=
  (∀ (s : State) (levels : List Bool) (f : RawFrame), s.live = true → s.receiving = true → receive levels = .frame f →
    1 ≤ f.source → f.source ≤ 239 → f.source ≠ s.own → f.kind ≠ 16 →
    let e := s.peerAt f.source
    let d := missedBetween e.lastSequence f.sequence
    ∃ u : State, exec (.frameHeard levels) s = .next u.settle
      ∧ (∀ a, u.peerAt a = if a = f.source then
          { e with
            presence := .present, lastHeard := some s.now, failed := 0, lastSequence := some f.sequence
            missed := min (e.missed + d) 65535, degraded := e.degraded || (d ≠ 0 && 8 ≤ e.missed + d) }
          else s.peerAt a)
      ∧ u.pm = { s.pm with peers := u.pm.peers, windowCount := s.pm.windowCount + 1 }
      ∧ (∀ a, u.su.openEntry a = if a = f.source ∧ d ≠ 0 then { s.su.openEntry a with missed := true }
          else s.su.openEntry a)
      ∧ u.su = { s.su with entries := u.su.entries }
      ∧ u.au = { s.au with queue := s.au.queue.map fun a => match a.holdOff with
          | some (.frame x) => if x = f.source then { a with holdOff := none } else a
          | some (.beacon x) => if x = f.source ∧ f.kind = 14 then { a with holdOff := none } else a
          | some (.locally _) => a
          | none => a }
      ∧ u.sc = s.sc ∧ u.till = s.till ∧ u.cu = s.cu ∧ u.br = s.br ∧ u.now = s.now ∧ u.free = s.free
      ∧ u.pending = s.pending
      ∧ (s.accepts f = none → u.lc = { s.lc with activity := .busy, ackDriven := false })
      ∧ (∀ m, s.accepts f = some m → (∀ t, m ≠ .pause t) → s.lc.inbound.length < 11 →
          u.lc = { s.lc with
            activity := .busy, ackDriven := decide (s.lineState = .active)
            inbound := s.lc.inbound ++ [{ source := f.source, msg := m }] })
      ∧ (∀ t, s.accepts f = some (.pause t) → 0 < t → (∀ x ∈ s.lc.pauses, x.1 ≠ f.source) → s.lc.inbound.length < 12 →
          u.lc = { s.lc with
            activity := .busy, ackDriven := decide (s.lineState = .active)
            pauses := s.lc.pauses ++ [(f.source, s.now + t)] })
      ∧ (∀ t, s.accepts f = some (.pause t) → 0 < t → (∃ x ∈ s.lc.pauses, x.1 = f.source) → s.lc.inbound.length < 12 →
          u.lc = { s.lc with
            activity := .busy, ackDriven := decide (s.lineState = .active)
            pauses := s.lc.pauses.map fun x => if x.1 = f.source then (f.source, max x.2 (s.now + t)) else x })
      ∧ (s.accepts f = some (.pause 0) → s.lc.inbound.length < 12 →
          u.lc = { s.lc with activity := .busy, ackDriven := decide (s.lineState = .active) }))
  ∧ (∀ (s : State) (levels : List Bool) (f : RawFrame), s.live = true → s.receiving = true → receive levels = .frame f →
    1 ≤ f.source → f.source ≤ 239 → f.source ≠ s.own → f.kind = 16 →
    let fails (h : Handover) := s.cu.handover = some h ∧ h.custodian = f.source
      ∧ (h.sub = .offering ∨ h.sub = .transferring) ∧ (s.peerAt f.source).presence ≠ .absent
    let failed := s.failHandover .custodianAbsent 0
    let heard (a : Advice) : Advice := if a.holdOff = some (.frame f.source) then { a with holdOff := none } else a
    ∃ u : State, exec (.frameHeard levels) s = .next u.settle ∧ (u.peerAt f.source).presence = .absent
      ∧ (u.peerAt f.source).lastHeard = some s.now ∧ (u.peerAt f.source).failed = 0
      ∧ (u.peerAt f.source).departure = (s.peerAt f.source).departure
      ∧ u.br = s.br ∧ u.now = s.now ∧ u.free = s.free ∧ u.pending = s.pending
      ∧ (∀ h, fails h → u.sc = failed.sc ∧ u.cu = failed.cu ∧ u.till = failed.till
        ∧ u.au.queue = failed.au.queue.map heard
        ∧ (s.lc.inbound.length < 11 → u.lc.outbound = failed.lc.outbound ∧ u.lc.waitList = failed.lc.waitList))
      ∧ ((∀ h, ¬ fails h) → u.sc = s.sc ∧ u.cu = s.cu ∧ u.till = s.till
        ∧ u.au.queue = s.au.queue.map heard
        ∧ (s.lc.inbound.length < 11 → u.lc.outbound = s.lc.outbound ∧ u.lc.waitList = s.lc.waitList)))

/-- A reception that R138 or R139 discards changes nothing but that the line is busy until the next bus free; a frame with
the own address as source is a clash, and neither heard nor accepted (R138, R146). A clash after the arbitration field of a
send aborts it as one send of its frame, and the fourth failed send of a reply takes it from the queue; each clash puts a
CLASH report with its cause and the count in the latch (R144 to R146). The line becomes STUCK: a send in progress counts one
send, a LINE-STUCK START report is in the latch, and every queue keeps its contents; at the next bus free STUCK ends with an
END report that carries the time (R155). After a fourth failed send, by a clash or cut off, the frame has left and its owner
is told, UNDELIVERABLE or DROPPED, as SendEndCompletes says (R144). The duration of a START report is a free value (log 13);
that one of an END report is taken modulo 2^32 is the model's choice (log 54). -/
def Obligations.DiscardsClashesAndStuckComplete : Prop :=
  (∀ (s : State), s.receiving = true →
    exec (.frameDiscarded .brokenFlag) s = .next (s.setLc { s.lc with activity := .busy, ackDriven := false }))
  ∧ (∀ (s : State) (bits : List Bool), s.receiving = true → receive bits = .discard →
    exec (.frameDiscarded (.levels bits)) s = .next (s.setLc { s.lc with activity := .busy, ackDriven := false }))
  ∧ (∀ (s : State) (levels : List Bool) (f : RawFrame), s.live = true → s.receiving = true →
    receive levels = .frame f → f.source = s.own →
    exec (.heardOwn levels) s = .next (s.setLc { s.lc with
      activity := .busy, ackDriven := false, clashes := min (s.lc.clashes + 1) 65535
      latch := some {
        kind := 38, fields := toBytes 1 1 ++ toBytes 1 f.kind ++ toBytes 1 f.dest
          ++ toBytes 2 (min (s.lc.clashes + 1) 65535) } }))
  ∧ (∀ (s : State) (x : Sending) (f : OutFrame), s.live = true → s.lc.activity = .sending x →
    s.lc.outbound.find? (fun g => g.ticket = x.ticket) = some f → f.sends + 1 < 4 →
    exec .clashMismatch s = .next (State.settle (s.setLc { s.lc with
      activity := .busy, ackDriven := false, clashes := min (s.lc.clashes + 1) 65535
      latch := some {
        kind := 38, fields := toBytes 1 0 ++ toBytes 1 x.kind ++ toBytes 1 x.dest
          ++ toBytes 2 (min (s.lc.clashes + 1) 65535) }
      outbound := updateWhere (fun g => g.ticket = f.ticket) (fun g => { g with sends := g.sends + 1 }) s.lc.outbound })))
  ∧ (∀ (s : State) (x : Sending) (f : OutFrame), s.live = true → s.lc.activity = .sending x →
    s.lc.outbound.find? (fun g => g.ticket = x.ticket) = some f → 4 ≤ f.sends + 1 → f.dest ≠ 255 → f.msg.cls = 0 →
    s.lc.waitList = [] →
    exec .clashMismatch s = .next (State.settle (s.setLc { s.lc with
      activity := .busy, ackDriven := false, clashes := min (s.lc.clashes + 1) 65535
      latch := some {
        kind := 38, fields := toBytes 1 0 ++ toBytes 1 x.kind ++ toBytes 1 x.dest
          ++ toBytes 2 (min (s.lc.clashes + 1) 65535) }
      outbound := s.lc.outbound.filter fun g => g.ticket ≠ f.ticket })))
  ∧ (∀ (s : State), s.live = true → s.lineState = .active ∨ s.lineState = .listenOnly →
    (∀ x, s.lc.activity ≠ .sending x) →
    ∃ n, exec .stuck s = .next (State.settle ((s.setLc { s.lc with
      stuckSince := some s.now, activity := .busy, ackDriven := false
      latch := some { kind := 37, fields := toBytes 1 0 ++ toBytes 4 n } }).setFree (s.free + 1))))
  ∧ (∀ (s : State) (x : Sending) (f : OutFrame), s.live = true → s.lineState = .active → s.lc.activity = .sending x →
    s.lc.outbound.find? (fun g => g.ticket = x.ticket) = some f → f.sends + 1 < 4 →
    ∃ n, exec .stuck s = .next (State.settle ((s.setLc { s.lc with
      stuckSince := some s.now, activity := .busy, ackDriven := false
      latch := some { kind := 37, fields := toBytes 1 0 ++ toBytes 4 n }
      outbound := updateWhere (fun g => g.ticket = f.ticket) (fun g => { g with sends := g.sends + 1 }) s.lc.outbound
      }).setFree (s.free + 1))))
  ∧ (∀ (s : State) (x : Sending) (f : OutFrame), s.live = true → s.lc.activity = .sending x →
    s.lc.outbound.find? (fun g => g.ticket = x.ticket) = some f → 4 ≤ f.sends + 1 → s.lc.waitList = [] →
    let left := s.lc.outbound.filter fun g => g.ticket ≠ f.ticket
    let clashed := s.setLc { s.lc with
      activity := .busy, ackDriven := false, clashes := min (s.lc.clashes + 1) 65535
      latch := some {
        kind := 38, fields := toBytes 1 0 ++ toBytes 1 x.kind ++ toBytes 1 x.dest
          ++ toBytes 2 (min (s.lc.clashes + 1) 65535) }
      outbound := left }
    let cutOff (n : Nat) := (s.setLc { s.lc with
      stuckSince := some s.now, activity := .busy, ackDriven := false
      latch := some { kind := 37, fields := toBytes 1 0 ++ toBytes 4 n }
      outbound := left }).setFree (s.free + 1)
    (f.dest ≠ 255 → exec .clashMismatch s = .next (clashed.undeliverable f).settle)
    ∧ (f.dest = 255 → exec .clashMismatch s = .next (clashed.broadcastGone f).settle)
    ∧ (s.lineState = .active → ∃ n,
      (f.dest ≠ 255 → exec .stuck s = .next ((cutOff n).undeliverable f).settle)
      ∧ (f.dest = 255 → exec .stuck s = .next ((cutOff n).broadcastGone f).settle)))
  ∧ (∀ (s : State) (since : Nat), s.live = true → s.lc.stuckSince = some since → s.lineState = .stuck →
    exec .stuckEnd s = .next (s.setLc { s.lc with
      stuckSince := none, activity := .free
      latch := some { kind := 37, fields := toBytes 1 1 ++ toBytes 4 ((s.now - since) % 4294967296) } }))

/-- At bus free, or in a later bit of the idle line, the first eligible frame is started; the sequence counter rises only
if it wins, and what is sent is the flag, the stuffed fields, the recessive slot and the flag (R137); a lost or broken start
counts no send; with nothing eligible the line is free (R140, R141, R150, R153). -/
def Obligations.BusFreeStartsTheFirstEligibleFrame : Prop :=
  ∀ (s : State) (m : StartMoment), s.lineState = .active → s.sc.departure = none →
    (s.lc.activity = .free ∨ m = .busFree ∧ (s.lc.activity = .busy ∨ s.lc.activity = .receiving)) →
    (∀ (before after : List OutFrame) (f : OutFrame), s.lc.outbound = before ++ f :: after →
      (∀ g ∈ before, s.eligible g = false) → s.eligible f = true →
      let sequence := (s.lc.sequence + 1) % 256
      let won := s.setLc { s.lc with
        sequence
        activity := .sending {
          ticket := f.ticket, dest := f.dest, kind := f.msg.kind
          levels := [false, true, true, true, true, false]
            ++ RawFrame.levels { cls := f.msg.cls, source := s.own, dest := f.dest, kind := f.msg.kind, sequence,
                                 payload := f.msg.encode }
            ++ [true, false, true, true, true, true, false] } }
      exec (.busFree m .alone) s = .next won
      ∧ (∀ cls source, f.msg.cls * 256 + s.own ≤ cls * 256 + source →
          exec (.busFree m (.rival cls source)) s = .next won)
      ∧ (∀ cls source, cls * 256 + source < f.msg.cls * 256 + s.own →
          exec (.busFree m (.rival cls source)) s = .next (s.setLc { s.lc with activity := .receiving }))
      ∧ exec (.busFree m .brokenFlag) s = .next (s.setLc { s.lc with activity := .busy }))
    ∧ ((∀ g ∈ s.lc.outbound, s.eligible g = false) → m ≠ .otherFlag →
      exec (.busFree m .alone) s = .next (s.setLc { s.lc with activity := .free }))

/-- A send that reaches its slot (R144, R163): an acknowledged frame leaves the queue and its owner acts; a recessive slot
counts a send and keeps the frame, and the fourth takes it from the queue with its owner told UNDELIVERABLE; a broadcast
leaves the queue whatever its slot reads; here nothing waits for the freed place. On ACKNOWLEDGED the reply timers of a
transaction, an advice, an OFFER and a TRANSFER-END start, and a card transfer is counted off (R60, R84, R120, R123).
UNDELIVERABLE is for a transaction the same failure as a reply timer that runs out (R60), sends an advice back to WAITING
(R85), marks the statement (R104), is one failed exchange with the station of a RELEASE (R71), fails the handover (R120,
R123) or hands the next of the attempts of TRANSFER-END (R123); an owner that no longer waits does nothing. A
DEPART(HANDOVER) that is SENT or DROPPED in ANNOUNCING makes the station RETIRED, with the hold table and both queues empty,
the line OFF and neither load window nor beacon timer (R52, R129, R135). That the other part of an undeliverable statement
keeps its place is the model's choice (log 52); that a failing handover keeps its cause (log 18), has the refusal cause 0
(log 36), and that the pause list and guard are left to run out (log 58), is the model's reading. -/
def Obligations.SendEndCompletes : Prop :=
  (∀ (s : State) (x : Sending) (f : OutFrame) (dominant : Bool), s.live = true → s.lc.activity = .sending x →
    s.lc.outbound.find? (fun g => g.ticket = x.ticket) = some f → s.lc.waitList = [] →
    let idle (q : List OutFrame) := (s.setLc { s.lc with activity := .busy, ackDriven := false, outbound := q }).setPm
      { s.pm with beaconFrom := some s.now }
    let gone := idle (s.lc.outbound.filter fun g => g.ticket ≠ f.ticket)
    (∀ t : Txn, f.dest ≠ 255 → f.msg.kind = 1 ∨ f.msg.kind = 3 ∨ f.msg.kind = 6 ∨ f.msg.kind = 8 →
      s.br.txns.find? (fun y => y.ticket = some f.ticket) = some t →
      exec (.sendEnd true) s = .next (State.settle (gone.setBr { s.br with
        txns := updateWhere (fun y => y.reference = t.reference)
          (fun y => { y with ticket := none, timer := some (s.now + y.replyTimeout) }) s.br.txns })))
    ∧ (f.dest ≠ 255 → exec (.sendEnd true) s = .next (gone.acknowledged f).settle)
    ∧ (f.dest ≠ 255 → f.sends + 1 < 4 →
      exec (.sendEnd false) s = .next (State.settle (idle (updateWhere (fun g => g.ticket = f.ticket)
        (fun g => { g with sends := g.sends + 1 }) s.lc.outbound))))
    ∧ (f.dest ≠ 255 → 4 ≤ f.sends + 1 → exec (.sendEnd false) s = .next (gone.undeliverable f).settle)
    ∧ (f.dest ≠ 255 → 4 ≤ f.sends + 1 → f.msg.cls = 0 → exec (.sendEnd false) s = .next (State.settle gone))
    ∧ (f.dest = 255 → f.msg.kind ≠ 16 → exec (.sendEnd dominant) s = .next (State.settle gone)))
  ∧ (∀ (s : State) (x : Sending) (f : OutFrame) (h : Handover) (cause : Nat) (dominant : Bool), s.live = true →
    s.lc.activity = .sending x → s.lc.outbound.find? (fun g => g.ticket = x.ticket) = some f → f.dest = 255 →
    f.msg = .depart cause → s.cu.handover = some h → h.sub = .announcing → h.ticket = some f.ticket →
    ∃ u : State, exec (.sendEnd dominant) s = .next u.settle ∧ u.sc = { s.sc with station := .retired }
      ∧ u.cu = { s.cu with handover := none, holds := [] } ∧ u.lc.inbound = [] ∧ u.lc.outbound = [] ∧ u.lc.waitList = []
      ∧ u.lineState = .off ∧ u.pm.window = none ∧ u.pm.beaconFrom = none ∧ u.till = s.till ∧ u.su = s.su ∧ u.br = s.br
      ∧ u.au = s.au ∧ u.lc.pauses = s.lc.pauses ∧ (s.lc.waitList = [] → u.lc.pauseGuard = s.lc.pauseGuard))
  ∧ (∀ (s : State) (f : OutFrame),
    (∀ t : Txn, f.msg.kind = 1 ∨ f.msg.kind = 3 ∨ f.msg.kind = 6 ∨ f.msg.kind = 8 →
      s.br.txns.find? (fun y => y.ticket = some f.ticket) = some t →
      s.acknowledged f = s.setBr { s.br with
        txns := updateWhere (fun y => y.reference = t.reference)
          (fun y => { y with ticket := none, timer := some (s.now + y.replyTimeout) }) s.br.txns })
    ∧ (∀ a : Advice, f.msg.kind = 10 → s.au.queue.find? (fun y => y.ticket = some f.ticket) = some a →
      s.acknowledged f = s.setAu { s.au with
        queue := updateWhere (fun y => y.reference = a.reference)
          (fun y => { y with
            ticket := none
            timer := some (s.now + if s.pm.mode = .normal then s.sc.config.normalReply else s.sc.config.busyReply) })
          s.au.queue })
    ∧ (∀ h : Handover, f.msg.kind = 18 ∨ f.msg.kind = 21 → s.cu.handover = some h → h.ticket = some f.ticket →
      s.acknowledged f = s.setCu { s.cu with
        handover := some { h with ticket := none, timer := some (s.now + h.replyTimeout) } })
    ∧ (∀ h : Handover, f.msg.kind = 20 → s.cu.handover = some h →
      s.acknowledged f = s.setCu { s.cu with
        handover := some { h with unacked := h.unacked.filter fun n => n ≠ f.ticket } })
    ∧ (f.msg.kind ∉ [1, 3, 6, 8, 10, 18, 20, 21] → s.acknowledged f = s))
  ∧ (∀ (s : State) (f : OutFrame),
    (∀ t : Txn, s.live = true → f.msg.kind = 1 ∨ f.msg.kind = 3 ∨ f.msg.kind = 6 ∨ f.msg.kind = 8 →
      s.br.txns.find? (fun y => y.ticket = some f.ticket) = some t → s.txnFor t.reference = some t →
      t.state = .authWait ∨ t.state = .captureWait ∨ t.state = .creditWait ∨ t.state = .enquireWait →
      exec (.replyTimeout t.reference) (s.setBr { s.br with
        txns := updateWhere (fun y => y.reference = t.reference)
          (fun y => { y with ticket := none, timer := some s.now }) s.br.txns }) = .next (s.undeliverable f).settle)
    ∧ (∀ (a : Advice) (p : Nat), f.msg.kind = 10 → s.au.queue.find? (fun y => y.ticket = some f.ticket) = some a →
      a.lastTarget = some p →
      s.undeliverable f = (s.setAu { s.au with
        queue := updateWhere (fun y => y.reference = a.reference)
          (fun y => { y with state := .waiting, holdOff := some (.frame p), ticket := none, timer := none })
          s.au.queue }).failedExchange p)
    ∧ (f.msg.kind = 5 → s.undeliverable f = s.failedExchange f.dest)
    ∧ (∀ part period gross fee credit grossN feeN creditN mark,
      f.msg = .statement part period gross fee credit grossN feeN creditN mark →
      (∀ c, s.su.closing = some c → c.period = period →
        s.undeliverable f = (s.setSu { s.su with
          closing := some { c with status := Table.modify {} c.status f.dest fun st => { st with send := .undeliverable } }
          }).failedExchange f.dest)
      ∧ ((∀ c, s.su.closing = some c → c.period ≠ period) → s.undeliverable f = s))
    ∧ (∀ h : Handover, s.cu.handover = some h →
      f.msg.kind = 18 ∧ h.ticket = some f.ticket ∨ f.msg.kind = 20 ∧ f.ticket ∈ h.unacked →
      s.undeliverable f = (s.failHandover .undeliverable 0).failedExchange h.custodian)
    ∧ (∀ h : Handover, f.msg.kind = 21 → s.cu.handover = some h → h.ticket = some f.ticket →
      (h.attemptsLeft = 0 → s.undeliverable f = (s.failHandover .noReply 0).failedExchange h.custodian)
      ∧ (0 < h.attemptsLeft → (s.peerAt h.custodian).failed < 2 →
        s.undeliverable f = ((s.setCu { s.cu with handover := some { h with
            ending := true, attemptsLeft := h.attemptsLeft - 1, ticket := some s.ticket, timer := none } }).setPm
            { s.pm with peers := Table.modify {} s.pm.peers h.custodian fun e => { e with failed := e.failed + 1 } }).hand
          h.custodian (.transferEnd h.count h.total)))
    ∧ (f.msg.kind ∉ [1, 3, 5, 6, 8, 10, 12, 18, 20, 21] → s.undeliverable f = s))
  ∧ (∀ (s : State) (f : OutFrame),
    let waited := (∃ t ∈ s.br.txns, t.ticket = some f.ticket) ∨ (∃ a ∈ s.au.queue, a.ticket = some f.ticket)
      ∨ ∃ h, s.cu.handover = some h ∧ (h.ticket = some f.ticket ∨ f.ticket ∈ h.unacked)
    ¬ waited → s.acknowledged f = s ∧ (f.msg.kind ≠ 5 → f.msg.kind ≠ 12 → s.undeliverable f = s))
  ∧ (∀ (s : State) (f : OutFrame),
    (∀ (h : Handover) (cause : Nat), f.msg = .depart cause → s.cu.handover = some h → h.sub = .announcing →
      h.ticket = some f.ticket →
      s.broadcastGone f = (((s.setCu { s.cu with handover := none, holds := [] }).setSc
        { s.sc with station := .retired }).setLc { s.lc with
          inbound := [], outbound := [], waitList := [], stuckSince := none, activity := .busy }).setPm
        { s.pm with window := none, windowCount := 0, beaconFrom := none })
    ∧ (f.msg.kind ≠ 16 ∨ (∀ h, s.cu.handover = some h → h.sub ≠ .announcing ∨ h.ticket ≠ some f.ticket) →
      s.broadcastGone f = s))

/-- A frame handed is placed behind its class where there is room, and else its request joins the wait list (R149, R150);
nothing else changes. The place of a frame that leaves goes to the oldest waiting request of class 0, and where none waits to
the oldest of classes 1 to 3 if fewer than 18 frames of those are in the queue (R149); a BEACON's contents are read when it is
placed (R163), and the placing of a PAUSE starts its guard (R151). -/
def Obligations.HandedFramesArePlacedOrWait : Prop :=
  (∀ (s : State) (dest : Nat) (m : Msg), m.kind ≠ 14 → m.kind ≠ 15 →
    (s.lc.outbound.length < 24 ∧ (m.cls = 0 ∨ lowCount s.lc.outbound < 18) →
      s.hand dest m = s.setLc { s.lc with
        nextTicket := s.lc.nextTicket + 1
        outbound := (s.lc.outbound.takeWhile fun g => g.msg.cls ≤ m.cls)
          ++ { ticket := s.lc.nextTicket, dest, msg := m } :: s.lc.outbound.dropWhile fun g => g.msg.cls ≤ m.cls })
    ∧ (¬ (s.lc.outbound.length < 24 ∧ (m.cls = 0 ∨ lowCount s.lc.outbound < 18)) →
      s.hand dest m = s.setLc { s.lc with
        nextTicket := s.lc.nextTicket + 1
        waitList := s.lc.waitList ++ [{ ticket := s.lc.nextTicket, dest, msg := m }] }))
  ∧ (∀ (s : State) (ticket : Nat),
    let q := s.lc.outbound.filter fun g => g.ticket ≠ ticket
    let placed (f : OutFrame) (rest : List OutFrame) : State := s.setLc { s.lc with
      waitList := rest
      pauseGuard := if f.msg.kind = 15 then some (s.now + s.sc.config.pauseTime) else s.lc.pauseGuard
      outbound := (q.takeWhile fun g => g.msg.cls ≤ f.msg.cls)
        ++ { f with msg := if f.msg.kind = 14 then .beacon s.beaconData else f.msg }
        :: q.dropWhile fun g => g.msg.cls ≤ f.msg.cls }
    (∀ before f after, s.lc.waitList = before ++ f :: after → (∀ g ∈ before, g.msg.cls ≠ 0) → f.msg.cls = 0 → q.length < 24 →
      s.removeFrame ticket = placed f (before ++ after))
    ∧ (∀ f rest, s.lc.waitList = f :: rest → (∀ g ∈ s.lc.waitList, g.msg.cls ≠ 0) → q.length < 24 → lowCount q < 18 →
      s.removeFrame ticket = placed f rest)
    ∧ (s.lc.waitList = [] ∨ 24 ≤ q.length ∨ (∀ g ∈ s.lc.waitList, g.msg.cls ≠ 0) ∧ 18 ≤ lowCount q →
      s.removeFrame ticket = s.setLc { s.lc with outbound := q }))

/-! ### Exchanges served at the home -/

/-- The fee of R20: the product V' r and the carried remainder are summed, the fee is the sum divided by 10,000, what the
division leaves is carried on, and the lifetime sums saturate. The fee never passes the amount, the net is 0 for 1 cent
alone, a rate of 0 charges nothing, a posting of 0 does not reach the computation, and a forced posting computes on the
clamped amount. -/
def Obligations.FeeCarriesItsRemainder : Prop :=
  (∀ (s : State) (p v : Nat), p ≠ s.own → 1 ≤ v → v ≤ 10000000 →
    let l : Lifetime := Table.get {} s.su.lifetime p
    let sum := v * s.sc.config.feeRate + l.remainder
    let fee := sum / 10000
    (s.postHome p v).2 = { posted := v, fee, net := v - fee, short := 0, stamp := s.su.openPeriod }
    ∧ Table.get {} (s.postHome p v).1.su.lifetime p = ({
        remainder := sum % 10000, gross := min (l.gross + v) 1099511627775, fee := min (l.fee + fee) 1099511627775
        saturated := l.saturated || decide (1099511627775 < l.gross + v) || decide (1099511627775 < l.fee + fee)
        } : Lifetime)
    ∧ (s.sc.config.feeRate ≤ 1000 → l.remainder < 10000 →
        fee ≤ v ∧ (v - fee = 0 → v = 1 ∧ 10000 ≤ s.sc.config.feeRate + l.remainder))
    ∧ (s.sc.config.feeRate = 0 → l.remainder < 10000 → fee = 0 ∧ sum % 10000 = l.remainder))
  ∧ (∀ (s : State) (p : Nat) (k : Key) (amount available : Nat),
    (min amount available = 0 → (s.forcedFigures p k amount available).1 = s)
    ∧ (0 < min amount available →
      (s.forcedFigures p k amount available).1 = (s.postRedemption p k (min amount available)).1))

/-- A posting's figures in a position entry (R21, R22, R24): the home raises Gi, Fi and their counts or Ci, the redeemer Gr,
Fr and their counts or Cr; a fee of 0 raises no fee count; a short is stand-in loss of the home's open entry (R90), and
figures booked late raise the late amounts (R102); the other figures stay. A sum that would pass its bound is set to the
bound, and the entry's saturated mark is set with it and stays (R25). -/
def Obligations.PostingsRaiseTheirOwnFigures : Prop :=
  ∀ (e : PosEntry) (amount fee credit : Nat),
    let sum (v add : Nat) := min (v + add) 1099511627775
    let count (v add : Nat) := min (v + add) 16777215
    let past (v add : Nat) : Bool := decide (1099511627775 < v + add)
    let pastCount (v add : Nat) : Bool := decide (16777215 < v + add)
    let one := if fee = 0 then 0 else 1
    e.postHome amount fee = { e with
      gi := sum e.gi amount, giN := count e.giN 1, fi := sum e.fi fee, fiN := count e.fiN one
      saturated := e.saturated || past e.gi amount || pastCount e.giN 1 || past e.fi fee || pastCount e.fiN one }
    ∧ e.creditHome amount = { e with
      ci := sum e.ci amount, ciN := count e.ciN 1, saturated := e.saturated || past e.ci amount || pastCount e.ciN 1 }
    ∧ e.bookPosting amount fee = { e with
      gr := sum e.gr amount, grN := count e.grN 1, fr := sum e.fr fee, frN := count e.frN one
      saturated := e.saturated || past e.gr amount || pastCount e.grN 1 || past e.fr fee || pastCount e.frN one }
    ∧ e.bookCredit amount = { e with
      cr := sum e.cr amount, crN := count e.crN 1, saturated := e.saturated || past e.cr amount || pastCount e.crN 1 }
    ∧ e.bookLoss amount = { e with
      standinLoss := sum e.standinLoss amount, saturated := e.saturated || past e.standinLoss amount }
    ∧ e.bookLate amount fee credit = { e with
      lateGross := sum e.lateGross amount, lateFee := sum e.lateFee fee, lateCredit := sum e.lateCredit credit
      saturated := e.saturated || past e.lateGross amount || past e.lateFee fee || past e.lateCredit credit }

/-- An AUTH for an ACTIVE card that covers it places a HELD hold and is answered APPROVED; one that it does not cover is
answered INSUFFICIENT with the available amount and places none (R34, R36). One of a number that names no card held here, or
a card unknown or CLOSED here, is answered UNKNOWN-CARD or CARD-CLOSED, and one that finds 96 entries or a handover
HOME-BUSY; none places a hold (R34, R36, R49). What else a refusal carries is free (log 10). An amount of 0 or above
10,000,000, or an entry of the requester and reference for another card or of kind CREDIT, discards the frame with no reply
(R34). That a reference of 0 is served like any other is the model's choice (log 51). A repeated AUTH is answered APPROVED
from its entry, whatever the entry's state (R35). -/
def Obligations.AuthCompletes : Prop :=
  (∀ (s : State) (p : Nat) (before after : List InFrame) (card : CardNo) (amount reference : Nat) (c : Card),
    s.Holds .custodyUnit p (.auth card amount reference) before after → s.custodyReady = true → card.valid = true →
    s.isHere card.home = true → 0 < amount → amount ≤ 10000000 → s.holdFor p reference = none →
    s.cu.served card.key = some c → c.state = .active → s.cu.holds.length < 96 → s.sc.station ≠ .handingOver →
    let available := c.balance - heldOn s.cu.holds card.key
    (amount ≤ available → exec .auth s = .next ((((s.withInbound (before ++ after)).setCu { s.cu with
        holds := s.cu.holds ++ [{ id := s.freshHoldId, kind := .redemption, key := card.key, amount, station := p,
                                  reference, state := .held, timer := s.now + s.sc.config.holdExpiry * 1000 }]
        holdCounter := if 65535 ≤ s.freshHoldId.counter then 1 else s.freshHoldId.counter + 1 }).reply p
        (.authReply reference 0 card s.freshHoldId amount (c.balance - (heldOn s.cu.holds card.key + amount)))).useFree 4))
    ∧ (available < amount → ∃ (id : HoldId) (n : Nat), exec .auth s = .next
        (((s.withInbound (before ++ after)).reply p (.authReply reference 1 card id n available)).useFree 4)))
  ∧ (∀ (s : State) (p : Nat) (before after : List InFrame) (card : CardNo) (amount reference : Nat) (h : Hold),
    s.Holds .custodyUnit p (.auth card amount reference) before after → s.custodyReady = true → card.valid = true →
    s.isHere card.home = true → 0 < amount → amount ≤ 10000000 → s.holdFor p reference = some h → h.key = card.key →
    h.kind = .redemption →
    exec .auth s = .next (((s.withInbound (before ++ after)).reply p
      (.authReply reference 0 card h.id h.amount (s.cu.available card.key))).useFree 4))
  ∧ (∀ (s : State) (p : Nat) (before after : List InFrame) (card : CardNo) (amount reference : Nat),
    s.Holds .custodyUnit p (.auth card amount reference) before after → s.custodyReady = true →
    let taken := s.withInbound (before ++ after)
    let refused (status : Nat) : Prop := ∃ (id : HoldId) (n available : Nat), exec .auth s = .next
      ((taken.reply p (.authReply reference status card id n available)).useFree 4)
    let known := card.valid = true ∧ s.isHere card.home = true
    let discarded := amount = 0 ∨ 10000000 < amount
      ∨ ∃ h, s.holdFor p reference = some h ∧ (h.key ≠ card.key ∨ h.kind ≠ .redemption)
    (discarded → exec .auth s = .next taken)
    ∧ (¬ discarded → ¬ known → refused 2)
    ∧ (¬ discarded → known → s.holdFor p reference = none →
      (s.cu.served card.key = none → refused 2)
      ∧ (∀ c, s.cu.served card.key = some c →
        (c.state = .closed → refused 3)
        ∧ (c.state = .active → 96 ≤ s.cu.holds.length ∨ s.sc.station = .handingOver → refused 4))))

/-- A CAPTURE that names a HELD hold of another station posts the smaller of the final and the held amount: the card, the
ledger, the fee with its lifetime record, the open entry, and the hold, now CAPTURED for the retention; it is answered
POSTED with the figures (R20, R21, R39, R46, R50); with a final amount of 0 it posts nothing and is NOT-POSTED, the hold
CAPTURED all the same (R39). One that names a CAPTURED entry is answered DUPLICATE with the entry's figures and posts
nothing (R40). One that matches no entry is forced-posted by what is available and leaves a CAPTURED entry with the LATE
flag, which the reply carries too; a full table or a handover answers HOME-BUSY (R41, R44, R45, R49). One that matches a
HELD hold by its reference only releases that hold and is forced-posted by what is then available, in the hold's slot (R41,
R44, R45). The entry keeps the amount of its AUTH (log 42), and a card not held here has nothing available (log 35), by the
model's reading; its choice are HOME-BUSY in a handover for a home held here whose card has no record (log 40), what a
number that fails R1 or a home not held here gets where its key matches an entry (log 41), and a reference of 0 served like
any other (log 51). In a handover too a bad number, or one of a home not held here, that matches no entry is NOT-POSTED with
its entry (R34, R44, R45). A final amount of 0 that names no entry, one above 10,000,000, or an entry of the requester and
reference for another card or of kind CREDIT, discards the frame with no reply (R34). -/
def Obligations.CaptureCompletes : Prop :=
  (∀ (s : State) (p : Nat) (before after : List InFrame) (card : CardNo) (id : HoldId) (reference final : Nat) (h : Hold),
    s.Holds .custodyUnit p (.capture card id reference final) before after → s.custodyReady = true → p ≠ s.own →
    card.valid = true → s.isHere card.home = true → final ≤ 10000000 → 0 < final → 0 < h.amount →
    s.holdFor p reference = some h → h.id = id → h.key = card.key → h.state = .held → h.kind = .redemption →
    let posted := min final h.amount
    let l : Lifetime := Table.get {} s.su.lifetime p
    let fee := feeOf s.sc.config.feeRate l posted
    let figures : Figures := { posted, fee, net := posted - fee, short := 0, stamp := s.su.openPeriod }
    s.holdNamed id p reference card.key = some h →
    exec .capture s = .next (State.settle ((((s.withInbound (before ++ after)).setCu { s.cu with
        cards := updateWhere (fun x => x.key = card.key) (fun x => { x with
          balance := x.balance - posted, lastActivity := s.su.openPeriod, activity := min 65535 (x.activity + 1) })
          s.cu.cards
        ledger := { s.cu.ledger with redeemed := s.cu.ledger.redeemed + posted }
        holds := updateWhere (fun x => x.id = h.id) (fun x => { x with
          state := .captured, figures, late := false, timer := s.now + s.sc.config.retention * 1000 }) s.cu.holds
        }).setSu { s.su with
        lifetime := Table.put {} p (l.charge s.sc.config.feeRate posted) s.su.lifetime
        entries := Table.modify {} s.su.entries p fun e => e.postHome posted fee }).reply p
      (.captureReply reference 8 0 posted fee (posted - fee) 0 s.su.openPeriod))))
  ∧ (∀ (s : State) (p : Nat) (before after : List InFrame) (card : CardNo) (id : HoldId) (reference final : Nat) (h : Hold),
    s.Holds .custodyUnit p (.capture card id reference final) before after → s.custodyReady = true →
    final ≤ 10000000 → s.holdFor p reference = some h → h.key = card.key → h.kind = .redemption →
    s.holdNamed id p reference card.key = some h → h.state = .captured →
    exec .capture s = .next (State.settle ((s.withInbound (before ++ after)).reply p
      (.captureReply reference 10 (if h.late then 1 else 0) h.figures.posted h.figures.fee h.figures.net h.figures.short
        h.figures.stamp))))
  ∧ (∀ (s : State) (p : Nat) (before after : List InFrame) (card : CardNo) (id : HoldId) (reference : Nat) (h : Hold),
    s.Holds .custodyUnit p (.capture card id reference 0) before after → s.custodyReady = true → card.valid = true →
    s.isHere card.home = true → s.holdFor p reference = some h → h.key = card.key → h.kind = .redemption →
    s.holdNamed id p reference card.key = some h → h.state = .held →
    exec .capture s = .next (State.settle (((s.withInbound (before ++ after)).setCu { s.cu with
        holds := updateWhere (fun x => x.id = h.id) (fun x => { x with
          state := .captured, figures := { stamp := s.su.openPeriod }, late := false
          timer := s.now + s.sc.config.retention * 1000 }) s.cu.holds }).reply p
      (.captureReply reference 11 0 0 0 0 0 s.su.openPeriod))))
  ∧ (∀ (s : State) (p : Nat) (before after : List InFrame) (card : CardNo) (id : HoldId) (reference final : Nat),
    s.Holds .custodyUnit p (.capture card id reference final) before after → s.custodyReady = true → p ≠ s.own →
    0 < final → final ≤ 10000000 → s.holdFor p reference = none →
    let room := if card.valid = true ∧ s.isHere card.home = true then s.cu.available card.key else 0
    let posted := min final room
    let l : Lifetime := Table.get {} s.su.lifetime p
    let fee := feeOf s.sc.config.feeRate l posted
    let figures : Figures := { posted, fee, net := posted - fee, short := final - posted, stamp := s.su.openPeriod }
    let entry (g : Figures) : Hold :=
      { id := s.freshHoldId, kind := .redemption, key := card.key, amount := final, station := p, reference,
        state := .captured, timer := s.now + s.sc.config.retention * 1000, figures := g, late := true }
    let counter := if 65535 ≤ s.freshHoldId.counter then 1 else s.freshHoldId.counter + 1
    let taken := s.withInbound (before ++ after)
    let known := card.valid = true ∧ s.isHere card.home = true
    (s.cu.holds.length < 96 → s.sc.station ≠ .handingOver → 0 < posted →
      exec .capture s = .next (State.settle (((taken.setCu { s.cu with
        cards := updateWhere (fun x => x.key = card.key) (fun x => { x with
          balance := x.balance - posted, lastActivity := s.su.openPeriod, activity := min 65535 (x.activity + 1) })
          s.cu.cards
        ledger := { s.cu.ledger with redeemed := s.cu.ledger.redeemed + posted }
        holds := s.cu.holds ++ [entry figures], holdCounter := counter }).setSu { s.su with
        lifetime := Table.put {} p (l.charge s.sc.config.feeRate posted) s.su.lifetime
        entries := Table.modify {} s.su.entries p fun e => e.postHome posted fee }).reply p
      (.captureReply reference (if posted = final then 8 else 9) 1 posted fee (posted - fee) (final - posted)
        s.su.openPeriod))))
    ∧ (s.cu.holds.length < 96 → s.sc.station ≠ .handingOver ∨ ¬ known → posted = 0 →
      exec .capture s = .next (State.settle ((taken.setCu { s.cu with
        holds := s.cu.holds ++ [entry { short := final, stamp := s.su.openPeriod }], holdCounter := counter }).reply p
      (.captureReply reference 11 1 0 0 0 final s.su.openPeriod))))
    ∧ (96 ≤ s.cu.holds.length ∨ s.sc.station = .handingOver ∧ known →
      exec .capture s = .next (State.settle (taken.reply p (.captureReply reference 4 0 0 0 0 0 0)))))
  ∧ (∀ (s : State) (p : Nat) (before after : List InFrame) (card : CardNo) (id : HoldId) (reference final : Nat) (h : Hold),
    s.Holds .custodyUnit p (.capture card id reference final) before after → s.custodyReady = true → p ≠ s.own →
    0 < final → final ≤ 10000000 → s.holdFor p reference = some h → h.key = card.key → h.kind = .redemption →
    h.state = .held →
    (s.holdNamed id p reference card.key = none
      ∨ s.holdNamed id p reference card.key = some h ∧ ¬ (card.valid = true ∧ s.isHere card.home = true)) →
    let released : Custody := { s.cu with holds := s.cu.holds.filter fun x => x.id ≠ h.id }
    let room := if card.valid = true ∧ s.isHere card.home = true then released.available card.key else 0
    let posted := min final room
    let l : Lifetime := Table.get {} s.su.lifetime p
    let fee := feeOf s.sc.config.feeRate l posted
    let entry (g : Figures) (x : Hold) : Hold :=
      { id := x.id, kind := .redemption, key := card.key, amount := final, station := p, reference, state := .captured,
        timer := s.now + s.sc.config.retention * 1000, figures := g, late := true }
    let taken := s.withInbound (before ++ after)
    (s.sc.station ≠ .handingOver → 0 < posted →
      exec .capture s = .next (State.settle (((taken.setCu { s.cu with
        cards := updateWhere (fun x => x.key = card.key) (fun x => { x with
          balance := x.balance - posted, lastActivity := s.su.openPeriod, activity := min 65535 (x.activity + 1) })
          s.cu.cards
        ledger := { s.cu.ledger with redeemed := s.cu.ledger.redeemed + posted }
        holds := updateWhere (fun x => x.id = h.id)
          (entry { posted, fee, net := posted - fee, short := final - posted, stamp := s.su.openPeriod }) s.cu.holds
        }).setSu { s.su with
        lifetime := Table.put {} p (l.charge s.sc.config.feeRate posted) s.su.lifetime
        entries := Table.modify {} s.su.entries p fun e => e.postHome posted fee }).reply p
      (.captureReply reference (if posted = final then 8 else 9) 1 posted fee (posted - fee) (final - posted)
        s.su.openPeriod))))
    ∧ (s.sc.station ≠ .handingOver → posted = 0 →
      exec .capture s = .next (State.settle ((taken.setCu { s.cu with
        holds := updateWhere (fun x => x.id = h.id) (entry { short := final, stamp := s.su.openPeriod }) s.cu.holds }).reply p
      (.captureReply reference 11 1 0 0 0 final s.su.openPeriod))))
    ∧ (s.sc.station = .handingOver →
      exec .capture s = .next (State.settle (taken.reply p (.captureReply reference 4 0 0 0 0 0 0)))))
  ∧ (∀ (s : State) (p : Nat) (before after : List InFrame) (card : CardNo) (id : HoldId) (reference final : Nat),
    s.Holds .custodyUnit p (.capture card id reference final) before after → s.custodyReady = true →
    (final = 0 ∧ s.holdNamed id p reference card.key = none ∨ 10000000 < final
      ∨ ∃ h, s.holdFor p reference = some h ∧ (h.key ≠ card.key ∨ h.kind ≠ .redemption)) →
    exec .capture s = .next (State.settle (s.withInbound (before ++ after))))

/-- A RELEASE that names a HELD hold removes it, with no reply, and one that names none changes nothing (R42). A HELD hold
that reaches its expiry leaves the hold table with nothing posted, and so does a CAPTURED entry at the end of its retention;
LOCAL hold-offs clear (R37, R50, R88). That a reference of 0 is served like any other is the model's choice (log 51). -/
def Obligations.HoldsLeaveTheTable : Prop :=
  (∀ (s : State) (p : Nat) (before after : List InFrame) (card : CardNo) (id : HoldId) (reference : Nat) (h : Hold),
    s.Holds .custodyUnit p (.release card id reference) before after → s.custodyReady = true → card.valid = true →
    s.isHere card.home = true → s.holdNamed id p reference card.key = some h → h.state = .held →
    exec .release s = .next (State.settle (((s.withInbound (before ++ after)).setCu { s.cu with
        holds := s.cu.holds.filter fun x => x.id ≠ h.id }).setAu { s.au with
        queue := s.au.queue.map fun a => match a.holdOff with
          | some (.locally _) => { a with holdOff := none }
          | some (.frame _) | some (.beacon _) | none => a })))
  ∧ (∀ (s : State) (p : Nat) (before after : List InFrame) (card : CardNo) (id : HoldId) (reference : Nat),
    s.Holds .custodyUnit p (.release card id reference) before after → s.custodyReady = true →
    (∀ h, s.holdNamed id p reference card.key = some h → h.state = .captured) →
    exec .release s = .next (State.settle (s.withInbound (before ++ after))))
  ∧ (∀ (s : State) (h : Hold), s.live = true → s.now ≤ h.timer → s.cu.holds.find? (fun x => x.id = h.id) = some h →
    let gone := ((s.setNow h.timer).setCu { s.cu with holds := s.cu.holds.filter fun x => x.id ≠ h.id }).setAu { s.au with
      queue := s.au.queue.map fun a => match a.holdOff with
        | some (.locally _) => { a with holdOff := none }
        | some (.frame _) | some (.beacon _) | none => a }
    (h.state = .held → exec (.holdExpiry h.id) s = .next (State.settle gone))
    ∧ (h.state = .captured → exec (.retentionEnd h.id) s = .next (State.settle gone)))

/-- A CREDIT frame within the room credits the card, raises Ci of the sender and leaves a CAPTURED entry of kind CREDIT; an
ENQUIRE is answered with the balance and the available amount (R11, R22, R47, R48). A CREDIT that a test of R11 or a full
hold table refuses is answered with its status, an OVER-CAP with the room, and an ENQUIRE for a card unknown or CLOSED here
likewise; a number that names no card held here is UNKNOWN-CARD (R34, R47, R48). A repeated CREDIT is answered from its
entry and credits nothing (R47). The discards of R34 have no reply and no effect. What else a refusal carries is free (log
10): the free counter moves on past those fields in every reply. That a reference of 0 is served like any other is the
model's choice (log 51). -/
def Obligations.CreditAndEnquireComplete : Prop :=
  (∀ (s : State) (p : Nat) (before after : List InFrame) (card : CardNo) (amount reference : Nat) (c : Card),
    s.Holds .custodyUnit p (.credit card amount reference) before after → s.custodyReady = true → card.valid = true →
    s.isHere card.home = true → 0 < amount → amount ≤ 10000000 → s.holdFor p reference = none →
    s.cu.served card.key = some c → c.state = .active → s.sc.station ≠ .handingOver →
    amount ≤ s.sc.config.cardCap - c.balance → amount ≤ s.cu.ledger.headroom → s.cu.holds.length < 96 →
    exec .creditFrame s = .next (((((s.withInbound (before ++ after)).setCu { s.cu with
        cards := updateWhere (fun x => x.key = card.key) (fun x => { x with
          balance := x.balance + amount, lastActivity := s.su.openPeriod, activity := min 65535 (x.activity + 1) })
          s.cu.cards
        ledger := { s.cu.ledger with credits := s.cu.ledger.credits + amount }
        holds := s.cu.holds ++ [{ id := s.freshHoldId, kind := .credit, key := card.key, amount, station := p, reference,
                                  state := .captured, timer := s.now + s.sc.config.retention * 1000,
                                  figures := { stamp := s.su.openPeriod } }]
        holdCounter := if 65535 ≤ s.freshHoldId.counter then 1 else s.freshHoldId.counter + 1 }).setSu { s.su with
        entries := Table.modify {} s.su.entries p fun e => e.creditHome amount }).reply p
      (.creditReply reference 0 amount s.su.openPeriod)).useFree 2))
  ∧ (∀ (s : State) (p : Nat) (before after : List InFrame) (card : CardNo) (reference : Nat) (c : Card),
    s.Holds .custodyUnit p (.enquire card reference) before after → s.custodyReady = true → card.valid = true →
    s.isHere card.home = true → (∀ h, s.holdFor p reference = some h → h.key = card.key) →
    s.cu.served card.key = some c → c.state = .active →
    exec .enquire s = .next (((s.withInbound (before ++ after)).reply p
      (.enquireReply reference 0 c.balance (c.balance - heldOn s.cu.holds card.key))).useFree 2))
  ∧ (∀ (s : State) (p : Nat) (before after : List InFrame) (card : CardNo) (amount reference : Nat),
    s.Holds .custodyUnit p (.credit card amount reference) before after → s.custodyReady = true →
    let taken := s.withInbound (before ++ after)
    let replied (status n stamp : Nat) : State := (taken.reply p (.creditReply reference status n stamp)).useFree 2
    let refused (status : Nat) : Prop := ∃ n stamp, exec .creditFrame s = .next (replied status n stamp)
    let known := card.valid = true ∧ s.isHere card.home = true
    let discarded := amount = 0 ∨ 10000000 < amount
      ∨ ∃ h, s.holdFor p reference = some h ∧ (h.key ≠ card.key ∨ h.kind ≠ .credit)
    (discarded → exec .creditFrame s = .next taken)
    ∧ (¬ discarded → ¬ known → refused 2)
    ∧ (¬ discarded → known →
      (∀ h, s.holdFor p reference = some h → exec .creditFrame s = .next (replied 0 h.amount h.figures.stamp))
      ∧ (s.holdFor p reference = none →
        (s.cu.served card.key = none → refused 2)
        ∧ (∀ c, s.cu.served card.key = some c →
          let room := min (s.sc.config.cardCap - c.balance) (9223372036854775807
            - (s.cu.ledger.issued + s.cu.ledger.credits + s.cu.ledger.adoptedIn))
          (c.state = .closed → refused 3)
          ∧ (c.state = .active → s.sc.station = .handingOver → refused 4)
          ∧ (c.state = .active → s.sc.station ≠ .handingOver →
            (room < amount → ∃ stamp, exec .creditFrame s = .next (replied 5 room stamp))
            ∧ (amount ≤ room → 96 ≤ s.cu.holds.length → refused 4))))))
  ∧ (∀ (s : State) (p : Nat) (before after : List InFrame) (card : CardNo) (reference : Nat),
    s.Holds .custodyUnit p (.enquire card reference) before after → s.custodyReady = true →
    let taken := s.withInbound (before ++ after)
    let refused (status : Nat) : Prop := ∃ balance available, exec .enquire s = .next
      ((taken.reply p (.enquireReply reference status balance available)).useFree 2)
    let known := card.valid = true ∧ s.isHere card.home = true
    (∀ h, s.holdFor p reference = some h → h.key ≠ card.key → exec .enquire s = .next taken)
    ∧ ((∀ h, s.holdFor p reference = some h → h.key = card.key) →
      (¬ known ∨ s.cu.served card.key = none → refused 2)
      ∧ (known → ∀ c, s.cu.served card.key = some c → c.state = .closed → refused 3)))

/-- An ADVICE that matches no entry is forced-posted by what is available on the card and leaves a CAPTURED entry: POSTED,
POSTED-SHORT or NOT-POSTED with the amount short; a full table or a handover answers HOME-BUSY and changes nothing (R43 to
R45). One that matches a HELD hold by its reference releases it and is forced-posted by what is then available, in the
hold's slot; one that matches a CAPTURED entry is answered DUPLICATE with the entry's figures and the LATE flag clear (R43,
R44). That a card not held here has nothing available is the model's reading (log 35); HOME-BUSY in a handover for a home
held here whose card has no record (log 40), what a number that fails R1 or a home not held here gets where its key matches
an entry (log 41), a reference of 0 served like any other (log 51) and the advice kind left unread (log 68) are its choice. In a handover too a bad number, or
one of a home not held here, that matches no entry is NOT-POSTED with its entry (R34, R44, R45). An amount of 0 or above
10,000,000, or an entry of the requester and reference for another card or of kind CREDIT, discards the frame with no reply
(R34). -/
def Obligations.AdviceIsForcedPosted : Prop :=
  (∀ (s : State) (p : Nat) (before after : List InFrame) (card : CardNo) (amount reference kind : Nat) (id : HoldId),
    s.Holds .custodyUnit p (.advice card amount reference kind id) before after → s.custodyReady = true → p ≠ s.own →
    0 < amount → amount ≤ 10000000 → s.holdFor p reference = none →
    let room := if card.valid = true ∧ s.isHere card.home = true then s.cu.available card.key else 0
    let posted := min amount room
    let l : Lifetime := Table.get {} s.su.lifetime p
    let fee := feeOf s.sc.config.feeRate l posted
    let figures : Figures := { posted, fee, net := posted - fee, short := amount - posted, stamp := s.su.openPeriod }
    let nothing : Figures := { short := amount, stamp := s.su.openPeriod }
    let entry (g : Figures) : Hold :=
      { id := s.freshHoldId, kind := .redemption, key := card.key, amount, station := p, reference, state := .captured,
        timer := s.now + s.sc.config.retention * 1000, figures := g, late := false }
    let known := card.valid = true ∧ s.isHere card.home = true
    (s.cu.holds.length < 96 → s.sc.station ≠ .handingOver → 0 < posted →
      exec .advice s = .next ((((s.withInbound (before ++ after)).setCu { s.cu with
        cards := updateWhere (fun x => x.key = card.key) (fun x => { x with
          balance := x.balance - posted, lastActivity := s.su.openPeriod, activity := min 65535 (x.activity + 1) })
          s.cu.cards
        ledger := { s.cu.ledger with redeemed := s.cu.ledger.redeemed + posted }
        holds := s.cu.holds ++ [entry figures]
        holdCounter := if 65535 ≤ s.freshHoldId.counter then 1 else s.freshHoldId.counter + 1 }).setSu { s.su with
        lifetime := Table.put {} p (l.charge s.sc.config.feeRate posted) s.su.lifetime
        entries := Table.modify {} s.su.entries p fun e => e.postHome posted fee }).reply p
      (.adviceReply reference (if posted = amount then 8 else 9) 0 posted fee (posted - fee) (amount - posted)
        s.su.openPeriod)))
    ∧ (s.cu.holds.length < 96 → s.sc.station ≠ .handingOver ∨ ¬ known → posted = 0 →
      exec .advice s = .next (((s.withInbound (before ++ after)).setCu { s.cu with
        holds := s.cu.holds ++ [entry nothing]
        holdCounter := if 65535 ≤ s.freshHoldId.counter then 1 else s.freshHoldId.counter + 1 }).reply p
      (.adviceReply reference 11 0 0 0 0 amount s.su.openPeriod)))
    ∧ (96 ≤ s.cu.holds.length ∨ s.sc.station = .handingOver ∧ known →
      exec .advice s = .next ((s.withInbound (before ++ after)).reply p (.adviceReply reference 4 0 0 0 0 0 0))))
  ∧ (∀ (s : State) (p : Nat) (before after : List InFrame) (card : CardNo) (amount reference kind : Nat) (id : HoldId)
    (h : Hold),
    s.Holds .custodyUnit p (.advice card amount reference kind id) before after → s.custodyReady = true → p ≠ s.own →
    0 < amount → amount ≤ 10000000 → s.holdFor p reference = some h → h.key = card.key → h.kind = .redemption →
    let released : Custody := { s.cu with holds := s.cu.holds.filter fun x => x.id ≠ h.id }
    let room := if card.valid = true ∧ s.isHere card.home = true then released.available card.key else 0
    let posted := min amount room
    let l : Lifetime := Table.get {} s.su.lifetime p
    let fee := feeOf s.sc.config.feeRate l posted
    let entry (g : Figures) (x : Hold) : Hold :=
      { id := x.id, kind := .redemption, key := card.key, amount, station := p, reference, state := .captured,
        timer := s.now + s.sc.config.retention * 1000, figures := g, late := false }
    let taken := s.withInbound (before ++ after)
    (h.state = .held → s.sc.station ≠ .handingOver → 0 < posted →
      exec .advice s = .next (((taken.setCu { s.cu with
        cards := updateWhere (fun x => x.key = card.key) (fun x => { x with
          balance := x.balance - posted, lastActivity := s.su.openPeriod, activity := min 65535 (x.activity + 1) })
          s.cu.cards
        ledger := { s.cu.ledger with redeemed := s.cu.ledger.redeemed + posted }
        holds := updateWhere (fun x => x.id = h.id)
          (entry { posted, fee, net := posted - fee, short := amount - posted, stamp := s.su.openPeriod }) s.cu.holds
        }).setSu { s.su with
        lifetime := Table.put {} p (l.charge s.sc.config.feeRate posted) s.su.lifetime
        entries := Table.modify {} s.su.entries p fun e => e.postHome posted fee }).reply p
      (.adviceReply reference (if posted = amount then 8 else 9) 0 posted fee (posted - fee) (amount - posted)
        s.su.openPeriod)))
    ∧ (h.state = .held → s.sc.station ≠ .handingOver → posted = 0 →
      exec .advice s = .next ((taken.setCu { s.cu with
        holds := updateWhere (fun x => x.id = h.id) (entry { short := amount, stamp := s.su.openPeriod }) s.cu.holds }).reply
      p (.adviceReply reference 11 0 0 0 0 amount s.su.openPeriod)))
    ∧ (h.state = .held → s.sc.station = .handingOver →
      exec .advice s = .next (taken.reply p (.adviceReply reference 4 0 0 0 0 0 0)))
    ∧ (h.state = .captured →
      exec .advice s = .next (taken.reply p
        (.adviceReply reference 10 0 h.figures.posted h.figures.fee h.figures.net h.figures.short h.figures.stamp))))
  ∧ (∀ (s : State) (p : Nat) (before after : List InFrame) (card : CardNo) (amount reference kind : Nat) (id : HoldId),
    s.Holds .custodyUnit p (.advice card amount reference kind id) before after → s.custodyReady = true →
    (amount = 0 ∨ 10000000 < amount
      ∨ ∃ h, s.holdFor p reference = some h ∧ (h.key ≠ card.key ∨ h.kind ≠ .redemption)) →
    exec .advice s = .next (s.withInbound (before ++ after)))

/-! ### Replies taken at the redeemer -/

/-- An AUTH-REPLY matched in AUTH-WAIT: APPROVED makes the transaction REMOTE-HELD with the hold and the abandonment timer,
INSUFFICIENT frees the slot and the reservation; UNKNOWN-CARD, CARD-CLOSED and HOME-BUSY do the same and are DECLINED with
that reason; an unmatched APPROVED is answered with a RELEASE, but for a second one of a transaction in REMOTE-HELD or
CAPTURE-WAIT with the same hold, which is discarded, as is every other unmatched status (R61, R62, R64, R72, R77). -/
def Obligations.AuthReplyCompletes : Prop :=
  (∀ (s : State) (p : Nat) (before after : List InFrame) (reference : Nat) (card : CardNo) (hold : HoldId)
    (amount available : Nat) (t : Txn),
    s.Holds .requestBroker p (.authReply reference 0 card hold amount available) before after → s.onLine = true →
    s.matching reference p .authWait = some t → t.ticket = none →
    exec .authReply s = .next ((((s.withInbound (before ++ after)).setBr { s.br with
        txns := updateWhere (fun x => x.reference = t.reference) (fun x => { x with
          state := .remoteHeld, hold := some hold, ticket := none
          timer := some (s.now + s.sc.config.holdExpiry * 1000) }) s.br.txns }).answer
      { kind := 3, tag := t.tag, status := 1, fields := toBytes 2 t.reference ++ toBytes 4 t.amount ++ toBytes 1 0
          ++ toBytes 4 available })))
  ∧ (∀ (s : State) (p : Nat) (before after : List InFrame) (reference : Nat) (card : CardNo) (hold : HoldId)
    (amount available : Nat) (t : Txn),
    s.Holds .requestBroker p (.authReply reference 1 card hold amount available) before after → s.onLine = true →
    s.matching reference p .authWait = some t → t.state = .authWait → t.ticket = none →
    exec .authReply s = .next (((((s.withInbound (before ++ after)).withoutTxn t.reference).setAu { s.au with
        reservations := s.au.reservations - 1 }).answer
      { kind := 3, tag := t.tag, status := 8, reason := 1, fields := toBytes 4 available })))
  ∧ (∀ (s : State) (p : Nat) (before after : List InFrame) (reference : Nat) (card : CardNo) (hold : HoldId)
    (amount available : Nat),
    s.Holds .requestBroker p (.authReply reference 0 card hold amount available) before after → s.onLine = true →
    s.matching reference p .authWait = none →
    (∀ t ∈ s.br.txns, t.reference = reference → t.target = some p → t.state = .remoteHeld ∨ t.state = .captureWait →
      t.hold ≠ some hold) →
    exec .authReply s = .next ((s.withInbound (before ++ after)).hand p (.release card hold reference)))
  ∧ (∀ (s : State) (p : Nat) (before after : List InFrame) (reference status : Nat) (card : CardNo) (hold : HoldId)
    (amount available : Nat),
    s.Holds .requestBroker p (.authReply reference status card hold amount available) before after → s.onLine = true →
    let taken := s.withInbound (before ++ after)
    (∀ t : Txn, s.matching reference p .authWait = some t → t.ticket = none →
      let declined (reason : Nat) : State := ((taken.withoutTxn t.reference).setAu { s.au with
          reservations := s.au.reservations - 1 }).answer
        { kind := 3, tag := t.tag, status := 8, reason, fields := toBytes 4 0 }
      (status = 2 → exec .authReply s = .next (declined 2)) ∧ (status = 3 → exec .authReply s = .next (declined 3))
      ∧ (status = 4 → exec .authReply s = .next (declined 5)))
    ∧ (s.matching reference p .authWait = none →
      (status ≠ 0 ∨ ∃ t ∈ s.br.txns, t.reference = reference ∧ t.target = some p
        ∧ (t.state = .remoteHeld ∨ t.state = .captureWait) ∧ t.hold = some hold) →
      exec .authReply s = .next taken))

/-- A CAPTURE-REPLY with figures, matched in CAPTURE-WAIT: the figures are booked by their stamp, as
FiguresAreBookedByTheirStamp says, the reservation and the slot are free, and the till gets COMPLETED with them (R67, R102);
a stamp of the open period books in the open entry of the home, and NOT-POSTED without a short books nothing (R24).
HOME-BUSY turns the capture into a CAPTURE advice and is COMPLETED with the PENDING flag (R68, R78). A CREDIT-REPLY APPROVED
in CREDIT-WAIT books Cr by its stamp and is CREDITED; an ENQUIRE-REPLY APPROVED in ENQUIRE-WAIT is answered with both
amounts; both free the slot (R24, R73, R74). A CREDIT-REPLY or an ENQUIRE-REPLY that refuses frees the slot and is DECLINED
with its reason, an OVER-CAP with the room (R73, R74); one that matches nothing is discarded (R61). A CAPTURE-REPLY with
figures that matches no transaction settles the CAPTURE advice of its reference, whatever its target, and drops a send that
waits for room; HOME-BUSY, or no such advice, discards it (R69, R91). That each result carries the tag of the opening
request is the model's reading (log 33). -/
def Obligations.CaptureCreditAndEnquireRepliesComplete : Prop :=
  (∀ (s : State) (p : Nat) (before after : List InFrame) (reference status flags posted fee net stamp : Nat) (t : Txn),
    s.Holds .requestBroker p (.captureReply reference status flags posted fee net 0 stamp) before after →
    s.onLine = true → s.matching reference p .captureWait = some t → t.ticket = none →
    (status = 8 ∨ status = 9 ∨ status = 10 ∨ status = 11) → stamp = s.su.openPeriod → 0 < posted →
    exec .captureReply s = .next (State.settle (((((s.withInbound (before ++ after)).withoutTxn t.reference).setAu
        { s.au with reservations := s.au.reservations - 1 }).setSu { s.su with
        entries := Table.modify {} s.su.entries p fun e => e.bookPosting posted (min fee posted) }).answer
      { kind := 4, tag := t.tag, status := 2, fields := toBytes 2 t.reference
          ++ toBytes 1 (if flags % 2 = 1 then 4 else 0) ++ toBytes 4 posted ++ toBytes 4 fee ++ toBytes 4 net
          ++ toBytes 4 0 ++ toBytes 4 stamp })))
  ∧ (∀ (s : State) (p : Nat) (before after : List InFrame)
    (reference status flags posted fee net short stamp : Nat) (t : Txn),
    s.Holds .requestBroker p (.captureReply reference status flags posted fee net short stamp) before after →
    s.onLine = true → s.matching reference p .captureWait = some t → t.ticket = none →
    (status = 8 ∨ status = 9 ∨ status = 10 ∨ status = 11) →
    let completed (u : State) : State := (((u.withoutTxn t.reference).setAu
        { u.au with reservations := u.au.reservations - 1 }).answer
      { kind := 4, tag := t.tag, status := 2, fields := toBytes 2 t.reference
          ++ toBytes 1 (if flags % 2 = 1 then 4 else 0) ++ toBytes 4 posted ++ toBytes 4 fee ++ toBytes 4 net
          ++ toBytes 4 short ++ toBytes 4 stamp })
    let taken := s.withInbound (before ++ after)
    exec .captureReply s = .next (completed (taken.bookFigures p { posted, fee, net, short, stamp })).settle
    ∧ (posted = 0 → short = 0 → stamp ≤ s.su.openPeriod → exec .captureReply s = .next (completed taken).settle))
  ∧ (∀ (s : State) (p : Nat) (before after : List InFrame) (reference flags posted fee net short stamp : Nat) (t : Txn),
    s.Holds .requestBroker p (.captureReply reference 4 flags posted fee net short stamp) before after →
    s.onLine = true → s.matching reference p .captureWait = some t → t.ticket = none →
    exec .captureReply s = .next (State.settle ((((s.withInbound (before ++ after)).withoutTxn t.reference).setAu
        { s.au with
          reservations := s.au.reservations - 1
          queue := s.au.queue ++ [{ kind := .capture, card := t.card, amount := t.amount, reference := t.reference,
                                    hold := t.hold }] }).answer
      { kind := 4, tag := t.tag, status := 2, fields := toBytes 2 t.reference ++ toBytes 1 2 })))
  ∧ (∀ (s : State) (p : Nat) (before after : List InFrame) (reference amount stamp : Nat) (t : Txn),
    s.Holds .requestBroker p (.creditReply reference 0 amount stamp) before after → s.onLine = true →
    s.matching reference p .creditWait = some t → t.ticket = none → stamp = s.su.openPeriod →
    exec .creditReply s = .next (State.settle ((((s.withInbound (before ++ after)).withoutTxn t.reference).setSu
        { s.su with entries := Table.modify {} s.su.entries p fun e => e.bookCredit amount }).answer
      { kind := 6, tag := t.tag, status := 4, fields := toBytes 4 amount ++ toBytes 4 0 ++ toBytes 4 stamp })))
  ∧ (∀ (s : State) (p : Nat) (before after : List InFrame) (reference amount stamp : Nat) (t : Txn),
    s.Holds .requestBroker p (.creditReply reference 0 amount stamp) before after → s.onLine = true →
    s.matching reference p .creditWait = some t → t.ticket = none →
    exec .creditReply s = .next (State.settle ((((s.withInbound (before ++ after)).bookCredit p amount stamp).withoutTxn
        t.reference).answer
      { kind := 6, tag := t.tag, status := 4, fields := toBytes 4 amount ++ toBytes 4 0 ++ toBytes 4 stamp })))
  ∧ (∀ (s : State) (p : Nat) (before after : List InFrame) (reference balance available : Nat) (t : Txn),
    s.Holds .requestBroker p (.enquireReply reference 0 balance available) before after → s.onLine = true →
    s.matching reference p .enquireWait = some t → t.ticket = none →
    exec .enquireReply s = .next (((s.withInbound (before ++ after)).withoutTxn t.reference).answer
      { kind := 2, tag := t.tag, status := 0, fields := toBytes 4 balance ++ toBytes 4 available }))
  ∧ (∀ (s : State) (p : Nat) (before after : List InFrame) (reference status amount stamp : Nat),
    s.Holds .requestBroker p (.creditReply reference status amount stamp) before after → s.onLine = true →
    let taken := s.withInbound (before ++ after)
    (∀ t : Txn, s.matching reference p .creditWait = some t → t.ticket = none →
      let declined (reason carried : Nat) : State := (taken.withoutTxn t.reference).answer
        { kind := 6, tag := t.tag, status := 8, reason, fields := toBytes 4 carried }
      (status = 2 → exec .creditReply s = .next (declined 2 0).settle)
      ∧ (status = 3 → exec .creditReply s = .next (declined 3 0).settle)
      ∧ (status = 4 → exec .creditReply s = .next (declined 5 0).settle)
      ∧ (status = 5 → exec .creditReply s = .next (declined 7 amount).settle))
    ∧ (s.matching reference p .creditWait = none → exec .creditReply s = .next taken.settle))
  ∧ (∀ (s : State) (p : Nat) (before after : List InFrame) (reference status balance available : Nat),
    s.Holds .requestBroker p (.enquireReply reference status balance available) before after → s.onLine = true →
    let taken := s.withInbound (before ++ after)
    (∀ t : Txn, s.matching reference p .enquireWait = some t → t.ticket = none → status = 2 ∨ status = 3 →
      exec .enquireReply s = .next ((taken.withoutTxn t.reference).answer
        { kind := 2, tag := t.tag, status := 8, reason := status, fields := toBytes 4 0 }))
    ∧ (s.matching reference p .enquireWait = none → exec .enquireReply s = .next taken))
  ∧ (∀ (s : State) (p : Nat) (before after : List InFrame) (reference status flags posted fee net short stamp : Nat),
    s.Holds .requestBroker p (.captureReply reference status flags posted fee net short stamp) before after →
    s.onLine = true → s.matching reference p .captureWait = none →
    let taken := s.withInbound (before ++ after)
    let found := s.au.queue.find? fun a => a.reference = reference && a.kind = .capture && a.state ≠ .settled
    (∀ a, found = some a → status = 8 ∨ status = 9 ∨ status = 10 ∨ status = 11 →
      let booked := taken.bookFigures p { posted, fee, net, short, stamp }
      exec .captureReply s = .next (State.settle ((booked.setLc { booked.lc with
          waitList := booked.lc.waitList.filter fun g => a.ticket ≠ some g.ticket }).setAu { booked.au with
        queue := updateWhere (fun x => x.reference = reference) (fun x => { x with
          state := .settled, holdOff := none, ticket := none, timer := none
          settled := some { status, figures := { posted, fee, net, short, stamp }, station := p,
                            late := decide (flags % 2 = 1) } }) booked.au.queue })))
    ∧ (found = none ∨ status = 4 → exec .captureReply s = .next taken.settle))

/-- A matched ADVICE-REPLY with figures settles its advice: the figures are booked by their stamp and a short as stand-in
loss, as FiguresAreBookedByTheirStamp says, and the advice waits to report; with the open period's stamp both go to the open
entry of the home, and NOT-POSTED without a short books nothing. HOME-BUSY puts the advice back to WAITING until a BEACON of
that home is heard (R86, R89, R90, R92, R102). -/
def Obligations.AdviceReplyCompletes : Prop :=
  (∀ (s : State) (p : Nat) (before after : List InFrame) (reference status flags posted fee net short stamp : Nat)
    (a : Advice),
    s.Holds .adviceUnit p (.adviceReply reference status flags posted fee net short stamp) before after →
    s.onLine = true → s.adviceMatching reference p = some a → a.ticket = none → a.reference = reference →
    (status = 8 ∨ status = 9 ∨ status = 10 ∨ status = 11) → stamp = s.su.openPeriod → 0 < posted → 0 < short →
    exec .adviceReply s = .next (State.settle (((s.withInbound (before ++ after)).setSu { s.su with
        entries := Table.modify {} (Table.modify {} s.su.entries p fun e => e.bookPosting posted (min fee posted)) p
          fun e => e.bookLoss short }).setAu { s.au with
        queue := updateWhere (fun x => x.reference = reference) (fun x => { x with
          state := .settled, holdOff := none, ticket := none, timer := none
          settled := some { status, figures := { posted, fee, net, short, stamp }, station := p,
                            late := decide (flags % 2 = 1) } }) s.au.queue })))
  ∧ (∀ (s : State) (p : Nat) (before after : List InFrame) (reference status flags posted fee net short stamp : Nat)
    (a : Advice),
    s.Holds .adviceUnit p (.adviceReply reference status flags posted fee net short stamp) before after →
    s.onLine = true → s.adviceMatching reference p = some a → a.ticket = none → a.reference = reference →
    (status = 8 ∨ status = 9 ∨ status = 10 ∨ status = 11) →
    let settled (u : State) : State := u.setAu { u.au with
        queue := updateWhere (fun x => x.reference = reference) (fun x => { x with
          state := .settled, holdOff := none, ticket := none, timer := none
          settled := some { status, figures := { posted, fee, net, short, stamp }, station := p,
                            late := decide (flags % 2 = 1) } }) u.au.queue }
    let taken := s.withInbound (before ++ after)
    exec .adviceReply s = .next (settled (taken.bookFigures p { posted, fee, net, short, stamp })).settle
    ∧ (posted = 0 → short = 0 → stamp ≤ s.su.openPeriod → exec .adviceReply s = .next (settled taken).settle)
    ∧ (0 < posted → short = 0 → stamp = s.su.openPeriod →
      exec .adviceReply s = .next (settled (taken.setSu { s.su with
        entries := Table.modify {} s.su.entries p fun e => e.bookPosting posted (min fee posted) })).settle))
  ∧ (∀ (s : State) (p : Nat) (before after : List InFrame) (reference flags posted fee net short stamp : Nat)
    (a : Advice),
    s.Holds .adviceUnit p (.adviceReply reference 4 flags posted fee net short stamp) before after →
    s.onLine = true → s.adviceMatching reference p = some a → a.ticket = none →
    exec .adviceReply s = .next (State.settle ((s.withInbound (before ++ after)).setAu { s.au with
        queue := updateWhere (fun x => x.reference = reference) (fun x => { x with
          state := .waiting, holdOff := some (.beacon p), ticket := none, timer := none }) s.au.queue })))

/-- Figures are booked by their stamp (R24, R90, R102): a stamp above the open period closes to it first, and they go to the
new open bank; the open period's stamp books in the open entry; those of a PENDING and QUEUED closing entry go there, and an
entry that gets the saturated mark by it is SATURATED from then on (R25, R103; that this happens at the posting is log 45);
any other stamp books in the open entry and in its late amounts. The fee booked is at most the posted amount, figures with
nothing posted add nothing, and a short is stand-in loss of the open entry in every case. -/
def Obligations.FiguresAreBookedByTheirStamp : Prop :=
  (∀ (s : State) (p stamp : Nat) (f late : PosEntry → PosEntry),
    (stamp = s.su.openPeriod → s.bookByStamp p stamp f late = s.setSu { s.su with
      entries := Table.modify {} s.su.entries p f })
    ∧ (∀ c, stamp < s.su.openPeriod → s.su.closing = some c →
        (c.period = stamp ∧ (Table.get {} c.status p : StatementStatus).compare = .pending
          ∧ (Table.get {} c.status p : StatementStatus).send = .queued) →
        s.bookByStamp p stamp f late = s.setSu { s.su with
          closing := some { c with
            entries := Table.modify {} c.entries p f
            status := Table.modify {} c.status p fun st =>
              if (f (Table.get {} c.entries p)).saturated = true then { st with compare := .saturated, part := none }
              else st } })
    ∧ (stamp < s.su.openPeriod → (∀ c, s.su.closing = some c →
        ¬ (c.period = stamp ∧ (Table.get {} c.status p : StatementStatus).compare = .pending
          ∧ (Table.get {} c.status p : StatementStatus).send = .queued)) →
        s.bookByStamp p stamp f late = s.setSu { s.su with
          entries := Table.modify {} s.su.entries p fun e => late (f e) }))
  ∧ (∀ (s : State) (p : Nat) (g : Figures),
    (s.su.openPeriod < g.stamp →
      (s.closeTo g.stamp).su.openPeriod = g.stamp ∧ s.bookFigures p g = (s.closeTo g.stamp).bookFigures p g)
    ∧ (g.stamp ≤ s.su.openPeriod →
      (0 < g.posted → g.short = 0 → s.bookFigures p g = s.bookByStamp p g.stamp
        (fun e => e.bookPosting g.posted (min g.fee g.posted)) (fun e => e.bookLate g.posted (min g.fee g.posted) 0))
      ∧ (g.posted = 0 → g.short = 0 → s.bookFigures p g = s)
      ∧ (0 < g.short →
        let u := s.bookFigures p { g with short := 0 }
        s.bookFigures p g = u.setSu { u.su with
          entries := Table.modify {} u.su.entries p fun e => e.bookLoss g.short })))
  ∧ (∀ (s : State) (p amount stamp : Nat),
    (s.su.openPeriod < stamp → s.bookCredit p amount stamp = (s.closeTo stamp).bookCredit p amount stamp)
    ∧ (stamp ≤ s.su.openPeriod → s.bookCredit p amount stamp = s.bookByStamp p stamp
        (fun e => e.bookCredit amount) (fun e => e.bookLate 0 0 amount)))

/-! ### Statements and notices -/

/-- A part of a statement for the closing period is kept until its other part comes; the two parts of a mirror statement
then give MATCH, any other pair BREAK with its report, a saturated one SATURATED (R106, R107, R110), whichever part comes
first. A part of the kind already kept replaces it (R106); two parts for a NONE entry are a BREAK, and this station's own
statement is QUEUED (R109). A statement for a period that is neither closing nor to be closed is counted late and discarded
(R97, R106). A statement for a period at or above the open one closes to the period after it first, and is then treated as
one for the closing period; one for the largest period is discarded (R98, R105). The BREAK report carries both sides' twelve
figures and six late amounts in 132 bytes (R110, R189). That a mark byte other than 0 is a set mark is the model's reading
(log 23), and that the mark of either part alone makes the statement saturated its choice (log 44). -/
def Obligations.StatementCompletes : Prop :=
  (∀ (s : State) (p : Nat) (before after : List InFrame) (period gross fee credit grossN feeN creditN : Nat) (c : Closing),
    s.Holds .settlementUnit p (.statement 0 period gross fee credit grossN feeN creditN 0) before after →
    s.onLine = true → s.su.closing = some c → c.period = period → period < s.su.openPeriod → period < 4294967295 →
    (Table.get {} c.status p : StatementStatus).compare = .pending →
    (Table.get {} c.status p : StatementStatus).part = none →
    exec .statement s = .next (State.settle ((s.withInbound (before ++ after)).setSu { s.su with
      closing := some { c with status := Table.modify {} c.status p fun st => { st with
        part := some { redeemer := false, gross, fee, credit, grossN, feeN, creditN, saturated := false } } } })))
  ∧ (∀ (s : State) (p : Nat) (before after : List InFrame) (period gross fee credit grossN feeN creditN mark : Nat)
    (c : Closing) (i : StatementPart),
    s.Holds .settlementUnit p (.statement 1 period gross fee credit grossN feeN creditN mark) before after →
    s.onLine = true → s.su.closing = some c → c.period = period → period < s.su.openPeriod → period < 4294967295 →
    (Table.get {} c.status p : StatementStatus).compare = .pending →
    (Table.get {} c.status p : StatementStatus).part = some i → i.redeemer = false →
    let e : PosEntry := Table.get {} c.entries p
    let same := i.gross = e.gr ∧ i.grossN = e.grN ∧ i.fee = e.fr ∧ i.feeN = e.frN ∧ i.credit = e.cr ∧ i.creditN = e.crN
      ∧ gross = e.gi ∧ grossN = e.giN ∧ fee = e.fi ∧ feeN = e.fiN ∧ credit = e.ci ∧ creditN = e.ciN
    let after_ (r : CompareStatus) (latch : Option Record) : State :=
      (s.withInbound (before ++ after)).setSu { s.su with
        latch
        closing := some { c with status := Table.modify {} c.status p fun st => { st with compare := r, part := none } } }
    (i.saturated = false ∧ mark = 0 ∧ same → exec .statement s = .next (State.settle (after_ .match s.su.latch)))
    ∧ (i.saturated = true ∨ mark ≠ 0 → exec .statement s = .next (State.settle (after_ .saturated s.su.latch)))
    ∧ (i.saturated = false ∧ mark = 0 ∧ ¬ same →
      exec .statement s = .next (State.settle (after_ .brk (some (breakRecord period p e (s.su.openEntry p)
        { gi := (i.gross, i.grossN), fi := (i.fee, i.feeN), ci := (i.credit, i.creditN), gr := (gross, grossN),
          fr := (fee, feeN), cr := (credit, creditN) }))))))
  ∧ (∀ (s : State) (p : Nat) (before after : List InFrame) (part period gross fee credit grossN feeN creditN mark : Nat)
    (c : Closing),
    s.Holds .settlementUnit p (.statement part period gross fee credit grossN feeN creditN mark) before after →
    s.onLine = true → part ≤ 1 → s.su.closing = some c → c.period = period → period < s.su.openPeriod →
    period < 4294967295 →
    let st : StatementStatus := Table.get {} c.status p
    let x : StatementPart :=
      { redeemer := decide (part = 1), gross, fee, credit, grossN, feeN, creditN, saturated := decide (mark ≠ 0) }
    let kept : State := (s.withInbound (before ++ after)).setSu { s.su with
      closing := some { c with status := Table.modify {} c.status p fun st => { st with part := some x } } }
    let compared (i r : StatementPart) : State :=
      (s.withInbound (before ++ after)).compareStatement c p i r
    (st.compare = .pending ∨ st.compare = .none →
      (st.part = none → exec .statement s = .next kept.settle)
      ∧ (∀ y, st.part = some y →
        (y.redeemer = x.redeemer → exec .statement s = .next kept.settle)
        ∧ (y.redeemer = false → part = 1 → exec .statement s = .next (compared y x).settle)
        ∧ (y.redeemer = true → part = 0 → exec .statement s = .next (compared x y).settle)))
    ∧ (st.compare = .match ∨ st.compare = .brk ∨ st.compare = .saturated →
      exec .statement s = .next (State.settle (s.withInbound (before ++ after)))))
  ∧ (∀ (s : State) (c : Closing) (p : Nat) (i r : StatementPart), s.su.closing = some c →
    let e : PosEntry := Table.get {} c.entries p
    let theirs : Side :=
      { gi := (i.gross, i.grossN), fi := (i.fee, i.feeN), ci := (i.credit, i.creditN), gr := (r.gross, r.grossN),
        fr := (r.fee, r.feeN), cr := (r.credit, r.creditN) }
    let same := theirs = { gi := (e.gr, e.grN), fi := (e.fr, e.frN), ci := (e.cr, e.crN), gr := (e.gi, e.giN),
                           fr := (e.fi, e.fiN), cr := (e.ci, e.ciN) }
    let after_ (f : StatementStatus → StatementStatus) (latch : Option Record) : State := s.setSu { s.su with
      latch, closing := some { c with status := Table.modify {} c.status p f } }
    let report := some (breakRecord c.period p e (s.su.openEntry p) theirs)
    ((Table.get {} c.status p : StatementStatus).compare = .none →
      s.compareStatement c p i r = after_ (fun st => { st with compare := .brk, send := .queued, part := none }) report)
    ∧ ((Table.get {} c.status p : StatementStatus).compare = .pending →
      (i.saturated = true ∨ r.saturated = true →
        s.compareStatement c p i r = after_ (fun st => { st with compare := .saturated, part := none }) s.su.latch)
      ∧ (i.saturated = false → r.saturated = false →
        (same → s.compareStatement c p i r = after_ (fun st => { st with compare := .match, part := none }) s.su.latch)
        ∧ (¬ same → s.compareStatement c p i r = after_ (fun st => { st with compare := .brk, part := none }) report))))
  ∧ (∀ (period p : Nat) (e opened : PosEntry) (d : Side), breakRecord period p e opened d = {
      kind := 33
      fields := toBytes 4 period ++ toBytes 1 p
        ++ toBytes 5 e.gi ++ toBytes 3 e.giN ++ toBytes 5 e.fi ++ toBytes 3 e.fiN ++ toBytes 5 e.ci ++ toBytes 3 e.ciN
        ++ toBytes 5 e.gr ++ toBytes 3 e.grN ++ toBytes 5 e.fr ++ toBytes 3 e.frN ++ toBytes 5 e.cr ++ toBytes 3 e.crN
        ++ toBytes 5 d.gi.1 ++ toBytes 3 d.gi.2 ++ toBytes 5 d.fi.1 ++ toBytes 3 d.fi.2 ++ toBytes 5 d.ci.1
        ++ toBytes 3 d.ci.2 ++ toBytes 5 d.gr.1 ++ toBytes 3 d.gr.2 ++ toBytes 5 d.fr.1 ++ toBytes 3 d.fr.2
        ++ toBytes 5 d.cr.1 ++ toBytes 3 d.cr.2
        ++ toBytes 5 e.lateGross ++ toBytes 5 e.lateFee ++ toBytes 5 e.lateCredit ++ toBytes 5 opened.lateGross
        ++ toBytes 5 opened.lateFee ++ toBytes 5 opened.lateCredit ++ toBytes 1 (if e.missed = true then 1 else 0) }
    ∧ (breakRecord period p e opened d).fields.length = 132)
  ∧ (∀ (s : State) (p : Nat) (before after : List InFrame) (part period gross fee credit grossN feeN creditN mark : Nat),
    s.Holds .settlementUnit p (.statement part period gross fee credit grossN feeN creditN mark) before after →
    s.onLine = true → part ≤ 1 → period < s.su.openPeriod → period < 4294967295 →
    (∀ c, s.su.closing = some c → c.period ≠ period) →
    exec .statement s = .next (State.settle ((s.withInbound (before ++ after)).setSu { s.su with
      counters := { s.su.counters with lateStatements := min (s.su.counters.lateStatements + 1) 16777215 } })))
  ∧ (∀ (s : State) (p : Nat) (before after : List InFrame) (part period gross fee credit grossN feeN creditN mark : Nat),
    s.Holds .settlementUnit p (.statement part period gross fee credit grossN feeN creditN mark) before after →
    s.onLine = true →
    let taken := s.withInbound (before ++ after)
    (4294967295 ≤ period → exec .statement s = .next taken.settle)
    ∧ (s.su.openPeriod ≤ period → period < 4294967295 →
      let closed := (taken.closeTo (period + 1)).withInbound s.lc.inbound
      exec .statement s = exec .statement closed
      ∧ closed.Holds .settlementUnit p (.statement part period gross fee credit grossN feeN creditN mark) before after
      ∧ closed.onLine = true ∧ closed.su.openPeriod = period + 1))

/-- A CLOSE closes to its period when that is above the open period, and else does nothing; a BEACON is recorded, closes in
the same way to a period above the open one, and teaches its homes; a DEPART's cause is recorded (R98, R161, R164), whatever
the byte, which for one other than 0 and 1 is the model's choice (log 62). A CUSTODY notice is learned: as a new entry, in
place of the LEARNED entry of its home, or in a full map in place of the LEARNED entry with the oldest learn time, the
lowest home among equals (R168). A PINNED entry stands against any custody statement, and a home adopted here or the own
address is never learned (R168). A CUSTODY notice or a BEACON that names the own address as the home of its own sender is
the proof of commit of the handover to that station, while TRANSFER-END is outstanding: the handover completes (R128, R164,
R168); in any other case it does nothing. That a BEACON with a count above 3 teaches the homes of its three places is the
model's reading (log 22), and that a mode or flag outside its codes is recorded as it came its choice (log 68). -/
def Obligations.NoticesComplete : Prop :=
  (∀ (s : State) (p : Nat) (before after : List InFrame), s.hears = true →
    let taken := s.withInbound (before ++ after)
    (∀ q, s.Holds .settlementUnit p (.close q) before after →
      (s.su.openPeriod < q → exec .close s = .next (State.settle (taken.closeTo q)))
      ∧ (q ≤ s.su.openPeriod → exec .close s = .next (State.settle taken)))
    ∧ (∀ b : BeaconData, s.Holds .peerMonitor p (.beacon b) before after →
      let heard := taken.setPm { s.pm with
        peers := Table.modify {} s.pm.peers p fun e => { e with lastBeacon := some b } }
      let homes := [b.h1, b.h2, b.h3].take b.count
      (b.period ≤ s.su.openPeriod → exec .beacon s = .next (State.settle (heard.learnAll p homes)))
      ∧ (s.su.openPeriod < b.period → exec .beacon s = .next (State.settle ((heard.closeTo b.period).learnAll p homes))))
    ∧ (∀ cause, s.Holds .peerMonitor p (.depart cause) before after →
      exec .depart s = .next (taken.setPm { s.pm with
        peers := Table.modify {} s.pm.peers p fun e => { e with departure := some cause } }))
    ∧ (∀ h c, s.Holds .peerMonitor p (.custody h c) before after →
      exec .custody s = .next (State.settle (taken.learn h c p)))
    ∧ (∀ h c, s.Holds .peerMonitor p (.custody h c) before after → h ≠ s.own → s.cu.adopted.contains h = false →
      c ≠ s.own → h ≠ c → 1 ≤ h → h ≤ 239 → 1 ≤ c → c ≤ 239 → s.pm.homeMap.length < 16 →
      (∀ e ∈ s.pm.homeMap, e.home ≠ h) →
      exec .custody s = .next (State.settle (taken.setPm { s.pm with
        homeMap := s.pm.homeMap ++ [{ home := h, custodian := c, learned := some s.now }] }))))
  ∧ (∀ (s : State) (h c source : Nat), h ≠ s.own → h ∉ s.cu.adopted → c ≠ s.own → h ≠ c → 1 ≤ h → h ≤ 239 → 1 ≤ c → c ≤ 239 →
    let entry : HomeEntry := { home := h, custodian := c, learned := some s.now }
    (∀ e, s.pm.homeMap.find? (fun e => e.home = h) = some e → e.learned.isSome = true →
      s.learn h c source = s.setPm { s.pm with
        homeMap := s.pm.homeMap.map fun e => if e.home = h then entry else e })
    ∧ (∀ (o : HomeEntry) (t0 : Nat), (∀ e ∈ s.pm.homeMap, e.home ≠ h) → 16 ≤ s.pm.homeMap.length → o ∈ s.pm.homeMap →
      o.learned = some t0 → (∀ e ∈ s.pm.homeMap, ∀ t, e.learned = some t → t0 < t ∨ t0 = t ∧ o.home ≤ e.home) →
      s.learn h c source = s.setPm { s.pm with
        homeMap := (s.pm.homeMap.filter fun e => e.home ≠ o.home) ++ [entry] }))
  ∧ (∀ (s : State) (c : Nat) (homes : List Nat), s.learnAll c homes = homes.foldl (fun u h => u.learn h c c) s)
  ∧ (∀ (s : State) (h c source : Nat), h ≠ s.own →
    (s.cu.adopted.contains h = true ∨ c = s.own ∨ h = c ∨ ¬ (1 ≤ h ∧ h ≤ 239) ∨ ¬ (1 ≤ c ∧ c ≤ 239)
      ∨ ∃ e, s.pm.homeMap.find? (fun e => e.home = h) = some e ∧ e.learned = none) →
    s.learn h c source = s)
  ∧ (∀ (s : State) (c source : Nat),
    c ≠ source ∨ (∀ x, s.cu.handover = some x → ¬ (x.sub = .transferring ∧ x.ending = true ∧ x.custodian = c)) →
    s.learn s.own c source = s)
  ∧ (∀ (s : State) (x : Handover), s.cu.handover = some x → x.sub = .transferring → x.ending = true →
    s.learn s.own x.custodian x.custodian = (((((s.setLc { s.lc with
        waitList := s.lc.waitList.filter fun f => f.msg.kind ∉ [18, 20, 21] }).setCu { s.cu with
        cards := s.cu.cards.filter fun r => r.state ≠ .active
        ledger := { s.cu.ledger with handedOut := s.cu.ledger.handedOut + x.total }
        handover := some { x with
          sub := .announcing, timer := none, ending := false, attemptsLeft := 0, ticket := some s.ticket } }).setSc
        { s.sc with committedMark := true }).answer
      { kind := 9, tag := x.tag, status := 7,
        fields := toBytes 1 x.custodian ++ toBytes 2 x.count ++ toBytes 5 x.total }).hand 255 (.depart 0)))

/-! ### Handover -/

/-- An OFFER is tested in the order of R121: the first test that applies is answered REFUSE with its cause and changes
nothing; an OFFER that passes opens an adoption and is answered ACCEPT. An OFFER from the station of the open adoption
discards that adoption first and is then tested (R121, R125). That a home given twice is taken once, and that a count of
homes above 4 takes the four places, is the model's reading (log 22); that the discarded adoption's record has the offered
count and total, and that a count of 0 or a byte that is no home address is taken as it comes, are its choices (logs 53 and
65). -/
def Obligations.OfferCompletes : Prop :=
  (∀ (s : State) (p : Nat) (before after : List InFrame) (count total highest n h1 h2 h3 h4 : Nat),
    s.Holds .custodyUnit p (.offer count total highest n h1 h2 h3 h4) before after → s.custodyReady = true →
    (∀ a, s.cu.adoption = some a → a.station ≠ p) →
    let homes := dedupe ([h1, h2, h3, h4].take n)
    let refused (cause : Nat) : State := (s.withInbound (before ++ after)).reply p (.offerReply 1 cause)
    (s.sc.station = .handingOver → exec .offer s = .next (refused 1))
    ∧ (s.sc.station ≠ .handingOver →
      (s.cu.adoption ≠ none → exec .offer s = .next (refused 2))
      ∧ (s.cu.adoption = none →
        ((∃ h ∈ homes, s.isHere h = true) → exec .offer s = .next (refused 3))
        ∧ ((∀ h ∈ homes, s.isHere h = false) →
          (3 < s.cu.adopted.length + homes.length → exec .offer s = .next (refused 4))
          ∧ (s.cu.adopted.length + homes.length ≤ 3 →
            (s.sc.config.cardCap < highest → exec .offer s = .next (refused 5))
            ∧ (highest ≤ s.sc.config.cardCap →
              (s.usableSlots < count ∨ s.cu.ledger.headroom < total → exec .offer s = .next (refused 6))
              ∧ (count ≤ s.usableSlots → total ≤ s.cu.ledger.headroom →
                exec .offer s = .next (((s.withInbound (before ++ after)).setCu { s.cu with
                  adoption := some { station := p, homes, count, total, toCome := count, fault := false,
                                     idle := s.now + 10000 } }).reply p (.offerReply 0 0)))))))))
  ∧ (∀ (s : State) (p : Nat) (before after : List InFrame) (count total highest n h1 h2 h3 h4 : Nat) (a : Adoption),
    s.Holds .custodyUnit p (.offer count total highest n h1 h2 h3 h4) before after → s.custodyReady = true →
    s.cu.adoption = some a → a.station = p →
    exec .offer s = exec .offer (s.setCu { s.cu with
      cards := s.cu.cards.filter fun r => r.state ≠ .pendingAdopt
      adoption := none
      lastAdoption := some { station := p, count := a.count, total := a.total, outcome := .discarded } }))

/-- An ABORT-HANDOVER from the departing station of the open adoption discards it with its PENDING-ADOPT records; any other
changes nothing (R131). The adoption's idle limit does the same (R125). That the last-adoption record then has the offered
count and total is the model's choice (log 53). -/
def Obligations.AdoptionsAreDiscarded : Prop :=
  (∀ (s : State) (p : Nat) (before after : List InFrame) (a : Adoption),
    s.Holds .custodyUnit p .abortHandover before after → s.custodyReady = true → s.cu.adoption = some a →
    (a.station = p → exec .abortHandover s = .next ((s.withInbound (before ++ after)).setCu { s.cu with
      cards := s.cu.cards.filter fun r => r.state ≠ .pendingAdopt
      adoption := none
      lastAdoption := some { station := a.station, count := a.count, total := a.total, outcome := .discarded } }))
    ∧ (a.station ≠ p → exec .abortHandover s = .next (s.withInbound (before ++ after))))
  ∧ (∀ (s : State) (p : Nat) (before after : List InFrame),
    s.Holds .custodyUnit p .abortHandover before after → s.custodyReady = true → s.cu.adoption = none →
    exec .abortHandover s = .next (s.withInbound (before ++ after)))
  ∧ (∀ (s : State) (a : Adoption), s.live = true → s.cu.adoption = some a → s.now ≤ a.idle →
    exec .adoptionIdleLimit s = .next ((s.setNow a.idle).setCu { s.cu with
      cards := s.cu.cards.filter fun r => r.state ≠ .pendingAdopt
      adoption := none
      lastAdoption := some { station := a.station, count := a.count, total := a.total, outcome := .discarded } }))

/-- An OFFER-REPLY ACCEPT from the custodian moves the handover to TRANSFERRING with every offered card still to send, in
order of home and serial; REFUSE fails it with the custodian's cause (R120, R123, R130). A TRANSFER-REPLY COMMIT while
TRANSFER-END is outstanding completes the handover: the ACTIVE cards leave, handed-out rises by the offered total, the
committed mark and HANDED-OVER are written, and a DEPART is handed; MISMATCH fails it (R123, R128, R129), with the refusal
cause 0, which is the model's reading (log 36); that a cause outside its codes is kept as it came is its choice (log 68). -/
def Obligations.CustodianRepliesComplete : Prop :=
  (∀ (s : State) (p : Nat) (before after : List InFrame) (cause : Nat) (h : Handover), s.custodyReady = true →
    s.cu.handover = some h → h.sub = .offering → h.custodian = p → h.ticket = none →
    let taken := s.withInbound (before ++ after)
    (s.Holds .custodyUnit p (.offerReply 0 cause) before after →
      exec .offerReply s = .next (State.settle (taken.setCu { s.cu with
        handover := some { h with
          sub := .transferring, ending := false, attemptsLeft := 3, ticket := none, timer := none, unacked := []
          toSend := sortBy (fun r => r.key.home * 16777216 + r.key.serial)
            (s.cu.cards.filter fun r => r.state = .active) } })))
    ∧ (s.Holds .custodyUnit p (.offerReply 1 cause) before after →
      exec .offerReply s = .next (State.settle (taken.failHandover .refused cause))))
  ∧ (∀ (s : State) (p : Nat) (before after : List InFrame) (h : Handover), s.custodyReady = true →
    s.cu.handover = some h → h.sub = .transferring → h.ending = true → h.custodian = p → s.lc.waitList = [] →
    let taken := s.withInbound (before ++ after)
    (s.Holds .custodyUnit p (.transferReply 0) before after →
      exec .transferReply s = .next (State.settle ((((taken.setCu { s.cu with
          cards := s.cu.cards.filter fun r => r.state ≠ .active
          ledger := { s.cu.ledger with handedOut := s.cu.ledger.handedOut + h.total }
          handover := some { h with
            sub := .announcing, timer := none, ending := false, attemptsLeft := 0, ticket := some s.ticket } }).setSc
          { s.sc with committedMark := true }).answer
        { kind := 9, tag := h.tag, status := 7,
          fields := toBytes 1 h.custodian ++ toBytes 2 h.count ++ toBytes 5 h.total }).hand 255 (.depart 0))))
    ∧ (s.Holds .custodyUnit p (.transferReply 1) before after →
      exec .transferReply s = .next (State.settle (taken.failHandover .mismatch 0))))

/-- A failing handover hands ABORT-HANDOVER but for NOT-DRAINED, returns the station to JOINED, fills the reserved slot
with HANDOVER-FAILED and its cause, and clears LOCAL hold-offs; cards, ledger and banks stay (R88, R130). -/
def Obligations.AFailedHandoverReturnsToJoined : Prop :=
  ∀ (s : State) (cause : FailCause) (refusal : Nat) (h : Handover), s.cu.handover = some h → s.lc.waitList = [] →
    let t := s.failHandover cause refusal
    t.sc = { s.sc with station := .joined } ∧ t.cu = { s.cu with handover := none }
    ∧ t.till.results = s.till.results ++ [{ kind := 40, tag := h.tag,
                                            fields := toBytes 1 cause.code ++ toBytes 1 refusal }]
    ∧ t.till.reserved = s.till.reserved - 1
    ∧ t.lc = (if cause = .notDrained then s.lc else (s.hand h.custodian .abortHandover).lc)
    ∧ (∀ a ∈ t.au.queue, ∀ x, a.holdOff ≠ some (.locally x)) ∧ t.au.queue.length = s.au.queue.length
    ∧ t.br = s.br ∧ t.su = s.su ∧ t.pm = s.pm ∧ t.now = s.now

/-- A CARD-TRANSFER of an offered home starts the idle timer again and, for a new card within the cap and with a free
slot, stores a PENDING-ADOPT record; a repeat is ignored; a card already known otherwise, or above the cap, sets the fault
mark (R124). One of another station or another home is discarded. That a serial outside 1 to 99,999 and a period of 0 are
stored as they come is the model's choice (log 66). -/
def Obligations.CardTransferCompletes : Prop :=
  ∀ (s : State) (p : Nat) (before after : List InFrame) (home serial balance issued last acts : Nat) (a : Adoption),
    s.Holds .custodyUnit p (.cardTransfer home serial balance issued last acts) before after → s.custodyReady = true →
    s.cu.adoption = some a →
    let card : Card := { key := { home, serial }, state := .pendingAdopt, balance, issuePeriod := issued,
                         lastActivity := last, activity := acts }
    let taken := s.withInbound (before ++ after)
    let open_ := { a with idle := s.now + 10000 }
    (a.station = p → a.homes.contains home = true →
      (s.cu.record { home, serial } = none → balance ≤ s.sc.config.cardCap → s.cu.cards.length < 6144 →
        exec .cardTransfer s = .next (taken.setCu { s.cu with
          cards := s.cu.cards ++ [card], adoption := some { open_ with toCome := a.toCome - 1 } }))
      ∧ (s.cu.record { home, serial } = some card →
        exec .cardTransfer s = .next (taken.setCu { s.cu with adoption := some open_ }))
      ∧ ((∃ other, s.cu.record { home, serial } = some other ∧ other ≠ card)
          ∨ s.cu.record { home, serial } = none ∧ s.sc.config.cardCap < balance →
        exec .cardTransfer s = .next (taken.setCu { s.cu with adoption := some { open_ with fault := true } })))
    ∧ (a.station ≠ p ∨ a.homes.contains home = false → exec .cardTransfer s = .next taken)

/-- A TRANSFER-END that agrees with the adoption commits it: the cards are ACTIVE, the homes adopted, the ledger raised, a
CUSTODY notice handed for each home and COMMIT answered; one that disagrees is answered MISMATCH and discards the adoption;
without an open adoption the last-adoption record answers (R126, R127, R133). That the record has the offered count and
total after a MISMATCH is the model's choice (log 53). -/
def Obligations.TransferEndCompletes : Prop :=
  (∀ (s : State) (p : Nat) (before after : List InFrame) (count total : Nat) (a : Adoption),
    s.Holds .custodyUnit p (.transferEnd count total) before after → s.custodyReady = true → s.cu.adoption = some a →
    a.station = p →
    let stored := s.cu.cards.filter fun r => r.state = .pendingAdopt
    let agrees := a.fault = false ∧ stored.length = count ∧ a.count = count ∧ sumOf (·.balance) stored = total
      ∧ a.total = total ∧ total ≤ s.cu.ledger.headroom
    let last (o : AdoptionOutcome) : LastAdoption := { station := p, count := a.count, total := a.total, outcome := o }
    let taken := s.withInbound (before ++ after)
    (agrees → exec .transferEnd s = .next (State.settle ((((taken.setCu { s.cu with
        cards := updateWhere (fun r => r.state = .pendingAdopt) (fun r => { r with state := .active }) s.cu.cards
        adopted := s.cu.adopted ++ a.homes
        ledger := { s.cu.ledger with adoptedIn := s.cu.ledger.adoptedIn + a.total }
        adoption := none, lastAdoption := some (last .commit) }).setPm { s.pm with
        homeMap := s.pm.homeMap.filter fun e => !a.homes.contains e.home }).announce a.homes).reply p (.transferReply 0))))
    ∧ (¬ agrees → exec .transferEnd s = .next (State.settle ((taken.setCu { s.cu with
        cards := s.cu.cards.filter fun r => r.state ≠ .pendingAdopt
        adoption := none, lastAdoption := some (last .mismatch) }).reply p (.transferReply 1)))))
  ∧ (∀ (s : State) (p : Nat) (before after : List InFrame) (count total : Nat),
    s.Holds .custodyUnit p (.transferEnd count total) before after → s.custodyReady = true →
    (∀ a, s.cu.adoption = some a → a.station ≠ p) →
    exec .transferEnd s = .next (State.settle ((s.withInbound (before ++ after)).reply p (.transferReply
      (if s.cu.lastAdoption = some { station := p, count, total, outcome := .commit } then 0 else 1)))))

/-! ### What an event makes due -/

/-- What an event makes due is done at its end, one thing after another until nothing is due (R71, R83, R88, R104, R112,
R118, R123); the order of the eight and the bound on the search are the model's choice (log 17), and so is the own address
as the target of an advice for a home held here (log 43). That the VOIDED result has the tag of the opening request (log
33), and that advices are applied past one that is held off (log 29), is the model's reading. A void whose RELEASE has its
place ends: the slot and the reservation are free, and the till gets VOIDED or the broker's latch an ABANDONED report (R71,
R72). The oldest WAITING advice for a home held here that no hold-off keeps is applied from JOINED and HANDING-OVER:
forced-posted on-us, or answered from its entry, and settled with a short as on-us loss, or held off LOCAL (R44, R45, R49,
R88). A WAITING advice is sent when R83's conditions hold, and goes IN-DELIVERY with its ADVICE frame handed (R82 to
R84). -/
def Obligations.DueVoidsAndAdvicesAreDone : Prop :=
  (∀ (s : State), s.settle = settleWith 4096 s ∧ settleWith 0 s = s
    ∧ (s.react = none → ∀ n, settleWith n s = s)
    ∧ (∀ t n, s.react = some t → settleWith (n + 1) s = settleWith n t)
    ∧ s.react = [s.reactVoid, s.reactStatementPlaced, s.reactDrain, s.reactRound, s.reactTransfer, s.reactApply, s.reactSend,
        s.reactStatement].findSome? id)
  ∧ (∀ (s : State) (before after : List Txn) (t : Txn) (ticket : Nat) (abandoned : Bool),
    s.br.txns = before ++ t :: after → t.voiding = some (ticket, abandoned) → t.state = .remoteHeld →
    (∀ x ∈ before, ∀ v, x.voiding = some v → s.waits v.1 = true) → (∀ f ∈ s.lc.waitList, f.ticket ≠ ticket) →
    let freed := (s.withoutTxn t.reference).setAu { s.au with reservations := s.au.reservations - 1 }
    (abandoned = false → s.reactVoid = some (freed.answer
      { kind := 5, tag := t.tag, status := 3, fields := toBytes 2 t.reference }))
    ∧ (abandoned = true → s.reactVoid = some (freed.setBr { freed.br with latch := some {
        kind := 35, tag := t.tag, fields := toBytes 2 t.reference ++ toBytes 4 t.approved ++ toBytes 1 3 } })))
  ∧ (∀ (s : State), (∀ x ∈ s.br.txns, ∀ v, x.voiding = some v → s.waits v.1 = true) → s.reactVoid = none)
  ∧ (∀ (s : State) (a : Advice), s.mayApply a = true ↔
    a.state = .waiting ∧ (s.sc.station = .joined ∨ s.sc.station = .handingOver)
      ∧ (a.card.home = s.own ∨ a.card.home ∈ s.cu.adopted)
      ∧ a.holdOff ≠ some (.frame s.own) ∧ a.holdOff ≠ some (.beacon s.own) ∧ a.holdOff ≠ some (.locally s.own))
  ∧ (∀ (s : State), (∀ a ∈ s.au.queue, s.mayApply a = false) → s.reactApply = none)
  ∧ (∀ (s : State) (before after : List Advice) (a : Advice), s.au.queue = before ++ a :: after →
    (∀ b ∈ before, s.mayApply b = false) → s.mayApply a = true → a.ticket = none →
    let posted := min a.amount (s.cu.available a.card.key)
    let entry (g : Figures) : Hold :=
      { id := s.freshHoldId, kind := .redemption, key := a.card.key, amount := a.amount, station := s.own,
        reference := a.reference, state := .captured, timer := s.now + s.sc.config.retention * 1000, figures := g, late := false }
    let counter := if 65535 ≤ s.freshHoldId.counter then 1 else s.freshHoldId.counter + 1
    let loss (short : Nat) := min (s.su.counters.onUsLoss + short) 1099511627775
    let settled (status : Nat) (g : Figures) : List Advice := updateWhere (fun x => x.reference = a.reference)
      (fun x => { x with
        state := .settled, holdOff := none, ticket := none, timer := none
        settled := some { status, figures := g, station := s.own, late := false } }) s.au.queue
    (s.holdFor s.own a.reference = none → s.sc.station ≠ .handingOver → s.cu.holds.length < 96 →
      (0 < posted →
        let g : Figures :=
          { posted, fee := 0, net := posted, short := a.amount - posted, stamp := s.su.openPeriod }
        s.reactApply = some (((s.setCu { s.cu with
          cards := updateWhere (fun x => x.key = a.card.key) (fun x => { x with
            balance := x.balance - posted, lastActivity := s.su.openPeriod, activity := min 65535 (x.activity + 1) })
            s.cu.cards
          ledger := { s.cu.ledger with redeemed := s.cu.ledger.redeemed + posted }
          holds := s.cu.holds ++ [entry g], holdCounter := counter }).setSu { s.su with
          counters := { s.su.counters with
            onUs := min (s.su.counters.onUs + posted) 1099511627775, onUsLoss := loss (a.amount - posted) } }).setAu
          { s.au with queue := settled (if posted = a.amount then 8 else 9) g }))
      ∧ (posted = 0 →
        let g : Figures := { short := a.amount, stamp := s.su.openPeriod }
        s.reactApply = some (((s.setCu { s.cu with
          holds := s.cu.holds ++ [entry g], holdCounter := counter }).setSu { s.su with
          counters := { s.su.counters with onUsLoss := loss a.amount } }).setAu { s.au with queue := settled 11 g })))
    ∧ (s.holdFor s.own a.reference = none → s.sc.station = .handingOver ∨ 96 ≤ s.cu.holds.length →
      s.reactApply = some (s.setAu { s.au with queue := updateWhere (fun x => x.reference = a.reference) (fun x => { x with
        state := .waiting, holdOff := some (.locally s.own), ticket := none, timer := none }) s.au.queue }))
    ∧ (∀ h, s.holdFor s.own a.reference = some h → h.state = .captured →
      s.reactApply = some ((s.setSu { s.su with
        counters := { s.su.counters with onUsLoss := loss h.figures.short } }).setAu
        { s.au with queue := settled 10 h.figures })))
  ∧ (∀ (s : State) (home : Nat), s.targetOf home = if s.isHere home = true then s.own
      else ((s.pm.homeMap.find? fun e => e.home = home).map (·.custodian)).getD home)
  ∧ (∀ (s : State) (a : Advice),
    let target := s.targetOf a.card.home
    s.maySend a = true ↔
      a.state = .waiting ∧ (s.sc.station = .joined ∨ s.sc.station = .handingOver) ∧ s.isHere a.card.home = false
      ∧ (s.peerAt target).presence = .present ∧ (∀ e ∈ s.lc.pauses, e.1 ≠ target)
      ∧ (∀ b ∈ s.au.queue, b.state = .inDelivery → b.lastTarget ≠ some target)
      ∧ a.holdOff ≠ some (.frame target) ∧ a.holdOff ≠ some (.beacon target) ∧ a.holdOff ≠ some (.locally target)
      ∧ ∃ before b after, s.au.queue = before ++ b :: after ∧ b.state = .waiting ∧ s.targetOf b.card.home = target
          ∧ b.reference = a.reference ∧ ∀ x ∈ before, ¬ (x.state = .waiting ∧ s.targetOf x.card.home = target))
  ∧ (∀ (s : State), (∀ a ∈ s.au.queue, s.maySend a = false) → s.reactSend = none)
  ∧ (∀ (s : State) (before after : List Advice) (a : Advice), s.au.queue = before ++ a :: after →
    (∀ b ∈ before, s.maySend b = false) → s.maySend a = true →
    let target := s.targetOf a.card.home
    s.reactSend = some ((s.setAu { s.au with
      queue := updateWhere (fun x => x.reference = a.reference) (fun x => { x with
        state := .inDelivery, lastTarget := some target, holdOff := none, ticket := some s.ticket, timer := none })
        s.au.queue }).hand target
      (.advice a.card a.amount a.reference (if a.kind = .standin then 0 else 1) (a.hold.getD ⟨0, 0⟩))))

/-- What else an event makes due (the order is that of DueVoidsAndAdvicesAreDone). A statement whose parts have their places
is SENT; the next statement is that of the first QUEUED entry whose peer is PRESENT or QUIET, and hands part I and part R
(R104). DRAINING ends when no hold is HELD and the advice queue is empty, and CLOSING is entered with its close (R118,
R119); at the largest period it is entered without one, which is the model's reading (log 38). A round with nothing PENDING
and nothing QUEUED finishes (R112, R113), and where a handover waits for it the OFFER is handed, or the handover fails
CUSTODIAN-ABSENT (R119, R120). In TRANSFERRING the next CARD-TRANSFER is handed once those before have their places, and
TRANSFER-END when all are acknowledged (R123). That both parts of a statement are handed in one event (log 21), and the
refusal cause 0 of a handover that fails here (log 36), is the model's reading. -/
def Obligations.DueRoundsAndHandoversGoOn : Prop :=
  (∀ (s : State) (w : StatementSend) (c : Closing), s.su.sending = some w → s.su.closing = some c →
    ((∀ f ∈ s.lc.waitList, f.ticket ≠ w.partI ∧ f.ticket ≠ w.partR) →
      s.reactStatementPlaced = some (s.setSu { s.su with
        sending := none
        closing := some { c with status := Table.modify {} c.status w.peer fun st =>
          if st.send = .queued then { st with send := .sent } else st } }))
    ∧ ((∃ f ∈ s.lc.waitList, f.ticket = w.partI ∨ f.ticket = w.partR) → s.reactStatementPlaced = none))
  ∧ (∀ (s : State), s.su.sending = none → s.reactStatementPlaced = none)
  ∧ (∀ (s : State) (c : Closing) (before after : Table StatementStatus) (p : Nat) (st : StatementStatus),
    s.su.closing = some c → s.su.sending = none → s.onLine = true → c.status = before ++ (p, st) :: after →
    (∀ e ∈ before, ¬ (e.2.send = .queued ∧ (s.peerAt e.1).presence.reachable = true)) → st.send = .queued →
    (s.peerAt p).presence.reachable = true →
    let e : PosEntry := Table.get {} c.entries p
    let mark := if e.saturated = true then 1 else 0
    s.reactStatement = some (((s.setSu { s.su with
        sending := some { peer := p, partI := s.ticket, partR := s.ticket + 1 } }).hand p
      (.statement 0 c.period e.gi e.fi e.ci e.giN e.fiN e.ciN mark)).hand p
      (.statement 1 c.period e.gr e.fr e.cr e.grN e.frN e.crN mark)))
  ∧ (∀ (s : State), s.su.closing = none ∨ s.su.sending.isSome = true ∨ s.onLine = false
      ∨ (∀ c, s.su.closing = some c → ∀ e ∈ c.status, ¬ (e.2.send = .queued ∧ (s.peerAt e.1).presence.reachable = true)) →
    s.reactStatement = none)
  ∧ (∀ (s : State) (h : Handover), s.cu.handover = some h →
    let entered := s.setCu { s.cu with
      handover := some { h with sub := .closing, timer := none, closingPeriod := s.su.openPeriod } }
    let drained := (∀ x ∈ s.cu.holds, x.state ≠ .held) ∧ s.au.queue = [] ∧ s.au.reservations = 0
    (h.sub = .draining → drained →
      (s.su.openPeriod < 4294967295 → s.reactDrain = some (entered.closeTo (s.su.openPeriod + 1)))
      ∧ (4294967295 ≤ s.su.openPeriod → s.reactDrain = some entered))
    ∧ (h.sub ≠ .draining ∨ ¬ drained → s.reactDrain = none))
  ∧ (∀ (s : State) (c : Closing), s.su.closing = some c →
    let done := ∀ e ∈ c.status, e.2.compare ≠ .pending ∧ e.2.send ≠ .queued
    let finished := (s.setTill { s.till with payouts := pushPayout s.till.payouts c.payout }).setSu { s.su with
      closing := none, window := none }
    (¬ done → s.reactRound = none)
    ∧ (done → s.su.sending = none →
      ((∀ h, s.cu.handover = some h → ¬ (h.sub = .closing ∧ h.closingPeriod ≤ c.period)) → s.reactRound = some finished)
      ∧ (∀ h, s.cu.handover = some h → h.sub = .closing → h.closingPeriod ≤ c.period →
        let cards := s.cu.cards.filter fun r => r.state = .active
        let total := sumOf (·.balance) cards
        let highest := maxOf (·.balance) cards
        let offering (ticket : Option Nat) : State := finished.setCu { s.cu with handover := some { h with
          sub := .offering, count := cards.length, total, highest, timer := none, ticket } }
        ((s.peerAt h.custodian).presence.reachable = true →
          s.reactRound = some ((offering (some s.ticket)).hand h.custodian (.offer cards.length total highest h.homes.length
            (h.homes.getD 0 0) (h.homes.getD 1 0) (h.homes.getD 2 0) (h.homes.getD 3 0))))
        ∧ ((s.peerAt h.custodian).presence.reachable = false →
          s.reactRound = some ((offering h.ticket).failHandover .custodianAbsent 0)))))
  ∧ (∀ (s : State) (h : Handover), s.cu.handover = some h →
    (h.sub = .transferring → h.ending = false →
      (∀ r rest, h.toSend = r :: rest →
        ((∀ n ∈ h.unacked, s.waits n = false) →
          s.reactTransfer = some ((s.setCu { s.cu with handover := some { h with
            toSend := rest, unacked := h.unacked ++ [s.ticket] } }).hand h.custodian
            (.cardTransfer r.key.home r.key.serial r.balance r.issuePeriod r.lastActivity r.activity)))
        ∧ ((∃ n ∈ h.unacked, s.waits n = true) → s.reactTransfer = none))
      ∧ (h.toSend = [] → h.unacked = [] →
        s.reactTransfer = some ((s.setCu { s.cu with handover := some { h with
          ending := true, attemptsLeft := h.attemptsLeft - 1, ticket := some s.ticket, timer := none } }).hand h.custodian
          (.transferEnd h.count h.total)))
      ∧ (h.toSend = [] → h.unacked ≠ [] → s.reactTransfer = none))
    ∧ (h.sub ≠ .transferring ∨ h.ending = true → s.reactTransfer = none))

/-! ### Timers -/

/-- A reply timer that runs out is one failed exchange with the peer (R60, R160). With attempts left and the peer still
reachable the next attempt is handed; with none left a REDEEM goes to stand-in, a capture becomes a CAPTURE advice, and a
CREDIT or an ENQUIRE is declined HOME-UNREACHABLE (R63, R68, R73, R74, R81). The third failed exchange in a row makes the peer
ABSENT, and no attempt is left then (R60, R160). That the results carry the tag of the opening request is the model's reading
(log 33). An advice whose reply timer runs out goes back to WAITING until a frame of its target is heard (R85). -/
def Obligations.ReplyTimeoutsComplete : Prop :=
  (∀ (s : State) (t : Txn) (p at_ : Nat), s.live = true → s.txnFor t.reference = some t → t.timer = some at_ →
    s.now ≤ at_ → t.target = some p →
    (s.peerAt p).failed < 2 ∨ (s.peerAt p).presence.reachable = true ∧ s.cu.handover = none →
    let failed := (s.setNow at_).setPm { s.pm with
      peers := Table.modify {} s.pm.peers p fun e =>
        if e.failed < 2 then { e with failed := e.failed + 1 } else { e with presence := .absent, failed := 3 } }
    let changed (f : Txn → Txn) := { s.br with txns := updateWhere (fun x => x.reference = t.reference) f s.br.txns }
    (∀ m, t.msg = some m → 0 < t.attemptsLeft → (s.peerAt p).failed < 2 → (s.peerAt p).presence.reachable = true →
      exec (.replyTimeout t.reference) s = .next (State.settle ((failed.setBr (changed fun x => { x with
        attemptsLeft := x.attemptsLeft - 1, ticket := some s.ticket, timer := none })).hand p m)))
    ∧ (t.attemptsLeft = 0 ∨ 2 ≤ (s.peerAt p).failed ∨ (s.peerAt p).presence.reachable = false →
      (t.state = .authWait → s.standinGranted t.card t.amount = true →
        exec (.replyTimeout t.reference) s = .next (State.settle ((failed.setBr (changed fun x => { x with
          state := .standinHeld, hold := none, ticket := none
          timer := some (at_ + s.sc.config.holdExpiry * 1000) })).answer
          { kind := 3, tag := t.tag, status := 1, fields := toBytes 2 t.reference ++ toBytes 4 t.amount ++ toBytes 1 1
              ++ toBytes 4 0 })))
      ∧ (t.state = .authWait → s.standinGranted t.card t.amount = false →
        exec (.replyTimeout t.reference) s = .next (State.settle (((failed.withoutTxn t.reference).setAu { s.au with
          reservations := s.au.reservations - 1 }).answer (declinedRecord .redeem t.tag .homeUnreachable))))
      ∧ (t.state = .captureWait →
        exec (.replyTimeout t.reference) s = .next (State.settle (((failed.withoutTxn t.reference).setAu { s.au with
          reservations := s.au.reservations - 1
          queue := s.au.queue ++ [{ kind := .capture, card := t.card, amount := t.amount, reference := t.reference,
                                    hold := t.hold }] }).answer
          { kind := 4, tag := t.tag, status := 2, fields := toBytes 2 t.reference ++ toBytes 1 2 })))
      ∧ (t.state = .creditWait → exec (.replyTimeout t.reference) s = .next (State.settle
        ((failed.withoutTxn t.reference).answer (declinedRecord .credit t.tag .homeUnreachable))))
      ∧ (t.state = .enquireWait → exec (.replyTimeout t.reference) s = .next (State.settle
        ((failed.withoutTxn t.reference).answer (declinedRecord .balance t.tag .homeUnreachable))))))
  ∧ (∀ (s : State) (a : Advice) (p at_ : Nat), s.live = true → s.adviceFor a.reference = some a → a.state = .inDelivery →
    a.timer = some at_ → s.now ≤ at_ → a.lastTarget = some p → (s.peerAt p).failed < 2 →
    exec (.adviceReplyTimeout a.reference) s = .next (State.settle (((s.setNow at_).setAu { s.au with
      queue := updateWhere (fun x => x.reference = a.reference) (fun x => { x with
        state := .waiting, holdOff := some (.frame p), ticket := none, timer := none }) s.au.queue }).setPm { s.pm with
      peers := Table.modify {} s.pm.peers p fun e => { e with failed := e.failed + 1 } })))

/-- A transaction whose abandonment time runs out is voided by the station: its hold is released, here or by a RELEASE
frame, its slot and its reservation are free, and an ABANDONED report with its reference, the amount that was approved and its
state, under the tag of its opening request, is in the broker's latch; a RELEASE without room keeps the transaction waiting
(R71, R72, R175). -/
def Obligations.AbandonmentTimerCompletes : Prop :=
  ∀ (s : State) (t : Txn) (at_ : Nat), s.live = true → s.txnFor t.reference = some t → t.timer = some at_ → s.now ≤ at_ →
    let report (state : Nat) : Record :=
      { kind := 35, tag := t.tag, fields := toBytes 2 t.reference ++ toBytes 4 t.approved ++ toBytes 1 state }
    let ended (state : Nat) := (s.setNow at_).setBr { s.br with
      txns := s.br.txns.filter fun x => x.reference ≠ t.reference, latch := some (report state) }
    let released (u : State) := u.setAu { s.au with reservations := s.au.reservations - 1 }
    (∀ h, t.state = .localHeld → s.holdNamed t.holdId s.own t.reference t.card.key = some h → h.state = .held →
      exec (.abandonmentTimer t.reference) s = .next (State.settle ((ended TxnState.localHeld.code).removeHold h.id)))
    ∧ (∀ p, t.state = .remoteHeld → t.target = some p → s.lc.hasRoom 1 = true →
      (∀ f ∈ s.lc.waitList, f.ticket ≠ s.ticket) →
      exec (.abandonmentTimer t.reference) s = .next (State.settle
        ((released (ended TxnState.remoteHeld.code)).hand p (.release t.card t.holdId t.reference))))
    ∧ (∀ p, t.state = .remoteHeld → t.target = some p → s.lc.hasRoom 1 = false →
      exec (.abandonmentTimer t.reference) s = .next (State.settle (((s.setNow at_).setBr { s.br with
        txns := updateWhere (fun x => x.reference = t.reference) (fun x => { x with
          timer := none, voiding := some (s.ticket, true) }) s.br.txns }).hand p (.release t.card t.holdId t.reference))))
    ∧ (t.state = .standinHeld →
      exec (.abandonmentTimer t.reference) s = .next (State.settle (released (ended TxnState.standinHeld.code))))

/-- The statement window's end finishes the round: what is PENDING is UNCONFIRMED, what is QUEUED is UNDELIVERABLE, and a
payout advice of the closing bank joins the payout list (R112, R113). The drain limit fails the handover NOT-DRAINED; the
OFFER's reply timer fails it NO-REPLY with one failed exchange; the reply timer of TRANSFER-END hands the next of its 3
attempts, and after the last fails it NO-REPLY (R118, R120, R123, R130, R160). That the failure keeps its cause where the
failed exchange makes the custodian ABSENT is the model's reading (log 18), and so is the refusal cause 0 (log 36). A payout
advice carries its period, the payout figure, which is the sum of NET less Fi over the entries without the saturated mark,
the fee owed, the count of those left out, the activity counters, the stand-in losses, the late amounts and the counts of
the statuses; the payout list holds 4, the oldest going with the OVERWRITTEN mark set in the new one (R27, R28, R114,
R115). -/
def Obligations.RoundAndHandoverTimersComplete : Prop :=
  (∀ (s : State) (c : Closing) (at_ : Nat), s.live = true → s.su.window = some at_ → s.now ≤ at_ →
    s.su.closing = some c → s.su.sending = none → s.cu.handover = none →
    let finished : Closing := { c with status := Table.mapEntries {} (fun _ st => {
      compare := if st.compare = .pending then .unconfirmed else st.compare
      send := if st.send = .queued then .undeliverable else st.send
      part := if st.compare = .pending then none else st.part }) c.status }
    exec .statementWindow s = .next (State.settle (((s.setNow at_).setTill { s.till with
      payouts := pushPayout s.till.payouts finished.payout }).setSu { s.su with closing := none, window := none })))
  ∧ (∀ (s : State) (h : Handover) (at_ : Nat), s.live = true → s.cu.handover = some h → h.timer = some at_ → s.now ≤ at_ →
    let t := s.setNow at_
    (h.sub = .draining → exec .drainLimit s = .next (State.settle (t.failHandover .notDrained 0)))
    ∧ (h.sub = .offering →
      exec .offerReplyTimeout s = .next (State.settle ((t.failHandover .noReply 0).failedExchange h.custodian)))
    ∧ (h.sub = .transferring → h.attemptsLeft = 0 →
      exec .transferEndTimeout s = .next (State.settle ((t.failHandover .noReply 0).failedExchange h.custodian)))
    ∧ (h.sub = .transferring → 0 < h.attemptsLeft → (s.peerAt h.custodian).failed < 2 →
      exec .transferEndTimeout s = .next (State.settle (((t.setCu { s.cu with handover := some { h with
          ending := true, attemptsLeft := h.attemptsLeft - 1, ticket := some s.ticket, timer := none } }).setPm
          { s.pm with peers := Table.modify {} s.pm.peers h.custodian fun e => { e with failed := e.failed + 1 } }).hand
        h.custodian (.transferEnd h.count h.total)))))
  ∧ (∀ (c : Closing),
    let paid := c.entries.filter fun e => !e.2.saturated
    let total (f : PosEntry → Nat) (l : Table PosEntry) : Nat := (l.map fun e => f e.2).sum
    let compared (x : CompareStatus) : Nat := (c.status.filter fun e => e.2.compare = x).length
    c.payout = {
      period := c.period
      figure := (paid.map fun e => (((e.2.gr : Int) - e.2.fr - e.2.cr) - ((e.2.gi : Int) - e.2.fi - e.2.ci)) - e.2.fi).sum
      feeOwed := total (·.fi) paid
      saturatedLeftOut := (c.entries.filter fun e => e.2.saturated).length
      issued := c.counters.issued, cashOuts := c.counters.cashOuts, onUs := c.counters.onUs
      standinLosses := total (·.standinLoss) c.entries + c.counters.onUsLoss
      lateGross := total (·.lateGross) c.entries, lateFee := total (·.lateFee) c.entries
      lateCredit := total (·.lateCredit) c.entries, lateStatements := c.counters.lateStatements
      matched := compared .match, broken := compared .brk, unconfirmed := compared .unconfirmed
      saturated := compared .saturated
      undeliverable := (c.status.filter fun e => e.2.send = .undeliverable).length, overwritten := false })
  ∧ (∀ (e : PosEntry), e.net = ((e.gr : Int) - e.fr - e.cr) - ((e.gi : Int) - e.fi - e.ci))
  ∧ (∀ (l : List Payout) (p : Payout), (l.length < 4 → pushPayout l p = l ++ [p])
    ∧ (4 ≤ l.length → pushPayout l p = l.drop 1 ++ [{ p with overwritten := true }]))

/-- In ACTIVE the acceptance of a frame that leaves 12 or more in the inbound queue hands a PAUSE, whose placing starts the
guard, unless the guard runs or a PAUSE of its own waits; when the guard runs out with the queue still filling another PAUSE
is handed, and a pause heard ends at its time (R151, R152). That the guard's end hands none in the STUCK line state (log
46), or while a PAUSE of its own still waits (log 60), is the model's choice. -/
def Obligations.PausesAreHandedGuardedAndEnd : Prop :=
  (∀ (s : State) (f : RawFrame) (m : Msg), s.lineState = .active → (∀ t, m ≠ .pause t) → s.lc.inbound.length = 11 →
    s.lc.pauseGuard = none → s.hasOwn 15 = false → s.lc.outbound.length < 24 →
    (s.accept f m).lc.pauseGuard = some (s.now + s.sc.config.pauseTime)
      ∧ (s.accept f m).lc.outbound = insertBy (fun g => g.msg.cls)
          { ticket := s.lc.nextTicket, dest := 255, msg := .pause s.sc.config.pauseTime } s.lc.outbound)
  ∧ (∀ (s : State) (levels : List Bool) (f : RawFrame) (m : Msg), s.live = true → s.receiving = true →
    receive levels = .frame f → 1 ≤ f.source → f.source ≤ 239 → f.source ≠ s.own → f.kind ≠ 16 → s.accepts f = some m →
    (∀ t, m ≠ .pause t) → 11 ≤ s.lc.inbound.length →
    let taken : LineCtl := { s.lc with
      activity := .busy, ackDriven := decide (s.lineState = .active)
      inbound := s.lc.inbound ++ [{ source := f.source, msg := m }] }
    ∃ u : State, exec (.frameHeard levels) s = .next u.settle
      ∧ (s.lineState = .active → s.lc.pauseGuard = none → s.hasOwn 15 = false → s.lc.outbound.length < 24 →
        u.lc = { taken with
          nextTicket := s.lc.nextTicket + 1, pauseGuard := some (s.now + s.sc.config.pauseTime)
          outbound := (s.lc.outbound.takeWhile fun g => g.msg.cls = 0)
            ++ { ticket := s.lc.nextTicket, dest := 255, msg := .pause s.sc.config.pauseTime }
            :: s.lc.outbound.dropWhile fun g => g.msg.cls = 0 })
      ∧ (s.lineState ≠ .active ∨ s.lc.pauseGuard.isSome = true ∨ s.hasOwn 15 = true → u.lc = taken))
  ∧ (∀ (s : State) (at_ : Nat), s.live = true → s.lc.pauseGuard = some at_ → s.now ≤ at_ →
    let ended := (s.setNow at_).setLc { s.lc with pauseGuard := none }
    (s.lineState = .active → 12 ≤ s.lc.inbound.length → s.hasOwn 15 = false →
      exec .pauseGuard s = .next (ended.broadcast (.pause s.sc.config.pauseTime)))
    ∧ (s.lc.inbound.length < 12 ∨ s.lineState ≠ .active ∨ s.hasOwn 15 = true → exec .pauseGuard s = .next ended))
  ∧ (∀ (s : State) (a at_ : Nat), s.live = true → s.lc.pauses.find? (fun e => e.1 = a) = some (a, at_) → s.now ≤ at_ →
    exec (.pauseEnd a) s = .next (State.settle ((s.setNow at_).setLc { s.lc with
      pauses := s.lc.pauses.filter fun e => e.1 ≠ a })))

/-- Three beacon intervals of silence make a PRESENT peer QUIET, and ten make it ABSENT, which fails a handover to it in
OFFERING or TRANSFERRING with the cause CUSTODIAN-ABSENT (R123, R159, R161). A failed exchange raises the count of its peer;
the third makes a reachable peer ABSENT, which fails a handover to it in OFFERING or TRANSFERRING, and the count of one not
reachable stops at 3 (R123, R160, R161). The refusal cause 0 of that failure is the model's reading (log 36). -/
def Obligations.SilentPeersBecomeQuietAndAbsent : Prop :=
  (∀ (s : State) (p t : Nat), s.live = true → (s.peerAt p).lastHeard = some t →
    (s.peerAt p).presence = .present → s.now ≤ t + 3 * s.beaconInterval →
    exec (.quiet p) s = .next ((s.setNow (t + 3 * s.beaconInterval)).setPm { s.pm with
      peers := Table.modify {} s.pm.peers p fun e => { e with presence := .quiet } }))
  ∧ (∀ (s : State) (p t : Nat), s.live = true → (s.peerAt p).lastHeard = some t →
    ((s.peerAt p).presence = .present ∨ (s.peerAt p).presence = .quiet) →
    s.now ≤ t + 10 * s.beaconInterval →
    let silent := (s.setNow (t + 10 * s.beaconInterval)).setPm { s.pm with
      peers := Table.modify {} s.pm.peers p fun e => { e with presence := .absent } }
    ((∀ h, s.cu.handover = some h → h.custodian ≠ p ∨ h.sub ≠ .offering ∧ h.sub ≠ .transferring) →
      exec (.absent p) s = .next silent.settle)
    ∧ (∀ h, s.cu.handover = some h → h.custodian = p → h.sub = .offering ∨ h.sub = .transferring →
      exec (.absent p) s = .next (silent.failHandover .custodianAbsent 0).settle))
  ∧ (∀ (s : State) (p : Nat),
    (∀ h, s.cu.handover = some h → h.custodian ≠ p ∨ h.sub ≠ .offering ∧ h.sub ≠ .transferring) → 2 ≤ (s.peerAt p).failed →
    ((s.peerAt p).presence = .present ∨ (s.peerAt p).presence = .quiet) →
    s.failedExchange p = s.setPm { s.pm with
      peers := Table.modify {} s.pm.peers p fun e => { e with presence := .absent, failed := 3 } })
  ∧ (∀ (s : State) (p : Nat),
    let counted (n : Nat) := s.setPm { s.pm with peers := Table.modify {} s.pm.peers p fun e => { e with failed := n } }
    ((s.peerAt p).failed < 2 → s.failedExchange p = counted ((s.peerAt p).failed + 1))
    ∧ (2 ≤ (s.peerAt p).failed → (s.peerAt p).presence = .absent ∨ (s.peerAt p).presence = .unknown →
      s.failedExchange p = counted 3))
  ∧ (∀ (s : State) (h : Handover), s.cu.handover = some h → h.sub = .offering ∨ h.sub = .transferring →
    2 ≤ (s.peerAt h.custodian).failed →
    (s.peerAt h.custodian).presence = .present ∨ (s.peerAt h.custodian).presence = .quiet →
    s.failedExchange h.custodian = (s.setPm { s.pm with peers := Table.modify {} s.pm.peers h.custodian fun e =>
      { e with presence := .absent, failed := 3 } }).failHandover .custodianAbsent 0)

/-- The beacon interval without a send hands a BEACON (R163); the end of listening makes the station JOINED, hands its first
BEACON, starts the full statement window of a round that resumes, and clears LOCAL hold-offs (R88, R111, R116, R170). The
BEACON carries the open period, the mode, whether the station is HANDING-OVER and the adopted homes, none in ANNOUNCING
(R163); that a station restarted before its handover took the proof lists the homes it has kept is the model's choice (log
59). That the interval runs from the join is the model's choice (log 24). -/
def Obligations.BeaconAndListenTimersComplete : Prop :=
  (∀ (s : State) (t : Nat), s.live = true → s.onLine = true → s.pm.beaconFrom = some t → s.hasOwn 14 = false →
    s.now ≤ t + s.beaconInterval →
    exec .beaconTimer s = .next ((s.setNow (t + s.beaconInterval)).broadcast (.beacon s.beaconData)))
  ∧ (∀ (s : State) (at_ : Nat), s.live = true → s.sc.station = .listening → s.sc.listenTimer = some at_ → s.now ≤ at_ →
    s.su.closing = none →
    exec .listenTimer s = .next (State.settle (((((s.setNow at_).setSc { s.sc with
      station := .joined, listenTimer := none }).setPm { s.pm with beaconFrom := some at_ }).broadcast
      (.beacon s.beaconData)).setAu { s.au with
      queue := s.au.queue.map fun a => match a.holdOff with
        | some (.locally _) => { a with holdOff := none }
        | some (.frame _) | some (.beacon _) | none => a })))
  ∧ (∀ (s : State) (at_ : Nat), s.live = true → s.sc.station = .listening → s.sc.listenTimer = some at_ → s.now ≤ at_ →
    s.su.closing.isSome = true → s.su.window = none →
    exec .listenTimer s = .next (State.settle ((((((s.setNow at_).setSc { s.sc with
      station := .joined, listenTimer := none }).setPm { s.pm with beaconFrom := some at_ }).broadcast
      (.beacon s.beaconData)).setSu { s.su with window := some (at_ + s.sc.config.statementWindow * 1000) }).setAu { s.au with
      queue := s.au.queue.map fun a => match a.holdOff with
        | some (.locally _) => { a with holdOff := none }
        | some (.frame _) | some (.beacon _) | none => a })))
  ∧ (∀ (s : State),
    let homes := if s.cu.handover.map (·.sub) = some .announcing then [] else s.cu.adopted
    s.beaconData = {
      period := s.su.openPeriod, mode := if s.pm.mode = .normal then 0 else 1
      handover := if s.sc.station = .handingOver then 1 else 0, count := homes.length
      h1 := homes[0]?.getD 0, h2 := homes[1]?.getD 0, h3 := homes[2]?.getD 0 })

/-- A load window that does not reach its threshold clears the run; one that does lengthens it, and the window that makes
it as long as the dwell changes the mode, clears the run and puts a MODE report with the counts in the latch (R165). With the
mode the beacon interval changes at once: a peer whose silence has reached ten of it is ABSENT, a PRESENT one at three QUIET
(R159), and a BEACON that falls due by it is handed (R163). -/
def Obligations.LoadWindowsSwitchTheMode : Prop :=
  (∀ (s : State) (t : Nat), s.live = true → s.pm.window = some t → s.now ≤ t →
    let n := s.pm.windowCount
    let next (run : List Nat) : PeerMon :=
      { s.pm with run, window := some (t + 1000), windowCount := 0, lastWindow := n }
    let counts (c : ConfigRecord) : Prop := s.pm.mode = .normal ∧ c.upper ≤ n ∨ s.pm.mode = .busy ∧ n ≤ c.lower
    (¬ counts s.sc.config → 1 ≤ s.sc.config.dwell →
      exec .loadWindow s = .next ((s.setNow t).setPm (next [])))
    ∧ (counts s.sc.config → s.pm.run.length + 1 < s.sc.config.dwell →
      exec .loadWindow s = .next ((s.setNow t).setPm (next (s.pm.run ++ [n]))))
    ∧ (counts s.sc.config → s.sc.config.dwell ≤ s.pm.run.length + 1 →
      let changed := (s.setNow t).setPm { next [] with
        mode := if s.pm.mode = .normal then .busy else .normal
        latch := some {
          kind := 36, fields := toBytes 1 (if s.pm.mode = .normal then 1 else 0) ++ toBytes 1 (s.pm.run.length + 1)
            ++ (s.pm.run ++ [n]).flatMap fun c => toBytes 2 c } }
      exec .loadWindow s = .next (State.settle changed.modeChanged)
      ∧ (s.pm.peers = [] → s.onLine = false → changed.modeChanged = changed)))
  ∧ (∀ (s : State), (∀ h, s.cu.handover = some h → h.sub ≠ .offering ∧ h.sub ≠ .transferring) →
    let interval := s.sc.config.beaconInterval * if s.pm.mode = .normal then 1000 else 2000
    let due := s.onLine = true ∧ s.hasOwn 14 = false ∧ ∃ t, s.pm.beaconFrom = some t ∧ t + interval ≤ s.now
    let u := s.modeChanged
    (∀ p, u.peerAt p =
      let e := s.peerAt p
      match e.lastHeard with
      | none => e
      | some t =>
        if (e.presence = .present ∨ e.presence = .quiet) ∧ t + 10 * interval ≤ s.now then { e with presence := .absent }
        else if e.presence = .present ∧ t + 3 * interval ≤ s.now then { e with presence := .quiet }
        else e)
    ∧ u.pm = { s.pm with peers := u.pm.peers }
    ∧ (due → u.lc = (s.broadcast (.beacon s.beaconData)).lc) ∧ (¬ due → u.lc = s.lc)
    ∧ u.sc = s.sc ∧ u.till = s.till ∧ u.cu = s.cu ∧ u.br = s.br ∧ u.au = s.au ∧ u.su = s.su ∧ u.now = s.now)

/-- A supply warning (R184): with the line ACTIVE the outbound frames and requests go, a DEPART(SUPPLY) is handed and the
departure step runs for 20 ms, after which RETAIN follows with the outcome NOT-SENT-LINE where no send has started; a DEPART
that reaches its slot ends the step with the outcome SENT, and one aborted by a clash, or a line that becomes STUCK, with
NOT-SENT-LINE; off the line RETAIN follows at once with NOT-SENT-STATE. RETAIN tests the warning as it is entered: one
deasserted in the departure step, and not asserted again, ends it at once by the start that a return of supply makes in
RETAIN (R185; its pins are those of the deassertion, log 32). A reset pin released in the departure step under a warning
that goes on is a start and then RETAIN (R186); that it drops a DEPART already on the line is the model's choice (log
49). -/
def Obligations.SupplyWarningAndDepartureComplete : Prop :=
  let retained (s : State) (outcome : DepartureOutcome) : State := ((s.setSc { s.sc with
      stopRecord := some { state := s.sc.station, outcome }, station := .retain, departure := none }).setLc { s.lc with
      stuckSince := none, activity := .busy }).setPm { s.pm with window := none, windowCount := 0, beaconFrom := none }
  let entered (s : State) (outcome : DepartureOutcome) : Host.Outcome State Fault Refusal :=
    match s.sc.returned with
    | none => .next (retained s outcome)
    | some x => exec (.supplyReturn x.straps x.held) (retained s outcome)
  (∀ (s : State), s.live = true → s.sc.station = .joined ∨ s.sc.station = .handingOver →
    exec .supplyWarning s = .next (((s.setSc { s.sc with
        supply := .warned, returned := none, departure := some (s.now + 20) }).setLc
      { s.lc with outbound := [], waitList := [] }).hand 255 (.depart 1)))
  ∧ (∀ (s : State), s.live = true → s.sc.station ≠ .joined → s.sc.station ≠ .handingOver →
    exec .supplyWarning s = .next (retained (s.setSc { s.sc with supply := .warned, returned := none }) .notSentState))
  ∧ (∀ (s : State), s.live = false →
    (s.sc.station ≠ .retain → exec .supplyWarning s = .next (s.setSc { s.sc with returned := none }))
    ∧ (s.sc.station = .retain → exec .supplyWarning s = .next s))
  ∧ (∀ (s : State) (t : Nat), s.sc.departure = some t → s.now ≤ t → (∀ x, s.lc.activity ≠ .sending x) →
    exec .departureLimit s = entered (s.setNow t) .notSentLine)
  ∧ (∀ (s : State) (x : Sending) (f : OutFrame), s.live = false → s.lc.activity = .sending x → x.kind = 16 →
    f ∈ s.lc.outbound → f.ticket = x.ticket →
    (∀ dominant, s.lc.waitList = [] → exec (.sendEnd dominant) s = entered (s.setLc { s.lc with
      ackDriven := false, outbound := s.lc.outbound.filter fun g => g.ticket ≠ x.ticket }) .sent)
    ∧ exec .clashMismatch s = entered (s.setLc { s.lc with ackDriven := false }) .notSentLine)
  ∧ (∀ (s : State), s.live = false → s.lineState = .active ∨ s.lineState = .listenOnly →
    exec .stuck s = entered s .notSentLine)
  ∧ (∀ (s : State) (p : Straps), s.sc.station ≠ .retain → s.sc.supply = .warned → p.clear = false →
    s.sc.storeValid = true →
    ∃ u, s.WarmStarted p u ∧ u.sc.latch = none ∧ exec (.resetPin p true) s = .next
      (retained (u.setSc { u.sc with supply := .warned, returned := none }) .notSentState))
  ∧ (∀ (s : State) (p : Straps), s.sc.station ≠ .retain → s.sc.supply = .warned →
    p.clear = true ∨ s.sc.storeValid = false →
    exec (.resetPin p true) s = .next
      (retained ((s.coldStarted p).setSc { (s.coldStarted p).sc with supply := .warned, returned := none }) .notSentState))

/-- The reference given to a new transaction is in 1 to 65,535 and no transaction or advice holds it (R54). -/
def Obligations.FreshReferenceIsFree : Prop :=
  ∀ (s : State), s.br.txns.length ≤ 16 → s.au.queue.length ≤ 64 → 1 ≤ s.br.refCounter → s.br.refCounter ≤ 65535 →
    1 ≤ s.freshReference ∧ s.freshReference ≤ 65535 ∧ s.txnFor s.freshReference = none
    ∧ s.adviceFor s.freshReference = none
    ∧ s.takeReference.br.refCounter = if s.freshReference = 65535 then 1 else s.freshReference + 1

/-! ### Round trips and invariants -/

/-- A frame's levels, stuffing and check sequence included, are received as the same frame (R136, R137, R139). The check
starts at FFFFh; each bit that differs from the register's top bit combines the shifted register with 2F15h, and each other
bit leaves it shifted; it runs over the bits from the class to the end of the payload before stuffing, and its register is
sent top bit first. A frame whose 16 check bits differ from the register is discarded (R139). -/
def Obligations.FramesAreReceivedAsSent : Prop :=
  (∀ (f : RawFrame), f.cls < 4 → f.source < 256 → f.dest < 256 → f.kind < 64 → f.sequence < 256 →
    f.payload.length ≤ 40 → receive f.levels = .frame f)
  ∧ (∀ (f : RawFrame), f.levels = stuff 0 (f.bits ++ toBits 16 (crc f.bits).toNat))
  ∧ crc [] = 0xFFFF#16
  ∧ (∀ (l : List Bool) (b : Bool),
    crc (l ++ [b]) = (crc l <<< 1) ^^^ if (crc l).msb = b then 0x0000#16 else 0x2F15#16)
  ∧ (∀ (f : RawFrame), f.bits = toBits 2 f.cls ++ toBits 8 f.source ++ toBits 8 f.dest ++ toBits 6 f.kind
    ++ toBits 8 f.sequence ++ toBits 6 f.payload.length ++ payloadBits f.payload)
  ∧ (∀ (check : BitVec 16), toBits 16 check.toNat = (List.range 16).map fun i => check.getMsbD i)
  ∧ (∀ (f : RawFrame) (check : BitVec 16), f.payload.length ≤ 40 → check ≠ crc f.bits →
    receive (stuff 0 (f.bits ++ toBits 16 check.toNat)) = .discard)

/-- The payload of each frame kind, with every field within its width, has the length of its kind and reads back as what
was sent (spec 12, section 12.2). -/
def Obligations.PayloadsReadBackAsSent : Prop :=
  ∀ (m : Msg), m.Fits → Msg.decode m.kind m.encode = some m ∧ kindLength m.kind = some m.encode.length

/-- Every step keeps every collection of the station within its capacity and the tables by address in their form. -/
def Obligations.StepsKeepTheCapacities : Prop :=
  ∀ (s t : State), s.WithinCapacity → step s = .next t → t.WithinCapacity

/-- Every step keeps what the Custody Unit keeps true of its cards, its holds and its ledger. -/
def Obligations.StepsKeepTheCustodyTruths : Prop :=
  ∀ (s t : State), s.CustodyOk → step s = .next t → t.CustodyOk

/-- Both invariants hold right after reset. -/
def Obligations.ResetIsWithinTheInvariants : Prop := State.reset.WithinCapacity ∧ State.reset.CustodyOk
end

