-- ==== Sys2Proof/Laws/Bytes.lean ====
section
/-! SUPPORT. Bytes and bits read back as the numbers they were made from, stuffing undone, and how the
check register takes bits. -/
namespace Sys2Proof.Machine

@[simp] theorem toBytes_length (n v : Nat) : (toBytes n v).length = n := by
  induction n with
  | zero => rfl
  | succ n ih => simp [toBytes, ih]

@[simp] theorem toBits_length (n v : Nat) : (toBits n v).length = n := by
  induction n with
  | zero => rfl
  | succ n ih => simp [toBits, ih]

/-- The number that `n` bytes of `v` spell is `v` modulo their range. -/
theorem ofBytes_toBytes_mod (n v : Nat) : ofBytes (toBytes n v) = v % 256 ^ n := by
  induction n with
  | zero => simp [toBytes, ofBytes, Nat.mod_one]
  | succ n ih =>
    simp only [toBytes, ofBytes, toBytes_length, ih, BitVec.toNat_ofNat]
    have h : v % 256 ^ (n + 1) = v % 256 ^ n + 256 ^ n * (v / 256 ^ n % 256) := by rw [Nat.pow_succ, Nat.mod_mul]
    have h8 : (2 : Nat) ^ 8 = 256 := rfl
    rw [h, h8, Nat.mul_comm (256 ^ n), Nat.add_comm]

/-- A number in range reads back. -/
theorem ofBytes_toBytes {n v : Nat} (h : v < 256 ^ n) : ofBytes (toBytes n v) = v := by
  rw [ofBytes_toBytes_mod, Nat.mod_eq_of_lt h]

/-- A field at the front of a payload. -/
theorem fieldAt_front {n v : Nat} (h : v < 256 ^ n) (rest : List Byte) : fieldAt (toBytes n v ++ rest) 0 n = v := by
  simp [fieldAt, ofBytes_toBytes h]

/-- A field behind a part of known length. -/
theorem fieldAt_skip {l : List Byte} {k : Nat} (hl : l.length = k) (rest : List Byte) (off len : Nat) :
    fieldAt (l ++ rest) (k + off) len = fieldAt rest off len := by
  simp only [fieldAt]
  have hd : l.drop (l.length + off) = [] := List.drop_of_length_le (by omega)
  rw [← hl, List.drop_append, hd]
  simp

/-- The number that `n` bits of `v` spell is `v` modulo their range. -/
theorem ofBits_toBits_mod (n v : Nat) : ofBits (toBits n v) = v % 2 ^ n := by
  induction n with
  | zero => simp [toBits, ofBits, Nat.mod_one]
  | succ n ih =>
    simp only [toBits, ofBits, toBits_length, ih]
    have h : v % 2 ^ (n + 1) = v % 2 ^ n + 2 ^ n * (v / 2 ^ n % 2) := by
      rw [Nat.pow_succ, Nat.mod_mul]
    rw [h, Nat.testBit_eq_decide_div_mod_eq]
    rcases Nat.mod_two_eq_zero_or_one (v / 2 ^ n) with hb | hb <;> simp [hb]; omega

/-- A number in range reads back from its bits. -/
theorem ofBits_toBits {n v : Nat} (h : v < 2 ^ n) : ofBits (toBits n v) = v := by
  rw [ofBits_toBits_mod, Nat.mod_eq_of_lt h]

@[simp] theorem payloadBits_length (p : List Byte) : (payloadBits p).length = 8 * p.length := by
  induction p with
  | nil => rfl
  | cons b p ih => simp [payloadBits, ih]; omega

/-- A payload reads back from its bits, whatever follows it. -/
theorem bytesOfBits_payloadBits (p : List Byte) (rest : List Bool) :
    bytesOfBits p.length (payloadBits p ++ rest) = p := by
  induction p with
  | nil => rfl
  | cons b p ih =>
    have h : (toBits 8 b.toNat).length = 8 := toBits_length 8 b.toNat
    simp only [payloadBits, List.length_cons, bytesOfBits, List.append_assoc]
    rw [List.take_append_of_le_length (by omega), List.drop_append_of_le_length (by omega)]
    have ht : (toBits 8 b.toNat).take 8 = toBits 8 b.toNat := List.take_of_length_le (by omega)
    have hd : (toBits 8 b.toNat).drop 8 = [] := List.drop_of_length_le (by omega)
    rw [ht, hd, ofBits_toBits b.isLt, List.nil_append, ih]
    simp

/-- Stuffing is undone: with a run of fewer than three recessive bits behind it, the stuffed part reads back whole. -/
theorem unstuff_stuff (run : Nat) (hr : run < 3) (bits : List Bool) : unstuff run (stuff run bits) = (bits, .whole) := by
  induction bits generalizing run with
  | nil => simp [stuff, unstuff, Nat.not_le.mpr hr]
  | cons b bits ih =>
    have hn : ¬ run ≥ 3 := by omega
    cases b with
    | false => simp [stuff, unstuff, hn, ih 0 (by omega)]
    | true =>
      by_cases h2 : run ≥ 2
      · simp [stuff, h2, unstuff, hn, ih 0 (by omega), show run + 1 ≥ 3 by omega]
      · simp [stuff, h2, unstuff, hn, ih (run + 1) (by omega)]

/-- Stuffing leaves no four recessive bits in a row (R137): nothing broken is read. -/
theorem unstuff_stuff_whole (bits : List Bool) : (unstuff 0 (stuff 0 bits)).2 = .whole := by
  rw [unstuff_stuff 0 (by omega)]

/-! ### What a sender sends -/

/-- The check over one more bit is one more step of the register (R139). -/
theorem crc_append (l : List Bool) (b : Bool) : crc (l ++ [b]) = crcStep (crc l) b := by simp [crc]

/-- The flags and the acknowledgment slot add 13 levels to the stuffed part (R137). -/
theorem RawFrame.sentLevels_length (f : RawFrame) : f.sentLevels.length = f.levels.length + 13 := by
  simp [RawFrame.sentLevels, frameFlag]

end Sys2Proof.Machine
end

