-- ==== Sys2Proof/Laws/Ops.lean ====
section
/-! SUPPORT. What the operations on the collections give: tables by address, list updates, sums, and the search for a
free number. -/
namespace Sys2Proof.Machine

/-! ### Tables by address -/

/-- A value put, other than the start value, is what is read back. -/
theorem Table.get_put_self {α : Type} [DecidableEq α] (d : α) (a : Nat) (v : α) (hv : v ≠ d) (t : Table α) :
    Table.get d (Table.put d a v t) a = v := by
  induction t with
  | nil => simp [Table.put, Table.get, hv]
  | cons e t ih =>
    obtain ⟨k, w⟩ := e
    unfold Table.put
    split
    · rename_i h
      simpa [Table.get, Nat.ne_of_lt h] using ih
    · split <;> simp [Table.get]

/-- Other addresses read as before. -/
theorem Table.get_put_other {α : Type} [DecidableEq α] (d : α) {a b : Nat} (v : α) (h : b ≠ a) (t : Table α) :
    Table.get d (Table.put d a v t) b = Table.get d t b := by
  have h' : a ≠ b := Ne.symm h
  induction t with
  | nil => by_cases hv : v = d <;> simp [Table.put, Table.get, hv, h']
  | cons e t ih =>
    obtain ⟨k, w⟩ := e
    unfold Table.put
    split
    · by_cases hk : k = b <;> simp [Table.get, hk, ih]
    · split
      · rename_i _ hk
        subst hk
        by_cases hv : v = d <;> simp [hv, Table.get, h']
      · by_cases hv : v = d <;> simp [hv, Table.get, h']

/-- Of two values put at one address the second stays, where the first is no start value. -/
theorem Table.put_put {α : Type} [DecidableEq α] (d : α) (a : Nat) (v w : α) (hv : v ≠ d) (t : Table α) :
    Table.put d a w (Table.put d a v t) = Table.put d a w t := by
  induction t with
  | nil => simp [Table.put, hv]
  | cons e t ih =>
    obtain ⟨k, x⟩ := e
    simp only [Table.put]
    split
    · rename_i h
      simp only [Table.put, h, if_true, ih]
    · split
      · rename_i h
        subst h
        simp [Table.put]
      · simp [Table.put]

/-- Two changes of one entry are one, where the first leaves no start value. -/
theorem Table.modify_modify {α : Type} [DecidableEq α] (d : α) (t : Table α) (a : Nat) (f g : α → α)
    (h : f (Table.get d t a) ≠ d) :
    Table.modify d (Table.modify d t a f) a g = Table.modify d t a fun e => g (f e) := by
  unfold Table.modify
  rw [Table.get_put_self d a _ h, Table.put_put d a _ _ h]

/-- A table in canonical form lists nothing below its bound. -/
theorem Table.get_below {α : Type} [DecidableEq α] {d : α} {low a : Nat} {t : Table α} (h : Table.wfFrom d low t = true)
    (ha : a < low) : Table.get d t a = d := by
  induction t generalizing low with
  | nil => rfl
  | cons e t ih =>
    obtain ⟨k, w⟩ := e
    simp only [Table.wfFrom, Bool.and_eq_true, decide_eq_true_eq] at h
    have hk : k ≠ a := by omega
    simp only [Table.get, if_neg hk]
    exact ih h.2 (by omega)

/-- A canonical form from a bound is one from every lower bound. -/
theorem Table.wfFrom_mono {α : Type} [DecidableEq α] {d : α} {low low' : Nat} {t : Table α}
    (h : Table.wfFrom d low t = true) (hl : low' ≤ low) : Table.wfFrom d low' t = true := by
  cases t with
  | nil => rfl
  | cons e t =>
    obtain ⟨k, w⟩ := e
    simp only [Table.wfFrom, Bool.and_eq_true, decide_eq_true_eq] at h ⊢
    exact ⟨⟨by omega, h.1.2⟩, h.2⟩

/-- Putting keeps the canonical form. -/
theorem Table.wfFrom_put {α : Type} [DecidableEq α] {d : α} {low a : Nat} (v : α) {t : Table α}
    (h : Table.wfFrom d low t = true) (ha : low ≤ a) : Table.wfFrom d low (Table.put d a v t) = true := by
  induction t generalizing low with
  | nil => by_cases hv : v = d <;> simp [Table.put, Table.wfFrom, hv, ha]
  | cons e t ih =>
    obtain ⟨k, w⟩ := e
    simp only [Table.wfFrom, Bool.and_eq_true, decide_eq_true_eq] at h
    unfold Table.put
    split
    · rename_i hk
      simp only [Table.wfFrom, Bool.and_eq_true, decide_eq_true_eq]
      exact ⟨h.1, ih h.2 (by omega)⟩
    · split
      · rename_i _ hk
        subst hk
        by_cases hv : v = d
        · simpa [hv] using Table.wfFrom_mono h.2 (by omega)
        · simp [hv, Table.wfFrom, ha, h.2]
      · rename_i hk hne
        by_cases hv : v = d
        · simp [hv, Table.wfFrom, h.1.1, h.1.2, h.2]
        · simp [hv, Table.wfFrom, ha, h.1.2, h.2]
          omega

/-- Putting keeps the canonical form of a table. -/
theorem Table.wf_put {α : Type} [DecidableEq α] {d : α} {a : Nat} (v : α) {t : Table α} (h : Table.wf d t = true) :
    Table.wf d (Table.put d a v t) = true := Table.wfFrom_put v h (Nat.zero_le a)

/-- Changing one entry keeps the canonical form. -/
theorem Table.wf_modify {α : Type} [DecidableEq α] {d : α} {a : Nat} (f : α → α) {t : Table α} (h : Table.wf d t = true) :
    Table.wf d (Table.modify d t a f) = true := Table.wf_put _ h

/-- Changing every entry keeps the canonical form. -/
theorem Table.wfFrom_mapEntries {α : Type} [DecidableEq α] {d : α} {low : Nat} (f : Nat → α → α) {t : Table α}
    (h : Table.wfFrom d low t = true) : Table.wfFrom d low (Table.mapEntries d f t) = true := by
  induction t generalizing low with
  | nil => rfl
  | cons e t ih =>
    obtain ⟨k, w⟩ := e
    simp only [Table.wfFrom, Bool.and_eq_true, decide_eq_true_eq] at h
    have ht := ih h.2
    unfold Table.mapEntries at ht ⊢
    by_cases hf : f k w = d
    · simpa [List.filterMap_cons, hf] using Table.wfFrom_mono ht (by omega)
    · simp only [List.filterMap_cons, hf, if_false, Table.wfFrom, Bool.and_eq_true, decide_eq_true_eq]
      exact ⟨⟨h.1.1, hf⟩, ht⟩

/-! ### Lists -/

@[simp] theorem updateWhere_length {α : Type} (p : α → Bool) (f : α → α) (l : List α) :
    (updateWhere p f l).length = l.length := by simp [updateWhere]

/-- An update that meets no element changes nothing. -/
theorem updateWhere_none {α : Type} {p : α → Bool} {l : List α} (h : ∀ x ∈ l, p x = false) (f : α → α) :
    updateWhere p f l = l := by
  induction l with
  | nil => rfl
  | cons x l ih =>
    have hx := h x (by simp)
    have hl := ih fun y hy => h y (by simp [hy])
    unfold updateWhere at hl ⊢
    simp [hx, hl]

/-- An element of an updated list is an old one that the update left alone, or the image of one it met. -/
theorem mem_updateWhere {α : Type} {p : α → Bool} {f : α → α} {l : List α} {y : α} (h : y ∈ updateWhere p f l) :
    (y ∈ l ∧ p y = false) ∨ ∃ x ∈ l, p x = true ∧ y = f x := by
  simp only [updateWhere, List.mem_map] at h
  obtain ⟨x, hx, he⟩ := h
  by_cases hp : p x = true
  · right; exact ⟨x, hx, hp, by simpa [hp] using he.symm⟩
  · left
    have : x = y := by simpa [hp] using he
    subst this
    exact ⟨hx, by simpa using hp⟩

/-- Two updates of the same elements are one. -/
theorem updateWhere_twice {α : Type} {p : α → Bool} {f g : α → α} (hf : ∀ x, p x = true → p (f x) = true) (l : List α) :
    updateWhere p g (updateWhere p f l) = updateWhere p (fun x => g (f x)) l := by
  simp only [updateWhere, List.map_map]
  apply List.map_congr_left
  intro x _
  by_cases h : p x = true <;> simp [h, hf]

@[simp] theorem sumOf_append {α : Type} (f : α → Nat) (l m : List α) : sumOf f (l ++ m) = sumOf f l + sumOf f m := by
  induction l with
  | nil => simp [sumOf]
  | cons x l ih => simp [sumOf, ih, Nat.add_assoc]

/-- Each member's figure is within the sum. -/
theorem le_sumOf {α : Type} (f : α → Nat) {l : List α} {x : α} (h : x ∈ l) : f x ≤ sumOf f l := by
  induction l with
  | nil => simp at h
  | cons y l ih =>
    rcases List.mem_cons.mp h with h | h
    · subst h; simp [sumOf]
    · have := ih h; simp [sumOf]; omega

/-- A filter only lowers a sum. -/
theorem sumOf_filter_le {α : Type} (f : α → Nat) (p : α → Bool) (l : List α) : sumOf f (l.filter p) ≤ sumOf f l := by
  induction l with
  | nil => simp
  | cons x l ih => by_cases h : p x = true <;> simp [h, sumOf] <;> omega

/-- Figures that agree on every member have the same sum. -/
theorem sumOf_congr {α : Type} {f g : α → Nat} {l : List α} (h : ∀ x ∈ l, f x = g x) : sumOf f l = sumOf g l := by
  induction l with
  | nil => rfl
  | cons x l ih =>
    simp only [sumOf, h x (by simp), ih fun y hy => h y (by simp [hy])]

@[simp] theorem insertBy_length {α : Type} (key : α → Nat) (x : α) (l : List α) :
    (insertBy key x l).length = l.length + 1 := by
  induction l with
  | nil => rfl
  | cons y l ih => by_cases h : key x < key y <;> simp [insertBy, h, ih]

@[simp] theorem mem_insertBy {α : Type} {key : α → Nat} {x y : α} {l : List α} : y ∈ insertBy key x l ↔ y = x ∨ y ∈ l := by
  induction l with
  | nil => simp [insertBy]
  | cons z l ih =>
    by_cases h : key x < key z
    · simp [insertBy, h]
    · simp only [insertBy, h, if_false, List.mem_cons, ih]
      constructor <;> rintro (h | h | h) <;> simp [h]

/-- An insertion goes behind every element with a key no higher, in a list or not in order. -/
theorem insertBy_eq {α : Type} (key : α → Nat) (x : α) (l : List α) :
    insertBy key x l = (l.takeWhile fun y => key y ≤ key x) ++ x :: l.dropWhile fun y => key y ≤ key x := by
  induction l with
  | nil => rfl
  | cons y l ih =>
    by_cases h : key x < key y
    · simp [insertBy, h, Nat.not_le.mpr h]
    · simp [insertBy, h, Nat.not_lt.mp h, ih]

/-- What `takeFirst` finds: the first element that satisfies the test, and the list without it. -/
theorem takeFirst_some {α : Type} {p : α → Bool} {l : List α} {x : α} {rest : List α} (h : takeFirst p l = some (x, rest)) :
    p x = true ∧ ∃ before after, l = before ++ x :: after ∧ rest = before ++ after ∧ ∀ y ∈ before, p y = false := by
  induction l generalizing rest with
  | nil => simp [takeFirst] at h
  | cons y l ih =>
    unfold takeFirst at h
    by_cases hy : p y = true
    · simp only [hy, if_true, Option.some.injEq, Prod.mk.injEq] at h
      obtain ⟨rfl, rfl⟩ := h
      exact ⟨hy, [], l, rfl, rfl, by simp⟩
    · rw [if_neg hy] at h
      split at h
      · simp at h
      · rename_i z r hz
        simp only [Option.some.injEq, Prod.mk.injEq] at h
        obtain ⟨rfl, rfl⟩ := h
        obtain ⟨hp, before, after, hl, hr, hb⟩ := ih hz
        refine ⟨hp, y :: before, after, by simp [hl], by simp [hr], ?_⟩
        intro w hw
        rcases List.mem_cons.mp hw with rfl | hw
        · simpa using hy
        · exact hb w hw

/-- Where `takeFirst` finds nothing, no element satisfies the test. -/
theorem takeFirst_none {α : Type} {p : α → Bool} {l : List α} (h : takeFirst p l = none) : ∀ x ∈ l, p x = false := by
  induction l with
  | nil => simp
  | cons y l ih =>
    unfold takeFirst at h
    by_cases hy : p y = true
    · simp [hy] at h
    · rw [if_neg hy] at h
      split at h
      · rename_i hz
        intro w hw
        rcases List.mem_cons.mp hw with rfl | hw
        · simpa using hy
        · exact ih hz w hw
      · simp at h

/-! ### Numbers that run from 1 to a top -/

/-- The next number is in range. -/
theorem nextIn_range {top n : Nat} (ht : 1 ≤ top) (hn : n ≤ top) : 1 ≤ nextIn top n ∧ nextIn top n ≤ top := by
  unfold nextIn; split <;> omega

/-- The number found is in range. -/
theorem firstFree_range {top : Nat} (used : Nat → Bool) (ht : 1 ≤ top) (fuel n : Nat) (h1 : 1 ≤ n) (hn : n ≤ top) :
    1 ≤ firstFree top used fuel n ∧ firstFree top used fuel n ≤ top := by
  induction fuel generalizing n with
  | zero => exact ⟨h1, hn⟩
  | succ k ih =>
    unfold firstFree
    split
    · exact ih _ (nextIn_range ht hn).1 (nextIn_range ht hn).2
    · exact ⟨h1, hn⟩

/-- The `k`-th number after `n`. -/
def stepsFrom (top n : Nat) : Nat → Nat
  | 0 => n
  | k + 1 => stepsFrom top (nextIn top n) k

/-- A search that ends on a used number has passed over used numbers only. -/
theorem firstFree_used {top : Nat} {used : Nat → Bool} (fuel n : Nat) (h : used (firstFree top used fuel n) = true) :
    ∀ k ≤ fuel, used (stepsFrom top n k) = true := by
  induction fuel generalizing n with
  | zero =>
    intro k hk
    obtain rfl : k = 0 := by omega
    exact h
  | succ m ih =>
    unfold firstFree at h
    by_cases hn : used n = true
    · simp only [hn, if_true] at h
      intro k hk
      cases k with
      | zero => exact hn
      | succ j => exact ih _ h j (by omega)
    · simp only [hn] at h
      exact absurd h hn

/-- Where a number stands after `k` steps. -/
theorem stepsFrom_eq {top : Nat} (n k : Nat) (h1 : 1 ≤ n) (hn : n ≤ top) (hk : k < top) :
    stepsFrom top n k = if n + k ≤ top then n + k else n + k - top := by
  induction k generalizing n with
  | zero => simp [stepsFrom, hn]
  | succ k ih =>
    have hr := nextIn_range (top := top) (by omega) hn
    rw [stepsFrom, ih _ hr.1 hr.2 (by omega)]
    unfold nextIn
    split <;> split <;> split <;> omega

/-- Fewer steps than the top lead to different numbers. -/
theorem stepsFrom_inj {top n j k : Nat} (h1 : 1 ≤ n) (hn : n ≤ top) (hj : j < top) (hk : k < top)
    (h : stepsFrom top n j = stepsFrom top n k) : j = k := by
  rw [stepsFrom_eq n j h1 hn hj, stepsFrom_eq n k h1 hn hk] at h
  split at h <;> split at h <;> omega

/-- With more numbers tried than are in use, the number found is not in use. -/
theorem firstFree_unused {top n fuel : Nat} {used : Nat → Bool} (h1 : 1 ≤ n) (hn : n ≤ top) (hf : fuel < top)
    (inUse : List Nat) (hall : ∀ m, used m = true → m ∈ inUse) (hlen : inUse.length ≤ fuel) :
    used (firstFree top used fuel n) = false := by
  by_contra hc
  have hu := firstFree_used fuel n (by simpa using hc)
  have hsub : (List.range (fuel + 1)).map (stepsFrom top n) ⊆ inUse := by
    intro m hm
    obtain ⟨k, hk, rfl⟩ := List.mem_map.mp hm
    exact hall _ (hu k (by have := List.mem_range.mp hk; omega))
  have hnd : ((List.range (fuel + 1)).map (stepsFrom top n)).Nodup := by
    refine List.Nodup.map_on ?_ List.nodup_range
    intro j hj k hk e
    have := List.mem_range.mp hj
    have := List.mem_range.mp hk
    exact stepsFrom_inj h1 hn (by omega) (by omega) e
  have := (List.subperm_of_subset hnd hsub).length_le
  simp at this
  omega

end Sys2Proof.Machine
end

