-- ==== Sys2Proof/Laws/State.lean ====
section
/-! SUPPORT. What each replacement of one block leaves of the others, and of what is computed from them. -/
namespace Sys2Proof.Machine

@[simp] theorem State.setSc_sc (s : State) (x : StationCtl) : (s.setSc x).sc = x := rfl
@[simp] theorem State.setSc_till (s : State) (x : StationCtl) : (s.setSc x).till = s.till := rfl
@[simp] theorem State.setSc_cu (s : State) (x : StationCtl) : (s.setSc x).cu = s.cu := rfl
@[simp] theorem State.setSc_br (s : State) (x : StationCtl) : (s.setSc x).br = s.br := rfl
@[simp] theorem State.setSc_au (s : State) (x : StationCtl) : (s.setSc x).au = s.au := rfl
@[simp] theorem State.setSc_su (s : State) (x : StationCtl) : (s.setSc x).su = s.su := rfl
@[simp] theorem State.setSc_lc (s : State) (x : StationCtl) : (s.setSc x).lc = s.lc := rfl
@[simp] theorem State.setSc_pm (s : State) (x : StationCtl) : (s.setSc x).pm = s.pm := rfl
@[simp] theorem State.setSc_now (s : State) (x : StationCtl) : (s.setSc x).now = s.now := rfl
@[simp] theorem State.setSc_free (s : State) (x : StationCtl) : (s.setSc x).free = s.free := rfl
@[simp] theorem State.setSc_pending (s : State) (x : StationCtl) : (s.setSc x).pending = s.pending := rfl

@[simp] theorem State.setTill_sc (s : State) (x : TillPort) : (s.setTill x).sc = s.sc := rfl
@[simp] theorem State.setTill_till (s : State) (x : TillPort) : (s.setTill x).till = x := rfl
@[simp] theorem State.setTill_cu (s : State) (x : TillPort) : (s.setTill x).cu = s.cu := rfl
@[simp] theorem State.setTill_br (s : State) (x : TillPort) : (s.setTill x).br = s.br := rfl
@[simp] theorem State.setTill_au (s : State) (x : TillPort) : (s.setTill x).au = s.au := rfl
@[simp] theorem State.setTill_su (s : State) (x : TillPort) : (s.setTill x).su = s.su := rfl
@[simp] theorem State.setTill_lc (s : State) (x : TillPort) : (s.setTill x).lc = s.lc := rfl
@[simp] theorem State.setTill_pm (s : State) (x : TillPort) : (s.setTill x).pm = s.pm := rfl
@[simp] theorem State.setTill_now (s : State) (x : TillPort) : (s.setTill x).now = s.now := rfl
@[simp] theorem State.setTill_free (s : State) (x : TillPort) : (s.setTill x).free = s.free := rfl
@[simp] theorem State.setTill_pending (s : State) (x : TillPort) : (s.setTill x).pending = s.pending := rfl

@[simp] theorem State.setCu_sc (s : State) (x : Custody) : (s.setCu x).sc = s.sc := rfl
@[simp] theorem State.setCu_till (s : State) (x : Custody) : (s.setCu x).till = s.till := rfl
@[simp] theorem State.setCu_cu (s : State) (x : Custody) : (s.setCu x).cu = x := rfl
@[simp] theorem State.setCu_br (s : State) (x : Custody) : (s.setCu x).br = s.br := rfl
@[simp] theorem State.setCu_au (s : State) (x : Custody) : (s.setCu x).au = s.au := rfl
@[simp] theorem State.setCu_su (s : State) (x : Custody) : (s.setCu x).su = s.su := rfl
@[simp] theorem State.setCu_lc (s : State) (x : Custody) : (s.setCu x).lc = s.lc := rfl
@[simp] theorem State.setCu_pm (s : State) (x : Custody) : (s.setCu x).pm = s.pm := rfl
@[simp] theorem State.setCu_now (s : State) (x : Custody) : (s.setCu x).now = s.now := rfl
@[simp] theorem State.setCu_free (s : State) (x : Custody) : (s.setCu x).free = s.free := rfl
@[simp] theorem State.setCu_pending (s : State) (x : Custody) : (s.setCu x).pending = s.pending := rfl

@[simp] theorem State.setBr_sc (s : State) (x : Broker) : (s.setBr x).sc = s.sc := rfl
@[simp] theorem State.setBr_till (s : State) (x : Broker) : (s.setBr x).till = s.till := rfl
@[simp] theorem State.setBr_cu (s : State) (x : Broker) : (s.setBr x).cu = s.cu := rfl
@[simp] theorem State.setBr_br (s : State) (x : Broker) : (s.setBr x).br = x := rfl
@[simp] theorem State.setBr_au (s : State) (x : Broker) : (s.setBr x).au = s.au := rfl
@[simp] theorem State.setBr_su (s : State) (x : Broker) : (s.setBr x).su = s.su := rfl
@[simp] theorem State.setBr_lc (s : State) (x : Broker) : (s.setBr x).lc = s.lc := rfl
@[simp] theorem State.setBr_pm (s : State) (x : Broker) : (s.setBr x).pm = s.pm := rfl
@[simp] theorem State.setBr_now (s : State) (x : Broker) : (s.setBr x).now = s.now := rfl
@[simp] theorem State.setBr_free (s : State) (x : Broker) : (s.setBr x).free = s.free := rfl
@[simp] theorem State.setBr_pending (s : State) (x : Broker) : (s.setBr x).pending = s.pending := rfl

@[simp] theorem State.setAu_sc (s : State) (x : AdviceUnit) : (s.setAu x).sc = s.sc := rfl
@[simp] theorem State.setAu_till (s : State) (x : AdviceUnit) : (s.setAu x).till = s.till := rfl
@[simp] theorem State.setAu_cu (s : State) (x : AdviceUnit) : (s.setAu x).cu = s.cu := rfl
@[simp] theorem State.setAu_br (s : State) (x : AdviceUnit) : (s.setAu x).br = s.br := rfl
@[simp] theorem State.setAu_au (s : State) (x : AdviceUnit) : (s.setAu x).au = x := rfl
@[simp] theorem State.setAu_su (s : State) (x : AdviceUnit) : (s.setAu x).su = s.su := rfl
@[simp] theorem State.setAu_lc (s : State) (x : AdviceUnit) : (s.setAu x).lc = s.lc := rfl
@[simp] theorem State.setAu_pm (s : State) (x : AdviceUnit) : (s.setAu x).pm = s.pm := rfl
@[simp] theorem State.setAu_now (s : State) (x : AdviceUnit) : (s.setAu x).now = s.now := rfl
@[simp] theorem State.setAu_free (s : State) (x : AdviceUnit) : (s.setAu x).free = s.free := rfl
@[simp] theorem State.setAu_pending (s : State) (x : AdviceUnit) : (s.setAu x).pending = s.pending := rfl

@[simp] theorem State.setSu_sc (s : State) (x : Settlement) : (s.setSu x).sc = s.sc := rfl
@[simp] theorem State.setSu_till (s : State) (x : Settlement) : (s.setSu x).till = s.till := rfl
@[simp] theorem State.setSu_cu (s : State) (x : Settlement) : (s.setSu x).cu = s.cu := rfl
@[simp] theorem State.setSu_br (s : State) (x : Settlement) : (s.setSu x).br = s.br := rfl
@[simp] theorem State.setSu_au (s : State) (x : Settlement) : (s.setSu x).au = s.au := rfl
@[simp] theorem State.setSu_su (s : State) (x : Settlement) : (s.setSu x).su = x := rfl
@[simp] theorem State.setSu_lc (s : State) (x : Settlement) : (s.setSu x).lc = s.lc := rfl
@[simp] theorem State.setSu_pm (s : State) (x : Settlement) : (s.setSu x).pm = s.pm := rfl
@[simp] theorem State.setSu_now (s : State) (x : Settlement) : (s.setSu x).now = s.now := rfl
@[simp] theorem State.setSu_free (s : State) (x : Settlement) : (s.setSu x).free = s.free := rfl
@[simp] theorem State.setSu_pending (s : State) (x : Settlement) : (s.setSu x).pending = s.pending := rfl

@[simp] theorem State.setLc_sc (s : State) (x : LineCtl) : (s.setLc x).sc = s.sc := rfl
@[simp] theorem State.setLc_till (s : State) (x : LineCtl) : (s.setLc x).till = s.till := rfl
@[simp] theorem State.setLc_cu (s : State) (x : LineCtl) : (s.setLc x).cu = s.cu := rfl
@[simp] theorem State.setLc_br (s : State) (x : LineCtl) : (s.setLc x).br = s.br := rfl
@[simp] theorem State.setLc_au (s : State) (x : LineCtl) : (s.setLc x).au = s.au := rfl
@[simp] theorem State.setLc_su (s : State) (x : LineCtl) : (s.setLc x).su = s.su := rfl
@[simp] theorem State.setLc_lc (s : State) (x : LineCtl) : (s.setLc x).lc = x := rfl
@[simp] theorem State.setLc_pm (s : State) (x : LineCtl) : (s.setLc x).pm = s.pm := rfl
@[simp] theorem State.setLc_now (s : State) (x : LineCtl) : (s.setLc x).now = s.now := rfl
@[simp] theorem State.setLc_free (s : State) (x : LineCtl) : (s.setLc x).free = s.free := rfl
@[simp] theorem State.setLc_pending (s : State) (x : LineCtl) : (s.setLc x).pending = s.pending := rfl

@[simp] theorem State.setPm_sc (s : State) (x : PeerMon) : (s.setPm x).sc = s.sc := rfl
@[simp] theorem State.setPm_till (s : State) (x : PeerMon) : (s.setPm x).till = s.till := rfl
@[simp] theorem State.setPm_cu (s : State) (x : PeerMon) : (s.setPm x).cu = s.cu := rfl
@[simp] theorem State.setPm_br (s : State) (x : PeerMon) : (s.setPm x).br = s.br := rfl
@[simp] theorem State.setPm_au (s : State) (x : PeerMon) : (s.setPm x).au = s.au := rfl
@[simp] theorem State.setPm_su (s : State) (x : PeerMon) : (s.setPm x).su = s.su := rfl
@[simp] theorem State.setPm_lc (s : State) (x : PeerMon) : (s.setPm x).lc = s.lc := rfl
@[simp] theorem State.setPm_pm (s : State) (x : PeerMon) : (s.setPm x).pm = x := rfl
@[simp] theorem State.setPm_now (s : State) (x : PeerMon) : (s.setPm x).now = s.now := rfl
@[simp] theorem State.setPm_free (s : State) (x : PeerMon) : (s.setPm x).free = s.free := rfl
@[simp] theorem State.setPm_pending (s : State) (x : PeerMon) : (s.setPm x).pending = s.pending := rfl

@[simp] theorem State.setNow_sc (s : State) (x : Nat) : (s.setNow x).sc = s.sc := rfl
@[simp] theorem State.setNow_till (s : State) (x : Nat) : (s.setNow x).till = s.till := rfl
@[simp] theorem State.setNow_cu (s : State) (x : Nat) : (s.setNow x).cu = s.cu := rfl
@[simp] theorem State.setNow_br (s : State) (x : Nat) : (s.setNow x).br = s.br := rfl
@[simp] theorem State.setNow_au (s : State) (x : Nat) : (s.setNow x).au = s.au := rfl
@[simp] theorem State.setNow_su (s : State) (x : Nat) : (s.setNow x).su = s.su := rfl
@[simp] theorem State.setNow_lc (s : State) (x : Nat) : (s.setNow x).lc = s.lc := rfl
@[simp] theorem State.setNow_pm (s : State) (x : Nat) : (s.setNow x).pm = s.pm := rfl
@[simp] theorem State.setNow_now (s : State) (x : Nat) : (s.setNow x).now = x := rfl
@[simp] theorem State.setNow_free (s : State) (x : Nat) : (s.setNow x).free = s.free := rfl
@[simp] theorem State.setNow_pending (s : State) (x : Nat) : (s.setNow x).pending = s.pending := rfl

@[simp] theorem State.setFree_sc (s : State) (x : Nat) : (s.setFree x).sc = s.sc := rfl
@[simp] theorem State.setFree_till (s : State) (x : Nat) : (s.setFree x).till = s.till := rfl
@[simp] theorem State.setFree_cu (s : State) (x : Nat) : (s.setFree x).cu = s.cu := rfl
@[simp] theorem State.setFree_br (s : State) (x : Nat) : (s.setFree x).br = s.br := rfl
@[simp] theorem State.setFree_au (s : State) (x : Nat) : (s.setFree x).au = s.au := rfl
@[simp] theorem State.setFree_su (s : State) (x : Nat) : (s.setFree x).su = s.su := rfl
@[simp] theorem State.setFree_lc (s : State) (x : Nat) : (s.setFree x).lc = s.lc := rfl
@[simp] theorem State.setFree_pm (s : State) (x : Nat) : (s.setFree x).pm = s.pm := rfl
@[simp] theorem State.setFree_now (s : State) (x : Nat) : (s.setFree x).now = s.now := rfl
@[simp] theorem State.setFree_free (s : State) (x : Nat) : (s.setFree x).free = x := rfl
@[simp] theorem State.setFree_pending (s : State) (x : Nat) : (s.setFree x).pending = s.pending := rfl

@[simp] theorem State.setPending_sc (s : State) (x : List Instr) : (s.setPending x).sc = s.sc := rfl
@[simp] theorem State.setPending_till (s : State) (x : List Instr) : (s.setPending x).till = s.till := rfl
@[simp] theorem State.setPending_cu (s : State) (x : List Instr) : (s.setPending x).cu = s.cu := rfl
@[simp] theorem State.setPending_br (s : State) (x : List Instr) : (s.setPending x).br = s.br := rfl
@[simp] theorem State.setPending_au (s : State) (x : List Instr) : (s.setPending x).au = s.au := rfl
@[simp] theorem State.setPending_su (s : State) (x : List Instr) : (s.setPending x).su = s.su := rfl
@[simp] theorem State.setPending_lc (s : State) (x : List Instr) : (s.setPending x).lc = s.lc := rfl
@[simp] theorem State.setPending_pm (s : State) (x : List Instr) : (s.setPending x).pm = s.pm := rfl
@[simp] theorem State.setPending_now (s : State) (x : List Instr) : (s.setPending x).now = s.now := rfl
@[simp] theorem State.setPending_free (s : State) (x : List Instr) : (s.setPending x).free = s.free := rfl
@[simp] theorem State.setPending_pending (s : State) (x : List Instr) : (s.setPending x).pending = x := rfl

@[simp] theorem State.setTill_own (s : State) (x : TillPort) : (s.setTill x).own = s.own := rfl
@[simp] theorem State.setCu_own (s : State) (x : Custody) : (s.setCu x).own = s.own := rfl
@[simp] theorem State.setBr_own (s : State) (x : Broker) : (s.setBr x).own = s.own := rfl
@[simp] theorem State.setAu_own (s : State) (x : AdviceUnit) : (s.setAu x).own = s.own := rfl
@[simp] theorem State.setSu_own (s : State) (x : Settlement) : (s.setSu x).own = s.own := rfl
@[simp] theorem State.setLc_own (s : State) (x : LineCtl) : (s.setLc x).own = s.own := rfl
@[simp] theorem State.setPm_own (s : State) (x : PeerMon) : (s.setPm x).own = s.own := rfl
@[simp] theorem State.setNow_own (s : State) (x : Nat) : (s.setNow x).own = s.own := rfl
@[simp] theorem State.setFree_own (s : State) (x : Nat) : (s.setFree x).own = s.own := rfl
@[simp] theorem State.setPending_own (s : State) (x : List Instr) : (s.setPending x).own = s.own := rfl

@[simp] theorem State.setTill_live (s : State) (x : TillPort) : (s.setTill x).live = s.live := rfl
@[simp] theorem State.setCu_live (s : State) (x : Custody) : (s.setCu x).live = s.live := rfl
@[simp] theorem State.setBr_live (s : State) (x : Broker) : (s.setBr x).live = s.live := rfl
@[simp] theorem State.setAu_live (s : State) (x : AdviceUnit) : (s.setAu x).live = s.live := rfl
@[simp] theorem State.setSu_live (s : State) (x : Settlement) : (s.setSu x).live = s.live := rfl
@[simp] theorem State.setLc_live (s : State) (x : LineCtl) : (s.setLc x).live = s.live := rfl
@[simp] theorem State.setPm_live (s : State) (x : PeerMon) : (s.setPm x).live = s.live := rfl
@[simp] theorem State.setNow_live (s : State) (x : Nat) : (s.setNow x).live = s.live := rfl
@[simp] theorem State.setFree_live (s : State) (x : Nat) : (s.setFree x).live = s.live := rfl
@[simp] theorem State.setPending_live (s : State) (x : List Instr) : (s.setPending x).live = s.live := rfl

@[simp] theorem State.setTill_onLine (s : State) (x : TillPort) : (s.setTill x).onLine = s.onLine := rfl
@[simp] theorem State.setCu_onLine (s : State) (x : Custody) : (s.setCu x).onLine = s.onLine := rfl
@[simp] theorem State.setBr_onLine (s : State) (x : Broker) : (s.setBr x).onLine = s.onLine := rfl
@[simp] theorem State.setAu_onLine (s : State) (x : AdviceUnit) : (s.setAu x).onLine = s.onLine := rfl
@[simp] theorem State.setSu_onLine (s : State) (x : Settlement) : (s.setSu x).onLine = s.onLine := rfl
@[simp] theorem State.setLc_onLine (s : State) (x : LineCtl) : (s.setLc x).onLine = s.onLine := rfl
@[simp] theorem State.setPm_onLine (s : State) (x : PeerMon) : (s.setPm x).onLine = s.onLine := rfl
@[simp] theorem State.setNow_onLine (s : State) (x : Nat) : (s.setNow x).onLine = s.onLine := rfl
@[simp] theorem State.setFree_onLine (s : State) (x : Nat) : (s.setFree x).onLine = s.onLine := rfl
@[simp] theorem State.setPending_onLine (s : State) (x : List Instr) : (s.setPending x).onLine = s.onLine := rfl

@[simp] theorem State.setTill_hears (s : State) (x : TillPort) : (s.setTill x).hears = s.hears := rfl
@[simp] theorem State.setCu_hears (s : State) (x : Custody) : (s.setCu x).hears = s.hears := rfl
@[simp] theorem State.setBr_hears (s : State) (x : Broker) : (s.setBr x).hears = s.hears := rfl
@[simp] theorem State.setAu_hears (s : State) (x : AdviceUnit) : (s.setAu x).hears = s.hears := rfl
@[simp] theorem State.setSu_hears (s : State) (x : Settlement) : (s.setSu x).hears = s.hears := rfl
@[simp] theorem State.setLc_hears (s : State) (x : LineCtl) : (s.setLc x).hears = s.hears := rfl
@[simp] theorem State.setPm_hears (s : State) (x : PeerMon) : (s.setPm x).hears = s.hears := rfl
@[simp] theorem State.setNow_hears (s : State) (x : Nat) : (s.setNow x).hears = s.hears := rfl
@[simp] theorem State.setFree_hears (s : State) (x : Nat) : (s.setFree x).hears = s.hears := rfl
@[simp] theorem State.setPending_hears (s : State) (x : List Instr) : (s.setPending x).hears = s.hears := rfl

@[simp] theorem State.setTill_handing (s : State) (x : TillPort) : (s.setTill x).handing = s.handing := rfl
@[simp] theorem State.setCu_handing (s : State) (x : Custody) : (s.setCu x).handing = s.handing := rfl
@[simp] theorem State.setBr_handing (s : State) (x : Broker) : (s.setBr x).handing = s.handing := rfl
@[simp] theorem State.setAu_handing (s : State) (x : AdviceUnit) : (s.setAu x).handing = s.handing := rfl
@[simp] theorem State.setSu_handing (s : State) (x : Settlement) : (s.setSu x).handing = s.handing := rfl
@[simp] theorem State.setLc_handing (s : State) (x : LineCtl) : (s.setLc x).handing = s.handing := rfl
@[simp] theorem State.setPm_handing (s : State) (x : PeerMon) : (s.setPm x).handing = s.handing := rfl
@[simp] theorem State.setNow_handing (s : State) (x : Nat) : (s.setNow x).handing = s.handing := rfl
@[simp] theorem State.setFree_handing (s : State) (x : Nat) : (s.setFree x).handing = s.handing := rfl
@[simp] theorem State.setPending_handing (s : State) (x : List Instr) : (s.setPending x).handing = s.handing := rfl

@[simp] theorem State.setSc_sub (s : State) (x : StationCtl) : (s.setSc x).sub = s.sub := rfl
@[simp] theorem State.setTill_sub (s : State) (x : TillPort) : (s.setTill x).sub = s.sub := rfl
@[simp] theorem State.setBr_sub (s : State) (x : Broker) : (s.setBr x).sub = s.sub := rfl
@[simp] theorem State.setAu_sub (s : State) (x : AdviceUnit) : (s.setAu x).sub = s.sub := rfl
@[simp] theorem State.setSu_sub (s : State) (x : Settlement) : (s.setSu x).sub = s.sub := rfl
@[simp] theorem State.setLc_sub (s : State) (x : LineCtl) : (s.setLc x).sub = s.sub := rfl
@[simp] theorem State.setPm_sub (s : State) (x : PeerMon) : (s.setPm x).sub = s.sub := rfl
@[simp] theorem State.setNow_sub (s : State) (x : Nat) : (s.setNow x).sub = s.sub := rfl
@[simp] theorem State.setFree_sub (s : State) (x : Nat) : (s.setFree x).sub = s.sub := rfl
@[simp] theorem State.setPending_sub (s : State) (x : List Instr) : (s.setPending x).sub = s.sub := rfl

@[simp] theorem State.setTill_lineState (s : State) (x : TillPort) : (s.setTill x).lineState = s.lineState := rfl
@[simp] theorem State.setCu_lineState (s : State) (x : Custody) : (s.setCu x).lineState = s.lineState := rfl
@[simp] theorem State.setBr_lineState (s : State) (x : Broker) : (s.setBr x).lineState = s.lineState := rfl
@[simp] theorem State.setAu_lineState (s : State) (x : AdviceUnit) : (s.setAu x).lineState = s.lineState := rfl
@[simp] theorem State.setSu_lineState (s : State) (x : Settlement) : (s.setSu x).lineState = s.lineState := rfl
@[simp] theorem State.setPm_lineState (s : State) (x : PeerMon) : (s.setPm x).lineState = s.lineState := rfl
@[simp] theorem State.setNow_lineState (s : State) (x : Nat) : (s.setNow x).lineState = s.lineState := rfl
@[simp] theorem State.setFree_lineState (s : State) (x : Nat) : (s.setFree x).lineState = s.lineState := rfl
@[simp] theorem State.setPending_lineState (s : State) (x : List Instr) : (s.setPending x).lineState = s.lineState := rfl

@[simp] theorem State.setSc_slotFree (s : State) (x : StationCtl) : (s.setSc x).slotFree = s.slotFree := rfl
@[simp] theorem State.setCu_slotFree (s : State) (x : Custody) : (s.setCu x).slotFree = s.slotFree := rfl
@[simp] theorem State.setBr_slotFree (s : State) (x : Broker) : (s.setBr x).slotFree = s.slotFree := rfl
@[simp] theorem State.setAu_slotFree (s : State) (x : AdviceUnit) : (s.setAu x).slotFree = s.slotFree := rfl
@[simp] theorem State.setSu_slotFree (s : State) (x : Settlement) : (s.setSu x).slotFree = s.slotFree := rfl
@[simp] theorem State.setLc_slotFree (s : State) (x : LineCtl) : (s.setLc x).slotFree = s.slotFree := rfl
@[simp] theorem State.setPm_slotFree (s : State) (x : PeerMon) : (s.setPm x).slotFree = s.slotFree := rfl
@[simp] theorem State.setNow_slotFree (s : State) (x : Nat) : (s.setNow x).slotFree = s.slotFree := rfl
@[simp] theorem State.setFree_slotFree (s : State) (x : Nat) : (s.setFree x).slotFree = s.slotFree := rfl
@[simp] theorem State.setPending_slotFree (s : State) (x : List Instr) : (s.setPending x).slotFree = s.slotFree := rfl

@[simp] theorem State.setTill_replyTimeout (s : State) (x : TillPort) : (s.setTill x).replyTimeout = s.replyTimeout := rfl
@[simp] theorem State.setCu_replyTimeout (s : State) (x : Custody) : (s.setCu x).replyTimeout = s.replyTimeout := rfl
@[simp] theorem State.setBr_replyTimeout (s : State) (x : Broker) : (s.setBr x).replyTimeout = s.replyTimeout := rfl
@[simp] theorem State.setAu_replyTimeout (s : State) (x : AdviceUnit) : (s.setAu x).replyTimeout = s.replyTimeout := rfl
@[simp] theorem State.setSu_replyTimeout (s : State) (x : Settlement) : (s.setSu x).replyTimeout = s.replyTimeout := rfl
@[simp] theorem State.setLc_replyTimeout (s : State) (x : LineCtl) : (s.setLc x).replyTimeout = s.replyTimeout := rfl
@[simp] theorem State.setNow_replyTimeout (s : State) (x : Nat) : (s.setNow x).replyTimeout = s.replyTimeout := rfl
@[simp] theorem State.setFree_replyTimeout (s : State) (x : Nat) : (s.setFree x).replyTimeout = s.replyTimeout := rfl
@[simp] theorem State.setPending_replyTimeout (s : State) (x : List Instr) : (s.setPending x).replyTimeout = s.replyTimeout := rfl

@[simp] theorem State.setTill_beaconInterval (s : State) (x : TillPort) : (s.setTill x).beaconInterval = s.beaconInterval := rfl
@[simp] theorem State.setCu_beaconInterval (s : State) (x : Custody) : (s.setCu x).beaconInterval = s.beaconInterval := rfl
@[simp] theorem State.setBr_beaconInterval (s : State) (x : Broker) : (s.setBr x).beaconInterval = s.beaconInterval := rfl
@[simp] theorem State.setAu_beaconInterval (s : State) (x : AdviceUnit) : (s.setAu x).beaconInterval = s.beaconInterval := rfl
@[simp] theorem State.setSu_beaconInterval (s : State) (x : Settlement) : (s.setSu x).beaconInterval = s.beaconInterval := rfl
@[simp] theorem State.setLc_beaconInterval (s : State) (x : LineCtl) : (s.setLc x).beaconInterval = s.beaconInterval := rfl
@[simp] theorem State.setNow_beaconInterval (s : State) (x : Nat) : (s.setNow x).beaconInterval = s.beaconInterval := rfl
@[simp] theorem State.setFree_beaconInterval (s : State) (x : Nat) : (s.setFree x).beaconInterval = s.beaconInterval := rfl
@[simp] theorem State.setPending_beaconInterval (s : State) (x : List Instr) : (s.setPending x).beaconInterval = s.beaconInterval := rfl

/-- A state is its eleven parts. -/
theorem State.ext_parts {s t : State} (h1 : s.sc = t.sc) (h2 : s.till = t.till) (h3 : s.cu = t.cu) (h4 : s.br = t.br)
    (h5 : s.au = t.au) (h6 : s.su = t.su) (h7 : s.lc = t.lc) (h8 : s.pm = t.pm) (h9 : s.now = t.now)
    (h10 : s.free = t.free) (h11 : s.pending = t.pending) : s = t := by
  cases s; cases t; simp_all

end Sys2Proof.Machine
end

