-- ==== Sys2Proof/Laws/Queues.lean ====
section
/-! SUPPORT. Which block each operation on the result queue and the line's queues touches, and what handing, granting
and removing a frame do to the queues. -/
namespace Sys2Proof.Machine

/-- `t` differs from `s` in the Till Port alone. -/
structure State.TillOnly (s t : State) : Prop where
  sc : t.sc = s.sc
  cu : t.cu = s.cu
  br : t.br = s.br
  au : t.au = s.au
  su : t.su = s.su
  lc : t.lc = s.lc
  pm : t.pm = s.pm
  now : t.now = s.now
  free : t.free = s.free
  pending : t.pending = s.pending

/-- `t` differs from `s` in the Line Controller alone. -/
structure State.LineOnly (s t : State) : Prop where
  sc : t.sc = s.sc
  till : t.till = s.till
  cu : t.cu = s.cu
  br : t.br = s.br
  au : t.au = s.au
  su : t.su = s.su
  pm : t.pm = s.pm
  now : t.now = s.now
  free : t.free = s.free
  pending : t.pending = s.pending

theorem State.LineOnly.refl (s : State) : s.LineOnly s := ⟨rfl, rfl, rfl, rfl, rfl, rfl, rfl, rfl, rfl, rfl⟩

theorem State.LineOnly.trans {s t u : State} (h : s.LineOnly t) (g : t.LineOnly u) : s.LineOnly u :=
  ⟨g.sc.trans h.sc, g.till.trans h.till, g.cu.trans h.cu, g.br.trans h.br, g.au.trans h.au, g.su.trans h.su,
    g.pm.trans h.pm, g.now.trans h.now, g.free.trans h.free, g.pending.trans h.pending⟩

/-- Replacing the Line Controller's state touches no other block. -/
theorem State.setLc_lineOnly (s : State) (x : LineCtl) : s.LineOnly (s.setLc x) :=
  ⟨rfl, rfl, rfl, rfl, rfl, rfl, rfl, rfl, rfl, rfl⟩

theorem State.answer_tillOnly (s : State) (r : Record) : s.TillOnly (s.answer r) :=
  ⟨rfl, rfl, rfl, rfl, rfl, rfl, rfl, rfl, rfl, rfl⟩

theorem State.placeFrame_lineOnly (s : State) (f : OutFrame) : s.LineOnly (s.placeFrame f) := s.setLc_lineOnly _

theorem State.hand_lineOnly (s : State) (dest : Nat) (m : Msg) : s.LineOnly (s.hand dest m) := by
  unfold State.hand
  split
  · exact (s.setLc_lineOnly _).trans (State.placeFrame_lineOnly _ _)
  · exact (s.setLc_lineOnly _).trans (State.setLc_lineOnly _ _)

theorem State.broadcast_lineOnly (s : State) (m : Msg) : s.LineOnly (s.broadcast m) := s.hand_lineOnly _ _

theorem State.grant_lineOnly (s : State) : s.LineOnly s.grant := by
  unfold State.grant
  split
  · split
    · exact (s.setLc_lineOnly _).trans (State.placeFrame_lineOnly _ _)
    · exact .refl s
  · split
    · exact .refl s
    · split
      · exact (s.setLc_lineOnly _).trans (State.placeFrame_lineOnly _ _)
      · exact .refl s

/-- Where no request waits, a freed place is offered to none (R149). -/
theorem State.grant_of_nil {s : State} (h : s.lc.waitList = []) : s.grant = s := by
  simp [State.grant, h, takeFirst]

/-- Where no request waits, a frame that leaves leaves the rest as they are. -/
theorem State.removeFrame_of_nil {s : State} (h : s.lc.waitList = []) (ticket : Nat) :
    s.removeFrame ticket = s.setLc { s.lc with outbound := s.lc.outbound.filter fun f => f.ticket ≠ ticket } :=
  State.grant_of_nil h

theorem State.removeFrame_lineOnly (s : State) (ticket : Nat) : s.LineOnly (s.removeFrame ticket) :=
  (s.setLc_lineOnly _).trans (State.grant_lineOnly _)

theorem State.dropRequests_lineOnly (s : State) (p : OutFrame → Bool) : s.LineOnly (s.dropRequests p) :=
  s.setLc_lineOnly _

theorem State.dropRequest_lineOnly (s : State) (t : Option Nat) : s.LineOnly (s.dropRequest t) := by
  cases t with
  | none => exact .refl s
  | some _ => exact s.dropRequests_lineOnly _

theorem State.emptyLine_lineOnly (s : State) : s.LineOnly s.emptyLine := s.setLc_lineOnly _

/-! ### The other blocks, for simp -/

@[simp] theorem State.answer_cu (s : State) (r : Record) : (s.answer r).cu = s.cu := rfl
@[simp] theorem State.answer_sc (s : State) (r : Record) : (s.answer r).sc = s.sc := rfl
@[simp] theorem State.answer_br (s : State) (r : Record) : (s.answer r).br = s.br := rfl
@[simp] theorem State.answer_au (s : State) (r : Record) : (s.answer r).au = s.au := rfl
@[simp] theorem State.answer_su (s : State) (r : Record) : (s.answer r).su = s.su := rfl
@[simp] theorem State.answer_lc (s : State) (r : Record) : (s.answer r).lc = s.lc := rfl
@[simp] theorem State.answer_pm (s : State) (r : Record) : (s.answer r).pm = s.pm := rfl
@[simp] theorem State.answer_now (s : State) (r : Record) : (s.answer r).now = s.now := rfl
@[simp] theorem State.answer_results (s : State) (r : Record) : (s.answer r).till.results = s.till.results ++ [r] := rfl
@[simp] theorem State.answer_requests (s : State) (r : Record) : (s.answer r).till.requests = s.till.requests := rfl
@[simp] theorem State.answer_payouts (s : State) (r : Record) : (s.answer r).till.payouts = s.till.payouts := rfl

@[simp] theorem State.hand_sc (s : State) (d : Nat) (m : Msg) : (s.hand d m).sc = s.sc := (s.hand_lineOnly d m).sc
@[simp] theorem State.hand_till (s : State) (d : Nat) (m : Msg) : (s.hand d m).till = s.till := (s.hand_lineOnly d m).till
@[simp] theorem State.hand_cu (s : State) (d : Nat) (m : Msg) : (s.hand d m).cu = s.cu := (s.hand_lineOnly d m).cu
@[simp] theorem State.hand_br (s : State) (d : Nat) (m : Msg) : (s.hand d m).br = s.br := (s.hand_lineOnly d m).br
@[simp] theorem State.hand_au (s : State) (d : Nat) (m : Msg) : (s.hand d m).au = s.au := (s.hand_lineOnly d m).au
@[simp] theorem State.hand_su (s : State) (d : Nat) (m : Msg) : (s.hand d m).su = s.su := (s.hand_lineOnly d m).su
@[simp] theorem State.hand_pm (s : State) (d : Nat) (m : Msg) : (s.hand d m).pm = s.pm := (s.hand_lineOnly d m).pm
@[simp] theorem State.hand_now (s : State) (d : Nat) (m : Msg) : (s.hand d m).now = s.now := (s.hand_lineOnly d m).now

@[simp] theorem State.grant_sc (s : State) : s.grant.sc = s.sc := s.grant_lineOnly.sc
@[simp] theorem State.grant_till (s : State) : s.grant.till = s.till := s.grant_lineOnly.till
@[simp] theorem State.grant_cu (s : State) : s.grant.cu = s.cu := s.grant_lineOnly.cu
@[simp] theorem State.grant_br (s : State) : s.grant.br = s.br := s.grant_lineOnly.br
@[simp] theorem State.grant_au (s : State) : s.grant.au = s.au := s.grant_lineOnly.au
@[simp] theorem State.grant_su (s : State) : s.grant.su = s.su := s.grant_lineOnly.su
@[simp] theorem State.grant_pm (s : State) : s.grant.pm = s.pm := s.grant_lineOnly.pm

@[simp] theorem State.dropRequest_sc (s : State) (t : Option Nat) : (s.dropRequest t).sc = s.sc := (s.dropRequest_lineOnly t).sc
@[simp] theorem State.dropRequest_till (s : State) (t : Option Nat) : (s.dropRequest t).till = s.till :=
  (s.dropRequest_lineOnly t).till
@[simp] theorem State.dropRequest_cu (s : State) (t : Option Nat) : (s.dropRequest t).cu = s.cu := (s.dropRequest_lineOnly t).cu
@[simp] theorem State.dropRequest_br (s : State) (t : Option Nat) : (s.dropRequest t).br = s.br := (s.dropRequest_lineOnly t).br
@[simp] theorem State.dropRequest_au (s : State) (t : Option Nat) : (s.dropRequest t).au = s.au := (s.dropRequest_lineOnly t).au
@[simp] theorem State.dropRequest_su (s : State) (t : Option Nat) : (s.dropRequest t).su = s.su := (s.dropRequest_lineOnly t).su
@[simp] theorem State.dropRequest_pm (s : State) (t : Option Nat) : (s.dropRequest t).pm = s.pm := (s.dropRequest_lineOnly t).pm
@[simp] theorem State.dropRequest_none (s : State) : s.dropRequest none = s := rfl

/-! ### What is in the queues afterwards -/

/-- A BEACON alone has its contents from the moment of placing (R163), and it stays a BEACON. -/
@[simp] theorem State.contents_kind (s : State) (m : Msg) : (s.contents m).kind = m.kind := by
  unfold State.contents
  split
  · rename_i h; exact h.symm
  · rfl

@[simp] theorem State.contents_cls (s : State) (m : Msg) : (s.contents m).cls = m.cls := by
  simp [Msg.cls]

/-- A frame other than a BEACON keeps its contents. -/
theorem State.contents_of_ne {s : State} {m : Msg} (h : m.kind ≠ 14) : s.contents m = m := if_neg h

/-- The outbound queue after a placing. -/
theorem State.placeFrame_outbound (s : State) (f : OutFrame) :
    (s.placeFrame f).lc.outbound = insertBy (fun g => g.msg.cls) { f with msg := s.contents f.msg } s.lc.outbound := rfl

/-- A placing adds one to the frames of classes 1 to 3 if its class is one of them. -/
theorem lowCount_insertBy (f : OutFrame) (q : List OutFrame) :
    lowCount (insertBy (fun g => g.msg.cls) f q) = lowCount q + if 1 ≤ f.msg.cls then 1 else 0 := by
  induction q with
  | nil => by_cases h : 1 ≤ f.msg.cls <;> simp [insertBy, lowCount, h]
  | cons g q ih =>
    unfold lowCount at ih ⊢
    by_cases hc : f.msg.cls < g.msg.cls
    · have hg : 1 ≤ g.msg.cls := by omega
      by_cases hf : 1 ≤ f.msg.cls <;> simp [insertBy, hc, hf, hg]
    · by_cases hg : 1 ≤ g.msg.cls <;> simp [insertBy, hc, hg, ih]; omega

/-- A filter leaves no more frames of classes 1 to 3. -/
theorem lowCount_filter_le (p : OutFrame → Bool) (q : List OutFrame) : lowCount (q.filter p) ≤ lowCount q := by
  unfold lowCount
  rw [List.filter_filter]
  have h : (fun f : OutFrame => decide (1 ≤ f.msg.cls) && p f) = fun f => p f && decide (1 ≤ f.msg.cls) := by
    funext f; exact Bool.and_comm _ _
  rw [h, ← List.filter_filter]
  exact List.length_filter_le _ _

/-- An outbound queue within its places. -/
structure LineCtl.OutOk (l : LineCtl) : Prop where
  all : l.outbound.length ≤ Config.outboundPlaces
  low : lowCount l.outbound ≤ Config.outboundLow

/-- A placing with room keeps the outbound queue within its places (R149). -/
theorem State.placeFrame_outOk {s : State} {f : OutFrame} (h : s.lc.OutOk) (hr : s.lc.hasRoom f.msg.cls = true) :
    (s.placeFrame f).lc.OutOk := by
  simp only [LineCtl.hasRoom, Bool.and_eq_true, Bool.or_eq_true, decide_eq_true_eq] at hr
  refine ⟨?_, ?_⟩
  · rw [State.placeFrame_outbound, insertBy_length]
    omega
  · rw [State.placeFrame_outbound, lowCount_insertBy, State.contents_cls]
    have := h.low
    split <;> omega

/-- Handing a frame keeps the outbound queue within its places (R149). -/
theorem State.hand_outOk {s : State} (h : s.lc.OutOk) (dest : Nat) (m : Msg) : (s.hand dest m).lc.OutOk := by
  unfold State.hand
  split
  · rename_i hr
    exact State.placeFrame_outOk (s := s.setLc { s.lc with nextTicket := s.lc.nextTicket + 1 }) ⟨h.all, h.low⟩ hr
  · exact ⟨h.all, h.low⟩

/-- Granting a freed place keeps the outbound queue within its places (R149). -/
theorem State.grant_outOk {s : State} (h : s.lc.OutOk) : s.grant.lc.OutOk := by
  unfold State.grant
  split
  · rename_i f rest hf
    split
    · rename_i hr
      have hc : f.msg.cls = 0 := by simpa using (takeFirst_some hf).1
      exact State.placeFrame_outOk (s := s.setLc { s.lc with waitList := rest }) ⟨h.all, h.low⟩ (by rw [hc]; exact hr)
    · exact h
  · split
    · exact h
    · rename_i f rest _
      split
      · rename_i hr
        exact State.placeFrame_outOk (s := s.setLc { s.lc with waitList := rest }) ⟨h.all, h.low⟩ hr
      · exact h

/-- Removing a frame keeps the outbound queue within its places (R149). -/
theorem State.removeFrame_outOk {s : State} (h : s.lc.OutOk) (ticket : Nat) : (s.removeFrame ticket).lc.OutOk :=
  State.grant_outOk ⟨(List.length_filter_le _ _).trans h.all, (lowCount_filter_le _ _).trans h.low⟩

/-- A step's inbound queue and result queue are not the line's sending side. -/
@[simp] theorem State.hand_inbound (s : State) (d : Nat) (m : Msg) : (s.hand d m).lc.inbound = s.lc.inbound := by
  unfold State.hand; split <;> rfl

/-- Each frame handed has a new name. -/
@[simp] theorem State.hand_nextTicket (s : State) (d : Nat) (m : Msg) :
    (s.hand d m).lc.nextTicket = s.lc.nextTicket + 1 := by
  unfold State.hand; split <;> rfl

/-- A frame handed is in the outbound queue or on the wait list. -/
theorem State.mem_hand {s : State} {d : Nat} {m : Msg} {g : OutFrame}
    (h : g ∈ (s.hand d m).lc.outbound ++ (s.hand d m).lc.waitList) :
    g ∈ s.lc.outbound ++ s.lc.waitList ∨ g.ticket = s.lc.nextTicket := by
  unfold State.hand at h
  split at h
  · simp only [State.placeFrame, State.setLc, List.mem_append, mem_insertBy] at h
    rcases h with (h | h) | h
    · right; rw [h]; rfl
    · left; simp [h]
    · left; simp [h]
  · simp only [State.setLc, List.mem_append, List.mem_singleton] at h
    rcases h with h | h | h
    · left; simp [h]
    · left; simp [h]
    · right; rw [h]; rfl

end Sys2Proof.Machine
end

