-- ==== Sys2Proof/Laws/Units.lean ====
section
/-! SUPPORT. Which blocks the small operations of each unit leave alone. -/
namespace Sys2Proof.Machine

@[simp] theorem State.modifyPeer_sc (s : State) (p : Nat) (f : Peer → Peer) : (s.modifyPeer p f).sc = s.sc := rfl
@[simp] theorem State.modifyPeer_till (s : State) (p : Nat) (f : Peer → Peer) : (s.modifyPeer p f).till = s.till := rfl
@[simp] theorem State.modifyPeer_cu (s : State) (p : Nat) (f : Peer → Peer) : (s.modifyPeer p f).cu = s.cu := rfl
@[simp] theorem State.modifyPeer_br (s : State) (p : Nat) (f : Peer → Peer) : (s.modifyPeer p f).br = s.br := rfl
@[simp] theorem State.modifyPeer_au (s : State) (p : Nat) (f : Peer → Peer) : (s.modifyPeer p f).au = s.au := rfl
@[simp] theorem State.modifyPeer_su (s : State) (p : Nat) (f : Peer → Peer) : (s.modifyPeer p f).su = s.su := rfl
@[simp] theorem State.modifyPeer_lc (s : State) (p : Nat) (f : Peer → Peer) : (s.modifyPeer p f).lc = s.lc := rfl

@[simp] theorem State.setHomeMap_sc (s : State) (m : List HomeEntry) : (s.setHomeMap m).sc = s.sc := rfl
@[simp] theorem State.setHomeMap_till (s : State) (m : List HomeEntry) : (s.setHomeMap m).till = s.till := rfl
@[simp] theorem State.setHomeMap_cu (s : State) (m : List HomeEntry) : (s.setHomeMap m).cu = s.cu := rfl
@[simp] theorem State.setHomeMap_br (s : State) (m : List HomeEntry) : (s.setHomeMap m).br = s.br := rfl
@[simp] theorem State.setHomeMap_au (s : State) (m : List HomeEntry) : (s.setHomeMap m).au = s.au := rfl
@[simp] theorem State.setHomeMap_su (s : State) (m : List HomeEntry) : (s.setHomeMap m).su = s.su := rfl
@[simp] theorem State.setHomeMap_lc (s : State) (m : List HomeEntry) : (s.setHomeMap m).lc = s.lc := rfl

@[simp] theorem State.modifyOpen_sc (s : State) (p : Nat) (f : PosEntry → PosEntry) : (s.modifyOpen p f).sc = s.sc :=
  rfl
@[simp] theorem State.modifyOpen_till (s : State) (p : Nat) (f : PosEntry → PosEntry) : (s.modifyOpen p f).till = s.till :=
  rfl
@[simp] theorem State.modifyOpen_cu (s : State) (p : Nat) (f : PosEntry → PosEntry) : (s.modifyOpen p f).cu = s.cu :=
  rfl
@[simp] theorem State.modifyOpen_br (s : State) (p : Nat) (f : PosEntry → PosEntry) : (s.modifyOpen p f).br = s.br :=
  rfl
@[simp] theorem State.modifyOpen_au (s : State) (p : Nat) (f : PosEntry → PosEntry) : (s.modifyOpen p f).au = s.au :=
  rfl
@[simp] theorem State.modifyOpen_lc (s : State) (p : Nat) (f : PosEntry → PosEntry) : (s.modifyOpen p f).lc = s.lc :=
  rfl
@[simp] theorem State.modifyOpen_pm (s : State) (p : Nat) (f : PosEntry → PosEntry) : (s.modifyOpen p f).pm = s.pm :=
  rfl

@[simp] theorem State.modifyCounters_sc (s : State) (f : Counters → Counters) : (s.modifyCounters f).sc = s.sc := rfl
@[simp] theorem State.modifyCounters_till (s : State) (f : Counters → Counters) : (s.modifyCounters f).till = s.till :=
  rfl
@[simp] theorem State.modifyCounters_cu (s : State) (f : Counters → Counters) : (s.modifyCounters f).cu = s.cu := rfl
@[simp] theorem State.modifyCounters_br (s : State) (f : Counters → Counters) : (s.modifyCounters f).br = s.br := rfl
@[simp] theorem State.modifyCounters_au (s : State) (f : Counters → Counters) : (s.modifyCounters f).au = s.au := rfl
@[simp] theorem State.modifyCounters_lc (s : State) (f : Counters → Counters) : (s.modifyCounters f).lc = s.lc := rfl
@[simp] theorem State.modifyCounters_pm (s : State) (f : Counters → Counters) : (s.modifyCounters f).pm = s.pm := rfl

@[simp] theorem State.rollBanks_sc (s : State) (q : Nat) : (s.rollBanks q).sc = s.sc := rfl
@[simp] theorem State.rollBanks_till (s : State) (q : Nat) : (s.rollBanks q).till = s.till := rfl
@[simp] theorem State.rollBanks_cu (s : State) (q : Nat) : (s.rollBanks q).cu = s.cu := rfl
@[simp] theorem State.rollBanks_br (s : State) (q : Nat) : (s.rollBanks q).br = s.br := rfl
@[simp] theorem State.rollBanks_au (s : State) (q : Nat) : (s.rollBanks q).au = s.au := rfl
@[simp] theorem State.rollBanks_lc (s : State) (q : Nat) : (s.rollBanks q).lc = s.lc := rfl
@[simp] theorem State.rollBanks_pm (s : State) (q : Nat) : (s.rollBanks q).pm = s.pm := rfl

@[simp] theorem State.modifyCard_sc (s : State) (k : Key) (f : Card → Card) : (s.modifyCard k f).sc = s.sc := rfl
@[simp] theorem State.modifyCard_till (s : State) (k : Key) (f : Card → Card) : (s.modifyCard k f).till = s.till := rfl
@[simp] theorem State.modifyCard_br (s : State) (k : Key) (f : Card → Card) : (s.modifyCard k f).br = s.br := rfl
@[simp] theorem State.modifyCard_au (s : State) (k : Key) (f : Card → Card) : (s.modifyCard k f).au = s.au := rfl
@[simp] theorem State.modifyCard_su (s : State) (k : Key) (f : Card → Card) : (s.modifyCard k f).su = s.su := rfl
@[simp] theorem State.modifyCard_lc (s : State) (k : Key) (f : Card → Card) : (s.modifyCard k f).lc = s.lc := rfl
@[simp] theorem State.modifyCard_pm (s : State) (k : Key) (f : Card → Card) : (s.modifyCard k f).pm = s.pm := rfl

@[simp] theorem State.modifyLedger_sc (s : State) (f : Ledger → Ledger) : (s.modifyLedger f).sc = s.sc := rfl
@[simp] theorem State.modifyLedger_till (s : State) (f : Ledger → Ledger) : (s.modifyLedger f).till = s.till := rfl
@[simp] theorem State.modifyLedger_br (s : State) (f : Ledger → Ledger) : (s.modifyLedger f).br = s.br := rfl
@[simp] theorem State.modifyLedger_au (s : State) (f : Ledger → Ledger) : (s.modifyLedger f).au = s.au := rfl
@[simp] theorem State.modifyLedger_su (s : State) (f : Ledger → Ledger) : (s.modifyLedger f).su = s.su := rfl
@[simp] theorem State.modifyLedger_lc (s : State) (f : Ledger → Ledger) : (s.modifyLedger f).lc = s.lc := rfl
@[simp] theorem State.modifyLedger_pm (s : State) (f : Ledger → Ledger) : (s.modifyLedger f).pm = s.pm := rfl

@[simp] theorem State.setHolds_sc (s : State) (h : List Hold) : (s.setHolds h).sc = s.sc := rfl
@[simp] theorem State.setHolds_till (s : State) (h : List Hold) : (s.setHolds h).till = s.till := rfl
@[simp] theorem State.setHolds_br (s : State) (h : List Hold) : (s.setHolds h).br = s.br := rfl
@[simp] theorem State.setHolds_au (s : State) (h : List Hold) : (s.setHolds h).au = s.au := rfl
@[simp] theorem State.setHolds_su (s : State) (h : List Hold) : (s.setHolds h).su = s.su := rfl
@[simp] theorem State.setHolds_lc (s : State) (h : List Hold) : (s.setHolds h).lc = s.lc := rfl
@[simp] theorem State.setHolds_pm (s : State) (h : List Hold) : (s.setHolds h).pm = s.pm := rfl

@[simp] theorem State.addHold_sc (s : State) (h : Hold) : (s.addHold h).sc = s.sc := rfl
@[simp] theorem State.addHold_till (s : State) (h : Hold) : (s.addHold h).till = s.till := rfl
@[simp] theorem State.addHold_br (s : State) (h : Hold) : (s.addHold h).br = s.br := rfl
@[simp] theorem State.addHold_au (s : State) (h : Hold) : (s.addHold h).au = s.au := rfl
@[simp] theorem State.addHold_su (s : State) (h : Hold) : (s.addHold h).su = s.su := rfl
@[simp] theorem State.addHold_lc (s : State) (h : Hold) : (s.addHold h).lc = s.lc := rfl
@[simp] theorem State.addHold_pm (s : State) (h : Hold) : (s.addHold h).pm = s.pm := rfl

@[simp] theorem State.removeHold_sc (s : State) (id : HoldId) : (s.removeHold id).sc = s.sc := rfl
@[simp] theorem State.removeHold_till (s : State) (id : HoldId) : (s.removeHold id).till = s.till := rfl
@[simp] theorem State.removeHold_br (s : State) (id : HoldId) : (s.removeHold id).br = s.br := rfl
@[simp] theorem State.removeHold_su (s : State) (id : HoldId) : (s.removeHold id).su = s.su := rfl
@[simp] theorem State.removeHold_lc (s : State) (id : HoldId) : (s.removeHold id).lc = s.lc := rfl
@[simp] theorem State.removeHold_pm (s : State) (id : HoldId) : (s.removeHold id).pm = s.pm := rfl

@[simp] theorem State.setAdoption_sc (s : State) (a : Option Adoption) : (s.setAdoption a).sc = s.sc := rfl
@[simp] theorem State.setAdoption_till (s : State) (a : Option Adoption) : (s.setAdoption a).till = s.till := rfl
@[simp] theorem State.setAdoption_br (s : State) (a : Option Adoption) : (s.setAdoption a).br = s.br := rfl
@[simp] theorem State.setAdoption_au (s : State) (a : Option Adoption) : (s.setAdoption a).au = s.au := rfl
@[simp] theorem State.setAdoption_su (s : State) (a : Option Adoption) : (s.setAdoption a).su = s.su := rfl
@[simp] theorem State.setAdoption_lc (s : State) (a : Option Adoption) : (s.setAdoption a).lc = s.lc := rfl
@[simp] theorem State.setAdoption_pm (s : State) (a : Option Adoption) : (s.setAdoption a).pm = s.pm := rfl

@[simp] theorem State.setHandover_sc (s : State) (h : Option Handover) : (s.setHandover h).sc = s.sc := rfl
@[simp] theorem State.setHandover_till (s : State) (h : Option Handover) : (s.setHandover h).till = s.till := rfl
@[simp] theorem State.setHandover_br (s : State) (h : Option Handover) : (s.setHandover h).br = s.br := rfl
@[simp] theorem State.setHandover_au (s : State) (h : Option Handover) : (s.setHandover h).au = s.au := rfl
@[simp] theorem State.setHandover_su (s : State) (h : Option Handover) : (s.setHandover h).su = s.su := rfl
@[simp] theorem State.setHandover_lc (s : State) (h : Option Handover) : (s.setHandover h).lc = s.lc := rfl
@[simp] theorem State.setHandover_pm (s : State) (h : Option Handover) : (s.setHandover h).pm = s.pm := rfl

@[simp] theorem State.setQueue_sc (s : State) (q : List Advice) : (s.setQueue q).sc = s.sc := rfl
@[simp] theorem State.setQueue_till (s : State) (q : List Advice) : (s.setQueue q).till = s.till := rfl
@[simp] theorem State.setQueue_cu (s : State) (q : List Advice) : (s.setQueue q).cu = s.cu := rfl
@[simp] theorem State.setQueue_br (s : State) (q : List Advice) : (s.setQueue q).br = s.br := rfl
@[simp] theorem State.setQueue_su (s : State) (q : List Advice) : (s.setQueue q).su = s.su := rfl
@[simp] theorem State.setQueue_lc (s : State) (q : List Advice) : (s.setQueue q).lc = s.lc := rfl
@[simp] theorem State.setQueue_pm (s : State) (q : List Advice) : (s.setQueue q).pm = s.pm := rfl

@[simp] theorem State.modifyAdvice_sc (s : State) (n : Nat) (f : Advice → Advice) : (s.modifyAdvice n f).sc = s.sc :=
  rfl
@[simp] theorem State.modifyAdvice_till (s : State) (n : Nat) (f : Advice → Advice) : (s.modifyAdvice n f).till = s.till :=
  rfl
@[simp] theorem State.modifyAdvice_cu (s : State) (n : Nat) (f : Advice → Advice) : (s.modifyAdvice n f).cu = s.cu :=
  rfl
@[simp] theorem State.modifyAdvice_br (s : State) (n : Nat) (f : Advice → Advice) : (s.modifyAdvice n f).br = s.br :=
  rfl
@[simp] theorem State.modifyAdvice_su (s : State) (n : Nat) (f : Advice → Advice) : (s.modifyAdvice n f).su = s.su :=
  rfl
@[simp] theorem State.modifyAdvice_lc (s : State) (n : Nat) (f : Advice → Advice) : (s.modifyAdvice n f).lc = s.lc :=
  rfl
@[simp] theorem State.modifyAdvice_pm (s : State) (n : Nat) (f : Advice → Advice) : (s.modifyAdvice n f).pm = s.pm :=
  rfl

@[simp] theorem State.reserve_sc (s : State) : (s.reserve).sc = s.sc := rfl
@[simp] theorem State.reserve_till (s : State) : (s.reserve).till = s.till := rfl
@[simp] theorem State.reserve_cu (s : State) : (s.reserve).cu = s.cu := rfl
@[simp] theorem State.reserve_br (s : State) : (s.reserve).br = s.br := rfl
@[simp] theorem State.reserve_su (s : State) : (s.reserve).su = s.su := rfl
@[simp] theorem State.reserve_lc (s : State) : (s.reserve).lc = s.lc := rfl
@[simp] theorem State.reserve_pm (s : State) : (s.reserve).pm = s.pm := rfl

@[simp] theorem State.releaseReservation_sc (s : State) : (s.releaseReservation).sc = s.sc := rfl
@[simp] theorem State.releaseReservation_till (s : State) : (s.releaseReservation).till = s.till := rfl
@[simp] theorem State.releaseReservation_cu (s : State) : (s.releaseReservation).cu = s.cu := rfl
@[simp] theorem State.releaseReservation_br (s : State) : (s.releaseReservation).br = s.br := rfl
@[simp] theorem State.releaseReservation_su (s : State) : (s.releaseReservation).su = s.su := rfl
@[simp] theorem State.releaseReservation_lc (s : State) : (s.releaseReservation).lc = s.lc := rfl
@[simp] theorem State.releaseReservation_pm (s : State) : (s.releaseReservation).pm = s.pm := rfl

@[simp] theorem State.commitAdvice_sc (s : State) (k : AdviceKind) (t : Txn) : (s.commitAdvice k t).sc = s.sc := rfl
@[simp] theorem State.commitAdvice_till (s : State) (k : AdviceKind) (t : Txn) : (s.commitAdvice k t).till = s.till :=
  rfl
@[simp] theorem State.commitAdvice_cu (s : State) (k : AdviceKind) (t : Txn) : (s.commitAdvice k t).cu = s.cu := rfl
@[simp] theorem State.commitAdvice_br (s : State) (k : AdviceKind) (t : Txn) : (s.commitAdvice k t).br = s.br := rfl
@[simp] theorem State.commitAdvice_su (s : State) (k : AdviceKind) (t : Txn) : (s.commitAdvice k t).su = s.su := rfl
@[simp] theorem State.commitAdvice_lc (s : State) (k : AdviceKind) (t : Txn) : (s.commitAdvice k t).lc = s.lc := rfl
@[simp] theorem State.commitAdvice_pm (s : State) (k : AdviceKind) (t : Txn) : (s.commitAdvice k t).pm = s.pm := rfl

@[simp] theorem State.clearLocal_sc (s : State) : (s.clearLocal).sc = s.sc := rfl
@[simp] theorem State.clearLocal_till (s : State) : (s.clearLocal).till = s.till := rfl
@[simp] theorem State.clearLocal_cu (s : State) : (s.clearLocal).cu = s.cu := rfl
@[simp] theorem State.clearLocal_br (s : State) : (s.clearLocal).br = s.br := rfl
@[simp] theorem State.clearLocal_su (s : State) : (s.clearLocal).su = s.su := rfl
@[simp] theorem State.clearLocal_lc (s : State) : (s.clearLocal).lc = s.lc := rfl
@[simp] theorem State.clearLocal_pm (s : State) : (s.clearLocal).pm = s.pm := rfl

@[simp] theorem State.setTxns_sc (s : State) (t : List Txn) : (s.setTxns t).sc = s.sc := rfl
@[simp] theorem State.setTxns_till (s : State) (t : List Txn) : (s.setTxns t).till = s.till := rfl
@[simp] theorem State.setTxns_cu (s : State) (t : List Txn) : (s.setTxns t).cu = s.cu := rfl
@[simp] theorem State.setTxns_au (s : State) (t : List Txn) : (s.setTxns t).au = s.au := rfl
@[simp] theorem State.setTxns_su (s : State) (t : List Txn) : (s.setTxns t).su = s.su := rfl
@[simp] theorem State.setTxns_lc (s : State) (t : List Txn) : (s.setTxns t).lc = s.lc := rfl
@[simp] theorem State.setTxns_pm (s : State) (t : List Txn) : (s.setTxns t).pm = s.pm := rfl

@[simp] theorem State.modifyTxn_sc (s : State) (n : Nat) (f : Txn → Txn) : (s.modifyTxn n f).sc = s.sc := rfl
@[simp] theorem State.modifyTxn_till (s : State) (n : Nat) (f : Txn → Txn) : (s.modifyTxn n f).till = s.till := rfl
@[simp] theorem State.modifyTxn_cu (s : State) (n : Nat) (f : Txn → Txn) : (s.modifyTxn n f).cu = s.cu := rfl
@[simp] theorem State.modifyTxn_au (s : State) (n : Nat) (f : Txn → Txn) : (s.modifyTxn n f).au = s.au := rfl
@[simp] theorem State.modifyTxn_su (s : State) (n : Nat) (f : Txn → Txn) : (s.modifyTxn n f).su = s.su := rfl
@[simp] theorem State.modifyTxn_lc (s : State) (n : Nat) (f : Txn → Txn) : (s.modifyTxn n f).lc = s.lc := rfl
@[simp] theorem State.modifyTxn_pm (s : State) (n : Nat) (f : Txn → Txn) : (s.modifyTxn n f).pm = s.pm := rfl

@[simp] theorem State.takeReference_sc (s : State) : (s.takeReference).sc = s.sc := rfl
@[simp] theorem State.takeReference_till (s : State) : (s.takeReference).till = s.till := rfl
@[simp] theorem State.takeReference_cu (s : State) : (s.takeReference).cu = s.cu := rfl
@[simp] theorem State.takeReference_au (s : State) : (s.takeReference).au = s.au := rfl
@[simp] theorem State.takeReference_su (s : State) : (s.takeReference).su = s.su := rfl
@[simp] theorem State.takeReference_lc (s : State) : (s.takeReference).lc = s.lc := rfl
@[simp] theorem State.takeReference_pm (s : State) : (s.takeReference).pm = s.pm := rfl

@[simp] theorem State.openTxn_sc (s : State) (t : Txn) : (s.openTxn t).sc = s.sc := rfl
@[simp] theorem State.openTxn_till (s : State) (t : Txn) : (s.openTxn t).till = s.till := rfl
@[simp] theorem State.openTxn_cu (s : State) (t : Txn) : (s.openTxn t).cu = s.cu := rfl
@[simp] theorem State.openTxn_au (s : State) (t : Txn) : (s.openTxn t).au = s.au := rfl
@[simp] theorem State.openTxn_su (s : State) (t : Txn) : (s.openTxn t).su = s.su := rfl
@[simp] theorem State.openTxn_lc (s : State) (t : Txn) : (s.openTxn t).lc = s.lc := rfl
@[simp] theorem State.openTxn_pm (s : State) (t : Txn) : (s.openTxn t).pm = s.pm := rfl

@[simp] theorem State.clockOut_sc (s : State) (b : List Byte) : (s.clockOut b).sc = s.sc := rfl
@[simp] theorem State.clockOut_cu (s : State) (b : List Byte) : (s.clockOut b).cu = s.cu := rfl
@[simp] theorem State.clockOut_br (s : State) (b : List Byte) : (s.clockOut b).br = s.br := rfl
@[simp] theorem State.clockOut_au (s : State) (b : List Byte) : (s.clockOut b).au = s.au := rfl
@[simp] theorem State.clockOut_su (s : State) (b : List Byte) : (s.clockOut b).su = s.su := rfl
@[simp] theorem State.clockOut_lc (s : State) (b : List Byte) : (s.clockOut b).lc = s.lc := rfl
@[simp] theorem State.clockOut_pm (s : State) (b : List Byte) : (s.clockOut b).pm = s.pm := rfl

@[simp] theorem State.popRequest_sc (s : State) (r : List Request) : (s.popRequest r).sc = s.sc := rfl
@[simp] theorem State.popRequest_cu (s : State) (r : List Request) : (s.popRequest r).cu = s.cu := rfl
@[simp] theorem State.popRequest_br (s : State) (r : List Request) : (s.popRequest r).br = s.br := rfl
@[simp] theorem State.popRequest_au (s : State) (r : List Request) : (s.popRequest r).au = s.au := rfl
@[simp] theorem State.popRequest_su (s : State) (r : List Request) : (s.popRequest r).su = s.su := rfl
@[simp] theorem State.popRequest_lc (s : State) (r : List Request) : (s.popRequest r).lc = s.lc := rfl
@[simp] theorem State.popRequest_pm (s : State) (r : List Request) : (s.popRequest r).pm = s.pm := rfl

@[simp] theorem State.placeReport_sc (s : State) (r : Record) : (s.placeReport r).sc = s.sc := rfl
@[simp] theorem State.placeReport_cu (s : State) (r : Record) : (s.placeReport r).cu = s.cu := rfl
@[simp] theorem State.placeReport_br (s : State) (r : Record) : (s.placeReport r).br = s.br := rfl
@[simp] theorem State.placeReport_au (s : State) (r : Record) : (s.placeReport r).au = s.au := rfl
@[simp] theorem State.placeReport_su (s : State) (r : Record) : (s.placeReport r).su = s.su := rfl
@[simp] theorem State.placeReport_lc (s : State) (r : Record) : (s.placeReport r).lc = s.lc := rfl
@[simp] theorem State.placeReport_pm (s : State) (r : Record) : (s.placeReport r).pm = s.pm := rfl

@[simp] theorem State.reach_sc (s : State) (t : Nat) : (s.reach t).sc = s.sc := rfl
@[simp] theorem State.reach_till (s : State) (t : Nat) : (s.reach t).till = s.till := rfl
@[simp] theorem State.reach_cu (s : State) (t : Nat) : (s.reach t).cu = s.cu := rfl
@[simp] theorem State.reach_br (s : State) (t : Nat) : (s.reach t).br = s.br := rfl
@[simp] theorem State.reach_au (s : State) (t : Nat) : (s.reach t).au = s.au := rfl
@[simp] theorem State.reach_su (s : State) (t : Nat) : (s.reach t).su = s.su := rfl
@[simp] theorem State.reach_lc (s : State) (t : Nat) : (s.reach t).lc = s.lc := rfl
@[simp] theorem State.reach_pm (s : State) (t : Nat) : (s.reach t).pm = s.pm := rfl

@[simp] theorem State.useFree_sc (s : State) (k : Nat) : (s.useFree k).sc = s.sc := rfl
@[simp] theorem State.useFree_till (s : State) (k : Nat) : (s.useFree k).till = s.till := rfl
@[simp] theorem State.useFree_cu (s : State) (k : Nat) : (s.useFree k).cu = s.cu := rfl
@[simp] theorem State.useFree_br (s : State) (k : Nat) : (s.useFree k).br = s.br := rfl
@[simp] theorem State.useFree_au (s : State) (k : Nat) : (s.useFree k).au = s.au := rfl
@[simp] theorem State.useFree_su (s : State) (k : Nat) : (s.useFree k).su = s.su := rfl
@[simp] theorem State.useFree_lc (s : State) (k : Nat) : (s.useFree k).lc = s.lc := rfl
@[simp] theorem State.useFree_pm (s : State) (k : Nat) : (s.useFree k).pm = s.pm := rfl

@[simp] theorem State.winLine_sc (s : State) (f : OutFrame) : (s.winLine f).sc = s.sc := rfl
@[simp] theorem State.winLine_till (s : State) (f : OutFrame) : (s.winLine f).till = s.till := rfl
@[simp] theorem State.winLine_cu (s : State) (f : OutFrame) : (s.winLine f).cu = s.cu := rfl
@[simp] theorem State.winLine_br (s : State) (f : OutFrame) : (s.winLine f).br = s.br := rfl
@[simp] theorem State.winLine_au (s : State) (f : OutFrame) : (s.winLine f).au = s.au := rfl
@[simp] theorem State.winLine_su (s : State) (f : OutFrame) : (s.winLine f).su = s.su := rfl
@[simp] theorem State.winLine_pm (s : State) (f : OutFrame) : (s.winLine f).pm = s.pm := rfl

@[simp] theorem State.setActivity_sc (s : State) (a : LineActivity) : (s.setActivity a).sc = s.sc := rfl
@[simp] theorem State.setActivity_till (s : State) (a : LineActivity) : (s.setActivity a).till = s.till := rfl
@[simp] theorem State.setActivity_cu (s : State) (a : LineActivity) : (s.setActivity a).cu = s.cu := rfl
@[simp] theorem State.setActivity_br (s : State) (a : LineActivity) : (s.setActivity a).br = s.br := rfl
@[simp] theorem State.setActivity_au (s : State) (a : LineActivity) : (s.setActivity a).au = s.au := rfl
@[simp] theorem State.setActivity_su (s : State) (a : LineActivity) : (s.setActivity a).su = s.su := rfl
@[simp] theorem State.setActivity_pm (s : State) (a : LineActivity) : (s.setActivity a).pm = s.pm := rfl

@[simp] theorem State.lineBusy_sc (s : State) : (s.lineBusy).sc = s.sc := rfl
@[simp] theorem State.lineBusy_till (s : State) : (s.lineBusy).till = s.till := rfl
@[simp] theorem State.lineBusy_cu (s : State) : (s.lineBusy).cu = s.cu := rfl
@[simp] theorem State.lineBusy_br (s : State) : (s.lineBusy).br = s.br := rfl
@[simp] theorem State.lineBusy_au (s : State) : (s.lineBusy).au = s.au := rfl
@[simp] theorem State.lineBusy_su (s : State) : (s.lineBusy).su = s.su := rfl
@[simp] theorem State.lineBusy_pm (s : State) : (s.lineBusy).pm = s.pm := rfl

@[simp] theorem State.judgeWindow_sc (s : State) (t : Nat) : (s.judgeWindow t).sc = s.sc := rfl
@[simp] theorem State.judgeWindow_till (s : State) (t : Nat) : (s.judgeWindow t).till = s.till := rfl
@[simp] theorem State.judgeWindow_cu (s : State) (t : Nat) : (s.judgeWindow t).cu = s.cu := rfl
@[simp] theorem State.judgeWindow_br (s : State) (t : Nat) : (s.judgeWindow t).br = s.br := rfl
@[simp] theorem State.judgeWindow_au (s : State) (t : Nat) : (s.judgeWindow t).au = s.au := rfl
@[simp] theorem State.judgeWindow_su (s : State) (t : Nat) : (s.judgeWindow t).su = s.su := rfl
@[simp] theorem State.judgeWindow_lc (s : State) (t : Nat) : (s.judgeWindow t).lc = s.lc := rfl

@[simp] theorem State.countFrame_sc (s : State) : (s.countFrame).sc = s.sc := rfl
@[simp] theorem State.countFrame_till (s : State) : (s.countFrame).till = s.till := rfl
@[simp] theorem State.countFrame_cu (s : State) : (s.countFrame).cu = s.cu := rfl
@[simp] theorem State.countFrame_br (s : State) : (s.countFrame).br = s.br := rfl
@[simp] theorem State.countFrame_au (s : State) : (s.countFrame).au = s.au := rfl
@[simp] theorem State.countFrame_su (s : State) : (s.countFrame).su = s.su := rfl
@[simp] theorem State.countFrame_lc (s : State) : (s.countFrame).lc = s.lc := rfl

@[simp] theorem State.restartBeacon_sc (s : State) : (s.restartBeacon).sc = s.sc := rfl
@[simp] theorem State.restartBeacon_till (s : State) : (s.restartBeacon).till = s.till := rfl
@[simp] theorem State.restartBeacon_cu (s : State) : (s.restartBeacon).cu = s.cu := rfl
@[simp] theorem State.restartBeacon_br (s : State) : (s.restartBeacon).br = s.br := rfl
@[simp] theorem State.restartBeacon_au (s : State) : (s.restartBeacon).au = s.au := rfl
@[simp] theorem State.restartBeacon_su (s : State) : (s.restartBeacon).su = s.su := rfl
@[simp] theorem State.restartBeacon_lc (s : State) : (s.restartBeacon).lc = s.lc := rfl

@[simp] theorem State.clash_sc (s : State) (c k d : Nat) : (s.clash c k d).sc = s.sc := rfl
@[simp] theorem State.clash_till (s : State) (c k d : Nat) : (s.clash c k d).till = s.till := rfl
@[simp] theorem State.clash_cu (s : State) (c k d : Nat) : (s.clash c k d).cu = s.cu := rfl
@[simp] theorem State.clash_br (s : State) (c k d : Nat) : (s.clash c k d).br = s.br := rfl
@[simp] theorem State.clash_au (s : State) (c k d : Nat) : (s.clash c k d).au = s.au := rfl
@[simp] theorem State.clash_su (s : State) (c k d : Nat) : (s.clash c k d).su = s.su := rfl
@[simp] theorem State.clash_pm (s : State) (c k d : Nat) : (s.clash c k d).pm = s.pm := rfl

@[simp] theorem State.withInbound_sc (s : State) (q : List InFrame) : (s.withInbound q).sc = s.sc := rfl
@[simp] theorem State.withInbound_till (s : State) (q : List InFrame) : (s.withInbound q).till = s.till := rfl
@[simp] theorem State.withInbound_cu (s : State) (q : List InFrame) : (s.withInbound q).cu = s.cu := rfl
@[simp] theorem State.withInbound_br (s : State) (q : List InFrame) : (s.withInbound q).br = s.br := rfl
@[simp] theorem State.withInbound_au (s : State) (q : List InFrame) : (s.withInbound q).au = s.au := rfl
@[simp] theorem State.withInbound_su (s : State) (q : List InFrame) : (s.withInbound q).su = s.su := rfl
@[simp] theorem State.withInbound_pm (s : State) (q : List InFrame) : (s.withInbound q).pm = s.pm := rfl

@[simp] theorem State.answered_sc (s : State) (l : List Request) (x : Record) : (s.answered l x).sc = s.sc := rfl
@[simp] theorem State.answered_cu (s : State) (l : List Request) (x : Record) : (s.answered l x).cu = s.cu := rfl
@[simp] theorem State.answered_br (s : State) (l : List Request) (x : Record) : (s.answered l x).br = s.br := rfl
@[simp] theorem State.answered_au (s : State) (l : List Request) (x : Record) : (s.answered l x).au = s.au := rfl
@[simp] theorem State.answered_su (s : State) (l : List Request) (x : Record) : (s.answered l x).su = s.su := rfl
@[simp] theorem State.answered_lc (s : State) (l : List Request) (x : Record) : (s.answered l x).lc = s.lc := rfl
@[simp] theorem State.answered_pm (s : State) (l : List Request) (x : Record) : (s.answered l x).pm = s.pm := rfl

@[simp] theorem State.withTxn_sc (s : State) (t : Txn) : (s.withTxn t).sc = s.sc := rfl
@[simp] theorem State.withTxn_till (s : State) (t : Txn) : (s.withTxn t).till = s.till := rfl
@[simp] theorem State.withTxn_cu (s : State) (t : Txn) : (s.withTxn t).cu = s.cu := rfl
@[simp] theorem State.withTxn_au (s : State) (t : Txn) : (s.withTxn t).au = s.au := rfl
@[simp] theorem State.withTxn_su (s : State) (t : Txn) : (s.withTxn t).su = s.su := rfl
@[simp] theorem State.withTxn_lc (s : State) (t : Txn) : (s.withTxn t).lc = s.lc := rfl
@[simp] theorem State.withTxn_pm (s : State) (t : Txn) : (s.withTxn t).pm = s.pm := rfl

@[simp] theorem State.withoutTxn_sc (s : State) (n : Nat) : (s.withoutTxn n).sc = s.sc := rfl
@[simp] theorem State.withoutTxn_till (s : State) (n : Nat) : (s.withoutTxn n).till = s.till := rfl
@[simp] theorem State.withoutTxn_cu (s : State) (n : Nat) : (s.withoutTxn n).cu = s.cu := rfl
@[simp] theorem State.withoutTxn_au (s : State) (n : Nat) : (s.withoutTxn n).au = s.au := rfl
@[simp] theorem State.withoutTxn_su (s : State) (n : Nat) : (s.withoutTxn n).su = s.su := rfl
@[simp] theorem State.withoutTxn_lc (s : State) (n : Nat) : (s.withoutTxn n).lc = s.lc := rfl
@[simp] theorem State.withoutTxn_pm (s : State) (n : Nat) : (s.withoutTxn n).pm = s.pm := rfl

end Sys2Proof.Machine
end

