-- ==== Sys2Proof/Laws/Settle.lean ====
section
/-! SUPPORT. The end of a step: what `settle` can do is what its single reactions can do. -/
namespace Sys2Proof.Machine

/-- The eight things that can be due. -/
theorem State.react_cases {s t : State} (h : s.react = some t) :
    s.reactVoid = some t ∨ s.reactStatementPlaced = some t ∨ s.reactDrain = some t ∨ s.reactRound = some t
    ∨ s.reactTransfer = some t ∨ s.reactApply = some t ∨ s.reactSend = some t ∨ s.reactStatement = some t := by
  simp only [State.react, Option.orElse_eq_orElse, Option.orElse_eq_or, Option.or_eq_some_iff] at h
  tauto

/-- What every reaction keeps, `settle` keeps. -/
theorem settleWith_keeps {P : State → Prop} (h : ∀ s t, P s → s.react = some t → P t) (fuel : Nat) {s : State} (hs : P s) :
    P (settleWith fuel s) := by
  induction fuel generalizing s with
  | zero => exact hs
  | succ n ih =>
    unfold settleWith
    split
    · rename_i t ht; exact ih (h s t hs ht)
    · exact hs

theorem State.settle_keeps {P : State → Prop} (h : ∀ s t, P s → s.react = some t → P t) {s : State} (hs : P s) :
    P s.settle := settleWith_keeps h 4096 hs

/-- Where nothing is due, `settle` changes nothing. -/
theorem State.settle_quiet {s : State} (h : s.react = none) : s.settle = s := by
  simp [State.settle, settleWith, h]

/-- An event keeps what its effect keeps. -/
theorem State.event_keeps {P : State → Prop} {s : State} {f : State → State} (hs : P s) (hf : s.live = true → P (f s)) :
    P (s.event f) := by
  unfold State.event
  split
  · rename_i h; exact hf h
  · exact hs

end Sys2Proof.Machine
end

