-- ==== Sys2Proof/Laws/Custody.lean ====
section
/-! SUPPORT. Held and available amounts, the ACTIVE sum, and what the shared operations of the Custody Unit do to them. -/
namespace Sys2Proof.Machine

/-! ### Held amounts -/

@[simp] theorem heldOn_append (l m : List Hold) (k : Key) : heldOn (l ++ m) k = heldOn l k + heldOn m k :=
  sumOf_append _ l m

/-- Entries that leave the table lower held amounts only (R37, R42, R50). -/
theorem heldOn_filter_le (p : Hold → Bool) (l : List Hold) (k : Key) : heldOn (l.filter p) k ≤ heldOn l k :=
  sumOf_filter_le _ p l

/-- A CAPTURED entry holds nothing. -/
theorem heldOn_captured {h : Hold} (hc : h.state = .captured) (k : Key) : heldOn [h] k = 0 := by
  simp [heldOn, sumOf, hc]

/-- A HELD redemption holds its amount on its own card. -/
theorem heldOn_held {h : Hold} (hs : h.state = .held) (hk : h.kind = .redemption) : heldOn [h] h.key = h.amount := by
  simp [heldOn, sumOf, hs, hk]

/-- A hold in the table is within its card's held amount. -/
theorem le_heldOn {l : List Hold} {h : Hold} (hm : h ∈ l) (hs : h.state = .held) (hk : h.kind = .redemption) :
    h.amount ≤ heldOn l h.key := by
  have hle := le_sumOf (fun x => if x.key = h.key && x.state = .held && x.kind = .redemption then x.amount else 0) hm
  have he : (if h.key = h.key && h.state = .held && h.kind = .redemption then h.amount else 0) = h.amount := by
    simp [hs, hk]
  exact he ▸ hle

/-- Entries turned CAPTURED hold nothing more. -/
theorem heldOn_update_le {l : List Hold} {p : Hold → Bool} {f : Hold → Hold}
    (hf : ∀ h ∈ l, p h = true → (f h).state = .captured) (k : Key) : heldOn (updateWhere p f l) k ≤ heldOn l k := by
  induction l with
  | nil => simp [updateWhere]
  | cons h l ih =>
    have hl := ih fun x hx => hf x (by simp [hx])
    unfold heldOn updateWhere at hl ⊢
    simp only [List.map_cons, sumOf]
    by_cases hp : p h = true
    · have hz : (f h).state ≠ .held := by rw [hf h (by simp) hp]; decide
      have he : (if (f h).key = k && (f h).state = .held && (f h).kind = .redemption then (f h).amount else 0) = 0 := by
        simp [hz]
      rw [if_pos hp, he]
      omega
    · rw [if_neg hp]
      omega

/-! ### The ACTIVE sum -/

@[simp] theorem activeSum_append (l m : List Card) : activeSum (l ++ m) = activeSum l + activeSum m := sumOf_append _ l m

/-- Records that are not ACTIVE leave without lowering the sum (R12, R125). -/
theorem activeSum_filter {l : List Card} {p : Card → Bool} (h : ∀ r ∈ l, p r = false → r.state = .active → r.balance = 0) :
    activeSum (l.filter p) = activeSum l := by
  induction l with
  | nil => rfl
  | cons r l ih =>
    have hl := ih fun x hx => h x (by simp [hx])
    unfold activeSum at hl ⊢
    by_cases hp : p r = true
    · simp [hp, sumOf, hl]
    · have hz := h r (by simp) (by simpa using hp)
      have hr : (if r.state = CardState.active then r.balance else 0) = 0 := by split <;> simp_all
      rw [List.filter_cons_of_neg hp, hl, sumOf, hr, Nat.zero_add]

/-- What an ACTIVE card is worth, the sum is at least. -/
theorem le_activeSum {l : List Card} {r : Card} (hm : r ∈ l) (ha : r.state = .active) : r.balance ≤ activeSum l := by
  have hle := le_sumOf (fun x : Card => if x.state = .active then x.balance else 0) hm
  simp only [ha, if_true] at hle
  exact hle

/-! ### Available amounts -/

/-- What is available on a card is within its balance. -/
theorem Custody.available_le {c : Custody} {k : Key} {r : Card} (h : c.served k = some r) : c.available k ≤ r.balance := by
  unfold Custody.available
  rw [h]
  simp only
  split <;> omega

/-- Without a record here nothing is available (R44). -/
theorem Custody.available_none {c : Custody} {k : Key} (h : c.served k = none) : c.available k = 0 := by
  simp [Custody.available, h]

/-- A served record is in the register, under its key, and not PENDING-ADOPT (R3, R6). -/
theorem Custody.served_some {c : Custody} {k : Key} {r : Card} (h : c.served k = some r) :
    r ∈ c.cards ∧ r.key = k ∧ r.state ≠ .pendingAdopt := by
  have hm := List.mem_of_find?_eq_some h
  have hp := List.find?_some h
  simp only [Bool.and_eq_true, decide_eq_true_eq] at hp
  exact ⟨hm, hp.1, hp.2⟩

/-! ### A free slot (R7) -/

/-- Where room is made, the state is unchanged or has lost the record reclaimed, and has a free slot. -/
theorem State.makeRoom_some {s t : State} (h : s.makeRoom = some t) :
    (t = s ∧ s.cu.cards.length < Config.cardSlots)
    ∨ ∃ r, s.reclaimChoice = some r ∧ t = s.setCu { s.cu with cards := s.cu.cards.filter fun x => x.key ≠ r.key } := by
  unfold State.makeRoom at h
  split at h
  · rename_i hl
    exact Or.inl ⟨(Option.some.inj h).symm, hl⟩
  · split at h
    · rename_i r hr
      exact Or.inr ⟨r, hr, (Option.some.inj h).symm⟩
    · simp at h

/-- The best of a list is one of its members. -/
theorem bestOf_mem {l : List Card} {r : Card} (h : bestOf l = some r) : r ∈ l := by
  induction l generalizing r with
  | nil => simp [bestOf] at h
  | cons x l ih =>
    unfold bestOf at h
    split at h
    · simp only [Option.some.injEq] at h; simp [h]
    · rename_i b hb
      split at h
      · simp only [Option.some.injEq] at h; subst h; simp [ih hb]
      · simp only [Option.some.injEq] at h; simp [h]

/-- A record is reclaimed only where it is a candidate (R7): CLOSED, or ACTIVE with balance 0. -/
theorem State.reclaimChoice_some {s : State} {r : Card} (h : s.reclaimChoice = some r) :
    r ∈ s.cu.cards ∧ (r.state = .closed ∨ r.state = .active ∧ r.balance = 0) := by
  have hm := List.mem_filter.mp (bestOf_mem h)
  refine ⟨hm.1, ?_⟩
  have hr := hm.2
  simp only [State.reclaimable, Bool.or_eq_true, Bool.and_eq_true, decide_eq_true_eq] at hr
  rcases hr with hr | hr
  · exact Or.inl hr
  · exact Or.inr hr.1

/-! ### Postings -/

/-- The Settlement Unit's part of a posting touches its own block alone. -/
theorem State.postHome_frame (s : State) (p amount : Nat) :
    let t := (s.postHome p amount).1
    t.sc = s.sc ∧ t.till = s.till ∧ t.cu = s.cu ∧ t.br = s.br ∧ t.au = s.au ∧ t.lc = s.lc ∧ t.pm = s.pm ∧ t.now = s.now
      ∧ t.free = s.free ∧ t.pending = s.pending := by
  by_cases h : p = s.own <;> simp only [State.postHome, h, if_true, if_false] <;>
    exact ⟨rfl, rfl, rfl, rfl, rfl, rfl, rfl, rfl, rfl, rfl⟩

/-- A posting's Custody part: the balance, the activity and lifetime redemptions (R39, R44). -/
theorem State.postRedemption_cu (s : State) (p : Nat) (k : Key) (amount : Nat) :
    (s.postRedemption p k amount).1.cu = { s.cu with
      cards := updateWhere (fun r => r.key = k) (fun r => r.act (r.balance - amount) s.su.openPeriod) s.cu.cards
      ledger := { s.cu.ledger with redeemed := s.cu.ledger.redeemed + amount } } :=
  (State.postHome_frame _ p amount).2.2.1

/-- A posting does not touch the other blocks but the Settlement Unit. -/
theorem State.postRedemption_frame (s : State) (p : Nat) (k : Key) (amount : Nat) :
    let t := (s.postRedemption p k amount).1
    t.sc = s.sc ∧ t.till = s.till ∧ t.br = s.br ∧ t.au = s.au ∧ t.lc = s.lc ∧ t.pm = s.pm ∧ t.now = s.now
      ∧ t.free = s.free ∧ t.pending = s.pending := by
  have h := State.postHome_frame
    ((s.modifyCard k fun r => r.act (r.balance - amount) s.su.openPeriod).modifyLedger fun l =>
      { l with redeemed := l.redeemed + amount }) p amount
  exact ⟨h.1, h.2.1, h.2.2.2.1, h.2.2.2.2.1, h.2.2.2.2.2.1, h.2.2.2.2.2.2.1, h.2.2.2.2.2.2.2.1, h.2.2.2.2.2.2.2.2.1,
    h.2.2.2.2.2.2.2.2.2⟩

/-- What an AUTH does (R35, R36): it answers and changes nothing, or it places one HELD hold of at most what is
available on an ACTIVE card. -/
theorem State.serveAuth_cases (s : State) (p reference : Nat) (k : Key) (amount : Nat) :
    (s.serveAuth p reference k amount).1 = s
    ∨ (∃ r, s.cu.served k = some r ∧ r.state ≠ .closed) ∧ amount ≤ s.cu.available k ∧ s.cu.holds.length < Config.holdSlots
      ∧ s.handing = false
      ∧ (s.serveAuth p reference k amount).1 = s.addHold
          { id := s.freshHoldId, kind := .redemption, key := k, amount, station := p, reference, state := .held,
            timer := s.holdExpiry } := by
  cases hf : s.holdFor p reference with
  | some h => left; simp [State.serveAuth, hf]
  | none =>
    cases hs : s.cu.served k with
    | none => left; simp [State.serveAuth, hf, hs]
    | some r =>
      by_cases hc : r.state = .closed
      · left; simp [State.serveAuth, hf, hs, hc]
      · by_cases hb : (s.holdsFull || s.handing) = true
        · left; simp only [State.serveAuth, hf, hs, if_neg hc, if_pos hb]
        · by_cases ha : s.cu.available k < amount
          · left; simp only [State.serveAuth, hf, hs, if_neg hc, if_neg hb, if_pos ha]
          · right
            have hb' : s.holdsFull = false ∧ s.handing = false := by simpa using hb
            refine ⟨⟨r, rfl, hc⟩, by omega, ?_, hb'.2, ?_⟩
            · simpa [State.holdsFull] using hb'.1
            · simp only [State.serveAuth, hf, hs, if_neg hc, if_neg hb, if_neg ha]

end Sys2Proof.Machine
end

