-- ==== Sys2Proof/Laws/Settlement.lean ====
section
/-! SUPPORT. Booking by stamp and closing, said once: what each can do to the banks and what it leaves alone. -/
namespace Sys2Proof.Machine

/-- No posting on an entry without the saturated mark changes its status. -/
@[simp] theorem StatementStatus.afterPosting_clear {e : PosEntry} (h : e.saturated = false) (st : StatementStatus) :
    st.afterPosting e = st := by simp [StatementStatus.afterPosting, h]

/-- An entry with the mark is SATURATED, its send status as it was (R103, log 45). -/
@[simp] theorem StatementStatus.afterPosting_marked {e : PosEntry} (h : e.saturated = true) (st : StatementStatus) :
    st.afterPosting e = { st with compare := .saturated, part := none } := by simp [StatementStatus.afterPosting, h]

/-- A posting changes the Settlement Unit alone, and neither the open period nor a lifetime record, counter, latch, send or
window of it. -/
def State.BanksOnly (s t : State) : Prop :=
  t = s.setSu { s.su with entries := t.su.entries, closing := t.su.closing }

theorem State.modifyOpen_banksOnly (s : State) (p : Nat) (f : PosEntry → PosEntry) : s.BanksOnly (s.modifyOpen p f) := rfl

theorem State.modifyClosing_banksOnly (s : State) (p : Nat) (f : PosEntry → PosEntry) : s.BanksOnly (s.modifyClosing p f) := by
  unfold State.modifyClosing
  split
  · rfl
  · rfl

theorem State.bookByStamp_banksOnly (s : State) (p stamp : Nat) (f late : PosEntry → PosEntry) :
    s.BanksOnly (s.bookByStamp p stamp f late) := by
  unfold State.bookByStamp
  split
  · exact s.modifyOpen_banksOnly _ _
  split
  · exact s.modifyClosing_banksOnly _ _
  · exact s.modifyOpen_banksOnly _ _

/-- A period that is not above the open one closes nothing (R98). -/
theorem State.catchUp_of_le {s : State} {q : Nat} (h : q ≤ s.su.openPeriod) : s.catchUp q = s := by
  simp [State.catchUp, Nat.not_lt.mpr h]

/-- A failing handover leaves the banks alone. -/
theorem State.failHandover_su (s : State) (c : FailCause) (n : Nat) : (s.failHandover c n).su = s.su := by
  unfold State.failHandover
  split
  · rfl
  · simp only [State.clearLocal, State.answer, State.setHandover]
    split
    · rfl
    · exact ((s.dropRequests_lineOnly _).trans ((s.dropRequests _).hand_lineOnly _ _)).su

/-- What a finished round makes the Custody Unit do leaves the banks alone. -/
theorem State.roundNotice_su (s : State) (period : Nat) : (s.roundNotice period).su = s.su := by
  unfold State.roundNotice
  split
  · split
    · unfold State.enterOffering
      split
      · rfl
      · dsimp only
        split
        · exact (State.hand_lineOnly _ _ _).su
        · exact State.failHandover_su _ _ _
    · rfl
  · rfl

/-- A finished round leaves the open bank and the open period. -/
theorem State.finishRound_openPeriod (s : State) : s.finishRound.su.openPeriod = s.su.openPeriod := by
  unfold State.finishRound
  split
  · rfl
  · rw [State.roundNotice_su]
    unfold State.dropStatement
    split <;> rfl

/-- A close makes its period the open one (R99). -/
theorem State.closeTo_openPeriod (s : State) (q : Nat) : (s.closeTo q).su.openPeriod = q := by
  have rolled : ∀ t : State, (if (t.rollBanks q).onLine then (t.rollBanks q).broadcast (.close q) else t.rollBanks q).su.openPeriod
      = q := by
    intro t
    split
    · rw [(State.broadcast_lineOnly _ _).su]; rfl
    · rfl
  unfold State.closeTo
  dsimp only
  split
  · split
    · rw [State.finishRound_openPeriod]; exact rolled _
    · exact rolled _
  · exact rolled _

end Sys2Proof.Machine
end

