-- ==== Sys2Proof/Laws/Steps.lean ====
section
/-! SUPPORT. When a request or an inbound frame is taken, said once for every step that takes one. -/
namespace Sys2Proof.Machine

@[simp] theorem ReqKind.ofCode_code (k : ReqKind) : ReqKind.ofCode k.code = some k := by cases k <;> rfl

/-- A record of the code and length of a kind is of that kind. -/
theorem Request.kind?_of {r : Request} {k : ReqKind} (hc : r.kind = k.code) (hl : r.fields.length = k.length) :
    r.kind? = some k := by simp [Request.kind?, hc, hl]

/-- The conditions of intake hold. -/
theorem State.HeadIs.open {s : State} {k r rest} (h : s.HeadIs k r rest) : s.intakeOpen = true := by
  simp [State.intakeOpen, h.1, h.2.1, h.2.2.1]

/-- A request that its state serves goes to its owner with a slot reserved (R173). -/
theorem State.intake_serves {s : State} {k r rest} (h : s.Serves k r rest) (f : State → Request → State) :
    s.intake k f = f (s.popRequest rest) r := by
  have hk := Request.kind?_of h.1.2.2.2.2.1 h.1.2.2.2.2.2
  simp [State.intake, h.1.2.2.2.1, h.1.open, hk, h.2]

/-- A request that its state does not serve is refused WRONG-STATE (R176). -/
theorem State.intake_refuses {s : State} {k r rest} (h : s.HeadIs k r rest) (hn : k.served s.sc.station = false)
    (f : State → Request → State) :
    s.intake k f = (s.popRequest rest).answer (declinedRecord k r.tag .wrongState) := by
  have hk := Request.kind?_of h.2.2.2.2.1 h.2.2.2.2.2
  simp [State.intake, h.2.2.2.1, h.open, hk, hn]

/-- A slot reserved and filled in one step (R173, R174). -/
@[simp] theorem State.popRequest_answer (s : State) (rest : List Request) (x : Record) :
    (s.popRequest rest).answer x = s.answered rest x := by
  simp [State.popRequest, State.answer, State.answered, State.setTill]

/-- The step of a request takes place in a live station. -/
theorem State.event_live {s : State} (h : s.live = true) (f : State → State) : s.event f = f s := by
  simp [State.event, h]

/-- Nothing takes place in WARNED and RETAIN. -/
theorem State.event_dead {s : State} (h : s.live = false) (f : State → State) : s.event f = s := by
  simp [State.event, h]

/-- RETAIN is entered with the warning asserted (R184, R185). -/
theorem State.enterRetain_asserted {s : State} (h : s.sc.returned = none) (o : DepartureOutcome) :
    s.enterRetain o = s.retained o := by simp [State.enterRetain, h]

/-- RETAIN is entered with the warning found deasserted, and ends at once (R185). -/
theorem State.enterRetain_deasserted {s : State} {x : SupplyPins} (h : s.sc.returned = some x) (o : DepartureOutcome) :
    s.enterRetain o = (s.retained o).endRetain x := by simp [State.enterRetain, h]

/-- The first element that satisfies a test, behind elements that do not. -/
theorem takeFirst_append {α : Type} {p : α → Bool} {x : α} {before after : List α} (hb : ∀ y ∈ before, p y = false)
    (hx : p x = true) : takeFirst p (before ++ x :: after) = some (x, before ++ after) := by
  induction before with
  | nil => simp [takeFirst, hx]
  | cons y l ih =>
    have hy : p y = false := hb y (by simp)
    have hl : ∀ z ∈ l, p z = false := fun z hz => hb z (by simp [hz])
    simp [takeFirst, hy, ih hl]

/-- A block that is ready takes its oldest frame (R148). -/
theorem State.takeFrame_holds {s : State} {o src m before after} (h : s.Holds o src m before after) {kind : Nat}
    (hk : m.kind = kind) {ready : Bool} (hr : ready = true) (serve : State → Nat → Msg → State) :
    s.takeFrame o kind ready serve = serve (s.withInbound (before ++ after)) src m := by
  have ht : takeFirst (fun f : InFrame => decide (f.msg.owner = o)) s.lc.inbound
      = some ({ source := src, msg := m }, before ++ after) := by
    rw [h.2.1]
    exact takeFirst_append (fun y hy => by simpa using h.2.2.1 y hy) (by simpa using h.2.2.2)
  simp only [State.takeFrame]
  rw [ht]
  simp [h.1, hk, hr, State.withInbound]

end Sys2Proof.Machine
end

