-- ==== Sys2Proof/Tests/Slice0.lean ====
section
/-! SUPPORT. The model's own tests: ill-formed commands that the well-formedness check refuses, worked figures of the
manual, small steps, and for every obligation a state and operands that meet its hypotheses. -/
namespace Sys2Proof.Tests
open Sys2Proof.Machine

-- One theorem after another: each kernel evaluation below would otherwise hold a thread of its own.
set_option Elab.async false

/-! ### Ill-formed commands -/

theorem test_wellFormed_peekOfWrite : (Instr.peek 1#8).wellFormed = false := by decide +kernel
theorem test_wellFormed_peekOfRead : (Instr.peek 2#8).wellFormed = false := by decide +kernel
theorem test_wellFormed_restartAddress : (Instr.restart ⟨256, 0, false⟩).wellFormed = false := by decide +kernel
theorem test_wellFormed_restartRate : (Instr.restart ⟨61, 4, false⟩).wellFormed = false := by decide +kernel
theorem test_wellFormed_supplyReturnAddress : (Instr.supplyReturn ⟨256, 0, false⟩ true).wellFormed = false := by decide +kernel
theorem test_wellFormed_powerUpRate : (Instr.powerUp ⟨61, 4, false⟩ true).wellFormed = false := by decide +kernel
theorem test_wellFormed_resetPinAddress : (Instr.resetPin ⟨300, 0, true⟩ false).wellFormed = false := by decide +kernel
theorem test_wellFormed_heardTooLong : (Instr.frameHeard (List.replicate 499 true)).wellFormed = false := by decide +kernel
theorem test_wellFormed_discardTooLong : (Instr.frameDiscarded (.levels (List.replicate 499 true))).wellFormed = false := by
  decide +kernel
theorem test_wellFormed_ownTooLong : (Instr.heardOwn (List.replicate 499 true)).wellFormed = false := by decide +kernel
theorem test_wellFormed_rivalClass : (Instr.busFree .busFree (.rival 4 61)).wellFormed = false := by decide +kernel
theorem test_wellFormed_rivalSource : (Instr.busFree .busFree (.rival 0 240)).wellFormed = false := by decide +kernel
theorem test_wellFormed_holdStart : (Instr.holdExpiry ⟨256, 1⟩).wellFormed = false := by decide +kernel
theorem test_wellFormed_retentionCounter : (Instr.retentionEnd ⟨0, 0⟩).wellFormed = false := by decide +kernel
theorem test_wellFormed_replyReference : (Instr.replyTimeout 0).wellFormed = false := by decide +kernel
theorem test_wellFormed_abandonReference : (Instr.abandonmentTimer 65536).wellFormed = false := by decide +kernel
theorem test_wellFormed_adviceReference : (Instr.adviceReplyTimeout 0).wellFormed = false := by decide +kernel
theorem test_wellFormed_pauseStation : (Instr.pauseEnd 240).wellFormed = false := by decide +kernel
theorem test_wellFormed_quietStation : (Instr.quiet 0).wellFormed = false := by decide +kernel
theorem test_wellFormed_absentStation : (Instr.absent 255).wellFormed = false := by decide +kernel
theorem test_wellFormed_accepts : (Instr.busFree .idleBit (.rival 3 239)).wellFormed = true := by decide +kernel

/-! ### Worked figures of the manual -/

/-- Spec 01, section 1.1. -/
theorem test_checkValues : checkValue 42 317 = 97 ∧ checkValue 42 99999 = 79 ∧ checkValue 42 3 = 24 ∧ (CardNo.make 42 317).valid = true
    ∧ (CardNo.valid { home := 42, serial := 317, check := 98 }) = false := by decide +kernel

/-- Spec 02, section 2.8: three postings at 175 basis points carry their remainders. -/
theorem test_feeCarry :
    let l1 := Lifetime.charge {} 175 1999
    let l2 := l1.charge 175 2500
    feeOf 175 {} 1999 = 34 ∧ l1.remainder = 9825 ∧ feeOf 175 l1 2500 = 44 ∧ l2.remainder = 7325 ∧ feeOf 175 l2 60 = 1
      ∧ l2.charge 175 60 = { remainder := 7825, gross := 4559, fee := 79, saturated := false } := by decide +kernel

/-- Spec 02, sections 2.9 and 2.10: NET toward two peers and the payout figure. -/
theorem test_netAndPayout :
    let e88 : PosEntry := { gi := 4559, fi := 79, ci := 1200, gr := 3000, fr := 45 }
    let e130 : PosEntry := { gi := 700, fi := 12, gr := 1926, fr := 28 }
    e88.net = -325 ∧ e130.net = 1210 ∧ payoutFigure [(88, e88), (130, e130)] = 794 := by decide +kernel

/-- Spec 02, section 2.11: a forced posting of 2,000 with 1,100 available. -/
theorem test_forcedPosting :
    let l : Lifetime := { remainder := 7825, gross := 4559, fee := 79, saturated := false }
    feeOf 175 l 1100 = 20 ∧ (l.charge 175 1100).remainder = 325 ∧ (l.charge 175 1100).gross = 5659
      ∧ (l.charge 175 1100).fee = 99 := by decide +kernel

/-- R137, R138: a frame of station 61 is received as it was sent. -/
theorem test_frameRoundTrip :
    let f : RawFrame := { cls := 2, source := 61, dest := 255, kind := 13, sequence := 9, payload := toBytes 4 7 }
    receive f.levels = .frame f := by decide +kernel

/-- R137: no four recessive bits in a row leave the station between the flags. -/
theorem test_stuffing : stuff 0 [true, true, true, true] = [true, true, true, false, true] := by decide +kernel

/-- R137: what a sender puts on the line begins with a flag and ends with a recessive slot and a flag. -/
theorem test_sentLevels :
    let f : RawFrame := { cls := 2, source := 61, dest := 255, kind := 13, sequence := 9, payload := toBytes 4 7 }
    f.sentLevels.take 6 = [false, true, true, true, true, false]
      ∧ f.sentLevels.drop (6 + f.levels.length) = [true, false, true, true, true, true, false] := by decide +kernel

/-- R25: a sum past its bound is set to the bound and marks the entry; the mark stays. -/
theorem test_saturation :
    let e : PosEntry := { gi := 1099511627765, giN := 16777215 }
    (e.postHome 10 0).gi = 1099511627775 ∧ (e.postHome 10 0).giN = 16777215 ∧ (e.postHome 10 0).saturated = true
      ∧ ((e.postHome 10 0).bookCredit 5).saturated = true ∧ (({ e with giN := 0 } : PosEntry).postHome 10 0).saturated = false
      ∧ (({ e with giN := 0 } : PosEntry).postHome 11 0).saturated = true
      ∧ (({ lateFee := 1099511627775 } : PosEntry).bookLate 0 1 0).saturated = true := by decide +kernel

/-! ### States for the witnesses -/

/-- A card held at station 42, its closed neighbour, a card of the PRESENT peer 61 and one of the ABSENT peer 77. -/
def here : CardNo := CardNo.make 42 317
def shut : CardNo := CardNo.make 42 318
def far : CardNo := CardNo.make 61 500
def lost : CardNo := CardNo.make 77 12

/-- Station 42, JOINED. -/
def station : State where
  sc := { straps := { address := 42, rate := 0, clear := false }, station := .joined, storedAddress := some 42 }
  cu := {
    cards := [{ key := here.key, state := .active, balance := 5000, issuePeriod := 1, lastActivity := 1, activity := 1 },
      { key := shut.key, state := .closed, balance := 0, issuePeriod := 1, lastActivity := 1, activity := 2 }]
    ledger := { issued := 7000, cashedOut := 2000 }
    nextSerial := 319 }
  lc := { activity := .free }
  pm := {
    peers := [(61, { presence := .present, lastHeard := some 0 }), (77, { presence := .absent })]
    window := some 1000
    beaconFrom := some 0 }

/-- The request record of a kind, with the till's tag 7. -/
def req (k : ReqKind) (fields : List Byte) : Request := { kind := k.code, tag := 7, fields }

/-- A state whose request queue holds one record. -/
def asked (s : State) (k : ReqKind) (fields : List Byte) : State := s.setTill { s.till with requests := [req k fields] }

/-- A state in another station state. -/
def inState (s : State) (x : StationState) : State := s.setSc { s.sc with station := x }

/-- A state whose inbound queue holds one frame. -/
def framed (s : State) (src : Nat) (m : Msg) : State := s.setLc { s.lc with inbound := [{ source := src, msg := m }] }

/-- A card number and an amount in a request record. -/
def cardAmount (c : CardNo) (amount : Nat) : List Byte := cardToTill c ++ toBytes 4 amount

/-! ### Witnesses: the till port and the card requests -/

/-- One record, and eight of them. -/
def oneResult : State := station.setTill { station.till with results := [{ kind := 15, tag := 3 }] }
def fullRequests : State := station.setTill { station.till with requests := List.replicate 8 (req .status []) }

theorem witness_WriteCompletes :
    station.live = true ∧ (2#8).toNat ≤ [1#8, 2#8].length ∧ station.till.requests.length < 8
    ∧ fullRequests.live = true ∧ 8 ≤ fullRequests.till.requests.length ∧ [1#8].length < (2#8).toNat
    ∧ ([] : List Byte).length < 3 ∧ [1#8, 1#8].length < 3 ∧ (inState station .retain).live = false := by decide +kernel

theorem witness_ReadAndPeekComplete :
    oneResult.live = true ∧ oneResult.till.results = [{ kind := 15, tag := 3 }]
    ∧ (Record.bytes { kind := 15, tag := 3 }).length ≤ 6 ∧ 5 < (Record.bytes { kind := 15, tag := 3 }).length
    ∧ station.till.results = [] ∧ (inState station .retain).live = false := by decide +kernel

/-- A JOIN asked for of a JOINED station, and a record of no kind. -/
def joinAgain : State := asked station .join []
def badKind : Request := { kind := 17, tag := 7, fields := [] }

/-- A BALANCE of no card number asked for of a HALTED station. -/
def badInHalted : State := asked (inState station .halted) .balance (List.replicate 10 0#8)

theorem witness_RequestsRefusedAtIntake :
    joinAgain.HeadIs .join (req .join []) [] ∧ ReqKind.join.served joinAgain.sc.station = false
    ∧ badInHalted.HeadIs .balance (req .balance (List.replicate 10 0#8)) []
    ∧ ReqKind.balance.served badInHalted.sc.station = false ∧ cardFromTill (List.replicate 10 0#8) = none := by decide +kernel

theorem witness_RequestsRefusedAtIntake_badValue :
    let s := station.setTill { station.till with requests := [badKind] }
    s.live = true ∧ s.slotFree = true ∧ s.sourceWaits = false ∧ s.till.requests = [badKind]
    ∧ ∀ k : ReqKind, badKind.kind = k.code → badKind.fields.length ≠ k.length := by
  refine ⟨by decide, by decide, by decide, rfl, ?_⟩
  intro k; cases k <;> decide

/-- An ISSUE with a free slot, of nothing, and with every slot promised. -/
def issueOf (amount : Nat) : State := asked station .issue (toBytes 4 amount)
def promised : State :=
  let s := issueOf 100
  s.setCu { s.cu with adoption := some { station := 61, homes := [61], count := 6144, total := 0, toCome := 6143,
                                         fault := false, idle := 10000 } }

theorem witness_IssueCompletes :
    (issueOf 100).Serves .issue (req .issue (toBytes 4 100)) [] ∧ 0 < fieldAt (req .issue (toBytes 4 100)).fields 0 4
    ∧ fieldAt (toBytes 4 100) 0 4 ≤ (issueOf 100).sc.config.cardCap
    ∧ fieldAt (toBytes 4 100) 0 4 ≤ (issueOf 100).cu.ledger.headroom ∧ (issueOf 100).slotsPromised = false
    ∧ (issueOf 100).cu.cards.length < 6144
    ∧ (issueOf 0).Serves .issue (req .issue (toBytes 4 0)) [] ∧ fieldAt (toBytes 4 0) 0 4 = 0
    ∧ promised.Serves .issue (req .issue (toBytes 4 100)) [] ∧ promised.slotsPromised = true := by decide +kernel

/-- R7: of two CLOSED cards and a dormant one, the CLOSED one with the lower serial is reclaimed; cards in use are not. -/
theorem test_reclaimChoice :
    let card (serial : Nat) (state : CardState) (balance : Nat) : Card :=
      { key := { home := 42, serial }, state, balance, issuePeriod := 1, lastActivity := 1, activity := 1 }
    let s (l : List Card) : State :=
      (station.setSu { station.su with openPeriod := 31 }).setCu { station.cu with cards := l }
    (s [card 4 .active 0, card 9 .closed 0, card 7 .closed 0]).reclaimChoice = some (card 7 .closed 0)
      ∧ (s [card 4 .active 5, card 9 .active 0]).reclaimChoice = some (card 9 .active 0)
      ∧ (s [card 4 .active 5, card 9 .pendingAdopt 0]).reclaimChoice = none := by decide +kernel

/-- BALANCE, CREDIT and CASHOUT of the cards at station 42. -/
def balanceOf (c : CardNo) : State := asked station .balance (cardToTill c)
def creditOf (c : CardNo) (amount : Nat) : State := asked station .credit (cardAmount c amount)
def cashoutOf (c : CardNo) : State := asked station .cashout (cardToTill c)
def hereCard : Card :=
  { key := here.key, state := .active, balance := 5000, issuePeriod := 1, lastActivity := 1, activity := 1 }

theorem witness_BalanceCreditAndCashoutHereComplete :
    (balanceOf here).Serves .balance (req .balance (cardToTill here)) [] ∧ cardFromTill (cardToTill here) = some here
    ∧ (balanceOf here).isHere here.home = true ∧ (balanceOf here).cu.served here.key = some hereCard
    ∧ (balanceOf shut).Serves .balance (req .balance (cardToTill shut)) []
    ∧ ((balanceOf shut).cu.served shut.key).map (·.state) = some .closed
    ∧ cardFromTill (cardToTill (CardNo.make 42 5)) = some (CardNo.make 42 5)
    ∧ (balanceOf (CardNo.make 42 5)).cu.served (CardNo.make 42 5).key = none
    ∧ (creditOf here 95000).Serves .credit (req .credit (cardAmount here 95000)) []
    ∧ cardFromTill ((cardAmount here 95000).take 10) = some here ∧ fieldAt (cardAmount here 95000) 10 4 = 95000
    ∧ 95000 ≤ (creditOf here 95000).sc.config.cardCap - hereCard.balance
    ∧ 95000 ≤ (creditOf here 95000).cu.ledger.headroom
    ∧ (cashoutOf here).Serves .cashout (req .cashout (cardToTill here)) [] ∧ (cashoutOf here).cu.holds = [] := by decide +kernel

/-- The request queue of a state holds one record, which is served. -/
def asks (s : State) (k : ReqKind) (fields : List Byte) : Bool := decide ((asked s k fields).Serves k (req k fields) [])
/-- A number that fails R1 in each of the four requests. -/
def wrongNumber : List Byte := toDigits 10 420031798
theorem witness_BalanceCreditAndCashoutHereComplete_badNumber :
    let amount := wrongNumber ++ toBytes 4 100
    asks station .balance wrongNumber ∧ asks station .redeem amount ∧ asks station .credit amount
    ∧ asks station .cashout wrongNumber
    ∧ cardFromTill (wrongNumber.take 10) = none ∧ cardFromTill (amount.take 10) = none
    ∧ cardFromTill (toDigits 10 420031797) = some here := by decide +kernel

/-- CREDITs and CASHOUTs that a test of R11 or R12 refuses. -/
theorem witness_BalanceCreditAndCashoutHereComplete_refusals :
    let unknown := CardNo.make 42 5
    let hold : Hold := { id := ⟨0, 1⟩, kind := .redemption, key := here.key, amount := 900, station := 61, reference := 5,
                         state := .held, timer := 120000 }
    let held := station.setCu { station.cu with holds := [hold] }
    asks station .credit (cardAmount here 0) ∧ asks station .credit (cardAmount here 100001)
    ∧ asks station .credit (cardAmount here 95001) ∧ asks station .credit (cardAmount shut 100)
    ∧ asks station .credit (cardAmount unknown 100) ∧ asks (inState station .handingOver) .credit (cardAmount here 100)
    ∧ station.cu.served unknown.key = none ∧ cardFromTill ((cardAmount unknown 100).take 10) = some unknown
    ∧ (station.cu.served shut.key).map (·.state) = some .closed ∧ fieldAt (cardAmount here 95001) 10 4 = 95001
    ∧ min (station.sc.config.cardCap - hereCard.balance) (9223372036854775807 - 7000) = 95000
    ∧ station.cu.ledger.issued = 7000
    ∧ asks station .cashout (cardToTill far) ∧ station.isHere far.home = false
    ∧ asks station .cashout (cardToTill unknown)
    ∧ asks station .cashout (cardToTill shut) ∧ asks (inState station .handingOver) .cashout (cardToTill here)
    ∧ asks held .cashout (cardToTill here) ∧ held.cu.holds = [hold] ∧ hold.key = here.key := by decide +kernel

/-- A transaction table with no FREE slot. -/
def someTxn (n : Nat) : Txn :=
  { reference := n, tag := 1, kind := .enquire, card := far, amount := 0, approved := 0, target := some 61, mode := .normal,
    replyTimeout := 800, attempts := 3, state := .enquireWait }
def noSlot (s : State) : State := s.setBr { s.br with txns := (List.range 16).map fun n => someTxn (n + 100) }

theorem witness_RemoteBalanceAndCreditComplete :
    (balanceOf far).Serves .balance (req .balance (cardToTill far)) [] ∧ cardFromTill (cardToTill far) = some far
    ∧ (balanceOf far).isHere far.home = false ∧ (balanceOf far).br.txns.length < 16
    ∧ (balanceOf far).txnFor (balanceOf far).freshReference = none
    ∧ ((balanceOf far).peerAt ((balanceOf far).custodianOf far.home)).presence.reachable = true
    ∧ (creditOf far 100).Serves .credit (req .credit (cardAmount far 100)) []
    ∧ cardFromTill ((cardAmount far 100).take 10) = some far ∧ fieldAt (cardAmount far 100) 10 4 = 100
    ∧ (noSlot (balanceOf far)).Serves .balance (req .balance (cardToTill far)) []
    ∧ 16 ≤ (noSlot (balanceOf far)).br.txns.length
    ∧ (balanceOf lost).Serves .balance (req .balance (cardToTill lost)) []
    ∧ ((balanceOf lost).peerAt ((balanceOf lost).custodianOf lost.home)).presence.reachable = false
    ∧ (creditOf lost 100).Serves .credit (req .credit (cardAmount lost 100)) [] := by decide +kernel

/-- BALANCE and CREDIT for another station's card outside JOINED, a CREDIT of nothing and one with no FREE slot. -/
theorem witness_RemoteBalanceAndCreditComplete_refusals :
    asks (inState station .listening) .balance (cardToTill far)
    ∧ asks (inState station .listening) .credit (cardAmount far 100) ∧ asks station .credit (cardAmount far 0)
    ∧ asks (noSlot station) .credit (cardAmount far 100) ∧ 16 ≤ (noSlot station).br.txns.length := by decide +kernel

/-- REDEEMs of cards here, of peer 61 and of the ABSENT peer 77. -/
def redeemOf (c : CardNo) (amount : Nat) : State := asked station .redeem (cardAmount c amount)
def noPlace (s : State) : State := s.setAu { s.au with reservations := 64 }

theorem witness_RedeemCompletes :
    let s := redeemOf here 5000
    let f := redeemOf far 100
    let l (amount : Nat) := redeemOf lost amount
    s.Serves .redeem (req .redeem (cardAmount here 5000)) [] ∧ cardFromTill ((cardAmount here 5000).take 10) = some here
    ∧ s.isHere here.home = true ∧ fieldAt (cardAmount here 5000) 10 4 = 5000 ∧ s.br.txns.length < 16
    ∧ s.holdFor s.own s.freshReference = none ∧ s.cu.holds.length < 96 ∧ s.cu.served here.key = some hereCard
    ∧ 5000 ≤ hereCard.balance - heldOn s.cu.holds here.key
    ∧ f.Serves .redeem (req .redeem (cardAmount far 100)) [] ∧ cardFromTill ((cardAmount far 100).take 10) = some far
    ∧ f.isHere far.home = false ∧ f.txnFor f.freshReference = none ∧ f.au.queue.length + f.au.reservations < 64
    ∧ (f.peerAt (f.custodianOf far.home)).presence.reachable = true
    ∧ (noPlace f).Serves .redeem (req .redeem (cardAmount far 100)) []
    ∧ 64 ≤ (noPlace f).au.queue.length + (noPlace f).au.reservations
    ∧ (l 2500).Serves .redeem (req .redeem (cardAmount lost 2500)) []
    ∧ ((l 2500).peerAt ((l 2500).custodianOf lost.home)).presence.reachable = false
    ∧ (l 2500).cardLimit ≠ 0 ∧ (l 2500).outstandingCard lost.key + 2500 ≤ (l 2500).cardLimit
    ∧ (l 2500).outstandingHome lost.home + 2500 ≤ (l 2500).budget
    ∧ (l 2501).Serves .redeem (req .redeem (cardAmount lost 2501)) []
    ∧ (l 2501).cardLimit < (l 2501).outstandingCard lost.key + 2501 := by decide +kernel

/-- REDEEMs that a test of R57 or the Custody Unit refuses. -/
theorem witness_RedeemCompletes_refusals :
    let unknown := CardNo.make 42 5
    let entry : Hold := { id := ⟨0, 1⟩, kind := .redemption, key := here.key, amount := 0, station := 61, reference := 5,
                          state := .captured, timer := 90000 }
    let full := station.setCu { station.cu with holds := List.replicate 96 entry }
    asks (inState station .listening) .redeem (cardAmount far 100) ∧ station.isHere far.home = false
    ∧ asks station .redeem (cardAmount here 0) ∧ asks station .redeem (cardAmount here 100001)
    ∧ asks (noSlot station) .redeem (cardAmount here 100) ∧ 16 ≤ (noSlot station).br.txns.length
    ∧ asks station .redeem (cardAmount unknown 100) ∧ cardFromTill ((cardAmount unknown 100).take 10) = some unknown
    ∧ station.cu.served unknown.key = none ∧ station.isHere unknown.home = true
    ∧ station.holdFor station.own station.freshReference = none
    ∧ asks station .redeem (cardAmount shut 100) ∧ (station.cu.served shut.key).map (·.state) = some .closed
    ∧ asks full .redeem (cardAmount here 100) ∧ 96 ≤ full.cu.holds.length
    ∧ full.holdFor full.own full.freshReference = none ∧ asks (inState station .handingOver) .redeem (cardAmount here 100)
    ∧ asks station .redeem (cardAmount here 5001) ∧ station.cu.holds.length < 96
    ∧ hereCard.balance - heldOn station.cu.holds here.key < 5001 := by decide +kernel

/-- Transactions that wait for the till: on a hold here, on a hold of peer 61, in stand-in. -/
def localTxn : Txn :=
  { reference := 5, tag := 4, kind := .redeem, card := here, amount := 900, approved := 900, target := none,
    hold := some ⟨0, 1⟩, mode := .normal, replyTimeout := 800, attempts := 3, timer := some 120000, state := .localHeld }
def remoteTxn : Txn :=
  { reference := 6, tag := 5, kind := .redeem, card := far, amount := 900, approved := 900, target := some 61,
    hold := some ⟨2, 9⟩, mode := .normal, replyTimeout := 800, attempts := 3, timer := some 120000, state := .remoteHeld }
def standinTxn : Txn :=
  { reference := 7, tag := 6, kind := .redeem, card := lost, amount := 900, approved := 900, target := some 77,
    mode := .normal, replyTimeout := 800, attempts := 3, timer := some 120000, state := .standinHeld }
def localHold : Hold :=
  { id := ⟨0, 1⟩, kind := .redemption, key := here.key, amount := 900, station := 42, reference := 5, state := .held,
    timer := 120000 }
def waiting : State :=
  let s := station.setBr { station.br with txns := [localTxn, remoteTxn, standinTxn], refCounter := 8 }
  (s.setCu { s.cu with holds := [localHold], holdCounter := 2 }).setAu { s.au with reservations := 2 }
def completeIn (s : State) (reference final : Nat) : State := asked s .complete (toBytes 2 reference ++ toBytes 4 final)
def completeOf (reference final : Nat) : State := completeIn waiting reference final
/-- The hold of the local transaction has gone; nor has its card anything; every slot is taken; the station departs. -/
def holdGone : State := waiting.setCu { waiting.cu with holds := [] }
def nothingLeft : State := holdGone.setCu { holdGone.cu with cards := [] }
def noHoldSlot : State := holdGone.setCu { holdGone.cu with holds := List.replicate 96 { localHold with reference := 99 } }
def voidOf (reference : Nat) : State := asked waiting .void (toBytes 2 reference)
/-- An outbound queue of 24 frames: 6 CREDIT-REPLY frames, and 18 RELEASE frames behind them. -/
def fullOutbound : List OutFrame := (List.range 24).map fun n =>
  { ticket := n, dest := 61, msg := if n < 6 then .creditReply 1 0 0 0 else .release far ⟨0, 1⟩ 1 }
def lineFull (s : State) : State := s.setLc { s.lc with outbound := fullOutbound, nextTicket := 24 }

theorem witness_CompleteCompletes :
    (completeOf 5 900).Serves .complete (req .complete (toBytes 2 5 ++ toBytes 4 900)) []
    ∧ fieldAt (toBytes 2 5 ++ toBytes 4 900) 0 2 = localTxn.reference ∧ (completeOf 5 900).HeldTxn localTxn .localHeld
    ∧ localTxn.ticket = none ∧ fieldAt (toBytes 2 5 ++ toBytes 4 900) 2 4 = localTxn.amount
    ∧ (completeOf 5 900).holdNamed localTxn.holdId (completeOf 5 900).own localTxn.reference localTxn.card.key
      = some localHold ∧ localHold.state = .held ∧ 0 < localHold.amount
    ∧ (completeOf 6 1).Serves .complete (req .complete (toBytes 2 6 ++ toBytes 4 1)) []
    ∧ (completeOf 6 1).HeldTxn remoteTxn .remoteHeld ∧ remoteTxn.target = some 61
    ∧ (completeOf 7 800).Serves .complete (req .complete (toBytes 2 7 ++ toBytes 4 800)) []
    ∧ (completeOf 7 800).HeldTxn standinTxn .standinHeld ∧ standinTxn.ticket = none := by decide +kernel

theorem witness_CompleteCompletes_holdGone :
    (completeIn holdGone 5 900).Serves .complete (req .complete (toBytes 2 5 ++ toBytes 4 900)) []
    ∧ (completeIn holdGone 5 900).HeldTxn localTxn .localHeld
    ∧ (completeIn holdGone 5 900).holdFor 42 5 = none ∧ (completeIn holdGone 5 900).cu.holds.length < 96
    ∧ 0 < min 900 ((completeIn holdGone 5 900).cu.available here.key)
    ∧ (completeIn nothingLeft 5 900).Serves .complete (req .complete (toBytes 2 5 ++ toBytes 4 900)) []
    ∧ (completeIn nothingLeft 5 900).holdFor 42 5 = none
    ∧ min 900 ((completeIn nothingLeft 5 900).cu.available here.key) = 0
    ∧ (completeIn noHoldSlot 5 900).Serves .complete (req .complete (toBytes 2 5 ++ toBytes 4 900)) []
    ∧ (completeIn noHoldSlot 5 900).holdFor 42 5 = none ∧ 96 ≤ (completeIn noHoldSlot 5 900).cu.holds.length
    ∧ (completeIn (inState holdGone .handingOver) 5 900).Serves .complete (req .complete (toBytes 2 5 ++ toBytes 4 900)) [] := by
  decide +kernel

theorem witness_CompleteCompletes_refusals :
    (completeOf 9 900).Serves .complete (req .complete (toBytes 2 9 ++ toBytes 4 900)) [] ∧ (completeOf 9 900).txnFor 9 = none
    ∧ (completeOf 5 901).Serves .complete (req .complete (toBytes 2 5 ++ toBytes 4 901)) [] ∧ localTxn.amount < 901
    ∧ (completeOf 5 0).Serves .complete (req .complete (toBytes 2 5 ++ toBytes 4 0)) []
    ∧ (completeIn (noSlot waiting) 100 1).Serves .complete (req .complete (toBytes 2 100 ++ toBytes 4 1)) []
    ∧ (completeIn (noSlot waiting) 100 1).txnFor 100 = some (someTxn 100) ∧ (someTxn 100).kind ≠ .redeem := by decide +kernel

theorem witness_VoidCompletes :
    (voidOf 5).Serves .void (req .void (toBytes 2 5)) [] ∧ fieldAt (toBytes 2 5) 0 2 = localTxn.reference
    ∧ (voidOf 5).HeldTxn localTxn .localHeld
    ∧ (voidOf 5).holdNamed localTxn.holdId (voidOf 5).own localTxn.reference localTxn.card.key = some localHold
    ∧ (voidOf 6).Serves .void (req .void (toBytes 2 6)) [] ∧ (voidOf 6).HeldTxn remoteTxn .remoteHeld
    ∧ (voidOf 6).lc.hasRoom 1 = true ∧ (∀ f ∈ (voidOf 6).lc.waitList, f.ticket ≠ (voidOf 6).ticket)
    ∧ (voidOf 7).Serves .void (req .void (toBytes 2 7)) [] ∧ (voidOf 7).HeldTxn standinTxn .standinHeld
    ∧ (lineFull (voidOf 6)).Serves .void (req .void (toBytes 2 6)) [] ∧ (lineFull (voidOf 6)).HeldTxn remoteTxn .remoteHeld
    ∧ (lineFull (voidOf 6)).lc.hasRoom 1 = false := by decide +kernel

/-- R72: a COMPLETE that meets HOME-BUSY takes its final amount, and the ABANDONED report names the amount approved. -/
theorem test_abandonedNamesTheApprovedAmount :
    let s := completeIn (inState holdGone .handingOver) 5 700
    let t := (s.intake .complete State.serveComplete).txnFor 5
    t.map (·.amount) = some 700 ∧ t.map (·.approved) = some 900
      ∧ t.map (fun t => (abandonedRecord t).fields) = some (toBytes 2 5 ++ toBytes 4 900 ++ toBytes 1 1) := by decide +kernel

/-! ### Witnesses: control requests, starts and reports -/

/-- A CLOSE PERIOD with and without activity, and at the last period. -/
def active61 : State := station.setSu { station.su with entries := [(61, { gr := 100, grN := 1 })] }
def lastPeriod (s : State) : State := s.setSu { s.su with openPeriod := 4294967295 }

theorem witness_ClosePeriodMovesTheOpenBank :
    (asked active61 .closePeriod []).Serves .closePeriod (req .closePeriod []) []
    ∧ (asked active61 .closePeriod []).su.openPeriod < 4294967295
    ∧ (asked (lastPeriod station) .closePeriod []).Serves .closePeriod (req .closePeriod []) []
    ∧ 4294967295 ≤ (asked (lastPeriod station) .closePeriod []).su.openPeriod
    ∧ active61.su.closing = none ∧ (∃ e ∈ active61.su.entries, e.2.active = true)
    ∧ station.su.closing = none ∧ station.cu.handover = none ∧ station.su.sending = none
    ∧ (∀ e ∈ station.su.entries, e.2.active = false) := by decide +kernel

/-- A HANDOVER to peer 61, to no station, and to the ABSENT peer 77. -/
def handoverTo (c : Nat) : State := asked station .handover (toBytes 1 c)

theorem witness_HandoverRequestCompletes :
    (handoverTo 61).Serves .handover (req .handover (toBytes 1 61)) [] ∧ fieldAt (toBytes 1 61) 0 1 = 61
    ∧ (handoverTo 61).sc.station = .joined ∧ (61 : Nat) ≠ (handoverTo 61).own
    ∧ ((handoverTo 61).peerAt 61).presence = .present ∧ (handoverTo 61).br.txns = [] ∧ (handoverTo 61).cu.adoption = none
    ∧ (handoverTo 61).su.openPeriod < 4294967295
    ∧ (handoverTo 42).Serves .handover (req .handover (toBytes 1 42)) [] ∧ (handoverTo 42).own = 42
    ∧ (handoverTo 77).Serves .handover (req .handover (toBytes 1 77)) []
    ∧ ((handoverTo 77).peerAt 77).presence ≠ .present := by decide +kernel

theorem witness_ReadingsChangeNothingElse :
    (asked station .status []).Serves .status (req .status []) []
    ∧ (asked station .peer [239#8]).Serves .peer (req .peer [239#8]) [] ∧ fieldAt [239#8] 0 1 = 239
    ∧ (asked station .peer [240#8]).Serves .peer (req .peer [240#8]) [] ∧ fieldAt [240#8] 0 1 = 240
    ∧ (asked station .readPosition [61#8, 0#8]).Serves .readPosition (req .readPosition [61#8, 0#8]) []
    ∧ fieldAt [61#8, 0#8] 0 1 = 61 ∧ fieldAt [61#8, 0#8] 1 1 = 0
    ∧ (asked station .readPosition [61#8, 1#8]).Serves .readPosition (req .readPosition [61#8, 1#8]) []
    ∧ fieldAt [61#8, 1#8] 1 1 = 1
    ∧ (asked station .readPosition [61#8, 2#8]).Serves .readPosition (req .readPosition [61#8, 2#8]) []
    ∧ 1 < fieldAt [61#8, 2#8] 1 1
    ∧ (asked station .readFloat []).Serves .readFloat (req .readFloat []) [] := by decide +kernel

/-- R82, R157: an advice in delivery to peer 61 counts there though its home's custodian is now 77; a waiting one counts for
77, and a settled one too (log 61). -/
theorem test_peerCountsTheCurrentTarget :
    let a (state : AdviceState) : Advice :=
      { kind := .standin, card := far, amount := 900, reference := 9, hold := none, state, lastTarget := some 61 }
    let s := station.setPm { station.pm with homeMap := [{ home := 61, custodian := 77, learned := some 5 }] }
    s.currentTarget (a .inDelivery) = 61 ∧ s.currentTarget (a .waiting) = 77 ∧ s.currentTarget (a .settled) = 77 := by
  decide +kernel

/-- A CONFIGURE of zeros. -/
def zeros : List Byte := List.replicate 50 0#8
def unjoined : State := inState station .unjoined

theorem witness_ConfigureAndJoinComplete :
    (asked unjoined .configure zeros).Serves .configure (req .configure zeros) []
    ∧ (asked unjoined .join []).Serves .join (req .join []) [] := by decide +kernel

/-- R189: the four pins stand in the bytes 42 to 49, the last custodian in byte 49; an empty place is no pin. -/
theorem test_pinPlaces :
    pinPlaces (List.replicate 42 9#8 ++ [130#8, 61#8, 0#8, 0#8, 131#8, 0#8, 132#8, 77#8])
      = [⟨20, 130, 61⟩, ⟨22, 131, 0⟩, ⟨23, 132, 77⟩] := by decide +kernel

/-- R189: values of one, two and four bytes are read most significant byte first, and the two entries of a clamp list. -/
theorem test_configureFields :
    let f := toBytes 4 999 ++ toBytes 2 150 ++ toBytes 1 30 ++ List.replicate 43 0#8
    let c := ConfigRecord.ofFields f
    c.cardCap = 999 ∧ c.feeRate = 150 ∧ c.dormancy = 30
      ∧ clampEntries 1 [999, 150, 30] [1000, 150, 31] = [⟨1, 999, 1000⟩, ⟨3, 30, 31⟩]
      ∧ clampFields [⟨1, 999, 1000⟩] = [1#8, 1#8, 0#8, 0#8, 3#8, 231#8, 0#8, 0#8, 3#8, 232#8] := by decide +kernel

/-- Any record written, and one in its ranges and relations: the defaults of the manual. -/
theorem witness_ConfiguredValuesAreInRange :
    (∀ r ∈ station.cu.cards, r.state = .active → r.balance ≤ 10000000)
    ∧ (let w : ConfigRecord := {}
      1000 ≤ w.cardCap ∧ w.cardCap ≤ 10000000 ∧ station.highestActive ≤ w.cardCap ∧ w.feeRate ≤ 1000 ∧ 1 ≤ w.dormancy
      ∧ w.dormancy ≤ 255 ∧ 30 ≤ w.holdExpiry ∧ w.holdExpiry ≤ 900 ∧ 100 ≤ w.normalReply ∧ w.normalReply ≤ w.busyReply
      ∧ w.busyReply ≤ 5000 ∧ 10 ≤ w.retention ∧ w.retention ≤ 900 ∧ 3 * w.busyReply ≤ w.retention * 1000
      ∧ 1 ≤ w.normalAttempts ∧ w.normalAttempts ≤ 5 ∧ 1 ≤ w.busyAttempts ∧ w.busyAttempts ≤ 5
      ∧ w.normalBudget ≤ 1000000 ∧ w.normalLimit ≤ w.cardCap ∧ w.normalLimit ≤ w.normalBudget
      ∧ station.largestHome ≤ w.busyBudget ∧ w.busyBudget ≤ 1000000 ∧ station.largestCard ≤ w.busyLimit
      ∧ w.busyLimit ≤ w.cardCap ∧ w.busyLimit ≤ w.busyBudget ∧ 1 ≤ w.beaconInterval ∧ w.beaconInterval ≤ 30
      ∧ w.upper ≤ 4000 ∧ w.lower < w.upper ∧ 1 ≤ w.dwell ∧ w.dwell ≤ 15 ∧ 10 ≤ w.statementWindow
      ∧ w.statementWindow ≤ 600 ∧ 5 ≤ w.pauseTime ∧ w.pauseTime ≤ 255 ∧ station.adjust w = w) := by decide +kernel

/-- A station in RETAIN with a stop record. -/
def straps42 : Straps := { address := 42, rate := 0, clear := false }
def retained : State := station.setSc { station.sc with
  station := .retain, supply := .warned, stopRecord := some { state := .joined, outcome := .sent } }

theorem witness_WarmStartsKeepTheRetainedStore :
    straps42.clear = false ∧ station.sc.storeValid = true ∧ station.sc.station ≠ .retain ∧ station.sc.supply = .normal
    ∧ (asked station .restart []).Serves .restart (req .restart []) []
    ∧ retained.sc.station = .retain ∧ retained.sc.storeValid = true
    ∧ retained.sc.stopRecord = some { state := .joined, outcome := .sent } := by decide +kernel

theorem witness_ColdStartsClearEverything :
    ({ straps42 with clear := true } : Straps).clear = true ∧ station.sc.station ≠ .retain ∧ station.sc.supply = .normal
    ∧ (asked station .restart []).Serves .restart (req .restart []) [] ∧ retained.sc.station = .retain
    ∧ (let leaving := station.setSc { station.sc with supply := .warned }
      leaving.sc.station ≠ .retain ∧ leaving.sc.supply = .warned) := by decide +kernel

/-- Report sources that wait. -/
def somePayout : Payout := Closing.payout { period := 1, entries := [], status := [], counters := {} }
def settledAdvice : Advice :=
  { kind := .standin, card := far, amount := 100, reference := 9, hold := none, state := .settled
    settled := some { status := 8, figures := { posted := 100, net := 100, stamp := 1 }, station := 61, late := false } }
def someRecord : Record := { kind := 38, fields := [1#8, 2#8] }

theorem witness_ReportsArePlacedInTheirOrder :
    let paying := station.setTill { station.till with payouts := [somePayout] }
    let settling := station.setAu { station.au with queue := [settledAdvice] }
    let su := station.setSu { station.su with latch := some someRecord }
    let br := station.setBr { station.br with latch := some someRecord }
    let sc := station.setSc { station.sc with latch := some someRecord }
    let lc := station.setLc { station.lc with latch := some someRecord, clashes := 3 }
    let pm := station.setPm { station.pm with latch := some someRecord }
    paying.live = true ∧ paying.slotFree = true ∧ paying.till.payouts = [somePayout]
    ∧ settling.live = true ∧ settling.slotFree = true ∧ settling.till.payouts = [] ∧ settling.su.latch = none
    ∧ settling.au.queue = [] ++ settledAdvice :: [] ∧ settledAdvice.state = .settled ∧ settledAdvice.settled.isSome = true
    ∧ su.live = true ∧ su.slotFree = true ∧ su.till.payouts = [] ∧ su.su.latch = some someRecord
    ∧ br.su.latch = none ∧ br.settledWaits = false ∧ br.br.latch = some someRecord
    ∧ sc.su.latch = none ∧ sc.br.latch = none ∧ sc.sc.latch = some someRecord
    ∧ lc.sc.latch = none ∧ lc.lc.latch = some someRecord
    ∧ pm.lc.latch = none ∧ pm.pm.latch = some someRecord := by decide +kernel

/-! ### Witnesses: the mall line -/

/-- Frames as station 61 sends them to station 42. -/
def rawOf (m : Msg) (dest : Nat) (sequence : Nat := 5) : RawFrame :=
  { cls := m.cls, source := 61, dest, kind := m.kind, sequence, payload := m.encode }
def enquireFrame : RawFrame := rawOf (.enquire here 9) 42
def pauseFrame : RawFrame := rawOf (.pause 50) 255
def pauseNothing : RawFrame := rawOf (.pause 0) 255
def pausing : State := station.setLc { station.lc with pauses := [(61, 20)] }
def closeFrame : RawFrame := rawOf (.close 2) 255
def departFrame : RawFrame := rawOf (.depart 0) 255
def ownFrame : RawFrame := { rawOf (.close 2) 255 with source := 42 }

theorem witness_AcceptanceFollowsItsTests :
    station.accepts enquireFrame = some (.enquire here 9) ∧ station.accepts { enquireFrame with dest := 41 } = none := by
  decide +kernel

/-- A DEPART of the custodian, with a handover to it in OFFERING and with one in DRAINING. -/
def toldOff (sub : SubState) : State :=
  let h : Handover := { sub, custodian := 61, tag := 8, homes := [42], closingPeriod := 1, count := 1, total := 5000,
                        highest := 5000, replyTimeout := 800, attemptsLeft := 2, timer := some 800, ending := false }
  let s := inState station .handingOver
  s.setCu { s.cu with handover := some h }
theorem witness_FrameHeardCompletes_handover :
    let fails := (toldOff .offering).hearFrame departFrame
    (toldOff .offering).live = true ∧ (toldOff .offering).receiving = true
    ∧ (toldOff .offering).cu.handover.map (·.custodian) = some 61
    ∧ (toldOff .offering).cu.handover.map (·.sub) = some .offering ∧ ((toldOff .offering).peerAt 61).presence ≠ .absent
    ∧ (toldOff .draining).cu.handover.map (·.sub) = some .draining ∧ (toldOff .offering).lc.inbound.length < 11
    ∧ fails.sc.station = .joined ∧ fails.cu.handover = none ∧ fails.lc.outbound.map (·.msg) = [.abortHandover]
    ∧ fails.till.results = [handoverFailedRecord 8 .custodianAbsent 0]
    ∧ ((toldOff .draining).hearFrame departFrame).sc.station = .handingOver := by decide +kernel

theorem witness_FrameHeardCompletes :
    station.live = true ∧ station.receiving = true ∧ receive enquireFrame.levels = .frame enquireFrame
    ∧ enquireFrame.source = 61 ∧ enquireFrame.source ≠ station.own ∧ enquireFrame.kind ≠ 16
    ∧ station.accepts enquireFrame = some (.enquire here 9) ∧ station.lc.inbound.length < 11
    ∧ receive pauseFrame.levels = .frame pauseFrame ∧ station.accepts pauseFrame = some (.pause 50)
    ∧ station.lc.pauses = [] ∧ pausing.accepts pauseFrame = some (.pause 50) ∧ (∃ x ∈ pausing.lc.pauses, x.1 = 61)
    ∧ receive pauseNothing.levels = .frame pauseNothing ∧ station.accepts pauseNothing = some (.pause 0)
    ∧ receive departFrame.levels = .frame departFrame ∧ departFrame.kind = 16
    ∧ station.cu.handover = none := by decide +kernel

/-- A frame in the outbound queue, and its send. -/
def authOut : OutFrame := { ticket := 3, dest := 61, msg := .auth far 900 6 }
def closeOut : OutFrame := { ticket := 4, dest := 255, msg := .close 2 }
def releaseOut : OutFrame := { ticket := 3, dest := 61, msg := .offerReply 0 0, sends := 3 }
def departOut : OutFrame := { ticket := 4, dest := 255, msg := .depart 0 }
def sendOf (f : OutFrame) : Sending := { ticket := f.ticket, dest := f.dest, kind := f.msg.kind, levels := [] }
def queued (f : OutFrame) : State := station.setLc { station.lc with outbound := [f], nextTicket := 5 }
def sendingOf (f : OutFrame) : State :=
  let s := queued f
  s.setLc { s.lc with activity := .sending (sendOf f) }
def authTxn : Txn := { remoteTxn with state := .authWait, hold := none, timer := none, ticket := some 3 }
def sendingAuth : State := (sendingOf authOut).setBr { station.br with txns := [authTxn] }
def announcing : Handover :=
  { sub := .announcing, custodian := 61, tag := 8, homes := [42], replyTimeout := 800, ticket := some 4 }
def retiring : State :=
  let s := inState (sendingOf departOut) .handingOver
  s.setCu { s.cu with handover := some announcing }

theorem witness_DiscardsClashesAndStuckComplete :
    station.receiving = true ∧ receive [true, true, true, true] = .discard ∧ receive ownFrame.levels = .frame ownFrame
    ∧ ownFrame.source = station.own ∧ sendingAuth.live = true ∧ sendingAuth.lc.activity = .sending (sendOf authOut)
    ∧ sendingAuth.lc.outbound.find? (fun g => g.ticket = (sendOf authOut).ticket) = some authOut ∧ authOut.sends + 1 < 4
    ∧ (sendingOf releaseOut).lc.activity = .sending (sendOf releaseOut)
    ∧ (sendingOf releaseOut).lc.outbound.find? (fun g => g.ticket = (sendOf releaseOut).ticket) = some releaseOut
    ∧ 4 ≤ releaseOut.sends + 1 ∧ releaseOut.dest ≠ 255 ∧ releaseOut.msg.cls = 0 ∧ (sendingOf releaseOut).lc.waitList = []
    ∧ station.lineState = .active ∧ station.lc.activity = .free
    ∧ (station.setLc { station.lc with stuckSince := some 0 }).lineState = .stuck := by decide +kernel

/-- The fourth send of a request frame and of a broadcast. -/
def lastAuth : OutFrame := { authOut with sends := 3 }
def lastClose : OutFrame := { closeOut with sends := 3 }

theorem witness_DiscardsClashesAndStuckComplete_fourthSends :
    (sendingOf lastAuth).live = true ∧ (sendingOf lastAuth).lc.activity = .sending (sendOf lastAuth)
    ∧ (sendingOf lastAuth).lc.outbound.find? (fun g => g.ticket = (sendOf lastAuth).ticket) = some lastAuth
    ∧ 4 ≤ lastAuth.sends + 1 ∧ (sendingOf lastAuth).lc.waitList = [] ∧ (sendingOf lastAuth).lineState = .active
    ∧ lastAuth.dest ≠ 255 ∧ lastAuth.msg.cls ≠ 0
    ∧ (sendingOf lastClose).live = true ∧ (sendingOf lastClose).lc.activity = .sending (sendOf lastClose)
    ∧ (sendingOf lastClose).lc.outbound.find? (fun g => g.ticket = (sendOf lastClose).ticket) = some lastClose
    ∧ 4 ≤ lastClose.sends + 1 ∧ (sendingOf lastClose).lc.waitList = [] ∧ (sendingOf lastClose).lineState = .active
    ∧ lastClose.dest = 255 := by decide +kernel

theorem witness_BusFreeStartsTheFirstEligibleFrame :
    (queued authOut).lineState = .active ∧ (queued authOut).sc.departure = none ∧ (queued authOut).lc.activity = .free
    ∧ (queued authOut).lc.outbound = [] ++ authOut :: [] ∧ (queued authOut).eligible authOut = true
    ∧ authOut.msg.cls * 256 + (queued authOut).own ≤ 1 * 256 + 61 ∧ 0 * 256 + 61 < authOut.msg.cls * 256 + (queued authOut).own
    ∧ station.lc.outbound = [] := by decide +kernel

theorem witness_SendEndCompletes :
    sendingAuth.live = true ∧ sendingAuth.lc.activity = .sending (sendOf authOut) ∧ sendingAuth.lc.waitList = []
    ∧ sendingAuth.lc.outbound.find? (fun g => g.ticket = (sendOf authOut).ticket) = some authOut ∧ authOut.dest ≠ 255
    ∧ authOut.msg.kind = 1 ∧ sendingAuth.br.txns.find? (fun y => y.ticket = some authOut.ticket) = some authTxn
    ∧ (sendingOf releaseOut).lc.outbound.find? (fun g => g.ticket = (sendOf releaseOut).ticket) = some releaseOut
    ∧ 4 ≤ releaseOut.sends + 1 ∧ releaseOut.msg.cls = 0
    ∧ (sendingOf closeOut).lc.outbound.find? (fun g => g.ticket = (sendOf closeOut).ticket) = some closeOut
    ∧ closeOut.dest = 255 ∧ closeOut.msg.kind ≠ 16
    ∧ retiring.live = true ∧ retiring.lc.activity = .sending (sendOf departOut)
    ∧ retiring.lc.outbound.find? (fun g => g.ticket = (sendOf departOut).ticket) = some departOut
    ∧ retiring.cu.handover = some announcing ∧ announcing.sub = .announcing
    ∧ announcing.ticket = some departOut.ticket := by decide +kernel

/-- A full outbound queue and requests that wait: of classes 2 and 0, or of class 2 alone. -/
def queuing (waits : List OutFrame) : State :=
  let s := lineFull station
  s.setLc { s.lc with waitList := waits, nextTicket := 30 }
def waitingClose : OutFrame := { ticket := 24, dest := 255, msg := .close 2 }
def waitingReply : OutFrame := { ticket := 25, dest := 61, msg := .creditReply 2 0 0 0 }

theorem witness_HandedFramesArePlacedOrWait :
    (Msg.enquire here 9).kind ≠ 14 ∧ (Msg.enquire here 9).kind ≠ 15 ∧ station.lc.outbound.length < 24
    ∧ lowCount station.lc.outbound < 18 ∧ ¬ (lineFull station).lc.outbound.length < 24
    ∧ (queuing [waitingClose, waitingReply]).lc.waitList = [waitingClose] ++ waitingReply :: []
    ∧ waitingClose.msg.cls ≠ 0 ∧ waitingReply.msg.cls = 0
    ∧ (fullOutbound.filter fun g => g.ticket ≠ 3).length < 24
    ∧ (fullOutbound.filter fun g => g.ticket ≠ 23).length < 24 ∧ lowCount (fullOutbound.filter fun g => g.ticket ≠ 23) < 18
    ∧ 18 ≤ lowCount (fullOutbound.filter fun g => g.ticket ≠ 3)
    ∧ 24 ≤ (fullOutbound.filter fun g => g.ticket ≠ 99).length := by decide +kernel

/-! ### Witnesses: exchanges at the home and at the redeemer -/

/-- A hold of station 61 on the card here, HELD and CAPTURED. -/
def peerHold : Hold :=
  { id := ⟨0, 1⟩, kind := .redemption, key := here.key, amount := 900, station := 61, reference := 5, state := .held,
    timer := 120000 }
def peerEntry : Hold :=
  { peerHold with state := .captured, figures := { posted := 900, fee := 13, net := 887, stamp := 1 }, late := true }
def holding (h : Hold) : State := station.setCu { station.cu with holds := [h], holdCounter := 2 }
def fullHolds (s : State) : State := s.setCu { s.cu with holds := List.replicate 96 { peerEntry with reference := 77 } }

theorem witness_FeeCarriesItsRemainder :
    61 ≠ station.own ∧ station.sc.config.feeRate ≤ 1000
    ∧ (Table.get {} station.su.lifetime 61 : Lifetime).remainder < 10000
    ∧ (station.setSc { station.sc with config := { station.sc.config with feeRate := 0 } }).sc.config.feeRate = 0
    ∧ min 6000 0 = 0 ∧ 0 < min 6000 1 := by decide +kernel

theorem witness_AuthCompletes :
    let s := framed station 61 (.auth here 5000 9)
    let h := framed (holding peerEntry) 61 (.auth here 5000 5)
    s.Holds .custodyUnit 61 (.auth here 5000 9) [] [] ∧ s.custodyReady = true ∧ here.valid = true
    ∧ s.isHere here.home = true ∧ s.holdFor 61 9 = none ∧ s.cu.served here.key = some hereCard ∧ s.cu.holds.length < 96
    ∧ 5000 ≤ hereCard.balance - heldOn s.cu.holds here.key ∧ hereCard.balance - heldOn s.cu.holds here.key < 5001
    ∧ (framed station 61 (.auth here 5001 9)).Holds .custodyUnit 61 (.auth here 5001 9) [] []
    ∧ h.Holds .custodyUnit 61 (.auth here 5000 5) [] [] ∧ h.holdFor 61 5 = some peerEntry ∧ peerEntry.key = here.key
    ∧ peerEntry.kind = .redemption := by decide +kernel

/-- The inbound queue of a state holds one frame of station 61, and the Custody Unit takes it. -/
def sends (s : State) (m : Msg) : Bool :=
  decide ((framed s 61 m).Holds .custodyUnit 61 m [] [] ∧ (framed s 61 m).custodyReady = true)

/-- AUTHs that a test of R36 refuses or R34 discards. -/
theorem witness_AuthCompletes_otherForms :
    let unknown := CardNo.make 42 5
    sends station (.auth far 900 9) ∧ far.valid = true ∧ station.isHere far.home = false
    ∧ sends station (.auth { here with check := 0 } 900 9)
    ∧ sends station (.auth unknown 900 9) ∧ station.cu.served unknown.key = none ∧ unknown.valid = true
    ∧ sends station (.auth shut 900 9) ∧ (station.cu.served shut.key).map (·.state) = some .closed
    ∧ sends (fullHolds station) (.auth here 900 9) ∧ (fullHolds station).holdFor 61 9 = none
    ∧ 96 ≤ (fullHolds station).cu.holds.length
    ∧ sends (inState station .handingOver) (.auth here 900 9)
    ∧ sends station (.auth here 0 9) ∧ sends station (.auth here 10000001 9) ∧ sends (holding peerHold) (.auth shut 900 5)
    ∧ (holding peerHold).holdFor 61 5 = some peerHold ∧ peerHold.key ≠ shut.key
    ∧ sends (holding { peerHold with kind := .credit }) (.auth here 900 5)
    ∧ (holding { peerHold with kind := .credit }).holdFor 61 5 = some { peerHold with kind := .credit } := by
  decide +kernel

theorem witness_CaptureCompletes :
    let s := framed (holding peerHold) 61 (.capture here ⟨0, 1⟩ 5 10000000)
    let t := framed (holding peerEntry) 61 (.capture here ⟨0, 1⟩ 5 0)
    s.Holds .custodyUnit 61 (.capture here ⟨0, 1⟩ 5 10000000) [] [] ∧ s.custodyReady = true ∧ 61 ≠ s.own
    ∧ s.holdFor 61 5 = some peerHold ∧ s.holdNamed ⟨0, 1⟩ 61 5 here.key = some peerHold
    ∧ t.Holds .custodyUnit 61 (.capture here ⟨0, 1⟩ 5 0) [] [] ∧ t.custodyReady = true
    ∧ t.holdFor 61 5 = some peerEntry ∧ t.holdNamed ⟨0, 1⟩ 61 5 here.key = some peerEntry := by decide +kernel

/-- A CAPTURE with final amount 0 of a HELD hold; CAPTUREs that match no entry: of the card here, of a card not held here,
at a full hold table. -/
theorem witness_CaptureCompletes_otherForms :
    let z := framed (holding peerHold) 61 (.capture here ⟨0, 1⟩ 5 0)
    let n (c : CardNo) := framed station 61 (.capture c ⟨0, 1⟩ 9 6000)
    z.Holds .custodyUnit 61 (.capture here ⟨0, 1⟩ 5 0) [] [] ∧ z.holdNamed ⟨0, 1⟩ 61 5 here.key = some peerHold
    ∧ peerHold.state = .held ∧ z.isHere here.home = true
    ∧ (n here).Holds .custodyUnit 61 (.capture here ⟨0, 1⟩ 9 6000) [] [] ∧ (n here).custodyReady = true
    ∧ (n here).holdFor 61 9 = none ∧ (n here).cu.holds.length < 96 ∧ 0 < min 6000 ((n here).cu.available here.key)
    ∧ (n far).Holds .custodyUnit 61 (.capture far ⟨0, 1⟩ 9 6000) [] [] ∧ (n far).isHere far.home = false
    ∧ (fullHolds (n here)).Holds .custodyUnit 61 (.capture here ⟨0, 1⟩ 9 6000) [] []
    ∧ 96 ≤ (fullHolds (n here)).cu.holds.length ∧ (fullHolds (n here)).holdFor 61 9 = none
    ∧ (inState (n here) .handingOver).Holds .custodyUnit 61 (.capture here ⟨0, 1⟩ 9 6000) [] []
    ∧ (inState (n here) .handingOver).custodyReady = true := by decide +kernel

/-- HELD holds of station 61 under reference 5: on the closed card here, and on a card of home 61. -/
def heldShut : Hold := { peerHold with key := shut.key }
def heldFar : Hold := { peerHold with key := far.key }
/-- The number of the card here with a bad check value. -/
def badNumber : CardNo := { here with check := here.check + 1 }

/-- CAPTUREs that match a HELD hold by its reference only, or by a number that fails R1. -/
theorem witness_CaptureCompletes_heldByReference :
    let m (c : CardNo) (id : HoldId) : Msg := .capture c id 5 6000
    let n := framed (holding peerHold) 61 (m here ⟨0, 9⟩)
    let z := framed (holding heldShut) 61 (m shut ⟨0, 9⟩)
    let b := framed (holding peerHold) 61 (m badNumber ⟨0, 1⟩)
    n.Holds .custodyUnit 61 (m here ⟨0, 9⟩) [] [] ∧ n.custodyReady = true ∧ 61 ≠ n.own ∧ n.holdFor 61 5 = some peerHold
    ∧ peerHold.key = here.key ∧ peerHold.kind = .redemption ∧ peerHold.state = .held
    ∧ n.holdNamed ⟨0, 9⟩ 61 5 here.key = none ∧ n.sc.station ≠ .handingOver
    ∧ 0 < min 6000 (Custody.available { n.cu with holds := n.cu.holds.filter fun x => x.id ≠ peerHold.id } here.key)
    ∧ z.Holds .custodyUnit 61 (m shut ⟨0, 9⟩) [] [] ∧ z.holdFor 61 5 = some heldShut ∧ heldShut.key = shut.key
    ∧ z.holdNamed ⟨0, 9⟩ 61 5 shut.key = none
    ∧ min 6000 (Custody.available { z.cu with holds := z.cu.holds.filter fun x => x.id ≠ heldShut.id } shut.key) = 0
    ∧ b.Holds .custodyUnit 61 (m badNumber ⟨0, 1⟩) [] [] ∧ b.holdNamed ⟨0, 1⟩ 61 5 badNumber.key = some peerHold
    ∧ b.holdFor 61 5 = some peerHold ∧ peerHold.key = badNumber.key ∧ badNumber.valid = false
    ∧ (inState n .handingOver).Holds .custodyUnit 61 (m here ⟨0, 9⟩) [] []
    ∧ (inState n .handingOver).custodyReady = true := by decide +kernel

/-- CAPTUREs while HANDING-OVER of a number that names no card held here, and CAPTUREs that R34 discards. -/
theorem witness_CaptureCompletes_handoverAndDiscards :
    let h := inState station .handingOver
    sends h (.capture far ⟨0, 1⟩ 9 6000) ∧ sends h (.capture badNumber ⟨0, 1⟩ 9 6000) ∧ h.isHere far.home = false
    ∧ badNumber.valid = false
    ∧ h.holdFor 61 9 = none ∧ h.cu.holds.length < 96
    ∧ sends station (.capture here ⟨0, 1⟩ 9 0) ∧ station.holdNamed ⟨0, 1⟩ 61 9 here.key = none
    ∧ sends station (.capture here ⟨0, 1⟩ 9 10000001)
    ∧ sends (holding peerHold) (.capture shut ⟨0, 1⟩ 5 900) ∧ (holding peerHold).holdFor 61 5 = some peerHold
    ∧ peerHold.key ≠ shut.key
    ∧ sends (holding { peerHold with kind := .credit }) (.capture here ⟨0, 1⟩ 5 900)
    ∧ (holding { peerHold with kind := .credit }).holdFor 61 5 = some { peerHold with kind := .credit } := by
  decide +kernel

/-- R34, R44, R49: in a handover a bad number gets NOT-POSTED and its entry, the card here HOME-BUSY. -/
theorem test_forcedPostingInAHandover :
    let h := inState station .handingOver
    let r (card : CardNo) := h.servePosting 61 9 card.key 6000 (h.knows card) true
    (r badNumber).2 = { status := .notPosted, figures := { short := 6000, stamp := 1 }, late := true }
      ∧ (r badNumber).1.cu.holds.length = 1 ∧ (r far).2.status = .notPosted ∧ (r here).2 = .busy ∧ (r here).1 = h := by
  decide +kernel

theorem witness_HoldsLeaveTheTable :
    let s := framed (holding peerHold) 61 (.release here ⟨0, 1⟩ 5)
    let u := framed (holding peerEntry) 61 (.release here ⟨0, 1⟩ 5)
    s.Holds .custodyUnit 61 (.release here ⟨0, 1⟩ 5) [] [] ∧ s.custodyReady = true ∧ here.valid = true
    ∧ s.isHere here.home = true ∧ s.holdNamed ⟨0, 1⟩ 61 5 here.key = some peerHold
    ∧ u.Holds .custodyUnit 61 (.release here ⟨0, 1⟩ 5) [] [] ∧ u.custodyReady = true
    ∧ u.holdNamed ⟨0, 1⟩ 61 5 here.key = some peerEntry
    ∧ (holding peerHold).live = true ∧ (holding peerHold).now ≤ peerHold.timer
    ∧ (holding peerHold).cu.holds.find? (fun x => x.id = peerHold.id) = some peerHold ∧ peerHold.state = .held
    ∧ (holding peerEntry).cu.holds.find? (fun x => x.id = peerEntry.id) = some peerEntry
    ∧ peerEntry.state = .captured := by decide +kernel

theorem witness_CreditAndEnquireComplete :
    let s := framed station 61 (.credit here 95000 9)
    let t := framed station 61 (.enquire here 9)
    s.Holds .custodyUnit 61 (.credit here 95000 9) [] [] ∧ s.custodyReady = true ∧ s.holdFor 61 9 = none
    ∧ s.cu.served here.key = some hereCard ∧ 95000 ≤ s.sc.config.cardCap - hereCard.balance
    ∧ 95000 ≤ s.cu.ledger.headroom ∧ s.cu.holds.length < 96
    ∧ t.Holds .custodyUnit 61 (.enquire here 9) [] [] ∧ t.holdFor 61 9 = none := by decide +kernel

/-- CREDITs and ENQUIREs that are refused, repeated or discarded. -/
theorem witness_CreditAndEnquireComplete_otherForms :
    let unknown := CardNo.make 42 5
    let credited : Hold := { peerEntry with kind := .credit }
    sends station (.credit far 900 9) ∧ station.isHere far.home = false ∧ sends station (.credit unknown 900 9)
    ∧ station.cu.served unknown.key = none ∧ unknown.valid = true ∧ sends station (.credit shut 900 9)
    ∧ (station.cu.served shut.key).map (·.state) = some .closed
    ∧ sends (inState station .handingOver) (.credit here 900 9)
    ∧ sends station (.credit here 95001 9)
    ∧ min (station.sc.config.cardCap - hereCard.balance) (9223372036854775807 - 7000) = 95000
    ∧ sends (fullHolds station) (.credit here 95000 9) ∧ (fullHolds station).holdFor 61 9 = none
    ∧ 96 ≤ (fullHolds station).cu.holds.length
    ∧ sends (holding credited) (.credit here 900 5) ∧ (holding credited).holdFor 61 5 = some credited
    ∧ credited.key = here.key
    ∧ sends station (.credit here 0 9) ∧ sends station (.credit here 10000001 9)
    ∧ sends (holding credited) (.credit shut 900 5) ∧ sends (holding peerEntry) (.credit here 900 5)
    ∧ sends station (.enquire far 9) ∧ sends station (.enquire unknown 9) ∧ sends station (.enquire shut 9)
    ∧ sends (holding peerEntry) (.enquire here 5) ∧ sends (holding peerEntry) (.enquire shut 5)
    ∧ (holding peerEntry).holdFor 61 5 = some peerEntry ∧ peerEntry.key = here.key ∧ peerEntry.key ≠ shut.key := by
  decide +kernel

/-- An ADVICE of station 61 for the card here, the closed card, and against a full hold table. -/
def adviceFor (c : CardNo) : State := framed station 61 (.advice c 6000 9 0 ⟨0, 0⟩)

theorem witness_AdviceIsForcedPosted :
    (adviceFor here).Holds .custodyUnit 61 (.advice here 6000 9 0 ⟨0, 0⟩) [] [] ∧ (adviceFor here).custodyReady = true
    ∧ (adviceFor here).holdFor 61 9 = none ∧ (adviceFor here).cu.holds.length < 96
    ∧ 0 < min 6000 ((adviceFor here).cu.available here.key)
    ∧ (adviceFor shut).Holds .custodyUnit 61 (.advice shut 6000 9 0 ⟨0, 0⟩) [] [] ∧ shut.valid = true
    ∧ min 6000 ((adviceFor shut).cu.available shut.key) = 0
    ∧ (fullHolds (adviceFor here)).Holds .custodyUnit 61 (.advice here 6000 9 0 ⟨0, 0⟩) [] []
    ∧ (fullHolds (adviceFor here)).holdFor 61 9 = none ∧ 96 ≤ (fullHolds (adviceFor here)).cu.holds.length := by
  decide +kernel

/-- ADVICEs that match a HELD hold, of the card here, of the closed card, of a card not held here, and a CAPTURED entry. -/
theorem witness_AdviceIsForcedPosted_matched :
    let m (c : CardNo) : Msg := .advice c 6000 5 0 ⟨0, 0⟩
    let s (h : Hold) (c : CardNo) := framed (holding h) 61 (m c)
    let room (h : Hold) (c : CardNo) :=
      Custody.available { (s h c).cu with holds := (s h c).cu.holds.filter fun x => x.id ≠ h.id } c.key
    (s peerHold here).Holds .custodyUnit 61 (m here) [] [] ∧ (s peerHold here).custodyReady = true
    ∧ (s peerHold here).holdFor 61 5 = some peerHold ∧ peerHold.key = here.key ∧ peerHold.kind = .redemption
    ∧ peerHold.state = .held ∧ (s peerHold here).sc.station ≠ .handingOver ∧ 0 < min 6000 (room peerHold here)
    ∧ (s heldShut shut).Holds .custodyUnit 61 (m shut) [] [] ∧ (s heldShut shut).holdFor 61 5 = some heldShut
    ∧ heldShut.key = shut.key ∧ min 6000 (room heldShut shut) = 0
    ∧ (s heldFar far).Holds .custodyUnit 61 (m far) [] [] ∧ (s heldFar far).holdFor 61 5 = some heldFar
    ∧ heldFar.key = far.key ∧ (s heldFar far).isHere far.home = false
    ∧ (inState (s peerHold here) .handingOver).Holds .custodyUnit 61 (m here) [] []
    ∧ (inState (s peerHold here) .handingOver).custodyReady = true
    ∧ (s peerEntry here).Holds .custodyUnit 61 (m here) [] [] ∧ (s peerEntry here).holdFor 61 5 = some peerEntry
    ∧ peerEntry.key = here.key ∧ peerEntry.state = .captured := by decide +kernel

/-- ADVICEs while HANDING-OVER, and ADVICEs that R34 discards. -/
theorem witness_AdviceIsForcedPosted_handoverAndDiscards :
    let h := inState station .handingOver
    sends h (.advice far 6000 9 0 ⟨0, 0⟩) ∧ sends h (.advice badNumber 6000 9 0 ⟨0, 0⟩)
    ∧ sends h (.advice here 6000 9 0 ⟨0, 0⟩) ∧ h.isHere far.home = false ∧ badNumber.valid = false
    ∧ here.valid = true ∧ h.isHere here.home = true ∧ h.holdFor 61 9 = none ∧ h.cu.holds.length < 96
    ∧ sends station (.advice here 0 9 0 ⟨0, 0⟩) ∧ sends station (.advice here 10000001 9 0 ⟨0, 0⟩)
    ∧ sends (holding peerHold) (.advice shut 900 5 0 ⟨0, 0⟩)
    ∧ sends (holding { peerHold with kind := .credit }) (.advice here 900 5 0 ⟨0, 0⟩)
    ∧ (holding peerHold).holdFor 61 5 = some peerHold ∧ peerHold.key ≠ shut.key := by decide +kernel

/-- A transaction of station 42 with peer 61 in a WAIT state, and the state that has it alone. -/
def waitTxn (kind : TxnKind) (state : TxnState) : Txn :=
  { remoteTxn with kind, state, hold := if state = .captureWait then some ⟨2, 9⟩ else none, timer := some 800 }
def waitingFor (kind : TxnKind) (state : TxnState) : State :=
  (station.setBr { station.br with txns := [waitTxn kind state], refCounter := 7 }).setAu { station.au with reservations := 1 }

theorem witness_AuthReplyCompletes :
    let yes : Msg := .authReply 6 0 far ⟨2, 9⟩ 900 100
    let no : Msg := .authReply 6 1 far ⟨2, 9⟩ 900 100
    let s := framed (waitingFor .redeem .authWait) 61 yes
    let t := framed (waitingFor .redeem .authWait) 61 no
    let u := framed station 61 yes
    s.Holds .requestBroker 61 yes [] [] ∧ s.onLine = true ∧ s.matching 6 61 .authWait = some (waitTxn .redeem .authWait)
    ∧ (waitTxn .redeem .authWait).ticket = none
    ∧ t.Holds .requestBroker 61 no [] [] ∧ t.matching 6 61 .authWait = some (waitTxn .redeem .authWait)
    ∧ u.Holds .requestBroker 61 yes [] [] ∧ u.matching 6 61 .authWait = none ∧ u.br.txns = [] := by decide +kernel

/-- The inbound queue of a state holds one reply of station 61 for the Request Broker. -/
def answers (s : State) (m : Msg) : Bool := decide ((framed s 61 m).Holds .requestBroker 61 m [] [])

/-- AUTH-REPLYs that refuse, a second APPROVED of the hold of a transaction, and a refusal that matches nothing. -/
theorem witness_AuthReplyCompletes_otherForms :
    let m (status : Nat) : Msg := .authReply 6 status far ⟨2, 9⟩ 900 100
    let w := waitingFor .redeem .authWait
    let twice := waitingFor .redeem .captureWait
    (∀ n ∈ [2, 3, 4], answers w (m n)) ∧ w.onLine = true ∧ w.matching 6 61 .authWait = some (waitTxn .redeem .authWait)
    ∧ (waitTxn .redeem .authWait).ticket = none ∧ answers twice (m 0) ∧ twice.onLine = true
    ∧ twice.matching 6 61 .authWait = none
    ∧ (∃ t ∈ twice.br.txns, t.reference = 6 ∧ t.target = some 61 ∧ t.state = .captureWait ∧ t.hold = some ⟨2, 9⟩)
    ∧ answers station (m 3) ∧ station.matching 6 61 .authWait = none := by decide +kernel

theorem witness_CaptureCreditAndEnquireRepliesComplete :
    let posted : Msg := .captureReply 6 8 1 900 13 887 0 1
    let nothing : Msg := .captureReply 6 11 0 0 0 0 0 1
    let ahead : Msg := .captureReply 6 9 0 800 12 788 100 2
    let busy : Msg := .captureReply 6 4 0 0 0 0 0 0
    let credited : Msg := .creditReply 6 0 900 1
    let told : Msg := .enquireReply 6 0 900 800
    let c := waitingFor .redeem .captureWait
    (framed c 61 posted).Holds .requestBroker 61 posted [] [] ∧ (framed c 61 posted).onLine = true
    ∧ (framed c 61 posted).matching 6 61 .captureWait = some (waitTxn .redeem .captureWait)
    ∧ (framed c 61 posted).su.openPeriod = 1
    ∧ (framed c 61 nothing).Holds .requestBroker 61 nothing [] [] ∧ (framed c 61 ahead).Holds .requestBroker 61 ahead [] []
    ∧ (framed c 61 busy).Holds .requestBroker 61 busy [] []
    ∧ (framed (waitingFor .credit .creditWait) 61 credited).Holds .requestBroker 61 credited [] []
    ∧ (framed (waitingFor .credit .creditWait) 61 credited).matching 6 61 .creditWait
      = some (waitTxn .credit .creditWait)
    ∧ (framed (waitingFor .enquire .enquireWait) 61 told).Holds .requestBroker 61 told [] []
    ∧ (framed (waitingFor .enquire .enquireWait) 61 told).matching 6 61 .enquireWait
      = some (waitTxn .enquire .enquireWait) := by decide +kernel

/-- A CAPTURE advice of reference 6, and the state that has it alone. -/
def captureAdvice : Advice := { kind := .capture, card := far, amount := 900, reference := 6, hold := some ⟨2, 9⟩ }
def captureAdvised : State := station.setAu { station.au with queue := [captureAdvice] }

/-- Refusing replies that match or do not, and CAPTURE-REPLYs that no transaction waits for. -/
theorem witness_CaptureCreditAndEnquireRepliesComplete_otherForms :
    let c := waitingFor .credit .creditWait
    let e := waitingFor .enquire .enquireWait
    let late : Msg := .captureReply 6 8 1 900 13 887 0 1
    let busy : Msg := .captureReply 6 4 0 0 0 0 0 0
    (∀ n ∈ [2, 3, 4, 5], (framed c 61 (.creditReply 6 n 40 0)).Holds .requestBroker 61 (.creditReply 6 n 40 0) [] []
      ∧ (framed c 61 (.creditReply 6 n 40 0)).matching 6 61 .creditWait = some (waitTxn .credit .creditWait))
    ∧ c.onLine = true ∧ (waitTxn .credit .creditWait).ticket = none ∧ station.onLine = true
    ∧ (framed station 61 (.creditReply 6 2 0 0)).Holds .requestBroker 61 (.creditReply 6 2 0 0) [] []
    ∧ (framed station 61 (.creditReply 6 2 0 0)).matching 6 61 .creditWait = none
    ∧ (∀ n ∈ [2, 3], (framed e 61 (.enquireReply 6 n 0 0)).Holds .requestBroker 61 (.enquireReply 6 n 0 0) [] []
      ∧ (framed e 61 (.enquireReply 6 n 0 0)).matching 6 61 .enquireWait = some (waitTxn .enquire .enquireWait))
    ∧ e.onLine = true ∧ (waitTxn .enquire .enquireWait).ticket = none
    ∧ (framed station 61 (.enquireReply 6 3 0 0)).Holds .requestBroker 61 (.enquireReply 6 3 0 0) [] []
    ∧ (framed station 61 (.enquireReply 6 3 0 0)).matching 6 61 .enquireWait = none
    ∧ (framed captureAdvised 61 late).Holds .requestBroker 61 late [] [] ∧ captureAdvised.onLine = true
    ∧ (framed captureAdvised 61 late).matching 6 61 .captureWait = none
    ∧ (framed captureAdvised 61 late).au.queue.find?
        (fun a => a.reference = 6 && a.kind = .capture && a.state ≠ .settled) = some captureAdvice
    ∧ (framed captureAdvised 61 busy).Holds .requestBroker 61 busy [] []
    ∧ (framed station 61 late).Holds .requestBroker 61 late [] []
    ∧ (framed station 61 late).matching 6 61 .captureWait = none ∧ station.au.queue = [] := by decide +kernel

/-- An advice in delivery to peer 61. -/
def sentAdvice : Advice :=
  { kind := .standin, card := far, amount := 900, reference := 9, hold := none, state := .inDelivery,
    lastTarget := some 61, timer := some 800 }
def delivering : State := station.setAu { station.au with queue := [sentAdvice] }

theorem witness_AdviceReplyCompletes :
    let short : Msg := .adviceReply 9 9 1 800 12 788 100 1
    let plain : Msg := .adviceReply 9 8 0 900 13 887 0 1
    let nothing : Msg := .adviceReply 9 11 0 0 0 0 0 1
    let busy : Msg := .adviceReply 9 4 0 0 0 0 0 0
    (framed delivering 61 short).Holds .adviceUnit 61 short [] [] ∧ (framed delivering 61 short).onLine = true
    ∧ (framed delivering 61 short).adviceMatching 9 61 = some sentAdvice ∧ sentAdvice.ticket = none
    ∧ (framed delivering 61 short).su.openPeriod = 1
    ∧ (framed delivering 61 plain).Holds .adviceUnit 61 plain [] []
    ∧ (framed delivering 61 nothing).Holds .adviceUnit 61 nothing [] []
    ∧ (framed delivering 61 busy).Holds .adviceUnit 61 busy [] []
    ∧ (framed delivering 61 busy).adviceMatching 9 61 = some sentAdvice := by decide +kernel

/-! ### Witnesses: rounds, notices, handover and adoption -/

/-- A round of period 1 with peer 61 PENDING, with the part I of its statement in hand or not. -/
def closingOf (part : Option StatementPart) : Closing :=
  { period := 1, entries := [(61, { gr := 100, grN := 1 })],
    status := [(61, { compare := .pending, send := .sent, part })], counters := {} }
def mirrorI : StatementPart :=
  { redeemer := false, gross := 100, fee := 0, credit := 0, grossN := 1, feeN := 0, creditN := 0, saturated := false }
def inRound (part : Option StatementPart) : State :=
  station.setSu { station.su with openPeriod := 2, closing := some (closingOf part), window := some 60000 }
def partI : Msg := .statement 0 1 100 0 0 1 0 0 0
def partR (gross : Nat) (mark : Nat) : Msg := .statement 1 1 gross 0 0 0 0 0 mark

/-- A round of period 1 whose statement to peer 61 has not gone, with an entry or with one that is about to saturate. -/
def queuedRound (e : PosEntry) : State :=
  station.setSu { station.su with
    openPeriod := 2, window := some 60000
    closing := some { closingOf none with entries := [(61, e)], status := [(61, { compare := .pending, send := .queued })] } }

theorem witness_FiguresAreBookedByTheirStamp :
    let u := queuedRound { gr := 100, grN := 1 }
    1 < u.su.openPeriod ∧ u.su.closing = some { closingOf none with status := [(61, { compare := .pending, send := .queued })] }
    ∧ (Table.get {} [(61, ({ compare := .pending, send := .queued } : StatementStatus))] 61).compare = .pending
    ∧ (Table.get {} [(61, ({ compare := .pending, send := .queued } : StatementStatus))] 61).send = .queued
    ∧ (inRound none).su.closing = some (closingOf none)
    ∧ (Table.get {} (closingOf none).status 61 : StatementStatus).send ≠ .queued
    ∧ u.su.openPeriod = 2 ∧ 2 < ({ posted := 900, stamp := 3 } : Figures).stamp := by decide +kernel

/-- R25, R103: an entry that saturates in the closing bank is SATURATED and no longer compared; its statement stays QUEUED. -/
theorem test_closingEntrySaturates :
    let status (e : PosEntry) := (((queuedRound e).bookFigures 61 { posted := 900, fee := 13, net := 887, stamp := 1 }).su.closing.map
      fun c => (Table.get {} c.status 61 : StatementStatus))
    status { gr := 1099511627775, grN := 1 } = some { compare := .saturated, send := .queued }
      ∧ status { gr := 1099511626875, grN := 1 } = some { compare := .pending, send := .queued } := by decide +kernel

theorem witness_StatementCompletes :
    (framed (inRound none) 61 partI).Holds .settlementUnit 61 partI [] [] ∧ (inRound none).onLine = true
    ∧ (inRound none).su.closing = some (closingOf none) ∧ (inRound none).su.openPeriod = 2
    ∧ (Table.get {} (closingOf none).status 61 : StatementStatus).compare = .pending
    ∧ (Table.get {} (closingOf none).status 61 : StatementStatus).part = none
    ∧ (framed (inRound (some mirrorI)) 61 (partR 0 0)).Holds .settlementUnit 61 (partR 0 0) [] []
    ∧ (Table.get {} (closingOf (some mirrorI)).status 61 : StatementStatus).part = some mirrorI
    ∧ (framed (inRound (some mirrorI)) 61 (partR 0 1)).Holds .settlementUnit 61 (partR 0 1) [] []
    ∧ (framed (inRound (some mirrorI)) 61 (partR 7 0)).Holds .settlementUnit 61 (partR 7 0) [] []
    ∧ (framed active61 61 (.statement 1 0 0 0 0 0 0 0 0)).Holds .settlementUnit 61 (.statement 1 0 0 0 0 0 0 0 0) [] []
    ∧ active61.su.closing = none ∧ 0 < active61.su.openPeriod := by decide +kernel

/-- The other orders: part R first, part I again, and parts for a NONE entry and for one that has been compared. -/
def mirrorR (gross : Nat) : StatementPart := { mirrorI with redeemer := true, gross, grossN := 0 }
def roundWith (st : StatementStatus) : State :=
  station.setSu { station.su with
    openPeriod := 2, closing := some { closingOf none with status := [(61, st)] }, window := some 60000 }

theorem witness_StatementCompletes_otherForms :
    (framed (inRound none) 61 (partR 0 0)).Holds .settlementUnit 61 (partR 0 0) [] []
    ∧ (framed (inRound (some mirrorI)) 61 partI).Holds .settlementUnit 61 partI [] []
    ∧ (framed (inRound (some (mirrorR 0))) 61 partI).Holds .settlementUnit 61 partI [] []
    ∧ (Table.get {} (closingOf (some (mirrorR 0))).status 61 : StatementStatus).part = some (mirrorR 0)
    ∧ (framed (roundWith {}) 61 partI).Holds .settlementUnit 61 partI [] []
    ∧ (framed (roundWith { compare := .match, send := .sent }) 61 partI).Holds .settlementUnit 61 partI [] []
    ∧ (Table.get {} (closingOf none).entries 61 : PosEntry).side.mirror = sideOfParts mirrorI (mirrorR 0)
    ∧ (Table.get {} (closingOf none).entries 61 : PosEntry).side.mirror ≠ sideOfParts mirrorI (mirrorR 7) := by decide +kernel

/-- Statements for the open period and for the largest one; and, for READ POSITION, a closing bank and none. -/
theorem witness_StatementCompletes_openPeriod :
    let last : Msg := .statement 0 4294967295 0 0 0 0 0 0 0
    (framed station 61 partI).Holds .settlementUnit 61 partI [] [] ∧ station.onLine = true ∧ station.su.openPeriod = 1
    ∧ (framed station 61 last).Holds .settlementUnit 61 last [] [] := by decide +kernel

theorem witness_ReadingsChangeNothingElse_closingBank :
    station.su.closing = none ∧ (inRound none).su.closing = some (closingOf none) := by decide +kernel

def someBeacon : BeaconData := { period := 1, mode := 0, handover := 0, count := 1, h1 := 130, h2 := 0, h3 := 0 }
def laterBeacon : BeaconData := { someBeacon with period := 2 }
/-- A home map with the LEARNED entries of homes 101 to 116, the one of home 103 the oldest beside that of 104. -/
def fullMap : State := station.setPm { station.pm with
  homeMap := (List.range 16).map fun n =>
    { home := 101 + n, custodian := 61, learned := some (if n = 2 ∨ n = 3 then 5 else 10 + n) } }
def oldest : HomeEntry := { home := 103, custodian := 61, learned := some 5 }

theorem witness_NoticesComplete :
    station.hears = true ∧ (framed station 61 (.close 2)).Holds .settlementUnit 61 (.close 2) [] []
    ∧ station.su.openPeriod < 2 ∧ (framed station 61 (.close 1)).Holds .settlementUnit 61 (.close 1) [] []
    ∧ station.su.openPeriod = 1 ∧ (framed station 61 (.beacon someBeacon)).Holds .peerMonitor 61 (.beacon someBeacon) [] []
    ∧ someBeacon.period ≤ station.su.openPeriod ∧ (framed station 61 (.depart 0)).Holds .peerMonitor 61 (.depart 0) [] []
    ∧ (framed station 61 (.custody 130 61)).Holds .peerMonitor 61 (.custody 130 61) [] []
    ∧ station.own = 42 ∧ station.cu.adopted.contains 130 = false ∧ station.pm.homeMap = []
    ∧ station.cu.handover = none
    ∧ (framed station 61 (.beacon laterBeacon)).Holds .peerMonitor 61 (.beacon laterBeacon) [] []
    ∧ station.su.openPeriod < laterBeacon.period
    ∧ fullMap.pm.homeMap.find? (fun e => e.home = 103) = some oldest ∧ oldest.learned.isSome = true
    ∧ 16 ≤ fullMap.pm.homeMap.length ∧ (∀ e ∈ fullMap.pm.homeMap, e.home ≠ 130) ∧ oldest ∈ fullMap.pm.homeMap
    ∧ (∀ e ∈ fullMap.pm.homeMap, 5 < e.learned.getD 0 ∨ 5 = e.learned.getD 0 ∧ oldest.home ≤ e.home) := by decide +kernel

/-- OFFERs of peer 61 that pass, and that fail each test of R121. -/
def offer (count total highest h : Nat) : Msg := .offer count total highest 1 h 0 0 0
def offered (s : State) (m : Msg) : State := framed s 61 m
def adopting (station_ : Nat) : Adoption :=
  { station := station_, homes := [61], count := 1, total := 700, toCome := 1, fault := false, idle := 10000 }
def openAdoption (station_ : Nat) : State := station.setCu { station.cu with adoption := some (adopting station_) }
def threeHomes : State := station.setCu { station.cu with adopted := [1, 2, 3] }
/-- A ledger with room for 700 cents. -/
def nearLimit : State := station.setCu { station.cu with ledger := { issued := ledgerLimit - 700 } }

/-- A card of home 61 as it is transferred, and the adoption that holds it. -/
def moved : Card :=
  { key := { home := 61, serial := 500 }, state := .pendingAdopt, balance := 700, issuePeriod := 1, lastActivity := 1,
    activity := 1 }
def transferOf (balance : Nat) : Msg := .cardTransfer 61 500 balance 1 1 1
def holdingMoved : State :=
  let s := openAdoption 61
  s.setCu { s.cu with cards := s.cu.cards ++ [moved] }

theorem witness_OfferCompletes :
    (offered station (offer 1 700 700 61)).Holds .custodyUnit 61 (offer 1 700 700 61) [] []
    ∧ station.custodyReady = true ∧ station.cu.adoption = none ∧ (∀ h ∈ dedupe ([61, 0, 0, 0].take 1), station.isHere h = false)
    ∧ station.cu.adopted.length + (dedupe ([61, 0, 0, 0].take 1)).length ≤ 3 ∧ 700 ≤ station.sc.config.cardCap
    ∧ 1 ≤ station.usableSlots ∧ 700 ≤ station.cu.ledger.headroom
    ∧ (offered (inState station .handingOver) (offer 1 700 700 61)).Holds .custodyUnit 61 (offer 1 700 700 61) [] []
    ∧ (offered (openAdoption 88) (offer 1 700 700 61)).Holds .custodyUnit 61 (offer 1 700 700 61) [] []
    ∧ (adopting 88).station ≠ 61
    ∧ (offered station (offer 1 700 700 42)).Holds .custodyUnit 61 (offer 1 700 700 42) [] [] ∧ station.isHere 42 = true
    ∧ (offered threeHomes (offer 1 700 700 61)).Holds .custodyUnit 61 (offer 1 700 700 61) [] []
    ∧ 3 < threeHomes.cu.adopted.length + (dedupe ([61, 0, 0, 0].take 1)).length
    ∧ (offered station (offer 1 700 100001 61)).Holds .custodyUnit 61 (offer 1 700 100001 61) [] []
    ∧ station.sc.config.cardCap < 100001
    ∧ (offered station (offer 6144 700 700 61)).Holds .custodyUnit 61 (offer 6144 700 700 61) [] []
    ∧ station.usableSlots < 6144 := by decide +kernel

theorem witness_OfferCompletes_otherForms :
    (offered nearLimit (offer 1 701 701 61)).Holds .custodyUnit 61 (offer 1 701 701 61) [] []
    ∧ nearLimit.cu.ledger.headroom = 700 ∧ nearLimit.usableSlots = 6143
    ∧ (offered holdingMoved (offer 1 700 700 61)).Holds .custodyUnit 61 (offer 1 700 700 61) [] []
    ∧ holdingMoved.cu.adoption = some (adopting 61) := by decide +kernel

theorem witness_AdoptionsAreDiscarded :
    (framed (openAdoption 61) 61 .abortHandover).Holds .custodyUnit 61 .abortHandover [] []
    ∧ (openAdoption 61).custodyReady = true ∧ (openAdoption 61).cu.adoption = some (adopting 61)
    ∧ (framed (openAdoption 88) 61 .abortHandover).Holds .custodyUnit 61 .abortHandover [] []
    ∧ (framed station 61 .abortHandover).Holds .custodyUnit 61 .abortHandover [] [] ∧ station.cu.adoption = none
    ∧ (openAdoption 61).live = true ∧ (openAdoption 61).now ≤ (adopting 61).idle := by decide +kernel

/-- A handover of station 42 to peer 61 in a sub-state. -/
def handingTo (sub : SubState) (ending : Bool) : Handover :=
  { sub, custodian := 61, tag := 8, homes := [42], closingPeriod := 1, count := 1, total := 5000, highest := 5000,
    replyTimeout := 800, attemptsLeft := 2, timer := some 800, ending }
def departing (sub : SubState) (ending : Bool) : State :=
  let s := inState station .handingOver
  s.setCu { s.cu with handover := some (handingTo sub ending) }

theorem witness_CustodianRepliesComplete :
    (departing .offering false).custodyReady = true
    ∧ (departing .offering false).cu.handover = some (handingTo .offering false)
    ∧ (handingTo .offering false).ticket = none
    ∧ (framed (departing .offering false) 61 (.offerReply 0 0)).Holds .custodyUnit 61 (.offerReply 0 0) [] []
    ∧ (framed (departing .offering false) 61 (.offerReply 1 6)).Holds .custodyUnit 61 (.offerReply 1 6) [] []
    ∧ (departing .transferring true).custodyReady = true ∧ (departing .transferring true).lc.waitList = []
    ∧ (departing .transferring true).cu.handover = some (handingTo .transferring true)
    ∧ (framed (departing .transferring true) 61 (.transferReply 0)).Holds .custodyUnit 61 (.transferReply 0) [] []
    ∧ (framed (departing .transferring true) 61 (.transferReply 1)).Holds .custodyUnit 61 (.transferReply 1) [] [] := by
  decide +kernel

/-- The proof of commit, by a CUSTODY notice of the custodian; a notice of another station, and one with no handover. -/
theorem witness_NoticesComplete_proofOfCommit :
    (framed (departing .transferring true) 61 (.custody 42 61)).Holds .peerMonitor 61 (.custody 42 61) [] []
    ∧ (departing .transferring true).hears = true ∧ (departing .transferring true).own = 42
    ∧ (departing .transferring true).cu.handover = some (handingTo .transferring true)
    ∧ (handingTo .transferring true).sub = .transferring ∧ (handingTo .transferring true).ending = true
    ∧ (handingTo .transferring true).custodian = 61 ∧ (61 : Nat) ≠ 88 ∧ station.cu.handover = none
    ∧ ¬ (1 ≤ 240 ∧ 240 ≤ 239) := by decide +kernel

/-- Owners that wait for the report on their frame, which has the ticket 3. -/
def outOf (m : Msg) : OutFrame := { ticket := 3, dest := 61, msg := m }
def adviceInSend : Advice := { sentAdvice with ticket := some 3, timer := none }
def handingWith (sub : SubState) (ending : Bool) (left : Nat) : Handover :=
  { handingTo sub ending with ticket := some 3, timer := none, attemptsLeft := left }
def cardsOnTheWay : Handover := { handingTo .transferring false with timer := none, unacked := [3] }

theorem witness_SendEndCompletes_owners :
    (sendingOf lastAuth).live = true ∧ lastAuth.dest ≠ 255 ∧ 4 ≤ lastAuth.sends + 1 ∧ (sendingOf lastAuth).lc.waitList = []
    ∧ (sendingOf lastAuth).lc.outbound.find? (fun g => g.ticket = (sendOf lastAuth).ticket) = some lastAuth
    ∧ sendingAuth.live = true ∧ authOut.msg.kind = 1 ∧ authTxn.state = .authWait
    ∧ sendingAuth.br.txns.find? (fun y => y.ticket = some authOut.ticket) = some authTxn
    ∧ sendingAuth.txnFor authTxn.reference = some authTxn
    ∧ (outOf (.advice far 900 9 1 ⟨0, 0⟩)).msg.kind = 10 ∧ adviceInSend.lastTarget = some 61
    ∧ [adviceInSend].find? (fun y => y.ticket = some 3) = some adviceInSend
    ∧ (outOf (.offer 1 700 700 1 42 0 0 0)).msg.kind = 18 ∧ (handingWith .offering false 2).ticket = some 3
    ∧ (outOf (transferOf 700)).msg.kind = 20 ∧ (outOf (transferOf 700)).ticket ∈ cardsOnTheWay.unacked
    ∧ (outOf (.transferEnd 1 700)).msg.kind = 21 ∧ (handingWith .transferring true 2).ticket = some 3
    ∧ 0 < (handingWith .transferring true 2).attemptsLeft ∧ (handingWith .transferring true 0).attemptsLeft = 0
    ∧ (station.peerAt 61).failed < 2 ∧ (outOf (.release far ⟨2, 9⟩ 6)).msg.kind = 5
    ∧ (outOf (.offerReply 0 0)).msg.kind ∉ [1, 3, 5, 6, 8, 10, 12, 18, 20, 21]
    ∧ (inRound none).su.closing = some (closingOf none) ∧ (closingOf none).period = 1 ∧ (closingOf none).period ≠ 2
    ∧ (∀ t ∈ station.br.txns, t.ticket ≠ some 3) ∧ (∀ a ∈ station.au.queue, a.ticket ≠ some 3) ∧ station.cu.handover = none
    ∧ closeOut.msg.kind ≠ 16 := by decide +kernel

theorem witness_AFailedHandoverReturnsToJoined :
    (departing .draining false).cu.handover = some (handingTo .draining false)
    ∧ (departing .draining false).lc.waitList = [] := by decide +kernel

theorem witness_CardTransferCompletes :
    (framed (openAdoption 61) 61 (transferOf 700)).Holds .custodyUnit 61 (transferOf 700) [] []
    ∧ (openAdoption 61).custodyReady = true ∧ (openAdoption 61).cu.adoption = some (adopting 61)
    ∧ (adopting 61).homes.contains 61 = true ∧ (openAdoption 61).cu.record moved.key = none
    ∧ 700 ≤ (openAdoption 61).sc.config.cardCap ∧ (openAdoption 61).cu.cards.length < 6144
    ∧ (framed holdingMoved 61 (transferOf 700)).Holds .custodyUnit 61 (transferOf 700) [] []
    ∧ holdingMoved.cu.record moved.key = some moved
    ∧ (framed holdingMoved 61 (transferOf 701)).Holds .custodyUnit 61 (transferOf 701) [] []
    ∧ (framed (openAdoption 61) 61 (transferOf 100001)).Holds .custodyUnit 61 (transferOf 100001) [] []
    ∧ (openAdoption 61).sc.config.cardCap < 100001
    ∧ (framed (openAdoption 88) 61 (transferOf 700)).Holds .custodyUnit 61 (transferOf 700) [] []
    ∧ (openAdoption 88).cu.adoption = some (adopting 88) := by decide +kernel

theorem witness_TransferEndCompletes :
    (framed holdingMoved 61 (.transferEnd 1 700)).Holds .custodyUnit 61 (.transferEnd 1 700) [] []
    ∧ holdingMoved.custodyReady = true ∧ holdingMoved.cu.adoption = some (adopting 61)
    ∧ (holdingMoved.cu.cards.filter fun r => r.state = .pendingAdopt) = [moved]
    ∧ 700 ≤ holdingMoved.cu.ledger.headroom
    ∧ (framed (openAdoption 61) 61 (.transferEnd 1 700)).Holds .custodyUnit 61 (.transferEnd 1 700) [] []
    ∧ (framed station 61 (.transferEnd 1 700)).Holds .custodyUnit 61 (.transferEnd 1 700) [] []
    ∧ station.cu.adoption = none := by decide +kernel

/-! ### Witnesses: what an event makes due -/

/-- A void whose RELEASE has its place, behind one whose RELEASE waits. -/
def voidingTxn (abandoned : Bool) : Txn := { remoteTxn with timer := none, voiding := some (98, abandoned) }
def heldBack : Txn := { remoteTxn with reference := 4, timer := none, voiding := some (99, false) }
def voidsDue (abandoned : Bool) : State :=
  let s := waiting.setBr { waiting.br with txns := [heldBack, voidingTxn abandoned] }
  s.setLc { s.lc with waitList := [{ ticket := 99, dest := 61, msg := .release far ⟨2, 9⟩ 4 }], nextTicket := 100 }

/-- A WAITING advice for the card here, and for a card of peer 61 behind one that may not go. -/
def adviceHere : Advice := { kind := .standin, card := here, amount := 6000, reference := 9, hold := none }
def adviceFar : Advice := { kind := .standin, card := far, amount := 900, reference := 10, hold := none }
def adviceLost : Advice := { kind := .standin, card := lost, amount := 900, reference := 8, hold := none }
def advising (s : State) (l : List Advice) : State := s.setAu { s.au with queue := l }
/-- The advice for the card here was applied before and its entry is still in retention. -/
def appliedBefore : State := advising (holding { peerEntry with station := 42, reference := 9 }) [adviceHere]

theorem witness_DueVoidsAndAdvicesAreDone :
    (voidsDue true).br.txns = [heldBack] ++ voidingTxn true :: [] ∧ (voidingTxn true).state = .remoteHeld
    ∧ (∀ x ∈ [heldBack], x.voiding = some (99, false)) ∧ (voidsDue true).waits 99 = true
    ∧ (∀ f ∈ (voidsDue true).lc.waitList, f.ticket ≠ 98)
    ∧ (advising station [adviceHere]).mayApply adviceHere = true ∧ adviceHere.ticket = none
    ∧ (advising station [adviceHere]).holdFor 42 9 = none
    ∧ 0 < min adviceHere.amount ((advising station [adviceHere]).cu.available here.key)
    ∧ (advising nothingLeft [adviceHere]).mayApply adviceHere = true
    ∧ min adviceHere.amount ((advising nothingLeft [adviceHere]).cu.available here.key) = 0
    ∧ (advising (fullHolds station) [adviceHere]).holdFor 42 9 = none ∧ 96 ≤ (fullHolds station).cu.holds.length
    ∧ (advising (inState station .handingOver) [adviceHere]).mayApply adviceHere = true
    ∧ (appliedBefore.holdFor 42 9).map (·.state) = some .captured
    ∧ (advising station [adviceLost, adviceFar]).maySend adviceLost = false
    ∧ (advising station [adviceLost, adviceFar]).maySend adviceFar = true
    ∧ (∀ a ∈ [adviceLost], (advising station [adviceLost]).mayApply a = false) := by decide +kernel

/-- A statement whose parts have their places, or whose part R waits. -/
def stating (waits : List OutFrame) : State :=
  let s := roundWith { compare := .pending, send := .queued }
  (s.setSu { s.su with sending := some { peer := 61, partI := 98, partR := 99 } }).setLc
    { s.lc with waitList := waits, nextTicket := 100 }
def waitingPart : OutFrame := { ticket := 99, dest := 61, msg := partR 0 0 }
/-- A round of period 1 that is done, and a handover in CLOSING that waits for it. -/
def roundDone : State := roundWith { compare := .match, send := .sent }
def closingTo (custodian : Nat) : Handover := { handingTo .closing false with custodian, timer := none }
def awaitingRound (custodian : Nat) : State :=
  let s := inState roundDone .handingOver
  s.setCu { s.cu with handover := some (closingTo custodian) }
/-- A handover with cards still to send, and with some on their way. -/
def transferring (toSend : List Card) (unacked : List Nat) : Handover :=
  { handingTo .transferring false with timer := none, toSend, unacked, attemptsLeft := 3 }
def sendingCards (toSend : List Card) (unacked : List Nat) : State :=
  let s := inState station .handingOver
  (s.setCu { s.cu with handover := some (transferring toSend unacked) }).setLc
    { s.lc with waitList := [{ waitingPart with msg := transferOf 700 }], nextTicket := 100 }

theorem witness_DueRoundsAndHandoversGoOn :
    (stating []).su.sending = some { peer := 61, partI := 98, partR := 99 } ∧ (stating []).su.closing.isSome = true
    ∧ (∃ f ∈ (stating [waitingPart]).lc.waitList, f.ticket = 98 ∨ f.ticket = 99)
    ∧ (roundWith { compare := .pending, send := .queued }).su.sending = none
    ∧ (roundWith { compare := .pending, send := .queued }).onLine = true ∧ (station.peerAt 61).presence.reachable = true
    ∧ (departing .draining false).cu.holds = [] ∧ (departing .draining false).au.queue = []
    ∧ (departing .draining false).su.openPeriod < 4294967295
    ∧ 4294967295 ≤ (lastPeriod (departing .draining false)).su.openPeriod
    ∧ roundDone.su.closing.isSome = true ∧ roundDone.su.sending = none
    ∧ (awaitingRound 61).cu.handover = some (closingTo 61) ∧ (closingTo 61).sub = .closing ∧ (closingTo 61).closingPeriod = 1
    ∧ ((awaitingRound 61).peerAt 61).presence.reachable = true ∧ ((awaitingRound 77).peerAt 77).presence.reachable = false
    ∧ (sendingCards [moved] [98]).cu.handover = some (transferring [moved] [98])
    ∧ (∀ n ∈ [98], (sendingCards [moved] [98]).waits n = false) ∧ (sendingCards [moved] [99]).waits 99 = true
    ∧ (transferring [] []).sub = .transferring ∧ (transferring [] []).ending = false
    ∧ (sendingCards [] [99]).cu.handover = some (transferring [] [99]) := by decide +kernel

/-! ### Witnesses: timers, supply, references and round trips -/

/-- A transaction that waits for a reply, with attempts left. -/
def retrying (kind : TxnKind) (state : TxnState) (left : Nat) : State :=
  (waitingFor kind state).setBr { station.br with txns := [{ waitTxn kind state with attemptsLeft := left }], refCounter := 7 }
/-- Peer 61 has failed two exchanges in a row. -/
def lastChance (state : TxnState) (left : Nat) : State :=
  (retrying .redeem state left).setPm { station.pm with peers := [(61, { presence := .present, lastHeard := some 0, failed := 2 })] }
def overLimit (s : State) : State := s.setSc { s.sc with config := { s.sc.config with normalLimit := 0 } }

theorem witness_ReplyTimeoutsComplete :
    (retrying .redeem .authWait 2).live = true
    ∧ (retrying .redeem .authWait 2).txnFor 6 = some { waitTxn .redeem .authWait with attemptsLeft := 2 }
    ∧ (waitTxn .redeem .authWait).timer = some 800 ∧ (waitTxn .redeem .authWait).target = some 61
    ∧ ((retrying .redeem .authWait 2).peerAt 61).failed < 2
    ∧ ((retrying .redeem .authWait 2).peerAt 61).presence.reachable = true
    ∧ (waitTxn .redeem .authWait).msg = some (.auth far 900 6)
    ∧ (retrying .redeem .authWait 0).standinGranted far 900 = true
    ∧ (overLimit (retrying .redeem .authWait 0)).standinGranted far 900 = false
    ∧ (retrying .redeem .captureWait 0).txnFor 6 = some { waitTxn .redeem .captureWait with attemptsLeft := 0 }
    ∧ (retrying .credit .creditWait 0).txnFor 6 = some { waitTxn .credit .creditWait with attemptsLeft := 0 }
    ∧ (retrying .enquire .enquireWait 0).txnFor 6 = some { waitTxn .enquire .enquireWait with attemptsLeft := 0 }
    ∧ ((lastChance .captureWait 2).peerAt 61).failed = 2 ∧ (lastChance .captureWait 2).cu.handover = none
    ∧ ((lastChance .captureWait 2).peerAt 61).presence.reachable = true
    ∧ (lastChance .captureWait 2).txnFor 6 = some { waitTxn .redeem .captureWait with attemptsLeft := 2 }
    ∧ delivering.live = true ∧ delivering.adviceFor 9 = some sentAdvice ∧ sentAdvice.state = .inDelivery
    ∧ sentAdvice.timer = some 800 ∧ sentAdvice.lastTarget = some 61 ∧ (delivering.peerAt 61).failed < 2 := by decide +kernel

theorem witness_AbandonmentTimerCompletes :
    waiting.live = true ∧ waiting.txnFor 5 = some localTxn ∧ localTxn.timer = some 120000 ∧ localTxn.state = .localHeld
    ∧ waiting.holdNamed localTxn.holdId waiting.own localTxn.reference localTxn.card.key = some localHold
    ∧ waiting.txnFor 6 = some remoteTxn ∧ remoteTxn.target = some 61 ∧ waiting.lc.hasRoom 1 = true
    ∧ waiting.lc.waitList = [] ∧ (lineFull waiting).lc.hasRoom 1 = false ∧ (lineFull waiting).txnFor 6 = some remoteTxn
    ∧ waiting.txnFor 7 = some standinTxn ∧ standinTxn.timer = some 120000 := by decide +kernel

/-- The third attempt of TRANSFER-END is outstanding. -/
def lastAttempt : State :=
  let s := departing .transferring true
  s.setCu { s.cu with handover := some { handingTo .transferring true with attemptsLeft := 0 } }

theorem witness_RoundAndHandoverTimersComplete :
    (inRound none).live = true ∧ (inRound none).su.window = some 60000 ∧ (inRound none).su.closing = some (closingOf none)
    ∧ (inRound none).su.sending = none ∧ (inRound none).cu.handover = none
    ∧ (departing .draining false).live = true
    ∧ (departing .draining false).cu.handover = some (handingTo .draining false)
    ∧ (handingTo .draining false).timer = some 800
    ∧ (departing .offering false).cu.handover = some (handingTo .offering false)
    ∧ (departing .transferring true).cu.handover = some (handingTo .transferring true)
    ∧ 0 < (handingTo .transferring true).attemptsLeft ∧ ((departing .transferring true).peerAt 61).failed < 2
    ∧ lastAttempt.cu.handover = some { handingTo .transferring true with attemptsLeft := 0 }
    ∧ 4 ≤ (List.replicate 4 somePayout).length ∧ (List.replicate 3 somePayout).length < 4 := by decide +kernel

/-- An inbound queue with 11 and with 12 frames. -/
def filled (n : Nat) : State :=
  station.setLc { station.lc with inbound := List.replicate n { source := 61, msg := .enquire here 9 } }
def guarded (n : Nat) : State :=
  let s := filled n
  s.setLc { s.lc with pauseGuard := some 50, pauses := [(61, 50)] }

theorem witness_PausesAreHandedGuardedAndEnd :
    (filled 11).lineState = .active ∧ (filled 11).lc.inbound.length = 11 ∧ (filled 11).lc.pauseGuard = none
    ∧ (filled 11).hasOwn 15 = false ∧ (filled 11).lc.outbound.length < 24
    ∧ (guarded 12).live = true ∧ (guarded 12).lc.pauseGuard = some 50 ∧ (guarded 12).lineState = .active
    ∧ 12 ≤ (guarded 12).lc.inbound.length ∧ (guarded 12).hasOwn 15 = false ∧ (guarded 11).lc.inbound.length < 12
    ∧ (guarded 11).lc.pauses.find? (fun e => e.1 = 61) = some (61, 50)
    ∧ (filled 11).receiving = true ∧ (filled 11).accepts enquireFrame = some (.enquire here 9)
    ∧ (guarded 11).receiving = true ∧ (guarded 11).accepts enquireFrame = some (.enquire here 9)
    ∧ (inState (filled 11) .listening).lineState = .listenOnly ∧ (inState (filled 11) .listening).receiving = true
    ∧ (inState (filled 11) .listening).accepts closeFrame = some (.close 2) ∧ closeFrame.kind ≠ 16
    ∧ receive closeFrame.levels = .frame closeFrame
    ∧ ((guarded 12).setLc { (guarded 12).lc with stuckSince := some 0 }).lineState = .stuck
    ∧ ((guarded 12).setLc { (guarded 12).lc with outbound := [{ ticket := 4, dest := 255, msg := .pause 50 }] }).hasOwn 15
      = true := by decide +kernel

/-- A peer 61 after two failed exchanges. -/
def failing : State := station.setPm { station.pm with peers := [(61, { presence := .quiet, lastHeard := some 0, failed := 2 })] }

theorem witness_SilentPeersBecomeQuietAndAbsent :
    station.live = true ∧ (station.peerAt 61).lastHeard = some 0 ∧ (station.peerAt 61).presence = .present
    ∧ station.now ≤ 0 + 3 * station.beaconInterval ∧ station.cu.handover = none
    ∧ station.now ≤ 0 + 10 * station.beaconInterval ∧ failing.cu.handover = none ∧ 2 ≤ (failing.peerAt 61).failed
    ∧ (failing.peerAt 61).presence = .quiet := by decide +kernel

/-- A failed exchange below the third, with a peer that is not reachable, and with the custodian of a handover. -/
theorem witness_SilentPeersBecomeQuietAndAbsent_otherForms :
    let gone := station.setPm { station.pm with peers := [(61, { presence := .absent, failed := 2 })] }
    let d := failing.setCu (departing .offering false).cu
    (station.peerAt 61).failed < 2 ∧ 2 ≤ (gone.peerAt 61).failed ∧ (gone.peerAt 61).presence = .absent
    ∧ d.cu.handover = some (handingTo .offering false) ∧ (handingTo .offering false).sub = .offering
    ∧ (handingTo .offering false).custodian = 61 ∧ 2 ≤ (d.peerAt 61).failed ∧ (d.peerAt 61).presence = .quiet
    ∧ d.live = true ∧ (d.peerAt 61).lastHeard = some 0 ∧ d.now ≤ 0 + 10 * d.beaconInterval
    ∧ (departing .draining false).cu.handover = some (handingTo .draining false) := by decide +kernel

/-- A station at the end of its listening. -/
def listening : State := station.setSc { station.sc with station := .listening, listenTimer := some 10000 }

theorem witness_BeaconAndListenTimersComplete :
    station.live = true ∧ station.onLine = true ∧ station.pm.beaconFrom = some 0 ∧ station.hasOwn 14 = false
    ∧ station.now ≤ 0 + station.beaconInterval ∧ listening.live = true ∧ listening.sc.station = .listening
    ∧ listening.sc.listenTimer = some 10000 ∧ listening.su.closing = none := by decide +kernel

/-- A round resumes at the end of the listening. -/
theorem witness_BeaconAndListenTimersComplete_round :
    let s := listening.setSu { (inRound none).su with window := none }
    s.live = true ∧ s.sc.station = .listening ∧ s.sc.listenTimer = some 10000 ∧ s.now ≤ 10000
    ∧ s.su.closing.isSome = true ∧ s.su.window = none := by decide +kernel

/-- A load window with a count, after some windows above the threshold. -/
def loaded (count : Nat) (run : List Nat) : State :=
  station.setPm { station.pm with windowCount := count, run }

theorem witness_LoadWindowsSwitchTheMode :
    (loaded 399 []).live = true ∧ (loaded 399 []).pm.window = some 1000 ∧ (loaded 399 []).pm.mode = .normal
    ∧ ¬ (loaded 399 []).sc.config.upper ≤ 399 ∧ 1 ≤ (loaded 399 []).sc.config.dwell
    ∧ (loaded 400 []).sc.config.upper ≤ 400 ∧ ([] : List Nat).length + 1 < (loaded 400 []).sc.config.dwell
    ∧ (loaded 400 [400, 400]).sc.config.dwell ≤ [400, 400].length + 1
    ∧ unjoined.onLine = false ∧ (unjoined.setPm {}).pm.peers = [] := by decide +kernel

/-- Peer 61 silent for three beacon intervals and for ten, and a BEACON that is due and one that is not. -/
theorem witness_LoadWindowsSwitchTheMode_modeChanged :
    station.beaconInterval = 5000 ∧ station.cu.handover = none ∧ (station.peerAt 61).lastHeard = some 0
    ∧ (station.peerAt 61).presence = .present ∧ (station.peerAt 77).lastHeard = none
    ∧ (departing .draining false).cu.handover = some (handingTo .draining false)
    ∧ station.onLine = true ∧ station.hasOwn 14 = false ∧ station.pm.beaconFrom = some 0 ∧ station.now = 0 := by
  decide +kernel

/-- A station in its departure step. -/
def leaving : State := station.setSc { station.sc with supply := .warned, departure := some 20 }

def lastDepart : OutFrame := { ticket := 4, dest := 255, msg := .depart 1 }
def leavingNow : State := leaving.setLc (sendingOf lastDepart).lc

theorem witness_SupplyWarningAndDepartureComplete :
    station.live = true ∧ station.sc.station = .joined ∧ unjoined.live = true ∧ unjoined.sc.station = .unjoined
    ∧ leaving.sc.departure = some 20 ∧ leaving.now ≤ 20 ∧ leaving.lc.activity = .free
    ∧ leaving.sc.station ≠ .retain ∧ leaving.sc.supply = .warned ∧ leaving.sc.storeValid = true
    ∧ leavingNow.live = false ∧ leavingNow.lc.activity = .sending (sendOf lastDepart) ∧ (sendOf lastDepart).kind = 16
    ∧ lastDepart ∈ leavingNow.lc.outbound ∧ leavingNow.lc.waitList = [] ∧ leaving.live = false
    ∧ leaving.lineState = .active ∧ leaving.sc.returned = none ∧ retained.live = false
    ∧ retained.sc.station = .retain := by
  decide +kernel

/-- R185: a warning deasserted in the departure step gives a start, with its SUPPLY report, as RETAIN is entered; asserted
again, it does not. -/
theorem test_warningDeassertedInTheDepartureStep :
    let back := leaving.setSc { leaving.sc with returned := some { straps := straps42, held := true } }
    let clear : Straps := { straps42 with clear := true }
    let cleared := leaving.setSc { leaving.sc with returned := some { straps := clear, held := true } }
    exec (.supplyReturn straps42 true) leaving = .next back ∧ exec .supplyWarning back = .next leaving
      ∧ (back.enterRetain .notSentLine).sc.station = .unjoined ∧ (back.enterRetain .notSentLine).sc.supply = .normal
      ∧ (back.enterRetain .notSentLine).sc.latch = some (supplyRecord ⟨.joined, .notSentLine⟩ 1)
      ∧ (leaving.enterRetain .notSentLine).sc.station = .retain
      ∧ cleared.enterRetain .notSentLine = leaving.coldStart clear :=
  ⟨rfl, rfl, by decide +kernel, by decide +kernel, by decide +kernel, by decide +kernel, by decide +kernel⟩

theorem witness_FreshReferenceIsFree :
    let s := waiting.setBr { waiting.br with refCounter := 65535 }
    s.br.txns.length ≤ 16 ∧ s.au.queue.length ≤ 64 ∧ s.br.refCounter = 65535 ∧ s.freshReference = 65535 := by
  decide +kernel

theorem witness_FramesAreReceivedAsSent :
    enquireFrame.cls < 4 ∧ enquireFrame.source < 256 ∧ enquireFrame.dest < 256 ∧ enquireFrame.kind < 64
    ∧ enquireFrame.sequence < 256 ∧ enquireFrame.payload.length ≤ 40 := by decide +kernel

theorem witness_FramesAreReceivedAsSent_wrongCheck :
    enquireFrame.payload.length ≤ 40 ∧ crc enquireFrame.bits + 1 ≠ crc enquireFrame.bits := by decide +kernel

/-- One frame of each kind, its last fields at the bounds of their widths. -/
def widest : List Msg :=
  let c : CardNo := { home := 255, serial := 16777215, check := 255 }
  let h : HoldId := ⟨255, 65535⟩
  let n := 4294967295
  [.auth c n 65535, .authReply 65535 255 c h n n, .capture c h 65535 n, .captureReply 65535 255 255 n n n n n,
    .release c h 65535, .credit c n 65535, .creditReply 65535 255 n n, .enquire c 65535, .enquireReply 65535 255 n n,
    .advice c n 65535 255 h, .adviceReply 65535 255 255 n n n n n,
    .statement 255 n 1099511627775 1099511627775 1099511627775 16777215 16777215 16777215 255, .close n,
    .beacon { period := n, mode := 255, handover := 255, count := 255, h1 := 255, h2 := 255, h3 := 255 }, .pause 255,
    .depart 255, .custody 255 255, .offer 65535 1099511627775 n 255 255 255 255 255, .offerReply 255 255,
    .cardTransfer 255 16777215 n n n 65535, .transferEnd 65535 1099511627775, .transferReply 255, .abortHandover]

theorem witness_PayloadsReadBackAsSent : (∀ m ∈ widest, m.Fits) ∧ widest.map Msg.kind = (List.range 23).map (· + 1) := by
  refine ⟨?_, by decide +kernel⟩
  simp [widest, Msg.Fits, FitsIn, CardNo.Fits, holdIdFits]

theorem witness_StepTakesTheFrontCommand : (station.setPending [.status]).pending = .status :: [] := rfl

theorem test_emptyQueueTakesAMillisecond : step State.reset = .next (State.reset.setNow 1) := rfl

/-- The invariants hold in a state with a card, a hold and frames in both queues. -/
def busyState : State := framed ((holding peerHold).setLc (queued authOut).lc) 61 (.enquire here 9)

theorem witness_StepsKeepTheCapacities : busyState.WithinCapacity where
  till := by constructor <;> decide +kernel
  line := by constructor <;> decide +kernel
  custody := by constructor <;> decide +kernel
  broker := by constructor <;> decide +kernel
  homeMap := by constructor <;> decide +kernel
  tables := by constructor <;> decide +kernel

theorem witness_StepsKeepTheCustodyTruths : busyState.CustodyOk := by constructor <;> decide +kernel

end Sys2Proof.Tests
end

section
/-! PROOFS. The fee computation of R20: the bounds of the fee, what a posting for a peer leaves in its lifetime record, and
the money part of a forced posting. -/
namespace Sys2Proof.Machine

/-! ### The fee's arithmetic (R20) -/

/-- The bound of R20's note: S is at most 1,000 V' + 9,999 for a rate and a remainder in their ranges (R18, R19). -/
theorem feeSum_le {rate : Nat} {l : Lifetime} (hr : rate ≤ 1000) (hm : l.remainder < 10000) (v : Nat) :
    feeSum rate l v ≤ 1000 * v + 9999 := by
  have hp : v * rate ≤ v * 1000 := Nat.mul_le_mul_left v hr
  unfold feeSum
  omega

/-- The fee never passes the amount. -/
theorem feeOf_le_amount {rate : Nat} {l : Lifetime} {v : Nat} (hr : rate ≤ 1000) (hm : l.remainder < 10000) (hv : 1 ≤ v) :
    feeOf rate l v ≤ v := by
  have hs := feeSum_le hr hm v
  unfold feeOf
  omega

/-- The net is 0 for 1 cent alone, and only where rate and remainder make up a whole cent. -/
theorem eq_one_of_net_eq_zero {rate : Nat} {l : Lifetime} {v : Nat} (hr : rate ≤ 1000) (hm : l.remainder < 10000)
    (hv : 1 ≤ v) (hnet : v - feeOf rate l v = 0) : v = 1 ∧ 10000 ≤ rate + l.remainder := by
  have hs := feeSum_le hr hm v
  have hcents : 10000 * v ≤ feeSum rate l v := by
    unfold feeOf at hnet
    omega
  obtain rfl : v = 1 := by omega
  exact ⟨rfl, by simpa [feeSum] using hcents⟩

/-- At a rate of 0 the sum is the remainder alone. -/
@[simp] theorem feeSum_zero_rate (l : Lifetime) (v : Nat) : feeSum 0 l v = l.remainder := by simp [feeSum]

/-- A rate of 0 charges nothing. -/
theorem feeOf_zero_rate {l : Lifetime} (hm : l.remainder < 10000) (v : Nat) : feeOf 0 l v = 0 := by
  simp [feeOf, Nat.div_eq_of_lt hm]

/-- A charge above 0 leaves some lifetime gross, so the record stays listed. -/
theorem Lifetime.charge_ne_start (l : Lifetime) (rate : Nat) {v : Nat} (hv : 1 ≤ v) : l.charge rate v ≠ {} := by
  intro h
  have hg : min (l.gross + v) 1099511627775 = 0 := congrArg Lifetime.gross h
  omega

/-! ### A posting for a peer -/

/-- The figures of a posting for another station (R23). -/
theorem State.postHome_figures_of_peer {s : State} {p : Nat} (hp : p ≠ s.own) (v : Nat) :
    let fee := feeOf s.sc.config.feeRate (Table.get {} s.su.lifetime p) v
    (s.postHome p v).2 = { posted := v, fee, net := v - fee, short := 0, stamp := s.su.openPeriod } := by
  simp [State.postHome, hp]

/-- A posting for another station puts its charged record into the lifetime table. -/
theorem State.postHome_lifetime_of_peer {s : State} {p : Nat} (hp : p ≠ s.own) (v : Nat) :
    (s.postHome p v).1.su.lifetime =
      Table.put {} p ((Table.get {} s.su.lifetime p).charge s.sc.config.feeRate v) s.su.lifetime := by
  simp [State.postHome, hp, State.modifyOpen]

/-- The peer's lifetime record after a posting for it is the charged one. -/
theorem State.postHome_charges_peer {s : State} {p v : Nat} (hp : p ≠ s.own) (hv : 1 ≤ v) :
    Table.get {} (s.postHome p v).1.su.lifetime p = (Table.get {} s.su.lifetime p).charge s.sc.config.feeRate v := by
  rw [State.postHome_lifetime_of_peer hp]
  exact Table.get_put_self _ _ _ (Lifetime.charge_ne_start _ _ hv) _

/-! ### A forced posting (R44) -/

/-- A forced posting of 0 makes no posting. -/
theorem State.forcedFigures_of_zero (s : State) (p : Nat) (k : Key) {amount available : Nat}
    (h : min amount available = 0) : (s.forcedFigures p k amount available).1 = s := by
  simp only [State.forcedFigures, h, if_true]

/-- A forced posting above 0 posts the clamped amount. -/
theorem State.forcedFigures_of_pos (s : State) (p : Nat) (k : Key) {amount available : Nat}
    (h : 0 < min amount available) :
    (s.forcedFigures p k amount available).1 = (s.postRedemption p k (min amount available)).1 := by
  simp only [State.forcedFigures, Nat.ne_of_gt h, if_false]

/-- Settles O26: a peer's posting is its figures and its charged record, the bounds are those of the fee's arithmetic, and a
forced posting is split on its clamped amount. -/
theorem feeCarriesItsRemainder : Obligations.FeeCarriesItsRemainder := by
  refine ⟨fun s p v hp hv _ => ⟨?figures, ?record, ?bounds, ?zeroRate⟩, fun s p k amount available => ⟨?none, ?clamped⟩⟩
  case figures => exact State.postHome_figures_of_peer hp v
  case record => exact State.postHome_charges_peer hp hv
  case bounds => exact fun hr hm => ⟨feeOf_le_amount hr hm hv, eq_one_of_net_eq_zero hr hm hv⟩
  case zeroRate =>
    intro hr hm
    rw [hr]
    exact ⟨feeOf_zero_rate hm v, by rw [Nat.mul_zero, Nat.zero_add, Nat.mod_eq_of_lt hm]⟩
  case none => exact State.forcedFigures_of_zero s p k
  case clamped => exact State.forcedFigures_of_pos s p k

end Sys2Proof.Machine
end

section
/-! PROOFS. The frame on the line (R136 to R139): the fields a frame's bits spell, the bits of the check register in the
order they are sent, and a reception in full. -/
namespace Sys2Proof.Machine

/-! ### The fields of a frame's bits (R136) -/

/-- The field at the front of a bit string. -/
@[simp] theorem take_toBits_append (n v : Nat) (rest : List Bool) : (toBits n v ++ rest).take n = toBits n v :=
  List.take_left' (toBits_length n v)

/-- A field of `n` bits is passed over by dropping at least `n`. -/
@[simp] theorem drop_toBits_append {n k : Nat} (h : n ≤ k) (v : Nat) (rest : List Bool) :
    (toBits n v ++ rest).drop k = rest.drop (k - n) := by
  rw [List.drop_append, toBits_length, List.drop_of_length_le (by simpa using h), List.nil_append]

/-- The fields before the payload take 38 bits. -/
@[simp] theorem RawFrame.bits_length (f : RawFrame) : f.bits.length = 38 + 8 * f.payload.length := by
  simp [RawFrame.bits]
  omega

/-- The bits from the 33rd on spell the payload's length. -/
theorem RawFrame.lengthField_bits {f : RawFrame} (hlen : f.payload.length < 2 ^ 6) (rest : List Bool) :
    ofBits (((f.bits ++ rest).drop 32).take 6) = f.payload.length := by
  simp [RawFrame.bits, ofBits_toBits hlen]

/-- A frame whose fields are within their widths reads back from its bits, whatever follows them. -/
theorem RawFrame.ofBitList_bits {f : RawFrame} (hcls : f.cls < 2 ^ 2) (hsource : f.source < 2 ^ 8)
    (hdest : f.dest < 2 ^ 8) (hkind : f.kind < 2 ^ 6) (hsequence : f.sequence < 2 ^ 8)
    (hlen : f.payload.length < 2 ^ 6) (rest : List Bool) : RawFrame.ofBitList (f.bits ++ rest) = f := by
  simp [RawFrame.ofBitList, RawFrame.bits, ofBits_toBits hcls, ofBits_toBits hsource, ofBits_toBits hdest,
    ofBits_toBits hkind, ofBits_toBits hsequence, ofBits_toBits hlen, bytesOfBits_payloadBits]

/-! ### The check register (R139) -/

/-- The bit at place `i` of `n` is the one of weight `n - 1 - i`. -/
theorem getElem_toBits {n i : Nat} (v : Nat) (h : i < (toBits n v).length) :
    (toBits n v)[i] = v.testBit (n - 1 - i) := by
  induction n generalizing i with
  | zero => simp at h
  | succ n ih =>
    cases i with
    | zero => rfl
    | succ i => simp [toBits, ih, show n - 1 - i = n - (i + 1) by omega]

/-- A register's bits are sent from its top bit down. -/
theorem toBits_toNat_eq_getMsbD {w : Nat} (x : BitVec w) : toBits w x.toNat = (List.range w).map x.getMsbD := by
  apply List.ext_getElem (by simp)
  intro i hi _
  have hw : i < w := by simpa using hi
  simp [getElem_toBits, BitVec.getMsbD, BitVec.testBit_toNat, hw]

/-- A step combines the shifted register with the generator exactly where the bit differs from the top bit. -/
theorem crcStep_eq (r : BitVec 16) (b : Bool) :
    crcStep r b = (r <<< 1) ^^^ if r.msb = b then 0x0000#16 else 0x2F15#16 := by
  by_cases h : r.msb = b <;> simp [crcStep, h]

/-! ### A reception in full (R138, R139) -/

/-- A stuffed frame with any 16 check bits is a whole reception: the check alone decides between its fields and a discard. -/
theorem receive_stuff {f : RawFrame} (hlen : f.payload.length ≤ 40) (check : BitVec 16) :
    receive (stuff 0 (f.bits ++ toBits 16 check.toNat)) =
      if check = crc f.bits then .frame (RawFrame.ofBitList (f.bits ++ toBits 16 check.toNat)) else .discard := by
  have hfield := RawFrame.lengthField_bits (f := f) (by omega) (toBits 16 check.toNat)
  have hwhole : (f.bits ++ toBits 16 check.toNat).length = 54 + 8 * f.payload.length := by simp; omega
  have hchecked : (f.bits ++ toBits 16 check.toNat).take (38 + 8 * f.payload.length) = f.bits :=
    List.take_left' f.bits_length
  have hcheck : ofBits ((f.bits ++ toBits 16 check.toNat).drop (38 + 8 * f.payload.length)) = check.toNat := by
    rw [List.drop_left' f.bits_length, ofBits_toBits check.isLt]
  have hlen' : ¬ f.payload.length > 40 := by omega
  simp only [receive, unstuff_stuff 0 (by omega), hfield, hwhole, hchecked, hcheck, hlen']
  simp [BitVec.toNat_inj, eq_comm]

/-- Settles O56: the reception of a stuffed frame turns on its check bits alone; with the register's own bits its fields
read back, and with any other it is discarded. -/
theorem framesAreReceivedAsSent : Obligations.FramesAreReceivedAsSent := by
  refine ⟨?received, fun _ => rfl, rfl, ?step, fun _ => rfl, toBits_toNat_eq_getMsbD, ?wrongCheck⟩
  case received =>
    intro f hcls hsource hdest hkind hsequence hlen
    rw [RawFrame.levels, receive_stuff hlen, if_pos rfl,
      RawFrame.ofBitList_bits hcls hsource hdest hkind hsequence (by omega)]
  case step =>
    intro l b
    rw [crc_append, crcStep_eq]
  case wrongCheck =>
    intro f check hlen hwrong
    rw [receive_stuff hlen, if_neg hwrong]

end Sys2Proof.Machine
end

