-- ==== Sys2Proof/Proofs/Capacities.lean ====
section
/-! PROOFS. The capacities are no invariant of a step: a state within them may have a void that waits for room while the
request frame of the same transaction is still on the line, and that frame's acknowledgment starts the stopped timer. -/
namespace Sys2Proof.Machine

/-- A REMOTE-HELD transaction whose RELEASE (frame 2) waits for room and that still names its AUTH frame (frame 0). -/
def voidedTxn : Txn :=
  { reference := 1, tag := 0, kind := .redeem, card := CardNo.make 61 500, amount := 1, approved := 1, target := some 61,
    mode := .normal, replyTimeout := 800, attempts := 1, ticket := some 0, state := .remoteHeld, voiding := some (2, false) }

/-- The AUTH of the voided transaction is on the line and reaches its slot; the outbound queue is full for its class and an
older request waits before the RELEASE, so that the freed place is not the RELEASE's. -/
def voidWithAuthOnLine : State :=
  { sc := { straps := { address := 42, rate := 0, clear := false }, station := .joined }
    till := { reserved := 1 }
    br := { txns := [voidedTxn] }
    au := { reservations := 1 }
    lc := { outbound := { ticket := 0, dest := 61, msg := .auth (CardNo.make 61 500) 1 1 } ::
              List.replicate 17 { ticket := 3, dest := 255, msg := .close 1 }
            waitList := [{ ticket := 1, dest := 255, msg := .close 1 }, { ticket := 2, dest := 61, msg := voidedTxn.releaseMsg }]
            activity := .sending { ticket := 0, dest := 61, kind := 1, levels := [] }
            nextTicket := 4 }
    pending := [.sendEnd true] }

theorem voidWithAuthOnLine_withinCapacity : voidWithAuthOnLine.WithinCapacity where
  till := by constructor <;> decide +kernel
  line := by constructor <;> decide +kernel
  custody := by constructor <;> decide +kernel
  broker := by constructor <;> decide +kernel
  homeMap := by constructor <;> decide +kernel
  tables := by constructor <;> decide +kernel

/-- The acknowledgment of the AUTH starts the reply timer of the transaction, which stays in its void. -/
theorem step_voidWithAuthOnLine : ∃ t, step voidWithAuthOnLine = .next t ∧
    ∃ x ∈ t.br.txns, x.voiding.isSome = true ∧ x.timer = some 800 :=
  ⟨_, rfl, { voidedTxn with ticket := none, timer := some 800 }, by decide +kernel⟩

/-- Refutes O58: in a state within the capacities the acknowledgment of an AUTH frame gives a transaction whose void waits
for room a running timer, which the capacities exclude (R71). -/
theorem not_stepsKeepTheCapacities : ¬ Obligations.StepsKeepTheCapacities := by
  intro h
  obtain ⟨t, ht, x, hx, hvoid, htimer⟩ := step_voidWithAuthOnLine
  have hstopped := ((h _ t voidWithAuthOnLine_withinCapacity ht).broker.voiding x hx hvoid).2
  rw [htimer] at hstopped
  cases hstopped

end Sys2Proof.Machine
end

