-- ==== Sys2Proof/Proofs/Frames.lean ====
section
/-! PROOFS. Which operations leave the Custody Unit and the Station Controller as they are: one lemma for each, for simp. -/
namespace Sys2Proof.Machine

/-! ### Queues -/

@[simp] theorem State.broadcast_custody (s : State) (m : Msg) :
    (s.broadcast m).cu = s.cu ∧ (s.broadcast m).sc = s.sc := ⟨s.hand_cu _ _, s.hand_sc _ _⟩

@[simp] theorem State.removeFrame_custody (s : State) (n : Nat) :
    (s.removeFrame n).cu = s.cu ∧ (s.removeFrame n).sc = s.sc := by simp [State.removeFrame]

@[simp] theorem State.dropRequests_custody (s : State) (p : OutFrame → Bool) :
    (s.dropRequests p).cu = s.cu ∧ (s.dropRequests p).sc = s.sc := ⟨rfl, rfl⟩

@[simp] theorem State.decline_custody (s : State) (k : ReqKind) (r : Request) (why : Reason) (n : Nat) :
    (s.decline k r why n).cu = s.cu ∧ (s.decline k r why n).sc = s.sc := ⟨rfl, rfl⟩

@[simp] theorem State.handBeacon_custody (s : State) : s.handBeacon.cu = s.cu ∧ s.handBeacon.sc = s.sc := by
  simp [State.handBeacon]

@[simp] theorem State.pauseIfFull_custody (s : State) : s.pauseIfFull.cu = s.cu ∧ s.pauseIfFull.sc = s.sc := by
  unfold State.pauseIfFull; split <;> simp

@[simp] theorem State.takePause_custody (s : State) (x n : Nat) :
    (s.takePause x n).cu = s.cu ∧ (s.takePause x n).sc = s.sc := by
  unfold State.takePause; split <;> simp

@[simp] theorem State.accept_custody (s : State) (f : RawFrame) (m : Msg) :
    (s.accept f m).cu = s.cu ∧ (s.accept f m).sc = s.sc := by
  unfold State.accept; cases m <;> simp

@[simp] theorem State.clearHoldOffs_custody (s : State) (p k : Nat) :
    (s.clearHoldOffs p k).cu = s.cu ∧ (s.clearHoldOffs p k).sc = s.sc := ⟨rfl, rfl⟩

@[simp] theorem State.trackSequence_custody (s : State) (p q : Nat) :
    (s.trackSequence p q).cu = s.cu ∧ (s.trackSequence p q).sc = s.sc := by
  simp only [State.trackSequence]; split <;> simp

/-! ### Transactions and advices -/

@[simp] theorem State.freeTxn_custody (s : State) (t : Txn) : (s.freeTxn t).cu = s.cu ∧ (s.freeTxn t).sc = s.sc := by
  simp [State.freeTxn]

@[simp] theorem State.sendAttempt_custody (s : State) (t : Txn) :
    (s.sendAttempt t).cu = s.cu ∧ (s.sendAttempt t).sc = s.sc := by
  unfold State.sendAttempt; split <;> simp

@[simp] theorem State.openExchange_custody (s : State) (t : Txn) :
    (s.openExchange t).cu = s.cu ∧ (s.openExchange t).sc = s.sc := by simp [State.openExchange]

@[simp] theorem State.serveRemote_custody (s : State) (k : ReqKind) (r : Request) (kind : TxnKind) (card : CardNo)
    (amount : Nat) (st : TxnState) :
    (s.serveRemote k r kind card amount st).cu = s.cu ∧ (s.serveRemote k r kind card amount st).sc = s.sc := by
  unfold State.serveRemote; split
  · simp
  · dsimp only; split <;> simp

@[simp] theorem State.declineTxn_custody (s : State) (t : Txn) (why : Reason) (n : Nat) :
    (s.declineTxn t why n).cu = s.cu ∧ (s.declineTxn t why n).sc = s.sc := by simp [State.declineTxn]

@[simp] theorem State.standIn_custody (s : State) (t : Txn) : (s.standIn t).cu = s.cu ∧ (s.standIn t).sc = s.sc := by
  unfold State.standIn; split <;> simp

@[simp] theorem State.captureToAdvice_custody (s : State) (t : Txn) :
    (s.captureToAdvice t).cu = s.cu ∧ (s.captureToAdvice t).sc = s.sc := by simp [State.captureToAdvice]

@[simp] theorem State.exhausted_custody (s : State) (t : Txn) :
    (s.exhausted t).cu = s.cu ∧ (s.exhausted t).sc = s.sc := by
  unfold State.exhausted; split <;> simp

@[simp] theorem State.endVoid_custody (s : State) (t : Txn) (b : Bool) :
    (s.endVoid t b).cu = s.cu ∧ (s.endVoid t b).sc = s.sc := by
  simp only [State.endVoid]; split <;> split <;> simp

@[simp] theorem State.remoteRedeem_custody (s : State) (r : Request) (card : CardNo) (amount : Nat) :
    (s.remoteRedeem r card amount).cu = s.cu ∧ (s.remoteRedeem r card amount).sc = s.sc := by
  unfold State.remoteRedeem; split
  · simp
  · dsimp only; split <;> simp

@[simp] theorem State.remoteHeld_custody (s : State) (t : Txn) (h : HoldId) :
    (s.remoteHeld t h).cu = s.cu ∧ (s.remoteHeld t h).sc = s.sc := by simp [State.remoteHeld]

@[simp] theorem State.serveAuthReply_custody (s : State) (p : Nat) (m : Msg) :
    (s.serveAuthReply p m).cu = s.cu ∧ (s.serveAuthReply p m).sc = s.sc := by
  unfold State.serveAuthReply; split
  · split
    · simp only [State.authReplied]; split <;> simp
    · split <;> simp
  · simp

@[simp] theorem State.serveEnquireReply_custody (s : State) (p : Nat) (m : Msg) :
    (s.serveEnquireReply p m).cu = s.cu ∧ (s.serveEnquireReply p m).sc = s.sc := by
  unfold State.serveEnquireReply; split
  · split
    · simp
    · split <;> simp
  · simp

@[simp] theorem State.sendAdvice_custody (s : State) (a : Advice) :
    (s.sendAdvice a).cu = s.cu ∧ (s.sendAdvice a).sc = s.sc := by simp [State.sendAdvice]

@[simp] theorem State.markSettled_custody (s : State) (a : Advice) (g : Settled) :
    (s.markSettled a g).cu = s.cu ∧ (s.markSettled a g).sc = s.sc := by simp [State.markSettled]

/-! ### Banks and statements -/

@[simp] theorem State.dropStatement_custody (s : State) : s.dropStatement.cu = s.cu ∧ s.dropStatement.sc = s.sc := by
  unfold State.dropStatement; split <;> simp

@[simp] theorem State.bookByStamp_custody (s : State) (p n : Nat) (f g : PosEntry → PosEntry) :
    (s.bookByStamp p n f g).cu = s.cu ∧ (s.bookByStamp p n f g).sc = s.sc := by
  have h := s.bookByStamp_banksOnly p n f g
  unfold State.BanksOnly at h
  rw [h]
  exact ⟨rfl, rfl⟩

@[simp] theorem State.modifyStatus_custody (s : State) (c : Closing) (p : Nat) (f : StatementStatus → StatementStatus) :
    (s.modifyStatus c p f).cu = s.cu ∧ (s.modifyStatus c p f).sc = s.sc := ⟨rfl, rfl⟩

@[simp] theorem State.reportBreak_custody (s : State) (c : Closing) (p : Nat) (d : Side) :
    (s.reportBreak c p d).cu = s.cu ∧ (s.reportBreak c p d).sc = s.sc := ⟨rfl, rfl⟩

@[simp] theorem State.compareStatement_custody (s : State) (c : Closing) (p : Nat) (i r : StatementPart) :
    (s.compareStatement c p i r).cu = s.cu ∧ (s.compareStatement c p i r).sc = s.sc := by
  simp only [State.compareStatement]; split
  · simp
  · split <;> simp

@[simp] theorem State.classifyPart_custody (s : State) (p n : Nat) (x : StatementPart) :
    (s.classifyPart p n x).cu = s.cu ∧ (s.classifyPart p n x).sc = s.sc := by
  have stored : ∀ c, (s.storePart c p x).cu = s.cu ∧ (s.storePart c p x).sc = s.sc := by
    intro c; unfold State.storePart; split
    · simp
    · split
      · simp
      · split <;> simp
  unfold State.classifyPart; split
  · simp [State.lateStatement]
  · split
    · split <;> simp [stored]
    · simp [State.lateStatement]

/-! ### The home map -/

@[simp] theorem State.announce_custody (s : State) (l : List Nat) :
    (s.announce l).cu = s.cu ∧ (s.announce l).sc = s.sc := by
  induction l generalizing s with
  | nil => exact ⟨rfl, rfl⟩
  | cons h l ih => simp [State.announce, ih]

end Sys2Proof.Machine
end

