-- ==== Sys2Proof/Proofs/CustodyTruths.lean ====
section
/-! PROOFS. What the Custody Unit keeps true, through each change of its cards, its holds, an adoption and a handover. -/
namespace Sys2Proof.Machine

/-! ### Cards and held amounts -/

/-- What a record adds to the ACTIVE sum. -/
def Card.worth (r : Card) : Nat := if r.state = .active then r.balance else 0

theorem activeSum_eq (l : List Card) : activeSum l = sumOf Card.worth l := rfl

/-- Two records under one key are one (R2). -/
theorem card_unique {l : List Card} (hn : (l.map (·.key)).Nodup) {a b : Card} (ha : a ∈ l) (hb : b ∈ l)
    (hk : a.key = b.key) : a = b := List.inj_on_of_nodup_map hn ha hb hk

/-- The ACTIVE sum after a change of one record. -/
theorem activeSum_updateWhere {l : List Card} (hn : (l.map (·.key)).Nodup) {r : Card} (hr : r ∈ l) (f : Card → Card) :
    activeSum (updateWhere (fun x => x.key = r.key) f l) + r.worth = activeSum l + (f r).worth := by
  induction l with
  | nil => cases hr
  | cons x l ih =>
    simp only [List.map_cons, List.nodup_cons, List.mem_map, not_exists, not_and] at hn
    simp only [activeSum_eq, updateWhere, List.map_cons, sumOf] at ih ⊢
    rcases List.mem_cons.mp hr with rfl | hr
    · have hrest : l.map (fun x => if decide (x.key = r.key) = true then f x else x) = l :=
        updateWhere_none (p := fun x : Card => decide (x.key = r.key)) (fun y hy => by simpa using hn.1 y hy) f
      rw [hrest]
      simp
      omega
    · have hx : ¬ x.key = r.key := fun h => hn.1 r hr h.symm
      have := ih hn.2 hr
      simp only [hx, decide_false, Bool.false_eq_true, if_false]
      omega

/-- A change that keeps the keys keeps their list. -/
theorem keys_updateWhere {l : List Card} {p : Card → Bool} {f : Card → Card} (hf : ∀ x, (f x).key = x.key) :
    (updateWhere p f l).map (·.key) = l.map (·.key) := by
  simp only [updateWhere, List.map_map]
  apply List.map_congr_left
  intro x _
  by_cases hp : p x = true <;> simp [hp, hf]

/-- The records after a change of the record under one key: the others, and the changed one. -/
theorem mem_updateKey {l : List Card} (hn : (l.map (·.key)).Nodup) {r : Card} (hr : r ∈ l) {f : Card → Card} {y : Card}
    (hy : y ∈ updateWhere (fun x => x.key = r.key) f l) : y ∈ l ∧ y.key ≠ r.key ∨ y = f r := by
  rcases mem_updateWhere hy with ⟨hm, hk⟩ | ⟨x, hx, hk, rfl⟩
  · exact Or.inl ⟨hm, by simpa using hk⟩
  · exact Or.inr (by rw [card_unique hn hx hr (by simpa using hk)])

/-- `l'` has no HELD hold that `l` has not, and no card is held to a higher amount. -/
structure FewerHeld (l' l : List Hold) : Prop where
  amount : ∀ k, heldOn l' k ≤ heldOn l k
  mem : ∀ x ∈ l', x.state = .held → x ∈ l

theorem FewerHeld.refl (l : List Hold) : FewerHeld l l := ⟨fun _ => Nat.le_refl _, fun _ h _ => h⟩

theorem FewerHeld.filter (p : Hold → Bool) (l : List Hold) : FewerHeld (l.filter p) l :=
  ⟨heldOn_filter_le p l, fun _ h _ => (List.mem_filter.mp h).1⟩

theorem FewerHeld.captured {h : Hold} (hc : h.state = .captured) (l : List Hold) : FewerHeld (l ++ [h]) l := by
  refine ⟨fun k => by simp [heldOn_captured hc], fun x hx hs => ?_⟩
  rcases List.mem_append.mp hx with hx | hx
  · exact hx
  · rw [List.mem_singleton.mp hx, hc] at hs; cases hs

theorem FewerHeld.update {p : Hold → Bool} {f : Hold → Hold} {l : List Hold}
    (hf : ∀ h ∈ l, p h = true → (f h).state = .captured) : FewerHeld (updateWhere p f l) l := by
  refine ⟨heldOn_update_le hf, fun x hx hs => ?_⟩
  rcases mem_updateWhere hx with ⟨hm, _⟩ | ⟨y, hy, hp, rfl⟩
  · exact hm
  · rw [hf y hy hp] at hs; cases hs

/-- A card without a HELD redemption of an amount above 0 has held amount 0. -/
theorem heldOn_eq_zero {l : List Hold} {k : Key}
    (h : ∀ x ∈ l, x.key = k → x.state = .held → x.amount = 0) : heldOn l k = 0 := by
  induction l with
  | nil => rfl
  | cons x l ih =>
    have hl := ih fun y hy => h y (by simp [hy])
    unfold heldOn at hl ⊢
    rw [sumOf, hl]
    by_cases hk : x.key = k <;> by_cases hs : x.state = .held <;> simp [hk, hs]
    intro _; exact h x (by simp) hk hs

theorem heldOn_cons (x : Hold) (l : List Hold) (k : Key) : heldOn (x :: l) k = heldOn [x] k + heldOn l k :=
  heldOn_append [x] l k

/-- Capturing a HELD redemption frees at least its amount on its card. -/
theorem heldOn_captureOne {l : List Hold} {x : Hold} (hx : x ∈ l) (hs : x.state = .held) (hk : x.kind = .redemption)
    {f : Hold → Hold} (hf : ∀ y, (f y).state = .captured) :
    heldOn (updateWhere (fun y => y.id = x.id) f l) x.key + x.amount ≤ heldOn l x.key := by
  induction l with
  | nil => cases hx
  | cons y l ih =>
    have hrest : heldOn (updateWhere (fun y => y.id = x.id) f l) x.key ≤ heldOn l x.key :=
      heldOn_update_le (fun z _ _ => hf z) x.key
    have hcons : updateWhere (fun y => decide (y.id = x.id)) f (y :: l)
        = (if y.id = x.id then f y else y) :: updateWhere (fun y => decide (y.id = x.id)) f l := by simp [updateWhere]
    rw [hcons, heldOn_cons, heldOn_cons y]
    rcases List.mem_cons.mp hx with rfl | hx
    · rw [if_pos rfl, heldOn_captured (hf x), heldOn_held hs hk]; omega
    · have hl := ih hx
      split
      · rw [heldOn_captured (hf y)]; omega
      · omega

/-- Captured entries hold no more than entries that have left. -/
theorem heldOn_update_le_filter {l : List Hold} {p : Hold → Bool} {f : Hold → Hold}
    (hf : ∀ x, (f x).state = .captured) (k : Key) :
    heldOn (updateWhere p f l) k ≤ heldOn (l.filter fun x => !p x) k := by
  induction l with
  | nil => exact Nat.le_refl _
  | cons x l ih =>
    have hcons : updateWhere p f (x :: l) = (if p x then f x else x) :: updateWhere p f l := rfl
    rw [hcons, heldOn_cons]
    by_cases hp : p x = true
    · simpa [hp, heldOn_captured (hf x)] using ih
    · rw [List.filter_cons_of_pos (by simpa using hp), heldOn_cons x, if_neg hp]
      omega

namespace State.CustodyOk

variable {s t : State}

/-- Only the cards, the holds, the ledger, an adoption, a handover and the station state matter. -/
theorem of_parts (h : s.CustodyOk) (hcards : t.cu.cards = s.cu.cards) (hholds : t.cu.holds = s.cu.holds)
    (hledger : t.cu.ledger = s.cu.ledger) (hadoption : t.cu.adoption = s.cu.adoption)
    (hhandover : t.cu.handover = s.cu.handover) (hstation : t.sc.station = s.sc.station) : t.CustodyOk := by
  obtain ⟨hkeys, hslots, hclosed, hheld, hbacked, hpending, hagrees, hhanding, halone, hdrained, htotal⟩ := h
  simp only [Custody.LedgerAgrees] at hagrees
  constructor <;> simp only [hcards, hholds, hledger, hadoption, hhandover, hstation, Custody.LedgerAgrees] <;> assumption

/-- A step that leaves the Custody Unit and the station state alone keeps its truths. -/
theorem of_same (h : s.CustodyOk) (hcu : t.cu = s.cu) (hstation : t.sc.station = s.sc.station) : t.CustodyOk :=
  h.of_parts (by rw [hcu]) (by rw [hcu]) (by rw [hcu]) (by rw [hcu]) (by rw [hcu]) hstation

/-- Outside HANDING-OVER and RETAIN no handover runs. -/
theorem no_handover (h : s.CustodyOk) (hr : s.sc.station ≠ .retain) (hn : s.handing = false) :
    s.cu.handover = none := by
  cases hh : s.cu.handover with
  | none => rfl
  | some x =>
    rcases h.handing (by simp [hh]) with he | he
    · simp [State.handing, he] at hn
    · exact absurd he hr

/-- A HELD hold under a running handover is one of DRAINING. -/
theorem draining_of_held (h : s.CustodyOk) {x : Hold} (hx : x ∈ s.cu.holds) (hs : x.state = .held) {o : Handover}
    (ho : s.cu.handover = some o) : o.sub = .draining :=
  Decidable.byContradiction fun hn => h.drained o ho hn x hx hs

/-- A HELD amount is within the balance of its ACTIVE card. -/
theorem held_le (h : s.CustodyOk) {x : Hold} (hx : x ∈ s.cu.holds) (hs : x.state = .held) {r : Card}
    (hr : r ∈ s.cu.cards) (hk : r.key = x.key) (ha : r.state = .active) : x.amount ≤ r.balance :=
  (le_heldOn hx hs (h.backed x hx hs).1).trans (hk ▸ h.held r hr ha)

/-- A handover changes: no adoption is open where one runs, the holds are drained past DRAINING, and an offer's total is the
ACTIVE sum. -/
theorem setHandover (h : s.CustodyOk) {o : Option Handover} (hcu : t.cu = { s.cu with handover := o })
    (hstation : o.isSome = true → t.sc.station = .handingOver ∨ t.sc.station = .retain)
    (halone : o.isSome = true → s.cu.adoption = none)
    (hdrained : ∀ x, o = some x → x.sub ≠ .draining → ∀ y ∈ s.cu.holds, y.state ≠ .held)
    (htotal : ∀ x, o = some x → x.sub = .offering ∨ x.sub = .transferring → x.total = activeSum s.cu.cards) :
    t.CustodyOk := by
  constructor <;> simp only [hcu, Custody.LedgerAgrees]
  exacts [h.keys, h.slots, h.closed, h.held, h.backed, h.pendingCards, h.ledger, hstation, halone, hdrained, htotal]

/-- A running handover changes other things than its sub-state and total. -/
theorem changeHandover (h : s.CustodyOk) {o x : Handover} (ho : s.cu.handover = some o)
    (hcu : t.cu = { s.cu with handover := some x }) (hstation : t.sc.station = s.sc.station) (hsub : x.sub = o.sub)
    (htotal : x.total = o.total) : t.CustodyOk := by
  have hsome : s.cu.handover.isSome = true := by simp [ho]
  refine h.setHandover hcu (fun _ => hstation ▸ h.handing hsome) (fun _ => h.alone hsome) ?_ ?_
  · rintro _ ⟨rfl⟩ hx; exact h.drained o ho (hsub ▸ hx)
  · rintro _ ⟨rfl⟩ hx; rw [htotal]; exact h.total o ho (hsub ▸ hx)

/-- A handover ends. -/
theorem endHandover (h : s.CustodyOk) (hcu : t.cu = { s.cu with handover := none }) : t.CustodyOk :=
  h.setHandover hcu (by simp) (by simp) (by simp) (by simp)

/-- Holds leave the table or are captured. -/
theorem changeHolds (h : s.CustodyOk) (hfew : FewerHeld t.cu.holds s.cu.holds) (hcards : t.cu.cards = s.cu.cards)
    (hledger : t.cu.ledger = s.cu.ledger) (hadoption : t.cu.adoption = s.cu.adoption)
    (hhandover : t.cu.handover = s.cu.handover) (hstation : t.sc.station = s.sc.station) : t.CustodyOk where
  keys := hcards ▸ h.keys
  slots := hcards ▸ h.slots
  closed := hcards ▸ h.closed
  held r hr ha := (hfew.amount _).trans (h.held r (hcards ▸ hr) ha)
  backed x hx hs := hcards ▸ h.backed x (hfew.mem x hx hs) hs
  pendingCards := by rw [hadoption, hcards]; exact h.pendingCards
  ledger := by have := h.ledger; simpa only [Custody.LedgerAgrees, hcards, hledger] using this
  handing := by rw [hhandover, hstation]; exact h.handing
  alone := by rw [hhandover, hadoption]; exact h.alone
  drained o ho hn x hx hs := h.drained o (hhandover ▸ ho) hn x (hfew.mem x hx hs) hs
  total o ho hsub := by rw [hcards]; exact h.total o (hhandover ▸ ho) hsub

/-- One record changes, with the ledger by as much, to an ACTIVE one that its holds fit in, or to a CLOSED one of balance 0
without a HELD hold; holds may leave with it. No offer stands meanwhile. -/
theorem changeCard (h : s.CustodyOk) {r : Card} (hr : r ∈ s.cu.cards) (hact : r.state = .active) {f : Card → Card}
    (hkey : ∀ x, (f x).key = x.key)
    (hcards : t.cu.cards = updateWhere (fun x => x.key = r.key) f s.cu.cards)
    (hfew : FewerHeld t.cu.holds s.cu.holds)
    (hstate : (f r).state = .active ∧ heldOn t.cu.holds r.key ≤ (f r).balance
      ∨ (f r).state = .closed ∧ (f r).balance = 0 ∧ ∀ x ∈ t.cu.holds, x.key = r.key → x.state ≠ .held)
    (hledger : (f r).worth + t.cu.ledger.redeemed + t.cu.ledger.cashedOut + t.cu.ledger.handedOut
        + (s.cu.ledger.issued + s.cu.ledger.credits + s.cu.ledger.adoptedIn)
      = r.worth + s.cu.ledger.redeemed + s.cu.ledger.cashedOut + s.cu.ledger.handedOut
        + (t.cu.ledger.issued + t.cu.ledger.credits + t.cu.ledger.adoptedIn))
    (hsub : ∀ o, s.cu.handover = some o → o.sub = .draining) (hadoption : t.cu.adoption = s.cu.adoption)
    (hhandover : t.cu.handover = s.cu.handover) (hstation : t.sc.station = s.sc.station) : t.CustodyOk where
  keys := by rw [hcards, keys_updateWhere hkey]; exact h.keys
  slots := by rw [hcards, updateWhere_length]; exact h.slots
  closed x hx hs := by
    rcases mem_updateKey h.keys hr (hcards ▸ hx) with ⟨hm, _⟩ | rfl
    · exact h.closed x hm hs
    · rcases hstate with ⟨ha, _⟩ | ⟨_, hb, _⟩
      · rw [ha] at hs; cases hs
      · exact hb
  held x hx ha := by
    rcases mem_updateKey h.keys hr (hcards ▸ hx) with ⟨hm, _⟩ | rfl
    · exact (hfew.amount _).trans (h.held x hm ha)
    · rcases hstate with ⟨_, hb⟩ | ⟨hc, _, _⟩
      · rw [hkey]; exact hb
      · rw [hc] at ha; cases ha
  backed x hx hs := by
    obtain ⟨hkind, hcard⟩ := h.backed x (hfew.mem x hx hs) hs
    refine ⟨hkind, fun hpos => ?_⟩
    obtain ⟨c, hc, hck, hca⟩ := hcard hpos
    by_cases he : c.key = r.key
    · obtain rfl := card_unique h.keys hc hr he
      rcases hstate with ⟨ha, _⟩ | ⟨_, _, hno⟩
      · exact ⟨f c, by rw [hcards]; exact List.mem_map.mpr ⟨c, hr, by simp⟩, (hkey c).trans hck, ha⟩
      · exact absurd hs (hno x hx hck.symm)
    · exact ⟨c, by rw [hcards]; exact List.mem_map.mpr ⟨c, hc, by simp [he]⟩, hck, hca⟩
  pendingCards hn x hx hp := by
    rcases mem_updateKey h.keys hr (hcards ▸ hx) with ⟨hm, _⟩ | rfl
    · exact h.pendingCards (hadoption ▸ hn) x hm hp
    · rcases hstate with ⟨ha, _⟩ | ⟨hc, _⟩
      · rw [ha] at hp; cases hp
      · rw [hc] at hp; cases hp
  ledger := by
    have hsum := activeSum_updateWhere h.keys hr f
    have hold := h.ledger
    simp only [Custody.LedgerAgrees] at hold ⊢
    rw [hcards]
    omega
  handing := by rw [hhandover, hstation]; exact h.handing
  alone := by rw [hhandover, hadoption]; exact h.alone
  drained o ho hn := absurd (hsub o (hhandover ▸ ho)) hn
  total o ho hs := by rw [hsub o (hhandover ▸ ho)] at hs; rcases hs with hs | hs <;> cases hs

/-- A HELD hold is placed on an ACTIVE card that has its amount available; no handover runs. -/
theorem placeHold (h : s.CustodyOk) {x : Hold} {r : Card} (hr : r ∈ s.cu.cards) (hact : r.state = .active)
    (hk : r.key = x.key) (hkind : x.kind = .redemption) (hs : x.state = .held)
    (hroom : heldOn s.cu.holds x.key + x.amount ≤ r.balance)
    (hholds : t.cu.holds = s.cu.holds ++ [x]) (hcards : t.cu.cards = s.cu.cards) (hledger : t.cu.ledger = s.cu.ledger)
    (hadoption : t.cu.adoption = s.cu.adoption) (hhandover : t.cu.handover = none) : t.CustodyOk where
  keys := hcards ▸ h.keys
  slots := hcards ▸ h.slots
  closed := hcards ▸ h.closed
  held c hc ha := by
    rw [hcards] at hc
    rw [hholds, heldOn_append]
    by_cases he : c.key = x.key
    · obtain rfl := card_unique h.keys hc hr (he.trans hk.symm)
      rw [he, heldOn_held hs hkind]; exact hroom
    · have : heldOn [x] c.key = 0 := heldOn_eq_zero fun y hy hyk _ => by
        rw [List.mem_singleton.mp hy] at hyk; exact absurd hyk.symm he
      have := h.held c hc ha
      omega
  backed y hy hys := by
    rw [hholds] at hy
    rw [hcards]
    rcases List.mem_append.mp hy with hy | hy
    · exact h.backed y hy hys
    · rw [List.mem_singleton.mp hy]; exact ⟨hkind, fun _ => ⟨r, hr, hk, hact⟩⟩
  pendingCards := by rw [hadoption, hcards]; exact h.pendingCards
  ledger := by have := h.ledger; simpa only [Custody.LedgerAgrees, hcards, hledger] using this
  handing := by simp [hhandover]
  alone := by simp [hhandover]
  drained := by simp [hhandover]
  total := by simp [hhandover]

/-- Records of no worth leave, and with the PENDING-ADOPT ones an adoption may end. -/
theorem dropCards (h : s.CustodyOk) {p : Card → Bool}
    (hp : ∀ r ∈ s.cu.cards, p r = false → r.state = .active → r.balance = 0)
    (hcards : t.cu.cards = s.cu.cards.filter p) (hholds : t.cu.holds = s.cu.holds)
    (hledger : t.cu.ledger = s.cu.ledger)
    (hadoption : t.cu.adoption = s.cu.adoption
      ∨ t.cu.adoption = none ∧ ∀ r ∈ s.cu.cards, p r = true → r.state ≠ .pendingAdopt)
    (hhandover : t.cu.handover = s.cu.handover) (hstation : t.sc.station = s.sc.station) : t.CustodyOk where
  keys := by rw [hcards]; exact h.keys.sublist (List.filter_sublist.map _)
  slots := by rw [hcards]; exact (List.length_filter_le _ _).trans h.slots
  closed r hr := h.closed r (List.mem_filter.mp (hcards ▸ hr)).1
  held r hr := by rw [hholds]; exact h.held r (List.mem_filter.mp (hcards ▸ hr)).1
  backed x hx hs := by
    obtain ⟨hkind, hcard⟩ := h.backed x (hholds ▸ hx) hs
    refine ⟨hkind, fun hpos => ?_⟩
    obtain ⟨r, hr, hk, ha⟩ := hcard hpos
    refine ⟨r, ?_, hk, ha⟩
    rw [hcards]
    refine List.mem_filter.mpr ⟨hr, ?_⟩
    by_contra hn
    have hz := hp r hr (by simpa using hn) ha
    have := h.held_le (hholds ▸ hx) hs hr hk ha
    omega
  pendingCards hn r hr hs := by
    obtain ⟨hm, hpr⟩ := List.mem_filter.mp (hcards ▸ hr)
    rcases hadoption with he | ⟨_, hno⟩
    · exact h.pendingCards (he ▸ hn) r hm hs
    · exact hno r hm hpr hs
  ledger := by
    have := h.ledger
    simpa only [Custody.LedgerAgrees, hcards, hledger, activeSum_filter hp] using this
  handing := by rw [hhandover, hstation]; exact h.handing
  alone ho := by
    have hn := h.alone (hhandover ▸ ho)
    rcases hadoption with he | ⟨he, _⟩
    · rw [he, hn]
    · exact he
  drained o ho hn := hholds ▸ h.drained o (hhandover ▸ ho) hn
  total o ho hsub := by rw [hcards, activeSum_filter hp]; exact h.total o (hhandover ▸ ho) hsub

/-- A record under a new key takes a free slot, with the ledger by as much. -/
theorem addCard (h : s.CustodyOk) {r : Card} (hnew : ∀ x ∈ s.cu.cards, x.key ≠ r.key)
    (hslot : s.cu.cards.length < Config.cardSlots) (hclosed : r.state ≠ .closed)
    (hpending : r.state = .pendingAdopt → t.cu.adoption ≠ none) (hnone : t.cu.handover = none)
    (hcards : t.cu.cards = s.cu.cards ++ [r]) (hholds : t.cu.holds = s.cu.holds)
    (hadoption : t.cu.adoption = none → s.cu.adoption = none)
    (hledger : r.worth + t.cu.ledger.redeemed + t.cu.ledger.cashedOut + t.cu.ledger.handedOut
        + (s.cu.ledger.issued + s.cu.ledger.credits + s.cu.ledger.adoptedIn)
      = s.cu.ledger.redeemed + s.cu.ledger.cashedOut + s.cu.ledger.handedOut
        + (t.cu.ledger.issued + t.cu.ledger.credits + t.cu.ledger.adoptedIn)) : t.CustodyOk where
  keys := by
    rw [hcards, List.map_append, List.nodup_append]
    refine ⟨h.keys, by simp, fun a ha b hb => ?_⟩
    obtain ⟨x, hx, rfl⟩ := List.mem_map.mp ha
    simp only [List.map_cons, List.map_nil, List.mem_singleton] at hb
    exact hb ▸ hnew x hx
  slots := by rw [hcards, List.length_append, List.length_singleton]; exact hslot
  closed x hx hs := by
    rcases List.mem_append.mp (hcards ▸ hx) with hx | hx
    · exact h.closed x hx hs
    · rw [List.mem_singleton.mp hx] at hs; exact absurd hs hclosed
  held x hx ha := by
    rw [hholds]
    rcases List.mem_append.mp (hcards ▸ hx) with hx | hx
    · exact h.held x hx ha
    · have hzero : heldOn s.cu.holds r.key = 0 := heldOn_eq_zero fun y hy hk hs => by
        by_contra hpos
        obtain ⟨c, hc, hck, _⟩ := (h.backed y hy hs).2 (by omega)
        exact hnew c hc (hck.trans hk)
      rw [List.mem_singleton.mp hx, hzero]; exact Nat.zero_le _
  backed x hx hs := by
    obtain ⟨hkind, hcard⟩ := h.backed x (hholds ▸ hx) hs
    refine ⟨hkind, fun hpos => ?_⟩
    obtain ⟨c, hc, hck⟩ := hcard hpos
    exact ⟨c, hcards ▸ List.mem_append_left _ hc, hck⟩
  pendingCards hn x hx hs := by
    rcases List.mem_append.mp (hcards ▸ hx) with hx | hx
    · exact h.pendingCards (hadoption hn) x hx hs
    · rw [List.mem_singleton.mp hx] at hs; exact hpending hs hn
  ledger := by
    have hold := h.ledger
    have hone : activeSum [r] = r.worth := by simp [activeSum_eq, sumOf]
    simp only [Custody.LedgerAgrees] at hold ⊢
    rw [hcards, activeSum_append, hone]
    omega
  handing := by simp [hnone]
  alone := by simp [hnone]
  drained := by simp [hnone]
  total := by simp [hnone]

end State.CustodyOk

end Sys2Proof.Machine
end

