-- ==== Sys2Proof/Proofs/CustodySteps.lean ====
section
/-! PROOFS. Every operation of the station keeps what the Custody Unit keeps true, and so does every step. -/
namespace Sys2Proof.Machine

theorem State.station_of_live {s : State} (h : s.live = true) : s.sc.station ≠ .retain := by
  simp only [State.live, Bool.and_eq_true, decide_eq_true_eq] at h; exact h.2

theorem State.station_of_onLine {s : State} (h : s.onLine = true) : s.sc.station ≠ .retain := by
  intro hr; simp [State.onLine, hr] at h

/-- The money part of a forced posting: nothing, or a redemption of what is available (R44). -/
theorem State.forcedFigures_cases (s : State) (p : Nat) (k : Key) (amount available : Nat) :
    (s.forcedFigures p k amount available).1 = s
    ∨ 0 < min amount available ∧ min amount available ≤ available
      ∧ (s.forcedFigures p k amount available).1 = (s.postRedemption p k (min amount available)).1 := by
  simp only [State.forcedFigures]
  split
  · exact Or.inl rfl
  · exact Or.inr ⟨by omega, Nat.min_le_right _ _, rfl⟩

theorem State.forcedFigures_holds (s : State) (p : Nat) (k : Key) (amount available : Nat) :
    (s.forcedFigures p k amount available).1.cu.holds = s.cu.holds := by
  rcases s.forcedFigures_cases p k amount available with he | ⟨_, _, he⟩
  · rw [he]
  · rw [he, State.postRedemption_cu]

/-- A forced posting without a hold: what is available, and a new entry (R44, R45). -/
theorem State.forcedPosting_none (s : State) (p n : Nat) (k : Key) (amount : Nat) (known late : Bool) :
    (s.forcedPosting p n k amount known late none).1 =
      (s.forcedFigures p k amount (if known then s.cu.available k else 0)).1.addHold
        { id := s.freshHoldId, kind := .redemption, key := k, amount, station := p, reference := n, state := .captured,
          timer := s.retentionEnd, late,
          figures := (s.forcedFigures p k amount (if known then s.cu.available k else 0)).2.2 } := rfl

/-- A forced posting in place of a HELD hold: what is available without it, and its entry CAPTURED (R44, R45). -/
theorem State.forcedPosting_some (s : State) (p n : Nat) (k : Key) (amount : Nat) (known late : Bool) (x : Hold) :
    (s.forcedPosting p n k amount known late (some x)).1 =
      let r := s.forcedFigures p k amount
        (if known then { s.cu with holds := s.cu.holds.filter fun y => y.id ≠ x.id : Custody }.available k else 0)
      r.1.setHolds (updateWhere (fun y => y.id = x.id) (fun y =>
        { id := y.id, kind := .redemption, key := k, amount, station := p, reference := n, state := .captured,
          timer := s.retentionEnd, late, figures := r.2.2 }) r.1.cu.holds) := rfl

/-- What a HANDOVER has found where no test refuses it (R117). -/
theorem State.handoverRefusal_none {s : State} {c : Nat} (h : s.handoverRefusal c = none) :
    s.sc.station = .joined ∧ stationOk c = true ∧ c ≠ s.own ∧ (s.peerAt c).presence = .present ∧ s.br.txns = []
      ∧ s.cu.adoption = none ∧ s.su.openPeriod < periodMax := by
  unfold State.handoverRefusal at h
  split at h
  · cases h
  split at h
  · cases h
  split at h
  · cases h
  split at h
  · cases h
  split at h
  · cases h
  split at h
  · cases h
  simp_all

/-- With more numbers tried than are in use, the number found is not in use, from any start. -/
theorem firstFree_unused_anyStart {top n fuel : Nat} {used : Nat → Bool} (hf : fuel < top)
    (inUse : List Nat) (hall : ∀ m, used m = true → m ∈ inUse) (hlen : inUse.length ≤ fuel) :
    used (firstFree top used (fuel + 1) n) = false := by
  unfold firstFree
  split
  · have hrange : 1 ≤ nextIn top n ∧ nextIn top n ≤ top := by unfold nextIn; split <;> omega
    exact firstFree_unused hrange.1 hrange.2 hf inUse hall hlen
  · rename_i hn; simpa using hn

namespace State.CustodyOk

variable {s t : State}

/-! ### The handover -/

theorem failHandover (h : s.CustodyOk) (c : FailCause) (n : Nat) : (s.failHandover c n).CustodyOk := by
  unfold State.failHandover
  split
  · exact h
  · refine h.endHandover ?_
    dsimp only
    split <;> simp [State.setHandover]

theorem enterOffering (h : s.CustodyOk) (hd : ∀ x ∈ s.cu.holds, x.state ≠ .held) : s.enterOffering.CustodyOk := by
  unfold State.enterOffering
  split
  · exact h
  · rename_i o ho
    have hsome : s.cu.handover.isSome = true := by simp [ho]
    have htotal : sumOf (·.balance) (s.cu.cards.filter fun r => r.state = .active) = activeSum s.cu.cards := by
      induction s.cu.cards with
      | nil => rfl
      | cons r l ih => by_cases hr : r.state = .active <;> simp_all [activeSum, sumOf]
    have entered : ∀ k, (s.setHandover (some { o with
        sub := .offering, count := (s.cu.cards.filter fun r => r.state = .active).length,
        total := sumOf (·.balance) (s.cu.cards.filter fun r => r.state = .active),
        highest := maxOf (·.balance) (s.cu.cards.filter fun r => r.state = .active), timer := none, ticket := k })).CustodyOk := by
      intro k
      refine h.setHandover rfl (fun _ => h.handing hsome) (fun _ => h.alone hsome) (fun _ _ _ => hd) ?_
      rintro _ ⟨rfl⟩ _
      exact htotal
    dsimp only
    split
    · exact (entered (some s.ticket)).of_same (by simp [State.setHandover]) (by simp)
    · exact (entered o.ticket).failHandover _ _

theorem roundNotice (h : s.CustodyOk) (n : Nat) : (s.roundNotice n).CustodyOk := by
  unfold State.roundNotice
  split
  · rename_i o ho
    split
    · rename_i hc
      simp only [Bool.and_eq_true, decide_eq_true_eq] at hc
      exact h.enterOffering (h.drained o ho (by rw [hc.1]; decide))
    · exact h
  · exact h

theorem completeHandover (h : s.CustodyOk) (hsub : ∀ o, s.cu.handover = some o → o.sub = .transferring) :
    s.completeHandover.CustodyOk := by
  unfold State.completeHandover
  split
  · exact h
  · rename_i o ho
    have hsome : s.cu.handover.isSome = true := by simp [ho]
    have hn := h.drained o ho (by rw [hsub o ho]; decide)
    have htotal := h.total o ho (Or.inr (hsub o ho))
    have hzero : activeSum (s.cu.cards.filter fun r => decide (r.state ≠ .active)) = 0 := by
      induction s.cu.cards with
      | nil => rfl
      | cons r l ih => by_cases hr : r.state = .active <;> simp_all [activeSum, sumOf]
    have hold := h.ledger
    simp only [Custody.LedgerAgrees] at hold
    constructor <;> simp only [State.broadcast_custody, State.setHandover, State.setCu_cu, State.setCu_sc, State.answer_cu,
      State.answer_sc, State.setSc_cu, State.setSc_sc, State.dropRequests_custody]
    case keys => exact h.keys.sublist (List.filter_sublist.map _)
    case slots => exact (List.length_filter_le _ _).trans h.slots
    case closed => exact fun r hr => h.closed r (List.mem_filter.mp hr).1
    case held => exact fun r hr => h.held r (List.mem_filter.mp hr).1
    case backed => exact fun x hx hs => absurd hs (hn x hx)
    case pendingCards => exact fun ha r hr => h.pendingCards ha r (List.mem_filter.mp hr).1
    case ledger => simp only [Custody.LedgerAgrees, hzero, htotal]; omega
    case handing => exact fun _ => h.handing hsome
    case alone => exact fun _ => h.alone hsome
    case drained => exact fun _ _ _ => hn
    case total => rintro _ ⟨rfl⟩ hs; rcases hs with hs | hs <;> cases hs

theorem proofOfCommit (h : s.CustodyOk) (c : Nat) : (s.proofOfCommit c).CustodyOk := by
  unfold State.proofOfCommit
  split
  · rename_i o ho
    split
    · rename_i hc
      simp only [Bool.and_eq_true, decide_eq_true_eq] at hc
      refine h.completeHandover fun x hx => ?_
      rw [ho] at hx; obtain ⟨rfl⟩ := hx; exact hc.1.1
    · exact h
  · exact h

theorem sendTransferEnd (h : s.CustodyOk) : s.sendTransferEnd.CustodyOk := by
  unfold State.sendTransferEnd
  split
  · exact h
  · rename_i o ho
    exact h.changeHandover ho (x := { o with
      ending := true, attemptsLeft := o.attemptsLeft - 1, ticket := some s.ticket, timer := none })
      (by simp [State.setHandover]) (by simp) rfl rfl

theorem retire (h : s.CustodyOk) : s.retire.CustodyOk := by
  have hfew : FewerHeld [] s.cu.holds := ⟨fun _ => Nat.zero_le _, by simp⟩
  have hempty : (s.setCu { s.cu with holds := [] }).CustodyOk := h.changeHolds hfew rfl rfl rfl rfl rfl
  exact hempty.endHandover rfl

/-! ### Peers -/

theorem makeAbsent (h : s.CustodyOk) (p : Nat) : (s.makeAbsent p).CustodyOk := by
  unfold State.makeAbsent
  have hm : (s.modifyPeer p fun e => { e with presence := .absent }).CustodyOk := h.of_same rfl rfl
  split
  · exact h
  · dsimp only
    split
    · split
      · exact hm.failHandover _ _
      · exact hm
    · exact hm

theorem failedExchange (h : s.CustodyOk) (p : Nat) : (s.failedExchange p).CustodyOk := by
  unfold State.failedExchange
  dsimp only
  have hm : (s.modifyPeer p fun e => { e with failed := min 3 ((s.peerAt p).failed + 1) }).CustodyOk := h.of_same rfl rfl
  split
  · exact hm.makeAbsent p
  · exact hm

theorem silenceTests (h : s.CustodyOk) (l : List Nat) : (s.silenceTests l).CustodyOk := by
  induction l generalizing s with
  | nil => exact h
  | cons p l ih =>
    refine ih ?_
    unfold State.silenceTest
    dsimp only
    split
    · exact h
    · split
      · split
        · exact h.makeAbsent p
        · split
          · exact h.of_same rfl rfl
          · exact h
      · exact h

theorem learn (h : s.CustodyOk) (x c p : Nat) : (s.learn x c p).CustodyOk := by
  unfold State.learn
  split
  · split
    · exact h.proofOfCommit c
    · exact h
  · split
    · exact h
    · dsimp only
      split
      · split
        · exact h
        · exact h.of_same rfl rfl
      · split
        · exact h.of_same rfl rfl
        · split
          · exact h.of_same rfl rfl
          · exact h

theorem learnAll (h : s.CustodyOk) (c : Nat) (l : List Nat) : (s.learnAll c l).CustodyOk := by
  induction l generalizing s with
  | nil => exact h
  | cons x l ih => exact ih (h.learn x c c)

theorem failTransferEnd (h : s.CustodyOk) {o : Handover} (ho : s.cu.handover = some o) : (s.failTransferEnd o).CustodyOk := by
  unfold State.failTransferEnd
  split
  · exact (h.failHandover _ _).failedExchange _
  · have hm : (s.setHandover (some { o with ticket := none, timer := none })).CustodyOk :=
      h.changeHandover ho rfl rfl rfl rfl
    dsimp only
    split
    · exact (hm.failedExchange _).sendTransferEnd
    · exact hm.failedExchange _

/-! ### Rounds and periods -/

theorem finishRound (h : s.CustodyOk) : s.finishRound.CustodyOk := by
  unfold State.finishRound
  split
  · exact h
  · rename_i c _
    refine roundNotice (h.of_same ?_ ?_) _ <;> simp

theorem forcedFinish (h : s.CustodyOk) : s.forcedFinish.CustodyOk := by
  unfold State.forcedFinish
  split
  · exact h
  · exact finishRound (h.of_same rfl rfl)

theorem closeTo (h : s.CustodyOk) (q : Nat) : (s.closeTo q).CustodyOk := by
  have hrolled : (s.forcedFinish.rollBanks q).CustodyOk := h.forcedFinish.of_same rfl rfl
  have hsent : (if (s.forcedFinish.rollBanks q).onLine then (s.forcedFinish.rollBanks q).broadcast (.close q)
      else s.forcedFinish.rollBanks q).CustodyOk := by
    split
    · exact hrolled.of_same (by simp) (by simp)
    · exact hrolled
  have hclosed : ∀ x, (State.setPm (if (s.forcedFinish.rollBanks q).onLine then (s.forcedFinish.rollBanks q).broadcast (.close q)
      else s.forcedFinish.rollBanks q) x).CustodyOk := fun x => hsent.of_same rfl rfl
  unfold State.closeTo
  dsimp only
  split
  · split
    · exact (hclosed _).finishRound
    · exact hclosed _
  · exact hclosed _

theorem catchUp (h : s.CustodyOk) (q : Nat) : (s.catchUp q).CustodyOk := by
  unfold State.catchUp
  split
  · exact h.closeTo q
  · exact h

theorem bookFigures (h : s.CustodyOk) (p : Nat) (g : Figures) : (s.bookFigures p g).CustodyOk := by
  refine (h.catchUp g.stamp).of_same ?_ ?_ <;> unfold State.bookFigures <;> dsimp only <;> split <;> split <;> simp

theorem bookCredit (h : s.CustodyOk) (p n m : Nat) : (s.bookCredit p n m).CustodyOk :=
  (h.catchUp m).of_same (by simp [State.bookCredit]) (by simp [State.bookCredit])

/-! ### Cards and holds -/

/-- The record that an amount is available on is ACTIVE and not held to more than its balance less the amount (R4). -/
theorem available_backed {c : Custody} {k : Key} {amount : Nat} (hpos : 0 < amount) (ha : amount ≤ c.available k) :
    ∃ r ∈ c.cards, r.key = k ∧ r.state = .active ∧ heldOn c.holds k + amount ≤ r.balance := by
  unfold Custody.available at ha
  split at ha
  · rename_i r hr
    obtain ⟨hm, hk, _⟩ := Custody.served_some hr
    split at ha
    · rename_i hact
      exact ⟨r, hm, hk, hact, by omega⟩
    · omega
  · omega

/-- An amount is redeemed from an ACTIVE card that has it beside its holds, while no offer stands. -/
theorem redeem (h : s.CustodyOk) {k : Key} {amount period : Nat} {r : Card} (hr : r ∈ s.cu.cards) (hk : r.key = k)
    (hact : r.state = .active) (hroom : heldOn t.cu.holds k + amount ≤ r.balance)
    (hsub : ∀ o, s.cu.handover = some o → o.sub = .draining) (hfew : FewerHeld t.cu.holds s.cu.holds)
    (hcards : t.cu.cards = updateWhere (fun x => x.key = k) (fun x => x.act (x.balance - amount) period) s.cu.cards)
    (hledger : t.cu.ledger = { s.cu.ledger with redeemed := s.cu.ledger.redeemed + amount })
    (hadoption : t.cu.adoption = s.cu.adoption) (hhandover : t.cu.handover = s.cu.handover)
    (hstation : t.sc.station = s.sc.station) : t.CustodyOk := by
  subst hk
  refine h.changeCard hr hact (f := fun x => x.act (x.balance - amount) period) (fun _ => rfl) hcards hfew
    (Or.inl ⟨hact, ?_⟩) ?_ hsub hadoption hhandover hstation
  · simp only [Card.act]; omega
  · have hle : amount ≤ r.balance := by omega
    simp only [hledger, Card.worth, Card.act, hact, if_true]
    omega

theorem serveAuth (h : s.CustodyOk) (hr : s.sc.station ≠ .retain) (p n : Nat) (k : Key) (amount : Nat) :
    (s.serveAuth p n k amount).1.CustodyOk := by
  rcases s.serveAuth_cases p n k amount with he | ⟨⟨r, hserved, hc⟩, ha, _, hhand, he⟩
  · rw [he]; exact h
  · rw [he]
    obtain ⟨hm, hk, hp⟩ := Custody.served_some hserved
    have hact : r.state = .active := by cases hs : r.state <;> simp_all
    have hroom : heldOn s.cu.holds k + amount ≤ r.balance := by
      have hle := h.held r hm hact
      simp only [Custody.available, hserved, hact, if_true] at ha
      rw [hk] at hle
      omega
    exact h.placeHold hm hact hk rfl rfl hroom rfl rfl rfl rfl (h.no_handover hr hhand)

theorem creditCard (h : s.CustodyOk) (hr : s.sc.station ≠ .retain) {k : Key} {amount : Nat}
    (hno : s.creditRefusal k amount = none) : (s.creditCard k amount).CustodyOk := by
  unfold State.creditRefusal at hno
  split at hno
  · cases hno
  · rename_i r hserved
    obtain ⟨hm, rfl, hp⟩ := Custody.served_some hserved
    split at hno
    · cases hno
    rename_i hc
    split at hno
    · cases hno
    rename_i hhand
    have hact : r.state = .active := by cases hs : r.state <;> simp_all
    have hnone := h.no_handover hr (by simpa using hhand)
    refine h.changeCard hm hact (f := fun x => x.act (x.balance + amount) s.su.openPeriod) (fun _ => rfl) rfl
      (FewerHeld.refl _) (Or.inl ⟨hact, ?_⟩) ?_ (by simp [hnone]) rfl rfl rfl
    · exact (h.held r hm hact).trans (Nat.le_add_right _ _)
    · simp only [Card.worth, Card.act, hact, State.creditCard, State.modifyLedger, State.modifyCard, State.setCu, if_true]
      omega

theorem cashOut (h : s.CustodyOk) {r : Card} (hr : r ∈ s.cu.cards) (hact : r.state = .active)
    (hheld : s.cu.hasHeld r.key = false) (hnone : s.cu.handover = none) : (s.cashOut r).CustodyOk := by
  refine h.changeCard hr hact (f := fun x => { x.act 0 s.su.openPeriod with state := .closed }) (fun _ => rfl) rfl
    (FewerHeld.refl _) (Or.inr ⟨rfl, rfl, fun x hx hk hs => ?_⟩) ?_ (by simp [hnone]) rfl rfl rfl
  · simp only [Custody.hasHeld, List.any_eq_false] at hheld
    exact hheld x hx (by simp [hk, hs, (h.backed x hx hs).1])
  · simp only [Card.worth, Card.act, hact, State.cashOut, State.modifyLedger, State.modifyCard, State.modifyCounters,
      State.setCu, State.setSu, if_true, reduceCtorEq, if_false]
    omega

theorem removeHold (h : s.CustodyOk) (id : HoldId) : (s.removeHold id).CustodyOk :=
  h.changeHolds (FewerHeld.filter _ _) rfl rfl rfl rfl rfl

theorem serveRelease (h : s.CustodyOk) (p n : Nat) (k : Key) (id : HoldId) : (s.serveRelease p n k id).CustodyOk := by
  unfold State.serveRelease
  split
  · split
    · exact h.removeHold _
    · exact h
  · exact h

theorem captureHold (h : s.CustodyOk) {x : Hold} (hx : x ∈ s.cu.holds) (hs : x.state = .held) (final : Nat) :
    (s.captureHold x final).1.CustodyOk := by
  have hsub := fun o ho => h.draining_of_held (o := o) hx hs ho
  simp only [State.captureHold]
  split
  · exact h.changeHolds (FewerHeld.update fun _ _ _ => rfl) rfl rfl rfl rfl rfl
  · rename_i hpos
    obtain ⟨hkind, hcard⟩ := h.backed x hx hs
    obtain ⟨r, hr, hk, hact⟩ := hcard (by omega)
    have hcu := s.postRedemption_cu x.station x.key (min final x.amount)
    have hframe := s.postRedemption_frame x.station x.key (min final x.amount)
    have hroom : heldOn (updateWhere (fun y => decide (y.id = x.id)) (fun y => { y with
        state := .captured, figures := (s.postRedemption x.station x.key (min final x.amount)).2, late := false,
        timer := s.retentionEnd }) s.cu.holds) x.key + x.amount ≤ r.balance := by
      have hle := h.held r hr hact
      have := heldOn_captureOne (f := fun y => { y with
        state := .captured, figures := (s.postRedemption x.station x.key (min final x.amount)).2, late := false,
        timer := s.retentionEnd }) hx hs hkind (fun _ => rfl)
      rw [hk] at hle
      omega
    refine h.redeem (amount := min final x.amount) (period := s.su.openPeriod) hr hk hact ?_ hsub ?_ ?_ ?_ ?_ ?_
      (congrArg StationCtl.station hframe.1)
    all_goals simp only [State.setHolds, State.setCu_cu, hcu]
    · have : min final x.amount ≤ x.amount := Nat.min_le_right _ _
      omega
    · exact FewerHeld.update fun _ _ _ => rfl

/-- The money of a forced posting and an entry that holds no more than what was left of the holds. -/
theorem forcedMoney (h : s.CustodyOk) {p : Nat} {k : Key} {amount available : Nat} {free : List Hold}
    (havail : 0 < available → available = { s.cu with holds := free : Custody }.available k ∧ s.cu.handover = none)
    (hfew : FewerHeld t.cu.holds s.cu.holds) (hle : ∀ k, heldOn t.cu.holds k ≤ heldOn free k)
    (hcards : t.cu.cards = (s.forcedFigures p k amount available).1.cu.cards)
    (hledger : t.cu.ledger = (s.forcedFigures p k amount available).1.cu.ledger)
    (hadoption : t.cu.adoption = (s.forcedFigures p k amount available).1.cu.adoption)
    (hhandover : t.cu.handover = (s.forcedFigures p k amount available).1.cu.handover)
    (hsc : t.sc = (s.forcedFigures p k amount available).1.sc) : t.CustodyOk := by
  rcases s.forcedFigures_cases p k amount available with he | ⟨hpos, hmin, he⟩
  · rw [he] at hcards hledger hadoption hhandover hsc
    exact h.changeHolds hfew hcards hledger hadoption hhandover (by rw [hsc])
  · obtain ⟨ha, hnone⟩ := havail (by omega)
    obtain ⟨c, hc, hck, hact, hroom⟩ := available_backed (c := { s.cu with holds := free }) hpos (hmin.trans_eq ha)
    rw [he] at hcards hledger hadoption hhandover hsc
    rw [State.postRedemption_cu] at hcards hledger hadoption hhandover
    refine h.redeem hc hck hact ?_ (by simp [hnone]) hfew hcards hledger hadoption hhandover ?_
    · have := hle k
      simp only at hroom
      omega
    · rw [hsc, (s.postRedemption_frame p k (min amount available)).1]

theorem forcedPosting (h : s.CustodyOk) (p n : Nat) (k : Key) (amount : Nat) {known : Bool} (late : Bool)
    (released : Option Hold) (hnone : known = true → s.cu.handover = none) :
    (s.forcedPosting p n k amount known late released).1.CustodyOk := by
  have hknown : ∀ x : Nat, 0 < (if known = true then x else 0) → (if known = true then x else 0) = x ∧ s.cu.handover = none := by
    intro x hx
    cases hk : known
    · simp [hk] at hx
    · exact ⟨rfl, hnone hk⟩
  cases released with
  | none =>
    rw [State.forcedPosting_none]
    refine h.forcedMoney (free := s.cu.holds) (fun hx => hknown _ hx) ?_ ?_ rfl rfl rfl rfl rfl <;>
      simp only [State.addHold, State.setCu_cu, State.forcedFigures_holds]
    · exact FewerHeld.captured rfl _
    · exact (FewerHeld.captured rfl _).amount
  | some x =>
    rw [State.forcedPosting_some]
    refine h.forcedMoney (free := s.cu.holds.filter fun y => y.id ≠ x.id) (fun hx => hknown _ hx) ?_ ?_ rfl rfl rfl rfl rfl <;>
      simp only [State.setHolds, State.setCu_cu, State.forcedFigures_holds]
    · exact FewerHeld.update fun _ _ _ => rfl
    · intro k
      simpa using heldOn_update_le_filter (l := s.cu.holds) (p := fun y : Hold => decide (y.id = x.id)) (fun _ => rfl) k

theorem servePosting (h : s.CustodyOk) (hr : s.sc.station ≠ .retain) (p n : Nat) (k : Key) (amount : Nat)
    (known late : Bool) : (s.servePosting p n k amount known late).1.CustodyOk := by
  unfold State.servePosting
  split
  · split
    · exact h
    · split
      · exact h
      · rename_i hn
        exact h.forcedPosting _ _ _ _ _ _ fun _ => h.no_handover hr (by simpa using hn)
  · split
    · exact h
    · rename_i hn
      simp only [Bool.or_eq_true, Bool.and_eq_true, not_or, not_and, Bool.not_eq_true] at hn
      exact h.forcedPosting _ _ _ _ _ _ fun hk => h.no_handover hr (hn.2 hk)

theorem serveCapture (h : s.CustodyOk) (hr : s.sc.station ≠ .retain) (p n : Nat) (k : Key) (id : HoldId) (final : Nat)
    (known : Bool) : (s.serveCapture p n k id final known).1.CustodyOk := by
  unfold State.serveCapture
  split
  · rename_i x hx
    split
    · exact h
    · rename_i hc
      split
      · exact h.captureHold (List.mem_of_find?_eq_some hx) (by cases hs : x.state <;> simp_all) _
      · exact h.servePosting hr _ _ _ _ _ _
  · exact h.servePosting hr _ _ _ _ _ _

theorem applyAdvice (h : s.CustodyOk) (hr : s.sc.station ≠ .retain) (a : Advice) : (s.applyAdvice a).CustodyOk := by
  have hs := h.servePosting hr s.own a.reference a.card.key a.amount true false
  unfold State.applyAdvice State.serveAdvice
  dsimp only
  split
  · exact hs.of_same rfl rfl
  · exact hs.of_same (by simp) (by simp)

/-! ### New and adopted cards -/

/-- A slot is made free: the records are those that were here, and only the register changes. -/
theorem makeRoom (h : s.CustodyOk) (hm : s.makeRoom = some t) :
    t.CustodyOk ∧ t.cu.cards.length < Config.cardSlots ∧ (∀ r ∈ t.cu.cards, r ∈ s.cu.cards)
      ∧ t = s.setCu { s.cu with cards := t.cu.cards } := by
  rcases State.makeRoom_some hm with ⟨rfl, hl⟩ | ⟨r, hr, rfl⟩
  · exact ⟨h, hl, fun _ hx => hx, rfl⟩
  · obtain ⟨hmem, hstate⟩ := State.reclaimChoice_some hr
    refine ⟨h.dropCards (p := fun x => decide (x.key ≠ r.key)) ?_ rfl rfl rfl (Or.inl rfl) rfl rfl, ?_,
      fun x hx => (List.mem_filter.mp hx).1, rfl⟩
    · intro x hx hp hact
      obtain rfl := card_unique h.keys hx hmem (by simpa using hp)
      rcases hstate with hc | ⟨_, hz⟩
      · rw [hc] at hact; cases hact
      · exact hz
    · exact (List.length_filter_lt_length_iff_exists.mpr ⟨r, hmem, by simp⟩).trans_le h.slots

/-- The serial that an ISSUE takes is under no record of the register (R8). -/
theorem freeSerial_unused (h : s.CustodyOk) : ∀ x ∈ s.cu.cards, x.key ≠ { home := s.own, serial := s.freeSerial } := by
  intro x hx hk
  have hunused := firstFree_unused_anyStart (top := 99999) (fuel := s.cu.cards.length)
    (n := s.cu.nextSerial) (used := fun n => s.cu.cards.any fun r => r.key = { home := s.own, serial := n })
    (by have hslots : s.cu.cards.length ≤ 6144 := h.slots
        omega) (s.cu.cards.map (·.key.serial)) (fun m hm => ?_) (by simp)
  · simp only [List.any_eq_false] at hunused
    exact hunused x hx (by simpa [State.freeSerial] using hk)
  · obtain ⟨r, hr, hrk⟩ := List.any_eq_true.mp hm
    exact List.mem_map.mpr ⟨r, hr, by simp [of_decide_eq_true hrk]⟩

theorem issueCard (h : s.CustodyOk) (hslot : s.cu.cards.length < Config.cardSlots) (hnone : s.cu.handover = none)
    (amount : Nat) : (s.issueCard amount).CustodyOk := by
  refine h.addCard (r := { key := { home := s.own, serial := s.freeSerial }, state := .active, balance := amount,
                               issuePeriod := s.su.openPeriod, lastActivity := s.su.openPeriod, activity := 1 }) h.freeSerial_unused hslot
    (by simp) (by simp) hnone rfl rfl id ?_
  simp only [State.issueCard, State.modifyCounters, State.setCu, State.setSu, Card.worth, if_true]
  omega

theorem discardAdoption (h : s.CustodyOk) (o : AdoptionOutcome) : (s.discardAdoption o).CustodyOk := by
  unfold State.discardAdoption
  split
  · exact h
  · refine h.dropCards (p := fun r => decide (r.state ≠ .pendingAdopt)) ?_ rfl rfl rfl
      (Or.inr ⟨rfl, fun _ _ hp => by simpa using hp⟩) rfl rfl
    intro r _ hp ha
    rw [show r.state = .pendingAdopt by simpa using hp] at ha; cases ha

/-- An adoption record is written while no handover runs. -/
theorem setAdoption (h : s.CustodyOk) (hnone : s.cu.handover = none) (a : Adoption) :
    (s.setAdoption (some a)).CustodyOk := by
  constructor <;> simp only [State.setAdoption, State.setCu_cu, State.setCu_sc, hnone, Custody.LedgerAgrees]
  exacts [h.keys, h.slots, h.closed, h.held, h.backed, by simp, h.ledger, by simp, by simp, by simp, by simp]

theorem storeTransferred (h : s.CustodyOk) (hnone : s.cu.handover = none) (a : Adoption) {r : Card}
    (hp : r.state = .pendingAdopt) : (s.storeTransferred a r).CustodyOk := by
  unfold State.storeTransferred
  split
  · exact h
  · split
    · exact h.setAdoption hnone _
    · rename_i hnew
      simp only [Bool.or_eq_true, not_or, Bool.not_eq_true, Option.isSome_eq_false_iff, Option.isNone_iff_eq_none] at hnew
      split
      · exact h.setAdoption hnone _
      · rename_i s1 hs1
        obtain ⟨h1, hslot, hsub, he⟩ := h.makeRoom hs1
        have hnone1 : s1.cu.handover = none := by rw [he]; exact hnone
        refine h1.addCard (r := r) (fun x hx => ?_) hslot (by simp [hp]) (fun _ => by simp [State.setAdoption]) hnone1 rfl rfl
          (by simp [State.setAdoption]) (by simp [State.setAdoption, Card.worth, hp])
        simpa using List.find?_eq_none.mp hnew.1 x (hsub x hx)

/-- A commit: the PENDING-ADOPT records become ACTIVE and their sum comes into the ledger (R127). -/
theorem commitAdoption (h : s.CustodyOk) (hnone : s.cu.handover = none) {a : Adoption}
    (htotal : sumOf (·.balance) s.pendingCards = a.total) : (s.commitAdoption a).CustodyOk := by
  obtain ⟨cards, hcards⟩ : ∃ l, l = updateWhere (fun r : Card => r.state = .pendingAdopt)
    (fun r => { r with state := .active }) s.cu.cards := ⟨_, rfl⟩
  have hmem : ∀ r ∈ cards, r.state = .active ∧ (∃ x ∈ s.cu.cards, x.key = r.key ∧ x.state = .pendingAdopt)
      ∨ r ∈ s.cu.cards ∧ r.state ≠ .pendingAdopt := by
    intro r hr
    rcases mem_updateWhere (hcards ▸ hr) with ⟨hm, hs⟩ | ⟨x, hx, hs, rfl⟩
    · exact Or.inr ⟨hm, by simpa using hs⟩
    · exact Or.inl ⟨rfl, x, hx, rfl, by simpa using hs⟩
  have hsum : activeSum cards = activeSum s.cu.cards + a.total := by
    rw [← htotal, hcards, State.pendingCards]
    induction s.cu.cards with
    | nil => rfl
    | cons r l ih => cases hr : r.state <;> simp_all [activeSum, sumOf, updateWhere] <;> omega
  have hkeys : (cards.map (·.key)).Nodup := by
    rw [hcards, keys_updateWhere (f := fun r : Card => { r with state := .active }) fun _ => rfl]; exact h.keys
  have hold := h.ledger
  simp only [Custody.LedgerAgrees] at hold
  unfold State.commitAdoption
  dsimp only
  rw [← hcards]
  constructor <;> simp only [State.announce_custody, State.setHomeMap_cu, State.setCu_cu, hnone]
  case keys => exact hkeys
  case slots => rw [hcards, updateWhere_length]; exact h.slots
  case closed =>
    intro r hr hs
    rcases hmem r hr with ⟨ha, _⟩ | ⟨hm, _⟩
    · rw [ha] at hs; cases hs
    · exact h.closed r hm hs
  case held =>
    intro r hr hs
    rcases hmem r hr with ⟨_, x, hx, hk, hp⟩ | ⟨hm, _⟩
    · have hzero : heldOn s.cu.holds r.key = 0 := heldOn_eq_zero fun y hy hyk hys => by
        by_contra hpos
        obtain ⟨c, hc, hck, hact⟩ := (h.backed y hy hys).2 (by omega)
        rw [card_unique h.keys hc hx (by rw [hck, hyk, hk]), hp] at hact; cases hact
      rw [hzero]; exact Nat.zero_le _
    · exact h.held r hm hs
  case backed =>
    intro x hx hs
    obtain ⟨hkind, hcard⟩ := h.backed x hx hs
    refine ⟨hkind, fun hpos => ?_⟩
    obtain ⟨c, hc, hck, hact⟩ := hcard hpos
    exact ⟨c, by rw [hcards]; exact List.mem_map.mpr ⟨c, hc, by simp [hact]⟩, hck, hact⟩
  case pendingCards =>
    intro _ r hr hs
    rcases hmem r hr with ⟨ha, _⟩ | ⟨_, hn⟩
    · rw [ha] at hs; cases hs
    · exact hn hs
  case ledger => simp only [Custody.LedgerAgrees, hsum]; omega
  all_goals simp

/-! ### Starts -/

/-- A start leaves the ledger's truths: a cold one leaves nothing, a warm one drops the PENDING-ADOPT records (R182, R183). -/
theorem start (h : s.CustodyOk) (p : Straps) (held : Bool) : (s.start p held).CustodyOk := by
  unfold State.start
  split
  · constructor <;> simp [State.coldStart, activeSum, sumOf]
  · have hp : ∀ r ∈ s.cu.cards, decide (r.state ≠ .pendingAdopt) = false → r.state = .active → r.balance = 0 := by
      intro r _ hd ha
      rw [show r.state = .pendingAdopt by simpa using hd] at ha; cases ha
    have hfew : FewerHeld [] s.cu.holds := ⟨fun _ => Nat.zero_le _, by simp⟩
    have hdropped : (s.setCu { s.cu with
        holds := [], handover := none, adoption := none
        cards := s.cu.cards.filter fun r => r.state ≠ .pendingAdopt }).CustodyOk := by
      have hempty : (s.setCu { s.cu with holds := [] }).CustodyOk := h.changeHolds hfew rfl rfl rfl rfl rfl
      have hended : (s.setCu { s.cu with holds := [], handover := none }).CustodyOk := hempty.endHandover rfl
      exact hended.dropCards hp rfl rfl rfl (Or.inr ⟨rfl, fun _ _ hp => by simpa using hp⟩) rfl rfl
    constructor
    exacts [hdropped.keys, hdropped.slots, hdropped.closed, hdropped.held, hdropped.backed, hdropped.pendingCards,
      hdropped.ledger, (fun hn => by cases hn), hdropped.alone, hdropped.drained, hdropped.total]

theorem endRetain (h : s.CustodyOk) (x : SupplyPins) : (s.endRetain x).CustodyOk := by
  have hs := h.start x.straps x.held
  unfold State.start at hs
  unfold State.endRetain
  split
  · simpa [*] using hs
  · rw [if_neg ‹_›] at hs
    unfold State.reportStop
    split
    · exact hs
    · exact hs.of_same rfl rfl

theorem enterRetain (h : s.CustodyOk) (o : DepartureOutcome) : (s.enterRetain o).CustodyOk := by
  have hr : (s.retained o).CustodyOk :=
    h.setHandover (o := s.cu.handover) rfl (fun _ => Or.inr rfl) h.alone h.drained h.total
  unfold State.enterRetain
  split
  · exact hr
  · exact hr.endRetain _

theorem warn (h : s.CustodyOk) : s.warn.CustodyOk := by
  have hw : (s.setSc { s.sc with supply := .warned, returned := none }).CustodyOk := h.of_same rfl rfl
  unfold State.warn
  dsimp only
  split
  · exact h.of_same (by simp) (by simp)
  · exact hw.enterRetain _

/-! ### What is due -/

theorem react (h : s.CustodyOk) (hr : s.react = some t) : t.CustodyOk := by
  rcases State.react_cases hr with hv | hp | hd | ho | hx | ha | hs | hm
  case inl =>
    unfold State.reactVoid at hv
    split at hv <;> cases hv
    exact h.of_same (by simp) (by simp)
  case inr.inl =>
    unfold State.reactStatementPlaced at hp
    split at hp
    · cases hp
    · split at hp
      · cases hp
      · split at hp <;> cases hp <;> exact h.of_same rfl rfl
  case inr.inr.inl =>
    unfold State.reactDrain at hd
    split at hd
    · cases hd
    · rename_i o ho
      have hsome : s.cu.handover.isSome = true := by simp [ho]
      split at hd
      · rename_i hc
        simp only [State.drained, Bool.and_eq_true, Bool.not_eq_true', List.any_eq_false, decide_eq_true_eq] at hc
        have hclosing : (s.setHandover (some { o with sub := .closing, timer := none, closingPeriod := s.su.openPeriod })).CustodyOk := by
          refine h.setHandover rfl (fun _ => h.handing hsome) (fun _ => h.alone hsome) (fun _ _ _ => hc.2.1) ?_
          rintro _ ⟨rfl⟩ he; rcases he with he | he <;> cases he
        cases hd
        split
        · exact hclosing.closeTo _
        · exact hclosing
      · cases hd
  case inr.inr.inr.inl =>
    unfold State.reactRound at ho
    split at ho
    · cases ho
    · split at ho <;> cases ho
      exact h.finishRound
  case inr.inr.inr.inr.inl =>
    unfold State.reactTransfer at hx
    split at hx
    · cases hx
    · rename_i o ho
      split at hx
      · split at hx
        · rename_i r rest _
          split at hx <;> cases hx
          exact h.changeHandover ho (x := { o with toSend := rest, unacked := o.unacked ++ [s.ticket] })
            (by simp [State.setHandover]) (by simp) rfl rfl
        · split at hx <;> cases hx
          exact h.sendTransferEnd
      · cases hx
  case inr.inr.inr.inr.inr.inl =>
    unfold State.reactApply at ha
    split at ha <;> cases ha
    rename_i a hfind
    have hgo := List.find?_some hfind
    simp only [State.mayApply, Bool.and_eq_true] at hgo
    exact h.applyAdvice (State.station_of_onLine hgo.1.1.2) a
  case inr.inr.inr.inr.inr.inr.inl =>
    unfold State.reactSend at hs
    split at hs <;> cases hs
    exact h.of_same (by simp) (by simp)
  case inr.inr.inr.inr.inr.inr.inr =>
    unfold State.reactStatement at hm
    split at hm
    · split at hm
      · split at hm <;> cases hm
        exact h.of_same (by simp) (by simp)
      · cases hm
    · cases hm

theorem settle (h : s.CustodyOk) : s.settle.CustodyOk := State.settle_keeps (fun _ _ h hr => h.react hr) h

/-! ### The steps of requests and frames -/

theorem intake (h : s.CustodyOk) {k : ReqKind} {serve : State → Request → State}
    (hserve : ∀ (u : State) r, u.CustodyOk → u.live = true → k.served u.sc.station = true → (serve u r).CustodyOk) :
    (s.intake k serve).CustodyOk := by
  unfold State.intake
  split
  · exact h
  · rename_i r rest _
    have hp : (s.popRequest rest).CustodyOk := h.of_same rfl rfl
    split
    · rename_i ho
      simp only [State.intakeOpen, Bool.and_eq_true] at ho
      dsimp only
      split
      · exact hserve _ r hp ho.1.1.1 ‹_›
      · exact hp.of_same rfl rfl
    · exact h

theorem takeFrame (h : s.CustodyOk) {o : Owner} {kind : Nat} {isReady : Bool} {serve : State → Nat → Msg → State}
    (hserve : ∀ (u : State) p m, u.CustodyOk → u.live = true → (serve u p m).CustodyOk) :
    (s.takeFrame o kind isReady serve).CustodyOk := by
  unfold State.takeFrame
  split
  · exact h
  · rename_i f rest _
    split
    · rename_i hc
      simp only [Bool.and_eq_true] at hc
      exact hserve _ _ _ (h.of_same rfl rfl) hc.1.1
    · exact h

theorem event (h : s.CustodyOk) {f : State → State} (hf : s.live = true → (f s).CustodyOk) : (s.event f).CustodyOk :=
  State.event_keeps h hf

theorem reply (h : s.CustodyOk) (d : Nat) (m : Msg) : (s.reply d m).CustodyOk :=
  h.of_parts (by simp [State.reply]) (by simp [State.reply]) (by simp [State.reply]) (by simp [State.reply])
    (by simp [State.reply]) (by simp [State.reply])

theorem serveIssue (h : s.CustodyOk) (hr : ReqKind.served .issue s.sc.station = true) (r : Request) :
    (s.serveIssue r).CustodyOk := by
  have hnone : s.cu.handover = none := by
    refine h.no_handover ?_ ?_
    · intro he; rw [he] at hr; cases hr
    · cases hs : s.sc.station <;> simp_all [State.handing, ReqKind.served]
  unfold State.serveIssue
  dsimp only
  split
  · exact h.of_same rfl rfl
  · split
    · exact h.of_same rfl rfl
    · split
      · exact h.of_same rfl rfl
      · rename_i s1 hs1
        obtain ⟨h1, hslot, _, he⟩ := h.makeRoom hs1
        exact (h1.issueCard hslot (by rw [he]; exact hnone) _).of_same rfl rfl

theorem serveBalance (h : s.CustodyOk) (r : Request) : (s.serveBalance r).CustodyOk := by
  unfold State.serveBalance
  split
  · exact h.of_same rfl rfl
  · split
    · unfold State.localBalance
      split
      · exact h.of_same rfl rfl
      · split <;> exact h.of_same rfl rfl
    · split
      · exact h.of_same rfl rfl
      · exact h.of_same (by simp) (by simp)

theorem serveRedeem (h : s.CustodyOk) (hl : s.live = true) (r : Request) : (s.serveRedeem r).CustodyOk := by
  have haccess := fun p n k amount => serveAuth (s := s.takeReference) (h.of_same rfl rfl) (State.station_of_live hl) p n k amount
  unfold State.serveRedeem
  dsimp only
  split
  · exact h.of_same rfl rfl
  · split
    · exact h.of_same rfl rfl
    · split
      · exact h.of_same rfl rfl
      · split
        · exact h.of_same rfl rfl
        · split
          · unfold State.localRedeem
            dsimp only
            split <;> exact (haccess _ _ _ _).of_same rfl rfl
          · exact h.of_same (by simp) (by simp)

theorem serveComplete (h : s.CustodyOk) (hl : s.live = true) (r : Request) : (s.serveComplete r).CustodyOk := by
  unfold State.serveComplete
  dsimp only
  split
  · exact h.of_same rfl rfl
  · rename_i t _
    split
    · exact h.of_same rfl rfl
    · have hm : (s.modifyTxn t.reference fun x => { x with amount := fieldAt r.fields 2 4, timer := none }).CustodyOk :=
        h.of_same rfl rfl
      unfold State.completeTxn
      split
      · have hc := fun p n k id final known => hm.serveCapture (State.station_of_live (s := s) hl) p n k id final known
        simp only [State.completeLocal]
        split
        · exact (hc _ _ _ _ _ _).of_same rfl rfl
        · exact (hc _ _ _ _ _ _).of_same (by simp; rfl) (by simp)
      · exact h.of_same (by simp) (by simp)
      · exact h.of_same (by simp) (by simp)
      all_goals exact hm

theorem voidTxn (h : s.CustodyOk) (t : Txn) (b : Bool) : (s.voidTxn t b).CustodyOk := by
  unfold State.voidTxn
  split
  · exact (h.serveRelease _ _ _ _).of_same (by simp; rfl) (by simp)
  · dsimp only
    split <;> exact h.of_same (by simp) (by simp)
  · exact h.of_same (by simp) (by simp)
  all_goals exact h

theorem serveVoid (h : s.CustodyOk) (r : Request) : (s.serveVoid r).CustodyOk := by
  unfold State.serveVoid
  split
  · exact h.of_same rfl rfl
  · exact voidTxn (s := s.modifyTxn _ _) (h.of_same rfl rfl) _ _

theorem serveCreditRequest (h : s.CustodyOk) (hl : s.live = true) (r : Request) : (s.serveCreditRequest r).CustodyOk := by
  unfold State.serveCreditRequest
  dsimp only
  split
  · exact h.of_same rfl rfl
  · split
    · exact h.of_same rfl rfl
    · split
      · exact h.of_same rfl rfl
      · split
        · unfold State.localCredit
          split
          · exact h.of_same rfl rfl
          · rename_i hno
            exact (h.creditCard (State.station_of_live hl) hno).of_same rfl rfl
        · exact h.of_same (by simp) (by simp)

theorem serveCashout (h : s.CustodyOk) (hl : s.live = true) (r : Request) : (s.serveCashout r).CustodyOk := by
  unfold State.serveCashout
  split
  · exact h.of_same rfl rfl
  · split
    · exact h.of_same rfl rfl
    · split
      · exact h.of_same rfl rfl
      · rename_i c hserved
        obtain ⟨hm, hk, hp⟩ := Custody.served_some hserved
        split
        · exact h.of_same rfl rfl
        · split
          · exact h.of_same rfl rfl
          · rename_i hc hn
            simp only [Bool.or_eq_true, not_or, Bool.not_eq_true] at hn
            have hact : c.state = .active := by cases hs : c.state <;> simp_all
            exact (h.cashOut hm hact (hk ▸ hn.1) (h.no_handover (State.station_of_live hl) hn.2)).of_same rfl rfl

theorem serveClosePeriod (h : s.CustodyOk) (r : Request) : (s.serveClosePeriod r).CustodyOk := by
  unfold State.serveClosePeriod
  split
  · exact h.of_same rfl rfl
  · exact (h.closeTo _).of_same rfl rfl

theorem serveHandover (h : s.CustodyOk) (r : Request) : (s.serveHandover r).CustodyOk := by
  unfold State.serveHandover
  dsimp only
  split
  · exact h.of_same rfl rfl
  · rename_i hno
    refine h.setHandover rfl (fun _ => Or.inl rfl) (fun _ => ?_) ?_ ?_
    · exact (State.handoverRefusal_none hno).2.2.2.2.2.1
    · rintro _ ⟨rfl⟩ hx; exact absurd rfl hx
    · rintro _ ⟨rfl⟩ hx; rcases hx with hx | hx <;> cases hx

theorem serveReadPosition (h : s.CustodyOk) (r : Request) : (s.serveReadPosition r).CustodyOk := by
  unfold State.serveReadPosition
  dsimp only
  repeat' split
  all_goals exact h.of_same rfl rfl

theorem serveStatus (h : s.CustodyOk) (r : Request) : (s.serveStatus r).CustodyOk := h.of_same rfl rfl

theorem serveReadFloat (h : s.CustodyOk) (r : Request) : (s.serveReadFloat r).CustodyOk := h.of_same rfl rfl

theorem servePeer (h : s.CustodyOk) (r : Request) : (s.servePeer r).CustodyOk := by
  unfold State.servePeer
  dsimp only
  split <;> exact h.of_same rfl rfl

theorem serveConfigure (h : s.CustodyOk) (r : Request) : (s.serveConfigure r).CustodyOk := by
  refine h.of_same ?_ ?_ <;> simp only [State.serveConfigure, State.takeConfig] <;> split <;> rfl

theorem serveJoin (h : s.CustodyOk) (hr : ReqKind.served .join s.sc.station = true) (r : Request) :
    (s.serveJoin r).CustodyOk := by
  have hu : s.sc.station = .unjoined := by simpa [ReqKind.served] using hr
  have hnone : s.cu.handover = none := h.no_handover (by rw [hu]; decide) (by simp [State.handing, hu])
  exact h.setHandover (o := none) (by rw [← hnone]; rfl) (by simp) (by simp) (by simp) (by simp)

/-! ### Exchanges at the home and replies -/

theorem serveAuthFrame (h : s.CustodyOk) (hl : s.live = true) (p : Nat) (m : Msg) : (s.serveAuthFrame p m).CustodyOk := by
  unfold State.serveAuthFrame
  split
  · split
    · exact h
    · dsimp only
      refine of_same (reply ?_ _ _) rfl rfl
      split
      · exact h.serveAuth (State.station_of_live hl) _ _ _ _
      · exact h
  · exact h

theorem serveCaptureFrame (h : s.CustodyOk) (hl : s.live = true) (p : Nat) (m : Msg) : (s.serveCaptureFrame p m).CustodyOk := by
  unfold State.serveCaptureFrame
  split
  · split
    · exact h
    · exact (h.serveCapture (State.station_of_live hl) _ _ _ _ _ _).reply _ _
  · exact h

theorem serveAdviceFrame (h : s.CustodyOk) (hl : s.live = true) (p : Nat) (m : Msg) : (s.serveAdviceFrame p m).CustodyOk := by
  unfold State.serveAdviceFrame
  split
  · split
    · exact h
    · exact (h.servePosting (State.station_of_live hl) _ _ _ _ _ _).reply _ _
  · exact h

theorem serveReleaseFrame (h : s.CustodyOk) (p : Nat) (m : Msg) : (s.serveReleaseFrame p m).CustodyOk := by
  unfold State.serveReleaseFrame
  split
  · split
    · exact h.serveRelease _ _ _ _
    · exact h
  · exact h

theorem creditForPeer (h : s.CustodyOk) (hr : s.sc.station ≠ .retain) {k : Key} {amount : Nat}
    (hno : s.creditRefusal k amount = none) (p n : Nat) : (s.creditForPeer p n k amount).CustodyOk :=
  (h.creditCard hr hno).changeHolds (FewerHeld.captured rfl _) rfl rfl rfl rfl rfl

theorem serveCreditFrame (h : s.CustodyOk) (hl : s.live = true) (p : Nat) (m : Msg) : (s.serveCreditFrame p m).CustodyOk := by
  unfold State.serveCreditFrame
  split
  · split
    · exact h
    · dsimp only
      refine of_same (reply ?_ _ _) rfl rfl
      split
      · unfold State.serveCredit
        split
        · exact h
        · split
          · exact h
          · rename_i hno
            split
            · exact h
            · exact h.creditForPeer (State.station_of_live hl) hno _ _
      · exact h
  · exact h

theorem serveEnquireFrame (h : s.CustodyOk) (p : Nat) (m : Msg) : (s.serveEnquireFrame p m).CustodyOk := by
  unfold State.serveEnquireFrame
  split
  · split
    · exact h
    · exact (h.reply _ _).of_same rfl rfl
  · exact h

theorem settleAdvice (h : s.CustodyOk) (a : Advice) (g : Settled) : (s.settleAdvice a g).CustodyOk :=
  (h.bookFigures _ _).of_same (by simp [State.settleAdvice]; rfl) (by simp [State.settleAdvice])

theorem serveCaptureReply (h : s.CustodyOk) (p : Nat) (m : Msg) : (s.serveCaptureReply p m).CustodyOk := by
  unfold State.serveCaptureReply
  split
  · dsimp only
    split
    · split
      · exact (h.bookFigures _ _).of_same (by simp [State.captured]; rfl) (by simp [State.captured])
      · split
        · exact h.of_same (by simp) (by simp)
        · exact h
    · unfold State.lateCapture
      split
      · split
        · exact h.settleAdvice _ _
        · exact h
      · exact h
  · exact h

theorem serveCreditReply (h : s.CustodyOk) (p : Nat) (m : Msg) : (s.serveCreditReply p m).CustodyOk := by
  unfold State.serveCreditReply
  split
  · split
    · exact h
    · split
      · exact (h.bookCredit _ _ _).of_same (by simp; rfl) (by simp)
      iterate 4 exact h.of_same (by simp) (by simp)
      all_goals exact h
  · exact h

theorem serveAdviceReply (h : s.CustodyOk) (p : Nat) (m : Msg) : (s.serveAdviceReply p m).CustodyOk := by
  unfold State.serveAdviceReply
  split
  · split
    · exact h
    · split
      · exact h.settleAdvice _ _
      · split
        · exact h.of_same (by simp) (by simp)
        · exact h
  · exact h

/-! ### Statements, notices and the frames of a handover -/

theorem serveStatement (h : s.CustodyOk) (p : Nat) (m : Msg) : (s.serveStatement p m).CustodyOk := by
  unfold State.serveStatement
  split
  · split
    · exact h
    · dsimp only
      split
      · exact h.catchUp _
      · exact (h.catchUp _).of_same (by simp; rfl) (by simp)
  · exact h

theorem serveClose (h : s.CustodyOk) (p : Nat) (m : Msg) : (s.serveClose p m).CustodyOk := by
  unfold State.serveClose
  split
  · exact h.catchUp _
  · exact h

theorem serveBeacon (h : s.CustodyOk) (p : Nat) (m : Msg) : (s.serveBeacon p m).CustodyOk := by
  unfold State.serveBeacon
  split
  · exact (catchUp (s := s.modifyPeer _ _) (h.of_same rfl rfl) _).learnAll _ _
  · exact h

theorem serveDepart (h : s.CustodyOk) (p : Nat) (m : Msg) : (s.serveDepart p m).CustodyOk := by
  unfold State.serveDepart
  split
  · exact h.of_same rfl rfl
  · exact h

theorem serveCustody (h : s.CustodyOk) (p : Nat) (m : Msg) : (s.serveCustody p m).CustodyOk := by
  unfold State.serveCustody
  split
  · exact h.learn _ _ _
  · exact h

theorem serveOffer (h : s.CustodyOk) (hl : s.live = true) (p : Nat) (m : Msg) : (s.serveOffer p m).CustodyOk := by
  unfold State.serveOffer
  split
  · dsimp only
    have hd : (if (s.adoptionFrom p).isSome then s.discardAdoption .discarded else s).CustodyOk := by
      split
      · exact h.discardAdoption _
      · exact h
    have hst : (if (s.adoptionFrom p).isSome then s.discardAdoption .discarded else s).sc = s.sc := by
      split
      · unfold State.discardAdoption; split <;> rfl
      · rfl
    generalize (if (s.adoptionFrom p).isSome then s.discardAdoption .discarded else s) = u at hd hst ⊢
    split
    · exact hd.reply _ _
    · rename_i hno
      refine (hd.setAdoption (hd.no_handover (by rw [hst]; exact State.station_of_live hl) ?_) _).reply _ _
      unfold State.offerRefusal at hno
      cases hh : u.handing <;> simp_all
  · exact h

theorem no_handover_of_adoption (h : s.CustodyOk) {p : Nat} {a : Adoption} (ha : s.adoptionFrom p = some a) :
    s.cu.handover = none := by
  by_contra hn
  have := h.alone (Option.isSome_iff_ne_none.mpr hn)
  simp [State.adoptionFrom, this] at ha

theorem serveCardTransfer (h : s.CustodyOk) (p : Nat) (m : Msg) : (s.serveCardTransfer p m).CustodyOk := by
  unfold State.serveCardTransfer
  split
  · split
    · exact h
    · rename_i a ha
      have hnone := h.no_handover_of_adoption ha
      split
      · exact (h.setAdoption hnone _).storeTransferred hnone _ rfl
      · exact h
  · exact h

theorem serveTransferEnd (h : s.CustodyOk) (p : Nat) (m : Msg) : (s.serveTransferEnd p m).CustodyOk := by
  unfold State.serveTransferEnd
  split
  · split
    · rename_i a ha
      split
      · rename_i hc
        simp only [State.mayCommit, Bool.and_eq_true, decide_eq_true_eq] at hc
        obtain ⟨⟨⟨_, hsum⟩, htotal⟩, _⟩ := hc
        exact (h.commitAdoption (h.no_handover_of_adoption ha) (hsum.trans htotal.symm)).reply _ _
      · exact (h.discardAdoption _).reply _ _
    · exact h.reply _ _
  · exact h

theorem serveAbort (h : s.CustodyOk) (p : Nat) (m : Msg) : (s.serveAbort p m).CustodyOk := by
  unfold State.serveAbort
  split
  · split
    · exact h.discardAdoption _
    · exact h
  · exact h

theorem serveOfferReply (h : s.CustodyOk) (p : Nat) (m : Msg) : (s.serveOfferReply p m).CustodyOk := by
  unfold State.serveOfferReply
  split
  · rename_i o ho
    split
    · rename_i hc
      simp only [Bool.and_eq_true, decide_eq_true_eq] at hc
      split
      · have hsome : s.cu.handover.isSome = true := by simp [ho]
        refine h.setHandover (by simp [State.enterTransferring, State.setHandover]; rfl)
          (fun _ => by simpa [State.enterTransferring] using h.handing hsome) (fun _ => h.alone hsome)
          (fun _ _ _ => h.drained o ho (by rw [hc.1]; decide)) ?_
        rintro _ ⟨rfl⟩ _
        exact h.total o ho (Or.inl hc.1)
      · split
        · exact failHandover (h.of_same (by simp) (by simp)) _ _
        · exact h
    · exact h
  · exact h

theorem serveTransferReply (h : s.CustodyOk) (p : Nat) (m : Msg) : (s.serveTransferReply p m).CustodyOk := by
  unfold State.serveTransferReply
  split
  · rename_i o ho
    split
    · rename_i hc
      simp only [Bool.and_eq_true, decide_eq_true_eq] at hc
      split
      · refine h.completeHandover fun x hx => ?_
        rw [ho] at hx; obtain ⟨rfl⟩ := hx; exact hc.1.1
      · split
        · exact h.failHandover _ _
        · exact h
    · exact h
  · exact h

/-! ### The line and the timers -/

theorem hearFrame (h : s.CustodyOk) (f : RawFrame) : (s.hearFrame f).CustodyOk := by
  have hheard : ((s.lineBusy.trackSequence f.source f.sequence).heardFrom f.source f.kind).CustodyOk := by
    have hm : ∀ g, ((s.lineBusy.trackSequence f.source f.sequence).modifyPeer f.source g).CustodyOk := fun g =>
      h.of_same (by simp) (by simp)
    unfold State.heardFrom
    dsimp only
    split
    · exact (hm _).makeAbsent _
    · exact (hm fun e => e).of_same rfl rfl
  unfold State.hearFrame
  dsimp only
  split
  · exact hheard.of_same (by simp) (by simp)
  · exact hheard.of_same (by simp) (by simp)

theorem failAttempt (h : s.CustodyOk) (t : Txn) : (s.failAttempt t).CustodyOk := by
  have hf : ∀ g, ((s.modifyTxn t.reference g).failedExchange t.station).CustodyOk := fun g =>
    failedExchange (s := s.modifyTxn _ _) (h.of_same rfl rfl) _
  unfold State.failAttempt
  dsimp only
  split <;> exact (hf _).of_same (by simp; rfl) (by simp)

theorem failAdvice (h : s.CustodyOk) (a : Advice) : (s.failAdvice a).CustodyOk :=
  failedExchange (s := s.modifyAdvice _ _) (h.of_same rfl rfl) _

theorem handoverOfTicket_some {n : Nat} {o : Handover} (ho : s.handoverOfTicket n = some o) : s.cu.handover = some o := by
  unfold State.handoverOfTicket at ho
  split at ho
  · rename_i x hx
    split at ho
    · rw [hx, ho]
    · cases ho
  · cases ho

theorem acknowledged (h : s.CustodyOk) (f : OutFrame) : (s.acknowledged f).CustodyOk := by
  have hrequest : (match s.txnOfTicket f.ticket with
      | some t => s.modifyTxn t.reference fun t => { t with ticket := none, timer := some (s.now + t.replyTimeout) }
      | none => s).CustodyOk := by
    split
    · exact h.of_same rfl rfl
    · exact h
  have hoffer : (match s.handoverOfTicket f.ticket with
      | some o => s.setHandover (some { o with ticket := none, timer := some (s.now + o.replyTimeout) })
      | none => s).CustodyOk := by
    split
    · rename_i o ho
      exact h.changeHandover (handoverOfTicket_some ho) rfl rfl rfl rfl
    · exact h
  unfold State.acknowledged
  cases f.msg
  case auth | capture | credit | enquire => exact hrequest
  case offer | transferEnd => exact hoffer
  case advice =>
    dsimp only
    split
    · exact h.of_same rfl rfl
    · exact h
  case cardTransfer =>
    dsimp only
    split
    · rename_i o ho
      exact h.changeHandover ho rfl rfl rfl rfl
    · exact h
  all_goals exact h

theorem undeliverable (h : s.CustodyOk) (f : OutFrame) : (s.undeliverable f).CustodyOk := by
  have hrequest : (match s.txnOfTicket f.ticket with
      | some t => s.failAttempt t
      | none => s).CustodyOk := by
    split
    · exact h.failAttempt _
    · exact h
  have hfailed : ∀ c, ((s.failHandover .undeliverable 0).failedExchange c).CustodyOk := fun c =>
    (h.failHandover _ _).failedExchange c
  unfold State.undeliverable
  cases f.msg
  case auth | capture | credit | enquire => exact hrequest
  case release => exact h.failedExchange _
  case advice =>
    dsimp only
    split
    · exact h.failAdvice _
    · exact h
  case statement =>
    dsimp only
    unfold State.statementUndeliverable
    split
    · split
      · refine failedExchange ?_ _
        exact h.of_same rfl rfl
      · exact h
    · exact h
  case offer =>
    dsimp only
    split
    · exact hfailed _
    · exact h
  case cardTransfer =>
    dsimp only
    split
    · split
      · exact hfailed _
      · exact h
    · exact h
  case transferEnd =>
    dsimp only
    split
    · rename_i ho
      exact h.failTransferEnd (handoverOfTicket_some ho)
    · exact h
  all_goals exact h

theorem broadcastGone (h : s.CustodyOk) (f : OutFrame) : (s.broadcastGone f).CustodyOk := by
  unfold State.broadcastGone
  split
  · split
    · exact h.retire
    · exact h
  · exact h

theorem failSend (h : s.CustodyOk) (f : OutFrame) : (s.failSend f).CustodyOk := by
  have hr : (s.removeFrame f.ticket).CustodyOk := h.of_same (by simp) (by simp)
  unfold State.failSend
  dsimp only
  split
  · exact h.of_same rfl rfl
  · split
    · exact hr.broadcastGone f
    · exact hr.undeliverable f

theorem endSend (h : s.CustodyOk) (f : OutFrame) (d : Bool) : (s.endSend f d).CustodyOk := by
  have hr : (s.removeFrame f.ticket).CustodyOk := h.of_same (by simp) (by simp)
  unfold State.endSend
  split
  · exact hr.broadcastGone f
  · split
    · exact hr.acknowledged f
    · exact h.failSend f

theorem contend (h : s.CustodyOk) (f : OutFrame) (c : Contention) : (s.contend f c).CustodyOk := by
  cases c
  case rival =>
    simp only [State.contend]
    split <;> exact h.of_same rfl rfl
  all_goals exact h.of_same rfl rfl

theorem standBy (h : s.CustodyOk) (m : StartMoment) (c : Contention) : (s.standBy m c).CustodyOk := by
  cases c <;> exact h.of_same rfl rfl

theorem cutOff (h : s.CustodyOk) (a : LineActivity) : (s.cutOff a).CustodyOk := by
  unfold State.cutOff
  split
  · split
    · exact h.failSend _
    · exact h
  all_goals exact h

theorem modeChanged (h : s.CustodyOk) : s.modeChanged.CustodyOk := by
  have hs := h.silenceTests (s.pm.peers.map (·.1))
  unfold State.modeChanged
  dsimp only
  split
  · split
    · exact hs.of_same (by simp) (by simp)
    · exact hs
  · exact hs

theorem becomeJoined (h : s.CustodyOk) (hl : s.sc.station = .listening) : s.becomeJoined.CustodyOk := by
  have hnone : s.cu.handover = none := h.no_handover (by rw [hl]; decide) (by simp [State.handing, hl])
  refine h.setHandover (o := none) ?_ (by simp) (by simp) (by simp) (by simp)
  unfold State.becomeJoined
  dsimp only
  split <;> simp [← hnone]

theorem timedHandover_some {sub : SubState} {o : Handover} {n : Nat} (ho : s.timedHandover sub = some (o, n)) :
    s.cu.handover = some o := by
  unfold State.timedHandover at ho
  split at ho
  · rename_i x hx
    split at ho
    · split at ho
      · simp only [Option.some.injEq, Prod.mk.injEq] at ho
        rw [hx, ho.1]
      · cases ho
    · cases ho
  · cases ho

theorem holdTimer (h : s.CustodyOk) (id : HoldId) (st : HoldState) : (s.holdTimer id st).CustodyOk := by
  unfold State.holdTimer
  split
  · exact (removeHold (s := s.reach _) (h.of_same rfl rfl) id).settle
  · exact h

theorem slotReached (h : s.CustodyOk) (x : Sending) (d : Bool) : (s.slotReached x d).CustodyOk := by
  have hb : s.lineBusy.restartBeacon.CustodyOk := h.of_same rfl rfl
  unfold State.slotReached
  split
  · exact (hb.endSend _ d).settle
  · exact hb

theorem sendAborted (h : s.CustodyOk) (x : Sending) : (s.sendAborted x).CustodyOk := by
  have hb : (s.lineBusy.clash 0 x.kind x.dest).CustodyOk := h.of_same rfl rfl
  unfold State.sendAborted
  dsimp only
  split
  · exact (hb.failSend _).settle
  · exact hb

/-! ### The steps -/

/-- The outcome of a command is the state it names. -/
theorem of_next {u : State} (h : u.CustodyOk) (he : (.next u : Host.Outcome State Fault Refusal) = .next t) : t.CustodyOk :=
  Host.Outcome.next.inj he ▸ h

theorem execWrite (h : s.CustodyOk) (b : List Byte) (he : exec (.write b) s = .next t) : t.CustodyOk := by
  refine of_next ?_ he
  split
  · unfold State.takeWritten
    split
    · exact h.of_same rfl rfl
    · split <;> exact h.of_same rfl rfl
  · exact h.of_same rfl rfl

theorem execRead (h : s.CustodyOk) (n : Nat) (he : exec (.read n) s = .next t) : t.CustodyOk := by
  refine of_next ?_ he
  split <;> exact h.of_same rfl rfl

theorem execBadValueRequest (h : s.CustodyOk) (he : exec .badValueRequest s = .next t) : t.CustodyOk := by
  refine of_next ?_ he
  split
  · exact h
  · split
    · exact h.of_same rfl rfl
    · exact h

theorem execPayout (h : s.CustodyOk) (he : exec .payout s = .next t) : t.CustodyOk := by
  refine of_next ?_ he
  split
  · exact h
  · split
    · exact h.of_same rfl rfl
    · exact h

theorem execAdviceSettled (h : s.CustodyOk) (he : exec .adviceSettled s = .next t) : t.CustodyOk := by
  refine of_next ?_ he
  split
  · exact h
  · split
    · exact settle (s := s.reportAdvice _ _) (h.of_same rfl rfl)
    · exact h

theorem execReportLatchPlaced (h : s.CustodyOk) (he : exec .reportLatchPlaced s = .next t) : t.CustodyOk := by
  refine of_next ?_ he
  split
  · exact h
  · rename_i r u hu
    have hsame : u.cu = s.cu ∧ u.sc.station = s.sc.station := by
      unfold State.firstLatch at hu
      repeat' split at hu
      all_goals cases hu
      all_goals exact ⟨rfl, rfl⟩
    split
    · exact h.of_same hsame.1 hsame.2
    · exact h

theorem execFrameHeard (h : s.CustodyOk) (b : List Bool) (he : exec (.frameHeard b) s = .next t) : t.CustodyOk := by
  refine of_next ?_ he
  split
  · split
    · split
      · exact h
      · split
        · exact (h.hearFrame _).settle
        · exact h.of_same rfl rfl
    · exact h
    · exact h
  · exact h

theorem execFrameDiscarded (h : s.CustodyOk) (w : Reception) (he : exec (.frameDiscarded w) s = .next t) : t.CustodyOk := by
  refine of_next ?_ he
  split
  · split
    · exact h.of_same rfl rfl
    · split
      · exact h.of_same rfl rfl
      · exact h
  · exact h

theorem execHeardOwn (h : s.CustodyOk) (b : List Bool) (he : exec (.heardOwn b) s = .next t) : t.CustodyOk := by
  refine of_next ?_ he
  split
  · split
    · split
      · split <;> exact h.of_same rfl rfl
      · exact h
    · exact h
    · exact h
  · exact h

theorem execBusFree (h : s.CustodyOk) (m : StartMoment) (c : Contention) (he : exec (.busFree m c) s = .next t) :
    t.CustodyOk := by
  refine of_next ?_ he
  split
  · split
    · exact h.enterRetain _
    · split
      · exact h.contend _ _
      · exact h.standBy _ _
  · exact h

theorem execSendEnd (h : s.CustodyOk) (d : Bool) (he : exec (.sendEnd d) s = .next t) : t.CustodyOk := by
  refine of_next ?_ he
  split
  · split
    · exact h.slotReached _ _
    · split
      · exact enterRetain (h.of_same (by simp) (by simp)) _
      · exact h.of_same rfl rfl
  all_goals exact h

theorem execClashMismatch (h : s.CustodyOk) (he : exec .clashMismatch s = .next t) : t.CustodyOk := by
  refine of_next ?_ he
  split
  · split
    · exact h.sendAborted _
    · split
      · exact enterRetain (s := s.lineBusy) (h.of_same rfl rfl) _
      · exact h.of_same rfl rfl
  all_goals exact h

theorem execStuck (h : s.CustodyOk) (he : exec .stuck s = .next t) : t.CustodyOk := by
  refine of_next ?_ he
  split
  · split
    · exact (cutOff (s := s.enterStuck) (h.of_same rfl rfl) _).settle
    · exact h.enterRetain _
  · exact h

theorem execStuckEnd (h : s.CustodyOk) (he : exec .stuckEnd s = .next t) : t.CustodyOk := by
  refine of_next ?_ he
  split
  · split
    · exact h.of_same rfl rfl
    · exact h
  · exact h

theorem execReplyTimeout (h : s.CustodyOk) (n : Nat) (he : exec (.replyTimeout n) s = .next t) : t.CustodyOk := by
  refine of_next (h.event fun _ => ?_) he
  split
  · exact (failAttempt (s := s.reach _) (h.of_same rfl rfl) _).settle
  · exact h

theorem execAbandonmentTimer (h : s.CustodyOk) (n : Nat) (he : exec (.abandonmentTimer n) s = .next t) : t.CustodyOk := by
  refine of_next (h.event fun _ => ?_) he
  split
  · exact (voidTxn (s := s.reach _) (h.of_same rfl rfl) _ _).settle
  · exact h

theorem execAdviceReplyTimeout (h : s.CustodyOk) (n : Nat) (he : exec (.adviceReplyTimeout n) s = .next t) :
    t.CustodyOk := by
  refine of_next (h.event fun _ => ?_) he
  split
  · split
    · split
      · exact (failAdvice (s := s.reach _) (h.of_same rfl rfl) _).settle
      · exact h
    · exact h
  · exact h

theorem execStatementWindow (h : s.CustodyOk) (he : exec .statementWindow s = .next t) : t.CustodyOk := by
  refine of_next (h.event fun _ => ?_) he
  split
  · exact (forcedFinish (s := s.reach _) (h.of_same rfl rfl)).settle
  · exact h

theorem execDrainLimit (h : s.CustodyOk) (he : exec .drainLimit s = .next t) : t.CustodyOk := by
  refine of_next (h.event fun _ => ?_) he
  split
  · exact (failHandover (s := s.reach _) (h.of_same rfl rfl) _ _).settle
  · exact h

theorem execOfferReplyTimeout (h : s.CustodyOk) (he : exec .offerReplyTimeout s = .next t) : t.CustodyOk := by
  refine of_next (h.event fun _ => ?_) he
  split
  · exact ((failHandover (s := s.reach _) (h.of_same rfl rfl) _ _).failedExchange _).settle
  · exact h

theorem execTransferEndTimeout (h : s.CustodyOk) (he : exec .transferEndTimeout s = .next t) : t.CustodyOk := by
  refine of_next (h.event fun _ => ?_) he
  split
  · rename_i ho
    exact (failTransferEnd (s := s.reach _) (h.of_same rfl rfl) (timedHandover_some ho)).settle
  · exact h

theorem execAdoptionIdleLimit (h : s.CustodyOk) (he : exec .adoptionIdleLimit s = .next t) : t.CustodyOk := by
  refine of_next (h.event fun _ => ?_) he
  split
  · exact discardAdoption (s := s.reach _) (h.of_same rfl rfl) _
  · exact h

theorem execPauseGuard (h : s.CustodyOk) (he : exec .pauseGuard s = .next t) : t.CustodyOk := by
  refine of_next (h.event fun _ => ?_) he
  split
  · exact h.of_same (by simp) (by simp)
  · exact h

theorem execPauseEnd (h : s.CustodyOk) (n : Nat) (he : exec (.pauseEnd n) s = .next t) : t.CustodyOk := by
  refine of_next (h.event fun _ => ?_) he
  split
  · exact settle (s := State.setLc _ _) (h.of_same rfl rfl)
  · exact h

theorem execQuiet (h : s.CustodyOk) (n : Nat) (he : exec (.quiet n) s = .next t) : t.CustodyOk := by
  refine of_next (h.event fun _ => ?_) he
  split
  · split
    · exact h.of_same rfl rfl
    · exact h
  · exact h

theorem execAbsent (h : s.CustodyOk) (n : Nat) (he : exec (.absent n) s = .next t) : t.CustodyOk := by
  refine of_next (h.event fun _ => ?_) he
  split
  · split
    · exact (makeAbsent (s := s.reach _) (h.of_same rfl rfl) _).settle
    · exact h
  · exact h

theorem execBeaconTimer (h : s.CustodyOk) (he : exec .beaconTimer s = .next t) : t.CustodyOk := by
  refine of_next (h.event fun _ => ?_) he
  split
  · exact h.of_same (by simp) (by simp)
  · exact h

theorem execLoadWindow (h : s.CustodyOk) (he : exec .loadWindow s = .next t) : t.CustodyOk := by
  refine of_next (h.event fun _ => ?_) he
  split
  · rename_i n _
    have hj : ((s.reach n).judgeWindow n).CustodyOk := h.of_same rfl rfl
    dsimp only
    split
    · exact hj.modeChanged.settle
    · exact hj
  · exact h

theorem execListenTimer (h : s.CustodyOk) (he : exec .listenTimer s = .next t) : t.CustodyOk := by
  refine of_next (h.event fun _ => ?_) he
  split
  · split
    · exact (becomeJoined (s := s.reach _) (h.of_same rfl rfl) ‹_›).settle
    · exact h
  · exact h

theorem execSupplyWarning (h : s.CustodyOk) (he : exec .supplyWarning s = .next t) : t.CustodyOk := by
  refine of_next ?_ he
  split
  · exact h.warn
  · split
    · exact h
    · exact h.of_same rfl rfl

theorem execDepartureLimit (h : s.CustodyOk) (he : exec .departureLimit s = .next t) : t.CustodyOk := by
  refine of_next ?_ he
  split
  · exact h
  · split
    · exact h
    · exact enterRetain (s := s.reach _) (h.of_same rfl rfl) _

theorem execSupplyReturn (h : s.CustodyOk) (p : Straps) (b : Bool) (he : exec (.supplyReturn p b) s = .next t) :
    t.CustodyOk := by
  refine of_next ?_ he
  split
  · exact h.endRetain _
  · split
    · exact h.of_same rfl rfl
    · exact h

theorem execResetPin (h : s.CustodyOk) (p : Straps) (b : Bool) (he : exec (.resetPin p b) s = .next t) : t.CustodyOk := by
  refine of_next ?_ he
  split
  · exact h
  · split
    · exact (h.start p true).warn
    · exact h.start p true

/-- Every command keeps what the Custody Unit keeps true. -/
theorem exec (h : s.CustodyOk) (i : Instr) (he : exec i s = .next t) : t.CustodyOk := by
  cases i
  case write b => exact h.execWrite b he
  case read n => exact h.execRead n he
  case peek => exact of_next (u := s.clockOut []) (h.of_same rfl rfl) he
  case issue => exact of_next (h.intake fun _ r hu _ hk => hu.serveIssue hk r) he
  case balance => exact of_next (h.intake fun _ r hu _ _ => hu.serveBalance r) he
  case redeem => exact of_next (h.intake fun _ r hu hl _ => hu.serveRedeem hl r) he
  case complete => exact of_next (h.event fun _ => (h.intake fun _ r hu hl _ => hu.serveComplete hl r).settle) he
  case void => exact of_next (h.event fun _ => (h.intake fun _ r hu _ _ => hu.serveVoid r).settle) he
  case creditRequest => exact of_next (h.intake fun _ r hu hl _ => hu.serveCreditRequest hl r) he
  case cashout => exact of_next (h.intake fun _ r hu hl _ => hu.serveCashout hl r) he
  case closePeriod => exact of_next (h.event fun _ => (h.intake fun _ r hu _ _ => hu.serveClosePeriod r).settle) he
  case handover => exact of_next (h.event fun _ => (h.intake fun _ r hu _ _ => hu.serveHandover r).settle) he
  case status => exact of_next (h.intake fun _ r hu _ _ => hu.serveStatus r) he
  case peer => exact of_next (h.intake fun _ r hu _ _ => hu.servePeer r) he
  case readPosition => exact of_next (h.intake fun _ r hu _ _ => hu.serveReadPosition r) he
  case readFloat => exact of_next (h.intake fun _ r hu _ _ => hu.serveReadFloat r) he
  case configure => exact of_next (h.intake fun _ r hu _ _ => hu.serveConfigure r) he
  case join => exact of_next (h.intake fun _ r hu _ hk => hu.serveJoin hk r) he
  case restart p => exact of_next (h.intake fun _ _ hu _ _ => hu.start p true) he
  case badValueRequest => exact h.execBadValueRequest he
  case payout => exact h.execPayout he
  case adviceSettled => exact h.execAdviceSettled he
  case reportLatchPlaced => exact h.execReportLatchPlaced he
  case frameHeard b => exact h.execFrameHeard b he
  case frameDiscarded w => exact h.execFrameDiscarded w he
  case heardOwn b => exact h.execHeardOwn b he
  case auth => exact of_next (h.takeFrame fun _ p m hu hl => hu.serveAuthFrame hl p m) he
  case capture => exact of_next (h.event fun _ => (h.takeFrame fun _ p m hu hl => hu.serveCaptureFrame hl p m).settle) he
  case release => exact of_next (h.event fun _ => (h.takeFrame fun _ p m hu _ => hu.serveReleaseFrame p m).settle) he
  case creditFrame => exact of_next (h.takeFrame fun _ p m hu hl => hu.serveCreditFrame hl p m) he
  case enquire => exact of_next (h.takeFrame fun _ p m hu _ => hu.serveEnquireFrame p m) he
  case advice => exact of_next (h.takeFrame fun _ p m hu hl => hu.serveAdviceFrame hl p m) he
  case authReply => exact of_next (h.takeFrame fun _ p m hu _ => hu.of_same (by simp) (by simp)) he
  case captureReply => exact of_next (h.event fun _ => (h.takeFrame fun _ p m hu _ => hu.serveCaptureReply p m).settle) he
  case creditReply => exact of_next (h.event fun _ => (h.takeFrame fun _ p m hu _ => hu.serveCreditReply p m).settle) he
  case enquireReply => exact of_next (h.takeFrame fun _ p m hu _ => hu.of_same (by simp) (by simp)) he
  case adviceReply => exact of_next (h.event fun _ => (h.takeFrame fun _ p m hu _ => hu.serveAdviceReply p m).settle) he
  case statement => exact of_next (h.event fun _ => (h.takeFrame fun _ p m hu _ => hu.serveStatement p m).settle) he
  case close => exact of_next (h.event fun _ => (h.takeFrame fun _ p m hu _ => hu.serveClose p m).settle) he
  case beacon => exact of_next (h.event fun _ => (h.takeFrame fun _ p m hu _ => hu.serveBeacon p m).settle) he
  case depart => exact of_next (h.takeFrame fun _ p m hu _ => hu.serveDepart p m) he
  case custody => exact of_next (h.event fun _ => (h.takeFrame fun _ p m hu _ => hu.serveCustody p m).settle) he
  case offer => exact of_next (h.takeFrame fun _ p m hu hl => hu.serveOffer hl p m) he
  case offerReply => exact of_next (h.event fun _ => (h.takeFrame fun _ p m hu _ => hu.serveOfferReply p m).settle) he
  case cardTransfer => exact of_next (h.takeFrame fun _ p m hu _ => hu.serveCardTransfer p m) he
  case transferEnd => exact of_next (h.event fun _ => (h.takeFrame fun _ p m hu _ => hu.serveTransferEnd p m).settle) he
  case transferReply => exact of_next (h.event fun _ => (h.takeFrame fun _ p m hu _ => hu.serveTransferReply p m).settle) he
  case abortHandover => exact of_next (h.takeFrame fun _ p m hu _ => hu.serveAbort p m) he
  case busFree m c => exact h.execBusFree m c he
  case sendEnd d => exact h.execSendEnd d he
  case clashMismatch => exact h.execClashMismatch he
  case stuck => exact h.execStuck he
  case stuckEnd => exact h.execStuckEnd he
  case holdExpiry id => exact of_next (h.event fun _ => h.holdTimer id _) he
  case retentionEnd id => exact of_next (h.event fun _ => h.holdTimer id _) he
  case replyTimeout n => exact h.execReplyTimeout n he
  case abandonmentTimer n => exact h.execAbandonmentTimer n he
  case adviceReplyTimeout n => exact h.execAdviceReplyTimeout n he
  case statementWindow => exact h.execStatementWindow he
  case drainLimit => exact h.execDrainLimit he
  case offerReplyTimeout => exact h.execOfferReplyTimeout he
  case transferEndTimeout => exact h.execTransferEndTimeout he
  case adoptionIdleLimit => exact h.execAdoptionIdleLimit he
  case pauseGuard => exact h.execPauseGuard he
  case pauseEnd n => exact h.execPauseEnd n he
  case quiet n => exact h.execQuiet n he
  case absent n => exact h.execAbsent n he
  case beaconTimer => exact h.execBeaconTimer he
  case loadWindow => exact h.execLoadWindow he
  case listenTimer => exact h.execListenTimer he
  case supplyWarning => exact h.execSupplyWarning he
  case departureLimit => exact h.execDepartureLimit he
  case supplyReturn p b => exact h.execSupplyReturn p b he
  case powerUp p b => exact of_next (h.start p b) he
  case resetPin p b => exact h.execResetPin p b he

end State.CustodyOk

/-- Settles O59: each operation of the station keeps the truths, and a step is the command at the front of the queue, or a
millisecond of the clock. -/
theorem stepsKeepTheCustodyTruths : Obligations.StepsKeepTheCustodyTruths := by
  intro s t h he
  unfold step at he
  split at he
  · exact State.CustodyOk.of_next (u := s.setNow (s.now + 1)) (h.of_same rfl rfl) he
  · rename_i c rest _
    have hp : (s.setPending rest).CustodyOk := h.of_same rfl rfl
    exact hp.exec c he

end Sys2Proof.Machine
end

