-- ==== Sys2Proof/Proofs/TillPort.lean ====
section
/-! PROOFS. The step, the reset, the till port's transfers and intake, and the reference of a new transaction. -/
namespace Sys2Proof.Machine

/-! ### The step and the reset -/

/-- Settles O1. -/
theorem stepTakesTheFrontCommand : Obligations.StepTakesTheFrontCommand :=
  ⟨fun _ _ _ h => by simp [step, h], fun _ h => by simp [step, h]⟩

/-- Settles O2. -/
theorem resetIsAColdStart : Obligations.ResetIsAColdStart := by
  unfold Obligations.ResetIsAColdStart
  decide

/-- Settles O60. -/
theorem resetIsWithinTheInvariants : Obligations.ResetIsWithinTheInvariants where
  left :=
    { till := by constructor <;> decide
      line := by constructor <;> decide
      custody := by constructor <;> simp [State.reset]
      broker := by constructor <;> simp [State.reset]
      homeMap := by constructor <;> simp [State.reset, State.pins]
      tables := by constructor <;> simp [State.reset, Table.wf, Table.wfFrom] }
  right := by constructor <;> simp [State.reset, activeSum, sumOf]

/-! ### Transfers -/

@[simp] theorem fillers_length (n : Nat) : (fillers n).length = n := by
  induction n with
  | zero => rfl
  | succ n ih => simp [fillers, ih]

/-- The record that three bytes and their fields hold (R172, R189). -/
theorem Request.ofBytes_cons (kind tag length : Byte) (fields : List Byte) :
    Request.ofBytes (kind :: tag :: length :: fields) = if length.toNat ≤ fields.length then
      some { kind := kind.toNat, tag := tag.toNat, fields := fields.take length.toNat } else none := rfl

theorem Request.ofBytes_short {bytes : List Byte} (h : bytes.length < 3) : Request.ofBytes bytes = none := by
  match bytes with
  | [] => rfl
  | [_] => rfl
  | [_, _] => rfl
  | _ :: _ :: _ :: _ => simp at h; omega

/-- Settles O3: the record that the bytes hold decides what is taken. -/
theorem writeCompletes : Obligations.WriteCompletes := by
  refine ⟨?whole, ?dropped, ?cutShort, ?short, ?dead⟩
  case whole =>
    intro s kind tag length fields hl hlen hroom
    have hq : s.till.requests.length < Config.requestPlaces := hroom
    simp [exec, execWrite, hl, Request.ofBytes_cons, hlen, State.takeWritten, State.clockOut, hq, State.setTill]
  case dropped =>
    intro s kind tag length fields hl hlen hfull
    have hq : ¬ s.till.requests.length < Config.requestPlaces := Nat.not_lt.mpr hfull
    simp [exec, execWrite, hl, Request.ofBytes_cons, hlen, State.takeWritten, State.clockOut, hq, State.setTill]
  case cutShort =>
    intro s kind tag length fields hl hlen
    simp [exec, execWrite, hl, Request.ofBytes_cons, Nat.not_le.mpr hlen, State.takeWritten, State.clockOut]
  case short =>
    intro s bytes hl hlen
    simp [exec, execWrite, hl, Request.ofBytes_short hlen, State.takeWritten, State.clockOut]
  case dead =>
    intro s bytes hl
    simp [exec, execWrite, hl, State.clockOut]

/-- The port status byte holds its four fields apart (R171). -/
theorem State.portStatus_toNat (s : State) : s.portStatus.toNat
    = (if s.live = true then min 3 (8 - s.till.requests.length) else 0) * 64
      + (if s.live = true then min 3 s.till.results.length else 0) * 16 + s.sc.station.code * 2
      + if s.till.overrun = true then 1 else 0 := by
  have hcode : s.sc.station.code ≤ 6 := by cases s.sc.station <;> decide
  simp only [State.portStatus, BitVec.toNat_ofNat, Config.requestPlaces]
  refine Nat.mod_eq_of_lt ?_
  split <;> split <;> omega

/-- Settles O4. -/
theorem readAndPeekComplete : Obligations.ReadAndPeekComplete := by
  have hempty : Record.empty.bytes = [0#8, 0#8, 0#8, 0#8, 0#8, 0#8] := by decide
  refine ⟨?whole, ?part, ?empty, ?dead, fun _ _ => rfl, ?status⟩
  case whole =>
    intro s r rest n hl hr hn
    have ht : r.bytes.take n = r.bytes := List.take_of_length_le hn
    simp [exec, execRead, hl, State.oldestResult, State.clockOut, State.endRead, hr, hn, ht, State.setTill]
  case part =>
    intro s r rest n hl hr hn
    have hz : n - r.bytes.length = 0 := by omega
    simp [exec, execRead, hl, State.oldestResult, State.clockOut, State.endRead, hr, Nat.not_le.mpr hn, hz, fillers,
      State.setTill]
  case empty =>
    intro s hl hr
    simp [exec, execRead, hl, State.oldestResult, State.clockOut, State.endRead, hr, hempty, fillers, State.setTill]
  case dead =>
    intro s n hl
    simp [exec, execRead, hl, State.clockOut]
  case status =>
    intro s
    rw [s.portStatus_toNat]
    cases s.sc.station <;> rfl

/-! ### Intake -/

/-- A record whose code or length is of no kind. -/
theorem Request.kind?_none {r : Request} (h : ∀ k : ReqKind, r.kind = k.code → r.fields.length ≠ k.length) :
    r.kind? = none := by
  have hcode : ∀ n k, ReqKind.ofCode n = some k → n = k.code := by
    intro n k hk
    unfold ReqKind.ofCode at hk
    split at hk <;> cases hk <;> rfl
  unfold Request.kind?
  split
  · rename_i k hk
    rw [if_neg (h k (hcode _ _ hk))]
  · rfl

/-- Settles O5. -/
theorem requestsRefusedAtIntake : Obligations.RequestsRefusedAtIntake := by
  refine ⟨?wrongState, ?badValue⟩
  case wrongState =>
    intro s k r rest p h hn
    have hl := h.1
    cases k <;> simp only [ReqKind.command, exec, execIssue, execBalance, execRedeem, execComplete, execVoid,
      execCreditRequest, execCashout, execClosePeriod, execHandover, execStatus, execPeer, execReadPosition, execReadFloat,
      execConfigure, execJoin, execRestart, State.event_live hl, State.intake_refuses h hn, State.popRequest_answer] <;> rfl
  case badValue =>
    intro s r rest hl hslot hwait hreq hkind
    have hopen : s.intakeOpen = true := by simp [State.intakeOpen, hl, hslot, hwait]
    simp [exec, execBadValueRequest, hreq, hopen, Request.kind?_none hkind, declinedCode, Reason.code]

/-! ### References -/

/-- Settles O55: more numbers are tried than references are in use (R54). -/
theorem freshReferenceIsFree : Obligations.FreshReferenceIsFree := by
  intro s htxns hqueue hlow hhigh
  have hrange := firstFree_range (top := 65535)
    (fun n => s.br.txns.any (fun t => t.reference = n) || s.au.queue.any (fun a => a.reference = n)) (by omega)
    (s.br.txns.length + s.au.queue.length + 1) s.br.refCounter hlow hhigh
  have hunused := firstFree_unused (top := 65535) (fuel := s.br.txns.length + s.au.queue.length + 1)
    (used := fun n => s.br.txns.any (fun t => t.reference = n) || s.au.queue.any (fun a => a.reference = n)) hlow hhigh
    (by omega) (s.br.txns.map (·.reference) ++ s.au.queue.map (·.reference))
    (by simp) (by simp)
  change (s.br.txns.any (fun t => t.reference = s.freshReference)
    || s.au.queue.any (fun a => a.reference = s.freshReference)) = false at hunused
  simp only [Bool.or_eq_false_iff, List.any_eq_false, decide_eq_true_eq] at hunused
  have hfresh : 1 ≤ s.freshReference ∧ s.freshReference ≤ 65535 := hrange
  refine ⟨hfresh.1, hfresh.2, ?_, ?_, ?_⟩
  · simpa [State.txnFor] using hunused.1
  · simpa [State.adviceFor] using hunused.2
  · simp only [State.takeReference, State.setBr_br, nextIn]
    split <;> split <;> omega

end Sys2Proof.Machine
end

