-- ==== Sys2Proof/Proofs/Requests.lean ====
section
/-! PROOFS. The step of each request that its station state serves, and card numbers in till records. -/
namespace Sys2Proof.Machine

/-! ### The step of a request that is served -/

section
variable {s : State} {r : Request} {rest : List Request}

theorem exec_issue (h : s.Serves .issue r rest) : exec .issue s = .next ((s.popRequest rest).serveIssue r) :=
  congrArg _ (State.intake_serves h _)
theorem exec_balance (h : s.Serves .balance r rest) : exec .balance s = .next ((s.popRequest rest).serveBalance r) :=
  congrArg _ (State.intake_serves h _)
theorem exec_redeem (h : s.Serves .redeem r rest) : exec .redeem s = .next ((s.popRequest rest).serveRedeem r) :=
  congrArg _ (State.intake_serves h _)
theorem exec_creditRequest (h : s.Serves .credit r rest) :
    exec .creditRequest s = .next ((s.popRequest rest).serveCreditRequest r) := congrArg _ (State.intake_serves h _)
theorem exec_cashout (h : s.Serves .cashout r rest) : exec .cashout s = .next ((s.popRequest rest).serveCashout r) :=
  congrArg _ (State.intake_serves h _)
theorem exec_status (h : s.Serves .status r rest) : exec .status s = .next ((s.popRequest rest).serveStatus r) :=
  congrArg _ (State.intake_serves h _)
theorem exec_peer (h : s.Serves .peer r rest) : exec .peer s = .next ((s.popRequest rest).servePeer r) :=
  congrArg _ (State.intake_serves h _)
theorem exec_readPosition (h : s.Serves .readPosition r rest) :
    exec .readPosition s = .next ((s.popRequest rest).serveReadPosition r) := congrArg _ (State.intake_serves h _)
theorem exec_readFloat (h : s.Serves .readFloat r rest) :
    exec .readFloat s = .next ((s.popRequest rest).serveReadFloat r) := congrArg _ (State.intake_serves h _)
theorem exec_configure (h : s.Serves .configure r rest) :
    exec .configure s = .next ((s.popRequest rest).serveConfigure r) := congrArg _ (State.intake_serves h _)
theorem exec_join (h : s.Serves .join r rest) : exec .join s = .next ((s.popRequest rest).serveJoin r) :=
  congrArg _ (State.intake_serves h _)
theorem exec_restart (h : s.Serves .restart r rest) (p : Straps) :
    exec (.restart p) s = .next ((s.popRequest rest).start p true) := congrArg _ (State.intake_serves h _)

theorem exec_complete (h : s.Serves .complete r rest) :
    exec .complete s = .next ((s.popRequest rest).serveComplete r).settle := by
  simp only [exec, execComplete, State.event_live h.1.1, State.intake_serves h]
theorem exec_void (h : s.Serves .void r rest) : exec .void s = .next ((s.popRequest rest).serveVoid r).settle := by
  simp only [exec, execVoid, State.event_live h.1.1, State.intake_serves h]
theorem exec_closePeriod (h : s.Serves .closePeriod r rest) :
    exec .closePeriod s = .next ((s.popRequest rest).serveClosePeriod r).settle := by
  simp only [exec, execClosePeriod, State.event_live h.1.1, State.intake_serves h]
theorem exec_handover (h : s.Serves .handover r rest) :
    exec .handover s = .next ((s.popRequest rest).serveHandover r).settle := by
  simp only [exec, execHandover, State.event_live h.1.1, State.intake_serves h]
end

/-! ### Card numbers (R1, R187) -/

theorem digitOf_eq_some {b : Byte} {v : Nat} : digitOf b = some v ↔ v ≤ 9 ∧ b = BitVec.ofNat 8 (48 + v) := by
  unfold digitOf
  constructor
  · intro h
    split at h
    · rename_i hb
      simp only [Bool.and_eq_true, decide_eq_true_eq] at hb
      cases h
      refine ⟨by omega, BitVec.eq_of_toNat_eq ?_⟩
      rw [BitVec.toNat_ofNat]
      omega
    · cases h
  · rintro ⟨hv, rfl⟩
    have hn : (BitVec.ofNat 8 (48 + v)).toNat = 48 + v := by rw [BitVec.toNat_ofNat]; omega
    rw [if_pos (by simp only [hn, Bool.and_eq_true, decide_eq_true_eq]; omega), hn]
    simp

theorem digitsOf_nil (acc : Nat) : digitsOf [] acc = some acc := rfl

theorem digitsOf_cons_eq_some {b : Byte} {bs : List Byte} {acc v : Nat} :
    digitsOf (b :: bs) acc = some v ↔ ∃ d, digitOf b = some d ∧ digitsOf bs (acc * 10 + d) = some v := by
  simp only [digitsOf]
  split
  · rename_i h; simp [h]
  · rename_i d h; simp [h]

theorem digitsOf_lt {l : List Byte} {acc v : Nat} (h : digitsOf l acc = some v) : v < (acc + 1) * 10 ^ l.length := by
  induction l generalizing acc with
  | nil => cases h; simp
  | cons b l ih =>
    obtain ⟨d, hd, hrest⟩ := digitsOf_cons_eq_some.mp h
    have hle := (digitOf_eq_some.mp hd).1
    refine (ih hrest).trans_le ?_
    rw [List.length_cons, Nat.pow_succ']
    calc (acc * 10 + d + 1) * 10 ^ l.length ≤ ((acc + 1) * 10) * 10 ^ l.length := Nat.mul_le_mul_right _ (by omega)
      _ = _ := by ring

/-- A valid number: the check value of its digits, and its home and serial in range (R1). -/
theorem CardNo.valid_iff (c : CardNo) : c.valid = true ↔
    c.check = (c.home / 100 % 10 * 3 + c.home / 10 % 10 * 5 + c.home / 1 % 10 * 7 + c.serial / 10000 % 10 * 11
        + c.serial / 1000 % 10 * 13 + c.serial / 100 % 10 * 17 + c.serial / 10 % 10 * 19 + c.serial / 1 % 10 * 23) % 89 + 10
      ∧ 1 ≤ c.home ∧ c.home ≤ 239 ∧ 1 ≤ c.serial ∧ c.serial ≤ 99999 := by
  simp [CardNo.valid, checkValue, weightedSum, and_assoc]

/-- What `cardFromTill` reads: three, five and two digits that pass R1. -/
theorem cardFromTill_eq_some {bytes : List Byte} {card : CardNo} : cardFromTill bytes = some card ↔
    digitsOf (bytes.take 3) 0 = some card.home ∧ digitsOf ((bytes.drop 3).take 5) 0 = some card.serial
      ∧ digitsOf ((bytes.drop 8).take 2) 0 = some card.check ∧ card.valid = true := by
  unfold cardFromTill
  constructor
  · intro h
    split at h
    · rename_i hh hs hc
      split at h
      · cases h; exact ⟨hh, hs, hc, ‹_›⟩
      · cases h
    · cases h
  · rintro ⟨hh, hs, hc, hv⟩
    rw [hh, hs, hc]
    exact if_pos hv

/-- Ten bytes at least are read, for a check value has two digits. -/
theorem length_of_cardFromTill {bytes : List Byte} {card : CardNo} (h : cardFromTill bytes = some card) :
    10 ≤ bytes.length := by
  obtain ⟨_, _, hc, hv⟩ := cardFromTill_eq_some.mp h
  have hlt := digitsOf_lt hc
  have hge : 10 ≤ card.check := by rw [((CardNo.valid_iff card).mp hv).1]; omega
  by_contra hn
  have hlen : ((bytes.drop 8).take 2).length ≤ 1 := by simp; omega
  have hpow : 10 ^ ((bytes.drop 8).take 2).length ≤ 10 ^ 1 := Nat.pow_le_pow_right (by omega) hlen
  omega

/-- The digits that a home and a serial are made of are their decimal digits. -/
theorem digits_of_number {a b c : Nat} (ha : a ≤ 9) (hb : b ≤ 9) (hc : c ≤ 9) (n : Nat) :
    (n * 1000 + a * 100 + b * 10 + c) / 100 % 10 = a ∧ (n * 1000 + a * 100 + b * 10 + c) / 10 % 10 = b
      ∧ (n * 1000 + a * 100 + b * 10 + c) % 10 = c := by omega

/-- The check value of a home and a serial, by their digits (R1). -/
theorem checkValue_of_digits {d : Nat → Nat} (hd : ∀ i, 1 ≤ i → i ≤ 10 → d i ≤ 9) :
    checkValue (d 1 * 100 + d 2 * 10 + d 3) (d 4 * 10000 + d 5 * 1000 + d 6 * 100 + d 7 * 10 + d 8)
      = (d 1 * 3 + d 2 * 5 + d 3 * 7 + d 4 * 11 + d 5 * 13 + d 6 * 17 + d 7 * 19 + d 8 * 23) % 89 + 10 := by
  obtain ⟨h1, h2, h3⟩ := digits_of_number (hd 1 (by simp) (by simp)) (hd 2 (by simp) (by simp)) (hd 3 (by simp) (by simp)) 0
  obtain ⟨h6, h7, h8⟩ := digits_of_number (hd 6 (by simp) (by simp)) (hd 7 (by simp) (by simp)) (hd 8 (by simp) (by simp))
    (d 4 * 10 + d 5)
  have h4 := hd 4 (by simp) (by simp)
  have h5 := hd 5 (by simp) (by simp)
  have hs : (d 4 * 10 + d 5) * 1000 + d 6 * 100 + d 7 * 10 + d 8
      = d 4 * 10000 + d 5 * 1000 + d 6 * 100 + d 7 * 10 + d 8 := by ring
  have hh : 0 * 1000 + d 1 * 100 + d 2 * 10 + d 3 = d 1 * 100 + d 2 * 10 + d 3 := by ring
  rw [hs] at h6 h7 h8
  rw [hh] at h1 h2 h3
  have h45 : (d 4 * 10000 + d 5 * 1000 + d 6 * 100 + d 7 * 10 + d 8) / 10000 % 10 = d 4
      ∧ (d 4 * 10000 + d 5 * 1000 + d 6 * 100 + d 7 * 10 + d 8) / 1000 % 10 = d 5 := by
    have h6' := hd 6 (by simp) (by simp)
    have h7' := hd 7 (by simp) (by simp)
    have h8' := hd 8 (by simp) (by simp)
    omega
  rw [checkValue, weightedSum, h1, h2, h3, h45.1, h45.2, h6, h7, h8]

/-- The ten digits of a card number in a till record (R1, R187). -/
theorem cardFromTill_iff_digits (bytes : List Byte) (card : CardNo) : cardFromTill bytes = some card ↔ ∃ d : Nat → Nat,
    (∀ i, 1 ≤ i → i ≤ 10 → d i ≤ 9 ∧ bytes[i - 1]? = some (BitVec.ofNat 8 (48 + d i)))
    ∧ card.home = d 1 * 100 + d 2 * 10 + d 3
    ∧ card.serial = d 4 * 10000 + d 5 * 1000 + d 6 * 100 + d 7 * 10 + d 8 ∧ card.check = d 9 * 10 + d 10
    ∧ card.check = (d 1 * 3 + d 2 * 5 + d 3 * 7 + d 4 * 11 + d 5 * 13 + d 6 * 17 + d 7 * 19 + d 8 * 23) % 89 + 10
    ∧ 1 ≤ card.home ∧ card.home ≤ 239 ∧ 1 ≤ card.serial ∧ card.serial ≤ 99999 := by
  have hvalid : card.valid = true ↔ card.check = checkValue card.home card.serial
      ∧ 1 ≤ card.home ∧ card.home ≤ 239 ∧ 1 ≤ card.serial ∧ card.serial ≤ 99999 := by
    simp [CardNo.valid, and_assoc]
  constructor
  · intro h
    have hlen := length_of_cardFromTill h
    obtain ⟨hh, hs, hc, hv⟩ := cardFromTill_eq_some.mp h
    match bytes, hlen with
    | b1 :: b2 :: b3 :: b4 :: b5 :: b6 :: b7 :: b8 :: b9 :: b10 :: tail, _ =>
      simp only [List.take_succ_cons, List.take_zero, List.drop_succ_cons, List.drop_zero, digitsOf_cons_eq_some,
        digitOf_eq_some, digitsOf_nil, Option.some.injEq] at hh hs hc
      obtain ⟨d1, ⟨hd1, rfl⟩, d2, ⟨hd2, rfl⟩, d3, ⟨hd3, rfl⟩, hh⟩ := hh
      obtain ⟨d4, ⟨hd4, rfl⟩, d5, ⟨hd5, rfl⟩, d6, ⟨hd6, rfl⟩, d7, ⟨hd7, rfl⟩, d8, ⟨hd8, rfl⟩, hs⟩ := hs
      obtain ⟨d9, ⟨hd9, rfl⟩, d10, ⟨hd10, rfl⟩, hc⟩ := hc
      have hdigits : ∀ i, 1 ≤ i → i ≤ 10 → [d1, d2, d3, d4, d5, d6, d7, d8, d9, d10].getD (i - 1) 0 ≤ 9 := by
        intro i hlow hhigh
        interval_cases i <;> simpa
      have hcheck := checkValue_of_digits hdigits
      simp only [Nat.reduceSub, List.getD_cons_zero, List.getD_cons_succ] at hcheck
      have hhome : card.home = d1 * 100 + d2 * 10 + d3 := by omega
      have hserial : card.serial = d4 * 10000 + d5 * 1000 + d6 * 100 + d7 * 10 + d8 := by omega
      refine ⟨fun i => [d1, d2, d3, d4, d5, d6, d7, d8, d9, d10].getD (i - 1) 0, fun i hlow hhigh => ⟨hdigits i hlow hhigh, ?_⟩,
        hhome, hserial, ?_, ?_, (hvalid.mp hv).2⟩
      · interval_cases i <;> rfl
      · change card.check = d9 * 10 + d10; omega
      · rw [(hvalid.mp hv).1, hhome, hserial]; exact hcheck
  · rintro ⟨d, hd, hh, hs, hc, hcheck, hrange⟩
    have hle := fun i hlow hhigh => (hd i hlow hhigh).1
    have hbyte := fun i hlow hhigh => (hd i hlow hhigh).2
    have hlen : 10 ≤ bytes.length := by
      have := hbyte 10 (by simp) (by simp)
      by_contra hn
      rw [List.getElem?_eq_none (by omega)] at this
      cases this
    match bytes, hlen with
    | b1 :: b2 :: b3 :: b4 :: b5 :: b6 :: b7 :: b8 :: b9 :: b10 :: tail, _ =>
      have hdigit : ∀ i, (hlow : 1 ≤ i) → (hhigh : i ≤ 10) → ∀ b,
          (b1 :: b2 :: b3 :: b4 :: b5 :: b6 :: b7 :: b8 :: b9 :: b10 :: tail)[i - 1]? = some b → digitOf b = some (d i) := by
        intro i hlow hhigh b hb
        rw [hbyte i hlow hhigh] at hb
        exact digitOf_eq_some.mpr ⟨hle i hlow hhigh, (Option.some.inj hb).symm⟩
      refine cardFromTill_eq_some.mpr ⟨?_, ?_, ?_, hvalid.mpr ⟨?_, hrange⟩⟩
      · simp only [List.take_succ_cons, List.take_zero, digitsOf, hdigit 1 (by simp) (by simp) b1 rfl,
          hdigit 2 (by simp) (by simp) b2 rfl, hdigit 3 (by simp) (by simp) b3 rfl, hh]
        congr 1; omega
      · simp only [List.take_succ_cons, List.take_zero, List.drop_succ_cons, List.drop_zero, digitsOf,
          hdigit 4 (by simp) (by simp) b4 rfl, hdigit 5 (by simp) (by simp) b5 rfl, hdigit 6 (by simp) (by simp) b6 rfl,
          hdigit 7 (by simp) (by simp) b7 rfl, hdigit 8 (by simp) (by simp) b8 rfl, hs]
        congr 1; omega
      · simp only [List.take_succ_cons, List.take_zero, List.drop_succ_cons, List.drop_zero, digitsOf,
          hdigit 9 (by simp) (by simp) b9 rfl, hdigit 10 (by simp) (by simp) b10 rfl, hc]
        congr 1; omega
      · rw [hcheck, hh, hs, checkValue_of_digits hle]

end Sys2Proof.Machine
end

