-- ==== Sys2Proof/Proofs/IssueRequest.lean ====
section
/-! PROOFS. ISSUE, and the record that is reclaimed for it. -/
namespace Sys2Proof.Machine

/-! ### The record reclaimed (R7) -/

theorem State.reclaimable_iff (s : State) (r : Card) : s.reclaimable r = true ↔ r.state = .closed
    ∨ r.state = .active ∧ r.balance = 0 ∧ r.lastActivity + s.sc.config.dormancy ≤ s.su.openPeriod := by
  simp [State.reclaimable, and_assoc]

/-- The order of preference is that of group, last activity period, serial and home. -/
theorem reclaimBefore_iff (a b : Card) : reclaimBefore a b = true ↔
    let g (c : Card) := if c.state = .closed then 0 else 1
    g a < g b ∨ g a = g b ∧ (a.lastActivity < b.lastActivity ∨ a.lastActivity = b.lastActivity
      ∧ (a.key.serial < b.key.serial ∨ a.key.serial = b.key.serial ∧ a.key.home < b.key.home)) := by
  simp [reclaimBefore]

/-- What is not before `b` is not before anything that `b` is not before. -/
theorem reclaimBefore_trans {a b c : Card} (hab : reclaimBefore a b = false) (hbc : reclaimBefore b c = false) :
    reclaimBefore a c = false := by
  rw [← Bool.not_eq_true, reclaimBefore_iff] at hab hbc ⊢
  dsimp only at hab hbc ⊢
  generalize (if a.state = CardState.closed then 0 else 1) = ga at *
  generalize (if b.state = CardState.closed then 0 else 1) = gb at *
  generalize (if c.state = CardState.closed then 0 else 1) = gc at *
  omega

theorem reclaimBefore_asymm {a b : Card} (h : reclaimBefore a b = true) : reclaimBefore b a = false := by
  rw [reclaimBefore_iff] at h
  rw [← Bool.not_eq_true, reclaimBefore_iff]
  dsimp only at h ⊢
  omega

theorem bestOf_eq_none {l : List Card} : bestOf l = none ↔ l = [] := by
  cases l with
  | nil => simp [bestOf]
  | cons r l =>
    simp only [bestOf, reduceCtorEq, iff_false]
    split
    · simp
    · split <;> simp

/-- No member of a list is before the best of it. -/
theorem bestOf_first {l : List Card} {b : Card} (h : bestOf l = some b) : ∀ r ∈ l, reclaimBefore r b = false := by
  have hirrefl : ∀ r, reclaimBefore r r = false := fun r =>
    Bool.eq_false_iff.mpr fun hr => by simp [reclaimBefore_asymm hr] at hr
  induction l generalizing b with
  | nil => simp [bestOf] at h
  | cons x l ih =>
    unfold bestOf at h
    split at h
    · rename_i hnone
      cases h
      simp [bestOf_eq_none.mp hnone, hirrefl]
    · rename_i c hc
      split at h <;> cases h <;> simp only [List.mem_cons, forall_eq_or_imp]
      · rename_i hbefore
        exact ⟨reclaimBefore_asymm hbefore, ih hc⟩
      · rename_i hnot
        refine ⟨hirrefl _, fun r hr => reclaimBefore_trans (ih hc r hr) (by simpa using hnot)⟩

/-! ### The request (R9) -/

/-- A slot, and what is left of the register beside it. -/
theorem State.makeRoom_eq {s : State} {kept : List Card}
    (h : s.cu.cards.length < 6144 ∧ kept = s.cu.cards
      ∨ 6144 ≤ s.cu.cards.length ∧ ∃ old, s.reclaimChoice = some old ∧ kept = s.cu.cards.filter fun x => x.key ≠ old.key) :
    s.makeRoom = some (s.setCu { s.cu with cards := kept }) := by
  unfold State.makeRoom
  rcases h with ⟨hl, rfl⟩ | ⟨hl, old, hc, rfl⟩
  · rw [if_pos hl]; rfl
  · rw [if_neg (Nat.not_lt.mpr hl), hc]

/-- The tests of an ISSUE's amount (R9). -/
def State.issueBad (s : State) (amount : Nat) : Prop :=
  amount = 0 ∨ s.sc.config.cardCap < amount ∨ s.cu.ledger.headroom < amount

theorem State.serveIssue_badValue {s : State} {r : Request} (h : s.issueBad (fieldAt r.fields 0 4)) :
    s.serveIssue r = s.decline .issue r .badValue := by
  unfold State.serveIssue
  dsimp only
  rw [if_pos (by simpa [State.issueBad, or_assoc] using h)]

theorem State.serveIssue_registerFull {s : State} {r : Request} (h : ¬ s.issueBad (fieldAt r.fields 0 4))
    (hfull : s.slotsPromised = true ∨ s.makeRoom = none) : s.serveIssue r = s.decline .issue r .registerFull := by
  unfold State.serveIssue
  dsimp only
  rw [if_neg (by simpa [State.issueBad, or_assoc] using h)]
  split
  · rfl
  · rw [hfull.resolve_left ‹_›]

theorem State.serveIssue_issued {s t : State} {r : Request} (h : ¬ s.issueBad (fieldAt r.fields 0 4))
    (hslots : s.slotsPromised = false) (hroom : s.makeRoom = some t) :
    s.serveIssue r = (t.issueCard (fieldAt r.fields 0 4)).answer (successRecord .issue r.tag
      (cardToTill (CardNo.make s.own t.freeSerial) ++ toBytes 4 (fieldAt r.fields 0 4))) := by
  unfold State.serveIssue
  dsimp only
  rw [if_neg (by simpa [State.issueBad, or_assoc] using h), if_neg (by simp [hslots]), hroom]

theorem State.makeRoom_none {s : State} (h : 6144 ≤ s.cu.cards.length ∧ s.reclaimChoice = none) : s.makeRoom = none := by
  unfold State.makeRoom
  rw [if_neg (Nat.not_lt.mpr h.1), h.2]

/-- Settles O6: the branches of the request, and the best of the reclaimable records. -/
theorem issueCompletes : Obligations.IssueCompletes := by
  refine ⟨?issued, ?refused, ?reclaimed⟩
  case issued =>
    intro s r rest kept h hpos hcap hroom hslots hkept
    have hgood : ¬ (s.popRequest rest).issueBad (fieldAt r.fields 0 4) := by
      rintro (hz | hc | hh)
      · omega
      · exact absurd hcap (Nat.not_le.mpr hc)
      · exact absurd hroom (Nat.not_le.mpr hh)
    rw [exec_issue h, State.serveIssue_issued (s := s.popRequest rest) hgood hslots (State.makeRoom_eq hkept)]
    rfl
  case refused =>
    intro s r rest h
    rw [exec_issue h]
    refine ⟨fun hbad => ?_, fun hgood hfull => ?_⟩
    · rw [State.serveIssue_badValue (s := s.popRequest rest) hbad]
      rfl
    · rw [State.serveIssue_registerFull (s := s.popRequest rest) hgood (hfull.imp id State.makeRoom_none)]
      rfl
  case reclaimed =>
    intro s
    refine ⟨?_, fun old hold => ⟨?_, ?_, fun r hr hcand => ?_⟩⟩
    · simp [State.reclaimChoice, bestOf_eq_none, State.reclaimable_iff]
    · exact (List.mem_filter.mp (bestOf_mem hold)).1
    · exact (s.reclaimable_iff old).mp (List.mem_filter.mp (bestOf_mem hold)).2
    · have hfirst := bestOf_first hold r (List.mem_filter.mpr ⟨hr, (s.reclaimable_iff r).mpr hcand⟩)
      rw [← Bool.not_eq_true, reclaimBefore_iff] at hfirst
      dsimp only at hfirst
      by_cases ho : old.state = .closed <;> by_cases hc : r.state = .closed <;> simp [ho, hc] at hfirst ⊢ <;> omega

end Sys2Proof.Machine
end

