-- ==== Sys2Proof/Proofs/CardsHere.lean ====
section
/-! PROOFS. BALANCE, CREDIT and CASHOUT of a card held here. -/
namespace Sys2Proof.Machine

section
variable {s : State} {r : Request} {card : CardNo}

/-! ### BALANCE (R10) -/

theorem State.serveBalance_here (hcard : cardFromTill r.fields = some card) (hhere : s.isHere card.home = true) :
    s.serveBalance r = s.localBalance r card.key := by
  unfold State.serveBalance
  rw [hcard]
  exact if_pos hhere

theorem State.localBalance_served {k : Key} {c : Card} (hc : s.cu.served k = some c) : s.localBalance r k =
    if c.state = .closed then s.decline .balance r .cardClosed
    else s.answer (successRecord .balance r.tag (toBytes 4 c.balance ++ toBytes 4 (s.cu.available k)
      ++ toBytes 4 c.issuePeriod ++ toBytes 4 c.lastActivity ++ toBytes 2 c.activity)) := by
  unfold State.localBalance; rw [hc]

theorem State.localBalance_unknown {k : Key} (hc : s.cu.served k = none) :
    s.localBalance r k = s.decline .balance r .unknownCard := by
  unfold State.localBalance; rw [hc]

/-- What is available on an ACTIVE card (R4). -/
theorem Custody.available_active {c : Custody} {k : Key} {x : Card} (hx : c.served k = some x) (ha : x.state = .active) :
    c.available k = x.balance - heldOn c.holds k := by
  simp [Custody.available, hx, ha]

/-! ### CREDIT (R11) -/

/-- A CREDIT request behind its card number, with an amount out of range. -/
theorem State.serveCreditRequest_badValue (hcard : cardFromTill (r.fields.take 10) = some card)
    (hhere : s.isHere card.home = true) (h : fieldAt r.fields 10 4 = 0 ∨ s.sc.config.cardCap < fieldAt r.fields 10 4) :
    s.serveCreditRequest r = s.decline .credit r .badValue := by
  unfold State.serveCreditRequest
  rw [hcard]
  simp [hhere, h]

/-- A CREDIT request behind its card number and its amount. -/
theorem State.serveCreditRequest_local (hcard : cardFromTill (r.fields.take 10) = some card)
    (hhere : s.isHere card.home = true)
    (h : ¬ (fieldAt r.fields 10 4 = 0 ∨ s.sc.config.cardCap < fieldAt r.fields 10 4)) :
    s.serveCreditRequest r = s.localCredit r card.key (fieldAt r.fields 10 4) := by
  unfold State.serveCreditRequest
  rw [hcard]
  simp only [hhere, Bool.not_true, Bool.false_and, Bool.false_eq_true, ↓reduceIte]
  exact if_neg (by simpa using h)

/-- The refusals of a credit on the record served, in their order (R11). -/
theorem State.creditRefusal_served {k : Key} {c : Card} (hc : s.cu.served k = some c) (amount : Nat) :
    s.creditRefusal k amount = if c.state = .closed then some (.cardClosed, 0)
      else if s.handing then some (.homeBusy, 0)
      else if s.creditRoom c < amount then some (.overCap, s.creditRoom c) else none := by
  unfold State.creditRefusal; rw [hc]

theorem State.creditRefusal_unknown {k : Key} (hc : s.cu.served k = none) (amount : Nat) :
    s.creditRefusal k amount = some (.unknownCard, 0) := by
  unfold State.creditRefusal; rw [hc]

theorem State.localCredit_refused {k : Key} {amount room : Nat} {st : XStatus}
    (h : s.creditRefusal k amount = some (st, room)) : s.localCredit r k amount = s.decline .credit r st.reason room := by
  unfold State.localCredit; rw [h]

/-- The record under a key after a change of it. -/
theorem served_updateWhere {l : List Card} {k : Key} {c : Card} {f : Card → Card}
    (hf : ∀ x, (f x).key = x.key ∧ (f x).state = x.state)
    (hc : l.find? (fun x => x.key = k && x.state ≠ .pendingAdopt) = some c) :
    (updateWhere (fun x => x.key = k) f l).find? (fun x => x.key = k && x.state ≠ .pendingAdopt) = some (f c) := by
  have hk : c.key = k := by
    have := List.find?_some hc
    simp only [Bool.and_eq_true, decide_eq_true_eq] at this
    exact this.1
  have hsame : ((fun x : Card => decide (x.key = k) && decide (x.state ≠ .pendingAdopt)) ∘ fun x =>
      if decide (x.key = k) = true then f x else x) = fun x => decide (x.key = k) && decide (x.state ≠ .pendingAdopt) := by
    funext x
    by_cases hx : x.key = k <;> simp [hx, hf]
  rw [updateWhere, List.find?_map, hsame, hc]
  simp [hk]

/-- A credit that is not refused, with the balance after it (R11). -/
theorem State.localCredit_credited {k : Key} {amount : Nat} {c : Card} (hc : s.cu.served k = some c)
    (h : s.creditRefusal k amount = none) : s.localCredit r k amount =
      (s.creditCard k amount).answer (successRecord .credit r.tag
        (toBytes 4 amount ++ toBytes 4 (c.balance + amount) ++ toBytes 4 0)) := by
  have hafter : (s.creditCard k amount).cu.served k = some (c.act (c.balance + amount) s.su.openPeriod) :=
    served_updateWhere (f := fun x => x.act (x.balance + amount) s.su.openPeriod) (fun _ => ⟨rfl, rfl⟩) hc
  unfold State.localCredit
  rw [h]
  simp only [hafter, Card.act]

/-! ### CASHOUT (R12) -/

theorem State.serveCashout_closed {c : Card} (hcard : cardFromTill r.fields = some card)
    (hhere : s.isHere card.home = true) (hc : s.cu.served card.key = some c) (hclosed : c.state = .closed) :
    s.serveCashout r = s.decline .cashout r .cardClosed := by
  unfold State.serveCashout
  rw [hcard]
  simp [hhere, hc, hclosed]

theorem State.serveCashout_busy {c : Card} (hcard : cardFromTill r.fields = some card)
    (hhere : s.isHere card.home = true) (hc : s.cu.served card.key = some c) (ha : c.state = .active)
    (hbusy : s.cu.hasHeld card.key = true ∨ s.handing = true) : s.serveCashout r = s.decline .cashout r .homeBusy := by
  unfold State.serveCashout
  rw [hcard]
  simp [hhere, hc, ha, hbusy]

theorem State.serveCashout_paid {c : Card} (hcard : cardFromTill r.fields = some card)
    (hhere : s.isHere card.home = true) (hc : s.cu.served card.key = some c) (ha : c.state = .active)
    (hheld : s.cu.hasHeld card.key = false) (hhanding : s.handing = false) :
    s.serveCashout r = (s.cashOut c).answer (successRecord .cashout r.tag (toBytes 4 c.balance)) := by
  unfold State.serveCashout
  rw [hcard]
  simp [hhere, hc, ha, hheld, hhanding]

theorem State.serveCashout_notHome (hcard : cardFromTill r.fields = some card)
    (hhere : s.isHere card.home = false) : s.serveCashout r = s.decline .cashout r .notHome := by
  unfold State.serveCashout
  rw [hcard]
  simp [hhere]

theorem State.serveCashout_unknown (hcard : cardFromTill r.fields = some card)
    (hhere : s.isHere card.home = true) (hc : s.cu.served card.key = none) :
    s.serveCashout r = s.decline .cashout r .unknownCard := by
  unfold State.serveCashout
  rw [hcard]
  simp [hhere, hc]

theorem Custody.hasHeld_iff (c : Custody) (k : Key) :
    c.hasHeld k = true ↔ ∃ h ∈ c.holds, h.key = k ∧ h.state = .held ∧ h.kind = .redemption := by
  simp [Custody.hasHeld, and_assoc]

end

theorem State.handing_iff (s : State) : s.handing = true ↔ s.sc.station = .handingOver := by simp [State.handing]

theorem State.handing_eq_false {s : State} (h : s.sc.station ≠ .handingOver) : s.handing = false := by
  simp [State.handing, h]

/-- Settles O7: each branch of the three requests, and the digits of R1. -/
theorem balanceCreditAndCashoutHereComplete : Obligations.BalanceCreditAndCashoutHereComplete := by
  refine ⟨?balance, ?credit, ?cashout, ?badNumber, cardFromTill_iff_digits, CardNo.valid_iff, ?creditRefused,
    ?cashoutRefused⟩
  case balance =>
    intro s r rest card h hcard hhere
    rw [exec_balance h, State.serveBalance_here (s := s.popRequest rest) hcard hhere]
    refine ⟨fun c hc ha => ?_, fun c hc hclosed => ?_, fun hnone => ?_⟩
    · rw [State.localBalance_served (s := s.popRequest rest) hc, if_neg (by simp [ha]),
        Custody.available_active (c := (s.popRequest rest).cu) hc ha]
      rfl
    · rw [State.localBalance_served (s := s.popRequest rest) hc, if_pos hclosed]
      rfl
    · rw [State.localBalance_unknown (s := s.popRequest rest) hnone]
      rfl
  case credit =>
    intro s r rest card c h hcard hhere hstation hc ha hpos hcap hroom hlimit
    have hno : (s.popRequest rest).creditRefusal card.key (fieldAt r.fields 10 4) = none := by
      rw [State.creditRefusal_served (s := s.popRequest rest) hc, if_neg (by simp [ha]),
        if_neg (by simp [State.handing_eq_false (s := s.popRequest rest) hstation])]
      exact if_neg (Nat.not_lt.mpr (Nat.le_min.mpr ⟨hroom, hlimit⟩))
    rw [exec_creditRequest h, State.serveCreditRequest_local (s := s.popRequest rest) hcard hhere
      (not_or.mpr ⟨hpos.ne', Nat.not_lt.mpr hcap⟩), State.localCredit_credited (s := s.popRequest rest) hc hno]
    rfl
  case cashout =>
    intro s r rest card c h hcard hhere hstation hc ha hheld
    have hk : c.key = card.key := (Custody.served_some hc).2.1
    have hfree : s.cu.hasHeld card.key = false := by
      rw [Bool.eq_false_iff, ne_eq, Custody.hasHeld_iff]
      rintro ⟨x, hx, hxk, hxs, hxr⟩
      exact hheld x hx hxk hxs hxr
    rw [exec_cashout h, State.serveCashout_paid (s := s.popRequest rest) hcard hhere hc ha hfree
      (State.handing_eq_false (s := s.popRequest rest) hstation), ← hk]
    rfl
  case badNumber =>
    intro s k r rest p h hk hbad
    rcases hk with rfl | rfl | rfl | rfl
    · have hlen : r.fields.take 10 = r.fields := List.take_of_length_le (by rw [h.1.2.2.2.2.2]; decide)
      rw [hlen] at hbad
      change exec .balance s = _
      rw [exec_balance h, State.serveBalance, hbad]
      rfl
    · change exec .redeem s = _
      rw [exec_redeem h, State.serveRedeem, hbad]
      rfl
    · change exec .creditRequest s = _
      rw [exec_creditRequest h, State.serveCreditRequest, hbad]
      rfl
    · have hlen : r.fields.take 10 = r.fields := List.take_of_length_le (by rw [h.1.2.2.2.2.2]; decide)
      rw [hlen] at hbad
      change exec .cashout s = _
      rw [exec_cashout h, State.serveCashout, hbad]
      rfl
  case creditRefused =>
    intro s r rest card h hcard hhere
    rw [exec_creditRequest h]
    refine ⟨fun hbad => ?_, fun hpos hcap => ?_⟩
    · rw [State.serveCreditRequest_badValue (s := s.popRequest rest) hcard hhere hbad]
      rfl
    rw [State.serveCreditRequest_local (s := s.popRequest rest) hcard hhere
      (not_or.mpr ⟨Nat.pos_iff_ne_zero.mp hpos, Nat.not_lt.mpr hcap⟩)]
    have refused : ∀ {st room}, (s.popRequest rest).creditRefusal card.key (fieldAt r.fields 10 4) = some (st, room) →
        ((s.popRequest rest).localCredit r card.key (fieldAt r.fields 10 4))
          = s.answered rest (declinedRecord .credit r.tag st.reason room) := fun hno => by
      rw [State.localCredit_refused hno]; rfl
    refine ⟨fun hnone => ?_, fun c hc => ⟨fun hclosed => ?_, fun ha hstation => ?_, fun ha hstation hover => ?_⟩⟩
    · rw [refused (State.creditRefusal_unknown (s := s.popRequest rest) hnone _)]
      rfl
    all_goals have hserved := State.creditRefusal_served (s := s.popRequest rest) hc (fieldAt r.fields 10 4)
    · rw [if_pos hclosed] at hserved
      rw [refused hserved]
      rfl
    · rw [if_neg (by simp [ha]), if_pos (by simp [State.handing, hstation])] at hserved
      rw [refused hserved]
      rfl
    · rw [if_neg (by simp [ha]), if_neg (by simp [State.handing, hstation])] at hserved
      rw [refused (hserved.trans (if_pos hover))]
      rfl
  case cashoutRefused =>
    intro s r rest card h hcard
    rw [exec_cashout h]
    refine ⟨fun hnot => ?_, fun hhere => ⟨fun hnone => ?_, fun c hc => ⟨fun hclosed => ?_, fun ha hbusy => ?_⟩⟩⟩
    · rw [State.serveCashout_notHome (s := s.popRequest rest) hcard hnot]
      rfl
    · rw [State.serveCashout_unknown (s := s.popRequest rest) hcard hhere hnone]
      rfl
    · rw [State.serveCashout_closed (s := s.popRequest rest) hcard hhere hc hclosed]
      rfl
    · rw [State.serveCashout_busy (s := s.popRequest rest) hcard hhere hc ha
        (hbusy.imp (Custody.hasHeld_iff _ _).mpr (State.handing_iff _).mpr)]
      rfl

end Sys2Proof.Machine
end

