-- ==== Sys2Proof/Proofs/RemoteExchanges.lean ====
section
/-! PROOFS. A transaction that is opened for another station's card, and the BALANCE and the CREDIT that open one. -/
namespace Sys2Proof.Machine

/-! ### Handing a frame beside a change of another block -/

section
variable (s : State) (d : Nat) (m : Msg)

/-- A frame that finds room takes its place (R149). -/
theorem State.hand_placed (h : s.lc.hasRoom m.cls = true) :
    s.hand d m = (s.setLc { s.lc with nextTicket := s.lc.nextTicket + 1 }).placeFrame { ticket := s.ticket, dest := d, msg := m } :=
  if_pos h

/-- A frame that finds none joins the wait list (R149). -/
theorem State.hand_waits (h : s.lc.hasRoom m.cls = false) : s.hand d m = s.setLc { s.lc with
    nextTicket := s.lc.nextTicket + 1, waitList := s.lc.waitList ++ [{ ticket := s.ticket, dest := d, msg := m }] } :=
  if_neg (Bool.eq_false_iff.mp h)

theorem State.setBr_hand (x : Broker) : (s.setBr x).hand d m = (s.hand d m).setBr x := by
  cases h : s.lc.hasRoom m.cls
  · rw [s.hand_waits d m h, (s.setBr x).hand_waits d m h]; rfl
  · rw [s.hand_placed d m h, (s.setBr x).hand_placed d m h]; rfl

theorem State.setAu_hand (x : AdviceUnit) : (s.setAu x).hand d m = (s.hand d m).setAu x := by
  cases h : s.lc.hasRoom m.cls
  · rw [s.hand_waits d m h, (s.setAu x).hand_waits d m h]; rfl
  · rw [s.hand_placed d m h, (s.setAu x).hand_placed d m h]; rfl

theorem State.setTill_hand (x : TillPort) : (s.setTill x).hand d m = (s.hand d m).setTill x := by
  cases h : s.lc.hasRoom m.cls
  · rw [s.hand_waits d m h, (s.setTill x).hand_waits d m h]; rfl
  · rw [s.hand_placed d m h, (s.setTill x).hand_placed d m h]; rfl

end

/-! ### The transaction table (R53, R54) -/

section
variable {s : State} {n : Nat}

/-- No transaction has the reference. -/
theorem State.txnFor_eq_none : s.txnFor n = none ↔ ∀ t ∈ s.br.txns, t.reference ≠ n := by
  simp [State.txnFor, List.find?_eq_none]

/-- A change of the transaction that was added last. -/
theorem updateWhere_added (h : s.txnFor n = none) {t : Txn} (ht : t.reference = n) (f : Txn → Txn) :
    updateWhere (fun x => x.reference = n) f (s.br.txns ++ [t]) = s.br.txns ++ [f t] := by
  have hold : updateWhere (fun x : Txn => decide (x.reference = n)) f s.br.txns = s.br.txns :=
    updateWhere_none (fun x hx => by simpa using State.txnFor_eq_none.mp h x hx) f
  unfold updateWhere at hold ⊢
  rw [List.map_append, hold]
  simp [ht]

/-- A transaction that was added last leaves again. -/
theorem filter_added (h : s.txnFor n = none) {t : Txn} (ht : t.reference = n) :
    (s.br.txns ++ [t]).filter (fun x => x.reference ≠ n) = s.br.txns := by
  rw [List.filter_append, List.filter_eq_self.mpr (by simpa using State.txnFor_eq_none.mp h)]
  simp [ht]

/-- A slot is taken under the next free reference (R54). -/
theorem State.openTxn_eq_withTxn (s : State) {t : Txn} (h : t.reference = s.freshReference) : s.openTxn t = s.withTxn t := by
  unfold State.withTxn
  rw [h]
  rfl

theorem State.withTxn_hand (s : State) (t : Txn) (d : Nat) (m : Msg) : (s.withTxn t).hand d m = (s.hand d m).withTxn t := by
  unfold State.withTxn
  rw [State.setBr_hand, State.hand_br]

theorem State.modifyTxn_withTxn {t : Txn} {f : Txn → Txn} (h : s.txnFor t.reference = none)
    (hf : (f t).reference = t.reference) : (s.withTxn t).modifyTxn t.reference f = s.withTxn (f t) := by
  have hadded := updateWhere_added h rfl f
  unfold State.withTxn
  rw [hf, ← hadded]
  rfl

theorem State.slotForTxn_of_lt (h : s.br.txns.length < 16) : s.slotForTxn = true := decide_eq_true h

theorem State.slotForTxn_of_le (h : 16 ≤ s.br.txns.length) : s.slotForTxn = false :=
  decide_eq_false (Nat.not_lt.mpr h)

end

/-! ### The first attempt (R59, R60) -/

section
variable {s : State} {r : Request} {kind : TxnKind} {card : CardNo} {amount : Nat} {state : TxnState}

/-- The custodian by the home map, or else the home itself (R56). -/
theorem State.custodianOf_eq (s : State) (home : Nat) :
    s.custodianOf home = ((s.pm.homeMap.find? fun e => e.home = home).map (·.custodian)).getD home := by
  unfold State.custodianOf
  cases s.pm.homeMap.find? fun e => decide (e.home = home) <;> rfl

/-- The parameter set in force is that of the mode (R55). -/
theorem State.replyTimeout_eq (s : State) :
    s.replyTimeout = if s.pm.mode = .normal then s.sc.config.normalReply else s.sc.config.busyReply := by
  unfold State.replyTimeout
  cases s.pm.mode <;> rfl

theorem State.attempts_eq (s : State) :
    s.attempts = if s.pm.mode = .normal then s.sc.config.normalAttempts else s.sc.config.busyAttempts := by
  unfold State.attempts
  cases s.pm.mode <;> rfl

/-- An exchange opened: the transaction with its first attempt spent, and its frame handed. -/
theorem State.openExchange_newTxn {m : Msg} (hfree : s.txnFor s.freshReference = none)
    (hm : (s.newTxn r.tag kind card amount (some (s.custodianOf card.home)) state).msg = some m) :
    s.openExchange (s.newTxn r.tag kind card amount (some (s.custodianOf card.home)) state) =
      (s.withTxn (s.exchangeTxn r kind card amount state)).hand (s.custodianOf card.home) m := by
  generalize ht : s.newTxn r.tag kind card amount (some (s.custodianOf card.home)) state = t at hm ⊢
  have hr : t.reference = s.freshReference := by rw [← ht]; rfl
  have hgone : (s.hand (s.custodianOf card.home) m).txnFor t.reference = none := by
    rw [hr]; simpa [State.txnFor] using hfree
  unfold State.openExchange State.sendAttempt
  rw [hm]
  dsimp only
  rw [s.openTxn_eq_withTxn (t := { t with attemptsLeft := s.startAttempts t }) hr, State.withTxn_hand, State.withTxn_hand]
  subst ht
  exact State.modifyTxn_withTxn (t := { s.newTxn r.tag kind card amount (some (s.custodianOf card.home)) state with
    attemptsLeft := s.startAttempts (s.newTxn r.tag kind card amount (some (s.custodianOf card.home)) state) }) hgone rfl

variable {k : ReqKind}

theorem State.serveRemote_full (h : 16 ≤ s.br.txns.length) :
    s.serveRemote k r kind card amount state = s.decline k r .noSlot := by
  simp [State.serveRemote, State.slotForTxn_of_le h]

theorem State.serveRemote_unreachable (h : s.br.txns.length < 16)
    (hp : (s.peerAt (s.custodianOf card.home)).presence.reachable = false) :
    s.serveRemote k r kind card amount state = s.takeReference.decline k r .homeUnreachable := by
  simp [State.serveRemote, State.slotForTxn_of_lt h, State.newTxn, Txn.station, hp]

theorem State.serveRemote_opens {m : Msg} (h : s.br.txns.length < 16) (hfree : s.txnFor s.freshReference = none)
    (hp : (s.peerAt (s.custodianOf card.home)).presence.reachable = true)
    (hm : (s.newTxn r.tag kind card amount (some (s.custodianOf card.home)) state).msg = some m) :
    s.serveRemote k r kind card amount state =
      (s.withTxn (s.exchangeTxn r kind card amount state)).hand (s.custodianOf card.home) m := by
  rw [← State.openExchange_newTxn hfree hm]
  unfold State.serveRemote
  rw [State.slotForTxn_of_lt h]
  exact if_pos hp

/-! ### The two requests (R73, R74) -/

theorem State.serveBalance_remote (hcard : cardFromTill r.fields = some card) (hfar : s.isHere card.home = false)
    (hj : s.sc.station = .joined) : s.serveBalance r = s.serveRemote .balance r .enquire card 0 .enquireWait := by
  unfold State.serveBalance
  rw [hcard]
  simp [hfar, hj]

theorem State.serveBalance_wrongState (hcard : cardFromTill r.fields = some card) (hfar : s.isHere card.home = false)
    (hj : s.sc.station ≠ .joined) : s.serveBalance r = s.decline .balance r .wrongState := by
  unfold State.serveBalance
  rw [hcard]
  simp [hfar, hj]

theorem State.serveCreditRequest_remote (hcard : cardFromTill (r.fields.take 10) = some card)
    (hfar : s.isHere card.home = false) (hj : s.sc.station = .joined) (hpos : 0 < fieldAt r.fields 10 4)
    (hcap : fieldAt r.fields 10 4 ≤ s.sc.config.cardCap) :
    s.serveCreditRequest r = s.serveRemote .credit r .credit card (fieldAt r.fields 10 4) .creditWait := by
  unfold State.serveCreditRequest
  rw [hcard]
  simp [hfar, hj, hpos.ne', Nat.not_lt.mpr hcap]

theorem State.serveCreditRequest_wrongState (hcard : cardFromTill (r.fields.take 10) = some card)
    (hfar : s.isHere card.home = false) (hj : s.sc.station ≠ .joined) :
    s.serveCreditRequest r = s.decline .credit r .wrongState := by
  unfold State.serveCreditRequest
  rw [hcard]
  simp [hfar, hj]

theorem State.serveCreditRequest_remoteBadValue (hcard : cardFromTill (r.fields.take 10) = some card)
    (hfar : s.isHere card.home = false) (hj : s.sc.station = .joined)
    (h : fieldAt r.fields 10 4 = 0 ∨ s.sc.config.cardCap < fieldAt r.fields 10 4) :
    s.serveCreditRequest r = s.decline .credit r .badValue := by
  unfold State.serveCreditRequest
  rw [hcard]
  simp [hfar, hj, h]

end

/-- Settles O8: the branches of the two requests, and the transaction that `openExchange` leaves. -/
theorem remoteBalanceAndCreditComplete : Obligations.RemoteBalanceAndCreditComplete := by
  refine ⟨?balance, ?credit, ?refused, ?beforeTheTable, ?exchange⟩
  case balance =>
    intro s r rest card h hcard hfar hj hslot hfree hp
    rw [exec_balance h, State.serveBalance_remote (s := s.popRequest rest) hcard hfar hj,
      State.serveRemote_opens (s := s.popRequest rest) hslot hfree hp rfl]
    rfl
  case credit =>
    intro s r rest card h hcard hfar hj hpos hcap hslot hfree hp
    rw [exec_creditRequest h, State.serveCreditRequest_remote (s := s.popRequest rest) hcard hfar hj hpos hcap,
      State.serveRemote_opens (s := s.popRequest rest) hslot hfree hp rfl]
    rfl
  case refused =>
    intro s r rest card hfar hj
    refine ⟨fun h hcard hslot => ?_, fun h hcard hslot hp => ?_, fun h hcard hpos hcap hslot hp => ?_⟩
    · rw [exec_balance h, State.serveBalance_remote (s := s.popRequest rest) hcard hfar hj,
        State.serveRemote_full (s := s.popRequest rest) hslot]
      rfl
    · rw [exec_balance h, State.serveBalance_remote (s := s.popRequest rest) hcard hfar hj,
        State.serveRemote_unreachable (s := s.popRequest rest) hslot hp]
      rfl
    · rw [exec_creditRequest h, State.serveCreditRequest_remote (s := s.popRequest rest) hcard hfar hj hpos hcap,
        State.serveRemote_unreachable (s := s.popRequest rest) hslot hp]
      rfl
  case beforeTheTable =>
    intro s r rest card hfar
    refine ⟨fun h hcard hj => ?_, fun h hcard => ⟨fun hj => ?_, fun hj => ⟨fun hbad => ?_, fun hpos hcap hslot => ?_⟩⟩⟩
    · rw [exec_balance h, State.serveBalance_wrongState (s := s.popRequest rest) hcard hfar hj]
      rfl
    · rw [exec_creditRequest h, State.serveCreditRequest_wrongState (s := s.popRequest rest) hcard hfar hj]
      rfl
    · rw [exec_creditRequest h, State.serveCreditRequest_remoteBadValue (s := s.popRequest rest) hcard hfar hj hbad]
      rfl
    · rw [exec_creditRequest h, State.serveCreditRequest_remote (s := s.popRequest rest) hcard hfar hj hpos hcap,
        State.serveRemote_full (s := s.popRequest rest) hslot]
      rfl
  case exchange =>
    intro s r kind card amount state
    rw [← State.custodianOf_eq, ← State.replyTimeout_eq, ← State.attempts_eq]
    rfl

end Sys2Proof.Machine
end

