-- ==== Sys2Proof/Proofs/RedeemRequest.lean ====
section
/-! PROOFS. REDEEM: the hold of a card held here, the exchange for another station's card, and the stand-in decision. -/
namespace Sys2Proof.Machine

section
variable {s : State} {p n : Nat} {k : Key} {amount : Nat} {c : Card}

/-! ### AUTH at the home (R36) -/

theorem State.holdsFull_iff : s.holdsFull = true ↔ 96 ≤ s.cu.holds.length := decide_eq_true_iff

theorem State.serveAuth_unknown (hnew : s.holdFor p n = none) (hc : s.cu.served k = none) :
    s.serveAuth p n k amount = (s, { status := .unknownCard }) := by
  simp [State.serveAuth, hnew, hc]

theorem State.serveAuth_closed (hnew : s.holdFor p n = none) (hc : s.cu.served k = some c) (hclosed : c.state = .closed) :
    s.serveAuth p n k amount = (s, { status := .cardClosed }) := by
  simp [State.serveAuth, hnew, hc, hclosed]

theorem State.serveAuth_busy (hnew : s.holdFor p n = none) (hc : s.cu.served k = some c) (ha : c.state = .active)
    (hbusy : s.holdsFull = true ∨ s.handing = true) : s.serveAuth p n k amount = (s, { status := .homeBusy }) := by
  simp [State.serveAuth, hnew, hc, ha, hbusy]

theorem State.serveAuth_insufficient (hnew : s.holdFor p n = none) (hc : s.cu.served k = some c) (ha : c.state = .active)
    (hfull : s.holdsFull = false) (hhand : s.handing = false) (hshort : s.cu.available k < amount) :
    s.serveAuth p n k amount = (s, { status := .insufficient, available := s.cu.available k }) := by
  simp [State.serveAuth, hnew, hc, ha, hfull, hhand, hshort]

/-- The hold that an approved AUTH places. -/
def State.authHold (s : State) (p n : Nat) (k : Key) (amount : Nat) : Hold :=
  { id := s.freshHoldId, kind := .redemption, key := k, amount, station := p, reference := n, state := .held,
    timer := s.holdExpiry }

/-- An approved AUTH: the new hold, and what is left beside it. -/
theorem State.serveAuth_approved (hnew : s.holdFor p n = none) (hc : s.cu.served k = some c) (ha : c.state = .active)
    (hfull : s.holdsFull = false) (hhand : s.handing = false) (henough : amount ≤ s.cu.available k) :
    s.serveAuth p n k amount = (s.addHold (s.authHold p n k amount),
      { status := .approved, hold := some s.freshHoldId, amount
        available := c.balance - (heldOn s.cu.holds k + amount) }) := by
  have hleft : (s.addHold (s.authHold p n k amount)).cu.available k = c.balance - (heldOn s.cu.holds k + amount) := by
    rw [Custody.available_active (c := (s.addHold (s.authHold p n k amount)).cu) hc ha]
    change c.balance - heldOn (s.cu.holds ++ [s.authHold p n k amount]) k = _
    have hheld : heldOn [s.authHold p n k amount] k = amount := heldOn_held (h := s.authHold p n k amount) rfl rfl
    rw [heldOn_append, hheld]
  simp only [State.serveAuth, hnew, hc, ha, reduceCtorEq, if_false, hfull, hhand, Bool.or_self, Bool.false_eq_true,
    Nat.not_lt.mpr henough]
  exact congrArg _ (congrArg _ hleft)

end

/-! ### Stand-in (R63, R81) -/

theorem State.standinGranted_iff (s : State) (card : CardNo) (amount : Nat) : s.standinGranted card amount = true ↔
    s.cardLimit ≠ 0 ∧ s.outstandingCard card.key + amount ≤ s.cardLimit
      ∧ s.outstandingHome card.home + amount ≤ s.budget := by
  simp [State.standinGranted, and_assoc]

/-- A transaction that is not a stand-in hold does not count in provisional outstanding (R79). -/
theorem State.outstandingWhere_withTxn (s : State) {t : Txn} (h : t.state ≠ .standinHeld) (p : CardNo → Bool) :
    (s.withTxn t).outstandingWhere p = s.outstandingWhere p := by
  have hadded : sumOf (fun t : Txn => if t.state = .standinHeld && p t.card then t.amount else 0) (s.br.txns ++ [t])
      = sumOf (fun t : Txn => if t.state = .standinHeld && p t.card then t.amount else 0) s.br.txns := by
    rw [sumOf_append]
    simp [sumOf, h]
  exact congrArg _ hadded

theorem State.standinGranted_withTxn (s : State) {t : Txn} (h : t.state ≠ .standinHeld) (card : CardNo) (amount : Nat) :
    (s.withTxn t).standinGranted card amount = s.standinGranted card amount := by
  rw [Bool.eq_iff_iff, State.standinGranted_iff, State.standinGranted_iff]
  unfold State.outstandingCard State.outstandingHome
  rw [State.outstandingWhere_withTxn s h, State.outstandingWhere_withTxn s h]
  rfl

/-- A transaction that has just been opened leaves again; the reference counter stays past its reference. -/
theorem State.freeTxn_withTxn {s : State} {t : Txn} (h : s.txnFor t.reference = none) (ht : t.ticket = none) :
    (s.withTxn t).freeTxn t = s.setBr { s.br with refCounter := nextIn 65535 t.reference } := by
  have hgone := filter_added h (t := t) rfl
  unfold State.freeTxn
  rw [ht]
  exact congrArg (fun l => s.setBr { s.br with txns := l, refCounter := nextIn 65535 t.reference }) hgone

/-! ### The request (R57 to R59) -/

section
variable {s : State} {r : Request} {card : CardNo} {amount : Nat}

theorem State.serveRedeem_wrongState (hcard : cardFromTill (r.fields.take 10) = some card)
    (hfar : s.isHere card.home = false) (hj : s.sc.station ≠ .joined) :
    s.serveRedeem r = s.decline .redeem r .wrongState := by
  unfold State.serveRedeem
  rw [hcard]
  simp [hfar, hj]

theorem State.serveRedeem_badValue (hcard : cardFromTill (r.fields.take 10) = some card)
    (hj : s.isHere card.home = true ∨ s.sc.station = .joined)
    (h : fieldAt r.fields 10 4 = 0 ∨ s.sc.config.cardCap < fieldAt r.fields 10 4) :
    s.serveRedeem r = s.decline .redeem r .badValue := by
  have hserved : ¬ (s.isHere card.home = false ∧ s.sc.station ≠ .joined) := by
    rintro ⟨hfar, hn⟩; simp [hfar, hn] at hj
  unfold State.serveRedeem
  rw [hcard]
  simp [hserved, h]

theorem State.serveRedeem_full (hcard : cardFromTill (r.fields.take 10) = some card)
    (hj : s.isHere card.home = true ∨ s.sc.station = .joined) (hpos : 0 < fieldAt r.fields 10 4)
    (hcap : fieldAt r.fields 10 4 ≤ s.sc.config.cardCap) (hslot : 16 ≤ s.br.txns.length) :
    s.serveRedeem r = s.decline .redeem r .noSlot := by
  have hserved : ¬ (s.isHere card.home = false ∧ s.sc.station ≠ .joined) := by
    rintro ⟨hfar, hn⟩; simp [hfar, hn] at hj
  unfold State.serveRedeem
  rw [hcard]
  simp [hserved, hpos.ne', Nat.not_lt.mpr hcap, State.slotForTxn_of_le hslot]

theorem State.serveRedeem_local (hcard : cardFromTill (r.fields.take 10) = some card) (hhere : s.isHere card.home = true)
    (hpos : 0 < fieldAt r.fields 10 4) (hcap : fieldAt r.fields 10 4 ≤ s.sc.config.cardCap)
    (hslot : s.br.txns.length < 16) : s.serveRedeem r = s.localRedeem r card (fieldAt r.fields 10 4) := by
  unfold State.serveRedeem
  rw [hcard]
  simp [hhere, hpos.ne', Nat.not_lt.mpr hcap, State.slotForTxn_of_lt hslot]

theorem State.serveRedeem_remote (hcard : cardFromTill (r.fields.take 10) = some card) (hfar : s.isHere card.home = false)
    (hj : s.sc.station = .joined) (hpos : 0 < fieldAt r.fields 10 4) (hcap : fieldAt r.fields 10 4 ≤ s.sc.config.cardCap)
    (hslot : s.br.txns.length < 16) : s.serveRedeem r = s.remoteRedeem r card (fieldAt r.fields 10 4) := by
  unfold State.serveRedeem
  rw [hcard]
  simp [hfar, hj, hpos.ne', Nat.not_lt.mpr hcap, State.slotForTxn_of_lt hslot]

/-! ### A card held here -/

theorem State.localRedeem_refused {a : AuthAnswer} (h : s.takeReference.serveAuth s.own s.freshReference card.key amount
    = (s.takeReference, a)) (ha : a.status ≠ .approved) :
    s.localRedeem r card amount = s.takeReference.decline .redeem r a.status.reason a.available := by
  unfold State.localRedeem
  dsimp only
  change (if (s.takeReference.serveAuth s.own s.freshReference card.key amount).2.status = .approved then _ else
    (s.takeReference.serveAuth s.own s.freshReference card.key amount).1.decline .redeem r
      (s.takeReference.serveAuth s.own s.freshReference card.key amount).2.status.reason
      (s.takeReference.serveAuth s.own s.freshReference card.key amount).2.available) = _
  rw [h, if_neg ha]

theorem State.localRedeem_approved {t : State} {a : AuthAnswer}
    (h : s.takeReference.serveAuth s.own s.freshReference card.key amount = (t, a)) (ha : a.status = .approved) :
    s.localRedeem r card amount = (t.setTxns (t.br.txns ++ [{ s.newTxn r.tag .redeem card amount none .localHeld with
        hold := a.hold, timer := some s.abandonAt }])).answer
      (approvedRecord (s.newTxn r.tag .redeem card amount none .localHeld) false a.available) := by
  have hfirst : (s.takeReference.serveAuth s.own s.freshReference card.key amount).1 = t := by rw [h]
  have hsecond : (s.takeReference.serveAuth s.own s.freshReference card.key amount).2 = a := by rw [h]
  subst hfirst hsecond
  exact if_pos ha

/-! ### Another station's card -/

theorem State.remoteRedeem_adviceFull (h : 64 ≤ s.au.queue.length + s.au.reservations) :
    s.remoteRedeem r card amount = s.takeReference.decline .redeem r .adviceFull := if_pos h

theorem State.remoteRedeem_opens (h : s.au.queue.length + s.au.reservations < 64)
    (hfree : s.txnFor s.freshReference = none)
    (hp : (s.peerAt (s.custodianOf card.home)).presence.reachable = true) : s.remoteRedeem r card amount =
      (s.reserve.withTxn (s.exchangeTxn r .redeem card amount .authWait)).hand (s.custodianOf card.home)
        (.auth card amount s.freshReference) := by
  have hopen := State.openExchange_newTxn (s := s.reserve) (r := r) (kind := .redeem) (card := card) (amount := amount)
    (state := .authWait) hfree rfl
  exact (if_neg (Nat.not_le.mpr h)).trans ((if_pos hp).trans hopen)

theorem State.remoteRedeem_standIn (h : s.au.queue.length + s.au.reservations < 64)
    (hp : (s.peerAt (s.custodianOf card.home)).presence.reachable = false) : s.remoteRedeem r card amount =
      (s.reserve.withTxn (s.newTxn r.tag .redeem card amount (some (s.custodianOf card.home)) .authWait)).standIn
        (s.newTxn r.tag .redeem card amount (some (s.custodianOf card.home)) .authWait) :=
  (if_neg (Nat.not_le.mpr h)).trans (if_neg (Bool.eq_false_iff.mp hp))

theorem State.standIn_granted {t : Txn} (h : s.standinGranted t.card t.amount = true) : s.standIn t =
    (s.modifyTxn t.reference fun t =>
      { t with state := .standinHeld, hold := none, ticket := none, timer := some s.abandonAt }).answer
      (approvedRecord t true 0) := if_pos h

theorem State.standIn_declined {t : Txn} (h : s.standinGranted t.card t.amount = false) :
    s.standIn t = (s.declineTxn t .homeUnreachable).releaseReservation := if_neg (Bool.eq_false_iff.mp h)

end

/-- Settles O9: the branches of the request, each by the rule of the operation that it ends in. -/
theorem redeemCompletes : Obligations.RedeemCompletes := by
  refine ⟨?placed, ?remote, ?standin, ?refused⟩
  case placed =>
    intro s r rest card c h hcard hhere hpos hcap hslot hstation hnew hholds hc ha henough
    have hfull : s.holdsFull = false := Bool.eq_false_iff.mpr (mt State.holdsFull_iff.mp (Nat.not_le.mpr hholds))
    rw [exec_redeem h, State.serveRedeem_local (s := s.popRequest rest) hcard hhere hpos hcap hslot,
      State.localRedeem_approved (s := s.popRequest rest) (State.serveAuth_approved (s := (s.popRequest rest).takeReference)
        hnew hc ha hfull (State.handing_eq_false (s := s.popRequest rest) hstation)
        (henough.trans_eq (Custody.available_active (c := s.cu) hc ha).symm)) rfl]
    rfl
  case remote =>
    intro s r rest card h hcard hfar hj hpos hcap hslot hfree
    rw [exec_redeem h, State.serveRedeem_remote (s := s.popRequest rest) hcard hfar hj hpos hcap hslot]
    refine ⟨fun hplace hp => ?_, fun hplace => ?_⟩
    · rw [State.remoteRedeem_opens (s := s.popRequest rest) hplace hfree hp]
      rfl
    · rw [State.remoteRedeem_adviceFull (s := s.popRequest rest) hplace]
      rfl
  case standin =>
    intro s r rest card h hcard hfar hj hpos hcap hslot hfree hplace hp
    rw [exec_redeem h, State.serveRedeem_remote (s := s.popRequest rest) hcard hfar hj hpos hcap hslot,
      State.remoteRedeem_standIn (s := s.popRequest rest) hplace hp]
    generalize ht : (s.popRequest rest).newTxn r.tag .redeem card (fieldAt r.fields 10 4)
      (some ((s.popRequest rest).custodianOf card.home)) .authWait = t
    have hstate : t.state ≠ .standinHeld := by rw [← ht]; simp [State.newTxn]
    have hnone : (s.popRequest rest).reserve.txnFor t.reference = none := by rw [← ht]; exact hfree
    have hgrant : ((s.popRequest rest).reserve.withTxn t).standinGranted t.card t.amount
        = s.standinGranted card (fieldAt r.fields 10 4) := by
      rw [State.standinGranted_withTxn _ hstate, ← ht]; rfl
    refine ⟨fun hgranted => ?_, fun hnot => ?_⟩
    · rw [State.standIn_granted (hgrant.trans ((State.standinGranted_iff _ _ _).mpr hgranted)),
        State.modifyTxn_withTxn hnone rfl, ← ht]
      rfl
    · rw [State.standIn_declined (hgrant.trans (Bool.eq_false_iff.mpr (mt (State.standinGranted_iff _ _ _).mp hnot))),
        State.declineTxn, State.freeTxn_withTxn hnone (by rw [← ht]; rfl), ← ht]
      rfl
  case refused =>
    intro s r rest card h hcard
    rw [exec_redeem h]
    refine ⟨fun hfar hj => ?_, fun hj => ⟨fun hbad => ?_, fun hpos hcap => ⟨fun hslot => ?_, fun hslot hhere hnew => ?_⟩⟩⟩
    · rw [State.serveRedeem_wrongState (s := s.popRequest rest) hcard hfar hj]
      rfl
    · rw [State.serveRedeem_badValue (s := s.popRequest rest) hcard hj hbad]
      rfl
    · rw [State.serveRedeem_full (s := s.popRequest rest) hcard hj hpos hcap hslot]
      rfl
    rw [State.serveRedeem_local (s := s.popRequest rest) hcard hhere hpos hcap hslot]
    refine ⟨fun hnone => ?_, fun c hc => ⟨fun hclosed => ?_, fun ha hbusy => ?_, fun ha hholds hstation hshort => ?_⟩⟩
    · rw [State.localRedeem_refused (s := s.popRequest rest)
        (State.serveAuth_unknown (s := (s.popRequest rest).takeReference) hnew hnone) (by simp)]
      rfl
    · rw [State.localRedeem_refused (s := s.popRequest rest)
        (State.serveAuth_closed (s := (s.popRequest rest).takeReference) hnew hc hclosed) (by simp)]
      rfl
    · rw [State.localRedeem_refused (s := s.popRequest rest)
        (State.serveAuth_busy (s := (s.popRequest rest).takeReference) hnew hc ha
          (hbusy.imp State.holdsFull_iff.mpr (State.handing_iff (s.popRequest rest)).mpr)) (by simp)]
      rfl
    · have hfull : s.holdsFull = false := Bool.eq_false_iff.mpr (mt State.holdsFull_iff.mp (Nat.not_le.mpr hholds))
      have havail := Custody.available_active (c := s.cu) hc ha
      rw [State.localRedeem_refused (s := s.popRequest rest)
        (State.serveAuth_insufficient (s := (s.popRequest rest).takeReference) hnew hc ha hfull
          (State.handing_eq_false (s := s.popRequest rest) hstation) (havail.trans_lt hshort)) (by simp)]
      rw [← havail]
      rfl

end Sys2Proof.Machine
end

