-- ==== Sys2Proof/Proofs/Postings.lean ====
section
/-! PROOFS. What a posting at the home leaves: of the station's own card, of a peer's transaction, by a hold and forced. -/
namespace Sys2Proof.Machine

/-- The card and the ledger after a redemption of `amount` (R5, R97). -/
def State.debited (s : State) (k : Key) (amount : Nat) : State := s.setCu { s.cu with
  cards := updateWhere (fun x => x.key = k) (fun x => { x with
    balance := x.balance - amount, lastActivity := s.su.openPeriod, activity := min 65535 (x.activity + 1) }) s.cu.cards
  ledger := { s.cu.ledger with redeemed := s.cu.ledger.redeemed + amount } }

/-- The on-us counter after a redemption here (R21, R46). -/
def State.countOnUs (s : State) (amount : Nat) : State := s.setSu { s.su with
  counters := { s.su.counters with onUs := min (s.su.counters.onUs + amount) amountMax } }

/-- The fee of a posting for station `p` (R20). -/
def State.feeFor (s : State) (p amount : Nat) : Nat := feeOf s.sc.config.feeRate (Table.get {} s.su.lifetime p) amount

/-- The lifetime record and the open entry after a redemption for station `p` (R20, R21). -/
def State.bookHome (s : State) (p amount : Nat) : State := s.setSu { s.su with
  lifetime := Table.put {} p ((Table.get {} s.su.lifetime p).charge s.sc.config.feeRate amount) s.su.lifetime
  entries := Table.modify {} s.su.entries p fun e => e.postHome amount (s.feeFor p amount) }

/-- The figures of a posting for station `p` (R20, R24, R39). -/
def State.peerFigures (s : State) (p amount short : Nat) : Figures :=
  { posted := amount, fee := s.feeFor p amount, net := amount - s.feeFor p amount, short, stamp := s.su.openPeriod }

/-- The figures of a posting for the own station (R46). -/
def State.ownFigures (s : State) (amount short : Nat) : Figures :=
  { posted := amount, fee := 0, net := amount, short, stamp := s.su.openPeriod }

section
variable {s : State} {p n : Nat} {k : Key} {amount available : Nat}

theorem State.postRedemption_own (s : State) (k : Key) (amount : Nat) :
    s.postRedemption s.own k amount = ((s.debited k amount).countOnUs amount, s.ownFigures amount 0) := if_pos rfl

theorem State.postRedemption_peer (hp : p ≠ s.own) :
    s.postRedemption p k amount = ((s.debited k amount).bookHome p amount, s.peerFigures p amount 0) := if_neg hp

/-! ### By a hold (R39) -/

theorem State.captureHold_zero (s : State) (h : Hold) {final : Nat} (hz : min final h.amount = 0) :
    s.captureHold h final = (s.setHolds (updateWhere (fun x => x.id = h.id)
        (fun x => { x with state := .captured, figures := { stamp := s.su.openPeriod }, late := false, timer := s.retentionEnd })
        s.cu.holds), { status := .notPosted, figures := { stamp := s.su.openPeriod } }) := by
  simp only [State.captureHold, hz, if_true]

theorem State.captureHold_posts {h : Hold} {final : Nat} {t : State} {g : Figures} (hpos : 0 < min final h.amount)
    (ht : s.postRedemption h.station h.key (min final h.amount) = (t, g)) :
    s.captureHold h final = (t.setHolds (updateWhere (fun x => x.id = h.id)
        (fun x => { x with state := .captured, figures := g, late := false, timer := s.retentionEnd }) t.cu.holds),
      { status := .posted, figures := g }) := by
  simp only [State.captureHold, hpos.ne', if_false, ht]

/-! ### Forced (R44, R45) -/

theorem State.forcedFigures_zero (hz : min amount available = 0) : s.forcedFigures p k amount available =
    (s, .notPosted, { short := amount, stamp := s.su.openPeriod }) := if_pos hz

theorem State.forcedFigures_own (hpos : 0 < min amount available) : s.forcedFigures s.own k amount available =
    ((s.debited k (min amount available)).countOnUs (min amount available),
      if min amount available = amount then .posted else .postedShort,
      s.ownFigures (min amount available) (amount - min amount available)) := by
  unfold State.forcedFigures
  dsimp only
  rw [if_neg hpos.ne', State.postRedemption_own]
  rfl

theorem State.forcedFigures_peer (hp : p ≠ s.own) (hpos : 0 < min amount available) :
    s.forcedFigures p k amount available =
      ((s.debited k (min amount available)).bookHome p (min amount available),
        if min amount available = amount then .posted else .postedShort,
        s.peerFigures p (min amount available) (amount - min amount available)) := by
  unfold State.forcedFigures
  dsimp only
  rw [if_neg hpos.ne', State.postRedemption_peer hp]
  rfl

/-- The entry that a forced posting leaves. -/
def State.forcedEntry (s : State) (p n : Nat) (k : Key) (amount : Nat) (late : Bool) (g : Figures) : Hold :=
  { id := s.freshHoldId, kind := .redemption, key := k, amount, station := p, reference := n, state := .captured,
    timer := s.retentionEnd, figures := g, late }

variable {known late : Bool} {t : State} {st : XStatus} {g : Figures}

theorem State.forcedPosting_new
    (h : s.forcedFigures p k amount (if known then s.cu.available k else 0) = (t, st, g)) :
    s.forcedPosting p n k amount known late none =
      (t.addHold (s.forcedEntry p n k amount late g), { status := st, figures := g, late }) := by
  have hr : s.forcedPosting p n k amount known late none = (fun r : State × XStatus × Figures =>
      (r.1.addHold (s.forcedEntry p n k amount late r.2.2), { status := r.2.1, figures := r.2.2, late }))
      (s.forcedFigures p k amount (if known then s.cu.available k else 0)) := rfl
  rw [hr, h]

/-- The Custody Unit once a hold is given back. -/
def Custody.without (c : Custody) (x : Hold) : Custody := { c with holds := c.holds.filter fun y => y.id ≠ x.id }

theorem State.forcedPosting_held {x : Hold}
    (h : s.forcedFigures p k amount (if known then (s.cu.without x).available k else 0) = (t, st, g)) :
    s.forcedPosting p n k amount known late (some x) =
      (t.setHolds (updateWhere (fun y => y.id = x.id) (fun y => { s.forcedEntry p n k amount late g with id := y.id })
        t.cu.holds), { status := st, figures := g, late }) := by
  have hr : s.forcedPosting p n k amount known late (some x) = (fun r : State × XStatus × Figures =>
      (r.1.setHolds (updateWhere (fun y => y.id = x.id) (fun y => { s.forcedEntry p n k amount late r.2.2 with id := y.id })
        r.1.cu.holds), { status := r.2.1, figures := r.2.2, late }))
      (s.forcedFigures p k amount (if known then (s.cu.without x).available k else 0)) := rfl
  rw [hr, h]

/-! ### Which of them a request gets (R38, R41, R43, R45) -/

/-- The entry that a hold id names is the entry of its requester and reference, or another one of them. -/
theorem State.holdNamed_none {id : HoldId} (h : s.holdFor p n = none) : s.holdNamed id p n k = none := by
  simp only [State.holdFor, State.holdNamed, List.find?_eq_none, Bool.and_eq_true, decide_eq_true_eq] at h ⊢
  exact fun x hx hn => h x hx ⟨hn.1.1.2, hn.1.2⟩

/-- What a hold id names has the station, the reference and the key. -/
theorem State.holdNamed_some {id : HoldId} {x : Hold} (h : s.holdNamed id p n k = some x) :
    x ∈ s.cu.holds ∧ x.id = id ∧ x.station = p ∧ x.reference = n ∧ x.key = k := by
  have hp := List.find?_some h
  simp only [Bool.and_eq_true, decide_eq_true_eq] at hp
  exact ⟨List.mem_of_find?_eq_some h, hp.1.1.1, hp.1.1.2, hp.1.2, hp.2⟩

theorem State.servePosting_new (hnew : s.holdFor p n = none) (hfull : s.holdsFull = false)
    (hbusy : (known && s.handing) = false) :
    s.servePosting p n k amount known late = s.forcedPosting p n k amount known late none := by
  simp [State.servePosting, hnew, hfull, hbusy]

theorem State.servePosting_newBusy (hnew : s.holdFor p n = none)
    (hbusy : s.holdsFull = true ∨ (known && s.handing) = true) :
    s.servePosting p n k amount known late = (s, .busy) := by
  unfold State.servePosting
  rw [hnew]
  exact if_pos (by simpa using hbusy)

theorem State.servePosting_held {x : Hold} (hx : s.holdFor p n = some x) (hs : x.state = .held)
    (hhand : s.handing = false) :
    s.servePosting p n k amount known late = s.forcedPosting p n k amount known late (some x) := by
  simp [State.servePosting, hx, hs, hhand]

theorem State.servePosting_heldBusy {x : Hold} (hx : s.holdFor p n = some x) (hs : x.state = .held)
    (hhand : s.handing = true) : s.servePosting p n k amount known late = (s, .busy) := by
  simp [State.servePosting, hx, hs, hhand]

theorem State.servePosting_captured {x : Hold} (hx : s.holdFor p n = some x) (hs : x.state = .captured) :
    s.servePosting p n k amount known late = (s, .repeated x) := by
  simp [State.servePosting, hx, hs]

theorem State.serveCapture_held {id : HoldId} {x : Hold} (hx : s.holdNamed id p n k = some x) (hs : x.state = .held) :
    s.serveCapture p n k id amount true = s.captureHold x amount := by
  simp [State.serveCapture, hx, hs]

theorem State.serveCapture_captured {id : HoldId} {x : Hold} (hx : s.holdNamed id p n k = some x)
    (hs : x.state = .captured) : s.serveCapture p n k id amount known = (s, .repeated x) := by
  simp [State.serveCapture, hx, hs]

/-- A CAPTURE whose hold id names nothing it can capture is served by its reference (R41). -/
theorem State.serveCapture_byReference {id : HoldId}
    (h : s.holdNamed id p n k = none ∨ ∃ x, s.holdNamed id p n k = some x ∧ x.state = .held ∧ known = false) :
    s.serveCapture p n k id amount known = s.servePosting p n k amount known true := by
  unfold State.serveCapture
  rcases h with h | ⟨x, h, hs, rfl⟩
  · rw [h]
  · rw [h]
    simp [hs]

end

/-- Settles O27: the sums and the counts of each booking are bounded ones. -/
theorem postingsRaiseTheirOwnFigures : Obligations.PostingsRaiseTheirOwnFigures :=
  fun _ _ _ _ => ⟨rfl, rfl, rfl, rfl, rfl, rfl⟩

end Sys2Proof.Machine
end

