-- ==== Sys2Proof/Proofs/CompleteRequest.lean ====
section
/-! PROOFS. COMPLETE: the capture of a local hold, the first attempt at a remote one, and a stand-in's advice. -/
namespace Sys2Proof.Machine

/-! ### A transaction that is changed and then leaves -/

section
variable {s : State} {n : Nat}

theorem State.freeTxn_eq_withoutTxn {t : Txn} (ht : t.ticket = none) : s.freeTxn t = s.withoutTxn t.reference := by
  unfold State.freeTxn
  rw [ht]
  rfl

/-- A change of a transaction is lost when it leaves. -/
theorem State.withoutTxn_modifyTxn {f : Txn → Txn} (hf : ∀ x, (f x).reference = x.reference) :
    (s.modifyTxn n f).withoutTxn n = s.withoutTxn n := by
  have hlist : (updateWhere (fun x : Txn => decide (x.reference = n)) f s.br.txns).filter (fun x => x.reference ≠ n)
      = s.br.txns.filter fun x => x.reference ≠ n := by
    unfold updateWhere
    induction s.br.txns with
    | nil => rfl
    | cons x l ih =>
      by_cases hx : x.reference = n
      · simpa [hx, hf] using ih
      · simpa [hx] using ih
  exact congrArg (fun l => s.setBr { s.br with txns := l }) hlist

/-- Two changes of a transaction are one. -/
theorem State.modifyTxn_modifyTxn {f g : Txn → Txn} (hf : ∀ x, (f x).reference = x.reference) :
    (s.modifyTxn n f).modifyTxn n g = s.modifyTxn n fun x => g (f x) :=
  congrArg (fun l => s.setBr { s.br with txns := l })
    (updateWhere_twice (fun x hx => by simpa [hf] using hx) s.br.txns)

theorem State.modifyTxn_hand (f : Txn → Txn) (d : Nat) (m : Msg) :
    (s.modifyTxn n f).hand d m = (s.hand d m).modifyTxn n f := by
  unfold State.modifyTxn State.setTxns
  rw [State.setBr_hand, State.hand_br]

end

/-! ### Which transaction a COMPLETE or a VOID names (R65) -/

section
variable {s : State} {n : Nat} {t : Txn}

theorem State.heldTxn_badRef (h : s.txnFor n = none) : s.heldTxn n = .inr .badRef := by
  unfold State.heldTxn
  rw [h]

theorem State.heldTxn_wrongState (h : s.txnFor n = some t)
    (hn : t.kind ≠ .redeem ∨ t.voiding.isSome = true ∨ t.state = .authWait ∨ t.state = .captureWait
      ∨ t.state = .creditWait ∨ t.state = .enquireWait) : s.heldTxn n = .inr .wrongState := by
  unfold State.heldTxn
  rw [h]
  refine if_neg ?_
  rcases hn with hn | hn | hn | hn | hn | hn
  · simp [hn]
  · simp [Option.isNone_eq_false_iff.mpr hn]
  all_goals simp [hn]

theorem State.heldTxn_found (h : s.txnFor n = some t) (hk : t.kind = .redeem) (hv : t.voiding = none)
    (hs : t.state = .localHeld ∨ t.state = .remoteHeld ∨ t.state = .standinHeld) : s.heldTxn n = .inl t := by
  unfold State.heldTxn
  rw [h]
  refine if_pos ?_
  rcases hs with hs | hs | hs <;> simp [hk, hv, hs]

end

/-! ### The request (R65) -/

section
variable {s : State} {r : Request} {t : Txn}

theorem State.serveComplete_refused {why : Reason} (h : s.heldTxn (fieldAt r.fields 0 2) = .inr why) :
    s.serveComplete r = s.decline .complete r why := by
  unfold State.serveComplete
  rw [h]

theorem State.serveComplete_badValue (h : s.heldTxn (fieldAt r.fields 0 2) = .inl t)
    (hbad : fieldAt r.fields 2 4 = 0 ∨ t.amount < fieldAt r.fields 2 4) :
    s.serveComplete r = s.decline .complete r .badValue := by
  unfold State.serveComplete
  rw [h]
  simp [hbad]

/-- The transaction once its COMPLETE has passed the tests (R65). -/
def Txn.final (t : Txn) (amount : Nat) : Txn := { t with amount, timer := none }

theorem State.serveComplete_accepted (h : s.heldTxn (fieldAt r.fields 0 2) = .inl t) (hpos : 0 < fieldAt r.fields 2 4)
    (hmax : fieldAt r.fields 2 4 ≤ t.amount) : s.serveComplete r =
      (s.modifyTxn t.reference fun x => x.final (fieldAt r.fields 2 4)).completeTxn (t.final (fieldAt r.fields 2 4)) := by
  unfold State.serveComplete
  rw [h]
  dsimp only
  rw [if_neg (by simp; omega)]
  rfl

/-- The state with its COMPLETE accepted, before the posting: the transaction has its final amount (R65). -/
def State.accepted (s : State) (t : Txn) (amount : Nat) : State := s.modifyTxn t.reference fun x => x.final amount

variable {amount : Nat}

/-! ### A local hold -/

/-- A COMPLETE that is posted: the slot is free, and the till has its figures (R46, R65). -/
theorem State.completeLocal_posted {a : PostAnswer} {u : State} (ht : t.ticket = none)
    (h : (s.accepted t amount).serveCapture s.own t.reference t.card.key t.holdId amount true = (u.accepted t amount, a))
    (ha : a.status ≠ .homeBusy) : (s.accepted t amount).completeLocal (t.final amount) =
      (u.withoutTxn t.reference).answer
        (completedRecord (t.final amount) { a.figures with fee := 0, net := a.figures.posted } a.late) := by
  have hwithout : (u.accepted t amount).withoutTxn t.reference = u.withoutTxn t.reference :=
    State.withoutTxn_modifyTxn (f := fun x => x.final amount) fun _ => rfl
  have hserved : (s.accepted t amount).serveCapture (s.accepted t amount).own (t.final amount).reference
      (t.final amount).card.key (t.final amount).holdId (t.final amount).amount true = (u.accepted t amount, a) := h
  unfold State.completeLocal
  dsimp only
  rw [hserved, if_neg ha, State.freeTxn_eq_withoutTxn (t := t.final amount) ht]
  exact congrArg (fun v : State => v.answer
    (completedRecord (t.final amount) { a.figures with fee := 0, net := a.figures.posted } a.late)) hwithout

/-- A COMPLETE that finds the home busy waits on (R65). -/
theorem State.completeLocal_busy
    (h : (s.accepted t amount).serveCapture s.own t.reference t.card.key t.holdId amount true = (s.accepted t amount, .busy)) :
    (s.accepted t amount).completeLocal (t.final amount) =
      (s.modifyTxn t.reference fun x => { x with amount, timer := some s.abandonAt }).answer
        (declinedRecord .complete t.tag .homeBusy) := by
  have htwice : (s.accepted t amount).modifyTxn t.reference (fun x => { x with timer := some s.abandonAt })
      = s.modifyTxn t.reference fun x => { x with amount, timer := some s.abandonAt } :=
    State.modifyTxn_modifyTxn (f := fun x => x.final amount) (g := fun x => { x with timer := some s.abandonAt })
      fun _ => rfl
  have hserved : (s.accepted t amount).serveCapture (s.accepted t amount).own (t.final amount).reference
      (t.final amount).card.key (t.final amount).holdId (t.final amount).amount true = (s.accepted t amount, .busy) := h
  unfold State.completeLocal
  dsimp only
  rw [hserved]
  exact congrArg (fun v : State => v.answer (declinedRecord .complete t.tag .homeBusy)) htwice

/-! ### A remote hold -/

theorem State.sendAttempt_eq {m : Msg} (hm : t.msg = some m) : s.sendAttempt t =
    (s.hand t.station m).modifyTxn t.reference fun t =>
      { t with attemptsLeft := t.attemptsLeft - 1, ticket := some s.ticket, timer := none } := by
  unfold State.sendAttempt
  rw [hm]

/-- A COMPLETE of a remote hold: the first of three attempts (R66). -/
theorem State.completeTxn_remote (hs : t.state = .remoteHeld) : (s.accepted t amount).completeTxn (t.final amount) =
    (s.modifyTxn t.reference fun x => { x with
      amount, state := .captureWait, attemptsLeft := 2, ticket := some s.ticket, timer := none }).hand t.station
      (.capture t.card t.holdId t.reference amount) := by
  have htwice : (s.accepted t amount).modifyTxn t.reference (fun x => { x with state := .captureWait, attemptsLeft := 3 })
      = s.modifyTxn t.reference fun x => { x.final amount with state := .captureWait, attemptsLeft := 3 } :=
    State.modifyTxn_modifyTxn (f := fun x => x.final amount)
      (g := fun x => { x with state := .captureWait, attemptsLeft := 3 }) fun _ => rfl
  have hsent := State.sendAttempt_eq (t := { t.final amount with state := .captureWait, attemptsLeft := 3 })
    (m := .capture t.card t.holdId t.reference amount)
    (s := s.modifyTxn t.reference fun x => { x.final amount with state := .captureWait, attemptsLeft := 3 }) rfl
  have hthrice := State.modifyTxn_modifyTxn (s := s.hand t.station (.capture t.card t.holdId t.reference amount))
    (n := t.reference) (f := fun x => { x.final amount with state := .captureWait, attemptsLeft := 3 })
    (g := fun x => { x with attemptsLeft := x.attemptsLeft - 1, ticket := some s.ticket, timer := none }) fun _ => rfl
  unfold State.completeTxn
  rw [show (t.final amount).state = .remoteHeld from hs]
  dsimp only
  refine (congrArg (fun v : State => v.sendAttempt _) htwice).trans (hsent.trans ?_)
  rw [State.modifyTxn_hand, State.modifyTxn_hand]
  exact hthrice

end

/-- A CAPTURE of a good card number that matches no entry is forced-posted (R41, R44). -/
theorem State.serveCapture_forced {u w : State} {p n amount : Nat} {k : Key} {id : HoldId} {st : XStatus} {g : Figures}
    (hnew : u.holdFor p n = none) (hfull : u.cu.holds.length < 96) (hstation : u.sc.station ≠ .handingOver)
    (hf : u.forcedFigures p k amount (u.cu.available k) = (w, st, g)) : u.serveCapture p n k id amount true =
      (w.addHold (u.forcedEntry p n k amount true g), { status := st, figures := g, late := true }) := by
  have hroom : u.holdsFull = false := Bool.eq_false_iff.mpr (mt State.holdsFull_iff.mp (Nat.not_le.mpr hfull))
  rw [State.serveCapture_byReference (.inl (State.holdNamed_none hnew)),
    State.servePosting_new hnew hroom (by simp [State.handing_eq_false hstation]), State.forcedPosting_new hf]

/-- A CAPTURE that matches no entry finds the home busy in a full table and in a handover (R45, R49). -/
theorem State.serveCapture_newBusy {u : State} {p n amount : Nat} {k : Key} {id : HoldId} (hnew : u.holdFor p n = none)
    (hbusy : u.sc.station = .handingOver ∨ 96 ≤ u.cu.holds.length) : u.serveCapture p n k id amount true = (u, .busy) := by
  rw [State.serveCapture_byReference (.inl (State.holdNamed_none hnew)), State.servePosting_newBusy hnew]
  exact hbusy.symm.imp State.holdsFull_iff.mpr (by simpa using (State.handing_iff u).mpr)

/-- A COMPLETE that passes its tests (R65). -/
theorem exec_completeTxn {s : State} {r : Request} {rest : List Request} {t : Txn} {st : TxnState}
    (h : s.Serves .complete r rest) (href : fieldAt r.fields 0 2 = t.reference) (ht : s.HeldTxn t st)
    (hst : st = .localHeld ∨ st = .remoteHeld ∨ st = .standinHeld)
    (hpos : 0 < fieldAt r.fields 2 4) (hmax : fieldAt r.fields 2 4 ≤ t.amount) :
    exec .complete s = .next (State.settle
      (((s.popRequest rest).accepted t (fieldAt r.fields 2 4)).completeTxn (t.final (fieldAt r.fields 2 4)))) := by
  obtain ⟨htxn, hkind, rfl, hvoid⟩ := ht
  rw [exec_complete h, State.serveComplete_accepted (s := s.popRequest rest)
    (State.heldTxn_found (by rw [href]; exact htxn) hkind hvoid hst) hpos hmax]
  rfl

theorem State.completeTxn_local {s : State} {t : Txn} (hs : t.state = .localHeld) : s.completeTxn t = s.completeLocal t := by
  unfold State.completeTxn
  rw [hs]

theorem State.completeTxn_standin {s : State} {t : Txn} (hs : t.state = .standinHeld) :
    s.completeTxn t = ((s.freeTxn t).commitAdvice .standin t).answer (pendingRecord t) := by
  unfold State.completeTxn
  rw [hs]

/-- Settles O10: the tests, then the three kinds of hold, a local one by the rule of the posting it makes. -/
theorem completeCompletes : Obligations.CompleteCompletes := by
  refine ⟨?held, ?gone, ?remote, ?standin, ?refused⟩
  case held =>
    intro s r rest t x h href ht hticket hpos hmax hx hheld hamount posted figures
    obtain ⟨_, _, hstation, _, hkey⟩ := State.holdNamed_some hx
    have hsome : 0 < posted := Nat.lt_min.mpr ⟨hpos, hamount⟩
    have hpost := State.postRedemption_own ((s.popRequest rest).accepted t (fieldAt r.fields 2 4)) x.key posted
    rw [hkey, show ((s.popRequest rest).accepted t (fieldAt r.fields 2 4)).own = x.station from hstation.symm, ← hkey] at hpost
    have hserved := (State.serveCapture_held (s := (s.popRequest rest).accepted t (fieldAt r.fields 2 4)) (p := s.own)
      (n := t.reference) (k := t.card.key) (amount := fieldAt r.fields 2 4) hx hheld).trans
      (State.captureHold_posts hsome hpost)
    rw [exec_completeTxn h href ht (.inl rfl) hpos hmax, State.completeTxn_local (t := t.final _) ht.2.2.1,
      State.completeLocal_posted (s := s.popRequest rest)
        (u := (((s.popRequest rest).debited x.key posted).countOnUs posted).setHolds (updateWhere (fun y => y.id = x.id)
          (fun y => { y with state := .captured, figures, late := false, timer := s.retentionEnd }) s.cu.holds))
        hticket hserved (by simp), hkey]
    rfl
  case gone =>
    intro s r rest t h href ht hticket hpos hmax hnew final posted entry counter completed
    rw [exec_completeTxn h href ht (.inl rfl) hpos hmax, State.completeTxn_local (t := t.final _) ht.2.2.1]
    refine ⟨fun hstation hholds hsome => ?_, fun hstation hholds hz => ?_, fun hbusy => ?_⟩
    · rw [State.completeLocal_posted (s := s.popRequest rest)
        (u := (((s.popRequest rest).debited t.card.key posted).countOnUs posted).addHold (s.forcedEntry s.own t.reference
          t.card.key final true (s.ownFigures posted (final - posted)))) hticket
        (State.serveCapture_forced (u := (s.popRequest rest).accepted t final) hnew hholds hstation
          (State.forcedFigures_own hsome)) (by dsimp only; split <;> simp)]
      rfl
    · rw [State.completeLocal_posted (s := s.popRequest rest)
        (u := (s.popRequest rest).addHold (s.forcedEntry s.own t.reference t.card.key final true
          { short := final, stamp := s.su.openPeriod })) hticket
        (State.serveCapture_forced (u := (s.popRequest rest).accepted t final) hnew hholds hstation
          (State.forcedFigures_zero hz)) (by simp)]
      have hcompleted : completed = completedRecord (t.final final)
          { posted := 0, fee := 0, net := 0, short := final, stamp := s.su.openPeriod } true := by
        simp only [completed, hz]
        rfl
      rw [hcompleted]
      rfl
    · rw [State.completeLocal_busy (s := s.popRequest rest)
        (State.serveCapture_newBusy (u := (s.popRequest rest).accepted t final) hnew hbusy)]
      rfl
  case remote =>
    intro s r rest t target h href ht htarget hpos hmax
    have hstation : t.station = target := by rw [Txn.station, htarget]; rfl
    rw [exec_completeTxn h href ht (.inr (.inl rfl)) hpos hmax, State.completeTxn_remote ht.2.2.1, hstation]
    rfl
  case standin =>
    intro s r rest t h href ht hticket hpos hmax
    have hwithout : ((s.popRequest rest).accepted t (fieldAt r.fields 2 4)).withoutTxn t.reference
        = (s.popRequest rest).withoutTxn t.reference :=
      State.withoutTxn_modifyTxn (f := fun x => x.final (fieldAt r.fields 2 4)) fun _ => rfl
    rw [exec_completeTxn h href ht (.inr (.inr rfl)) hpos hmax, State.completeTxn_standin (t := t.final _) ht.2.2.1,
      State.freeTxn_eq_withoutTxn (t := t.final (fieldAt r.fields 2 4)) hticket,
      show (t.final (fieldAt r.fields 2 4)).reference = t.reference from rfl, hwithout]
    rfl
  case refused =>
    intro s r rest h refused
    rw [exec_complete h]
    refine ⟨fun hnone => ?_, fun t ht => ⟨fun hn => ?_, fun hk hv hs hbad => ?_⟩⟩
    · rw [State.serveComplete_refused (s := s.popRequest rest) (State.heldTxn_badRef hnone)]
      rfl
    · rw [State.serveComplete_refused (s := s.popRequest rest) (State.heldTxn_wrongState ht hn)]
      rfl
    · rw [State.serveComplete_badValue (s := s.popRequest rest) (State.heldTxn_found ht hk hv hs) hbad]
      rfl

end Sys2Proof.Machine
end

