-- ==== Sys2Proof/Proofs/VoidRequest.lean ====
section
/-! PROOFS. VOID: the release of a local hold, the RELEASE frame of a remote one, and a void that waits for its place. -/
namespace Sys2Proof.Machine

section
variable {s : State} {t : Txn}

theorem State.withoutTxn_hand (n d : Nat) (m : Msg) : (s.withoutTxn n).hand d m = (s.hand d m).withoutTxn n := by
  unfold State.withoutTxn
  rw [State.setBr_hand, State.hand_br]

/-- A frame that finds its place does not wait (R149). -/
theorem State.waits_hand_placed {m : Msg} (d : Nat) (hroom : s.lc.hasRoom m.cls = true)
    (hnew : ∀ f ∈ s.lc.waitList, f.ticket ≠ s.ticket) : (s.hand d m).waits s.ticket = false := by
  rw [s.hand_placed d m hroom]
  simpa [State.waits, State.placeFrame] using hnew

/-- A frame that finds none waits (R149). -/
theorem State.waits_hand_waits {m : Msg} (d : Nat) (hroom : s.lc.hasRoom m.cls = false) :
    (s.hand d m).waits s.ticket = true := by
  rw [s.hand_waits d m hroom]
  simp [State.waits]

theorem State.serveRelease_held {p n : Nat} {k : Key} {id : HoldId} {x : Hold} (hx : s.holdNamed id p n k = some x)
    (hs : x.state = .held) : s.serveRelease p n k id = s.removeHold x.id := by
  unfold State.serveRelease
  rw [hx]
  exact if_pos hs

/-- A void ends by the till's word: a local one holds no reservation (R71). -/
theorem State.endVoid_local (hs : t.state = .localHeld) : s.endVoid t false =
    (s.withoutTxn t.reference).answer (successRecord .void t.tag (toBytes 2 t.reference)) := by
  simp only [State.endVoid, hs, if_true]
  rfl

theorem State.endVoid_reserved (hs : t.state ≠ .localHeld) : s.endVoid t false =
    ((s.withoutTxn t.reference).releaseReservation).answer (successRecord .void t.tag (toBytes 2 t.reference)) := by
  simp only [State.endVoid, hs, if_false]
  rfl

/-! ### The request (R71) -/

/-- A frame handed and a result given, whichever comes first. -/
theorem State.popRequest_hand_answer (s : State) (rest : List Request) (d : Nat) (m : Msg) (x : Record) :
    ((s.popRequest rest).hand d m).answer x = (s.hand d m).answered rest x := by
  unfold State.popRequest
  rw [State.setTill_hand]
  simp only [State.answered, State.hand_till]
  rfl

/-- The state with its abandonment timer stopped, before the void. -/
def State.voidBegun (s : State) (t : Txn) : State := s.modifyTxn t.reference fun x => { x with timer := none }

theorem State.withoutTxn_voidBegun (s : State) (t : Txn) :
    (s.voidBegun t).withoutTxn t.reference = s.withoutTxn t.reference :=
  State.withoutTxn_modifyTxn (f := fun x => { x with timer := none }) fun _ => rfl

theorem exec_voidTxn {r : Request} {rest : List Request} {st : TxnState} (h : s.Serves .void r rest)
    (href : fieldAt r.fields 0 2 = t.reference) (ht : s.HeldTxn t st)
    (hst : st = .localHeld ∨ st = .remoteHeld ∨ st = .standinHeld) :
    exec .void s = .next (State.settle (((s.popRequest rest).voidBegun t).voidTxn t false)) := by
  obtain ⟨htxn, hkind, rfl, hvoid⟩ := ht
  have hfound : (s.popRequest rest).heldTxn (fieldAt r.fields 0 2) = .inl t :=
    State.heldTxn_found (by rw [href]; exact htxn) hkind hvoid hst
  rw [exec_void h, State.serveVoid, hfound]
  rfl

/-- A local hold is released. -/
theorem State.voidTxn_local {x : Hold} (hs : t.state = .localHeld)
    (hx : s.holdNamed t.holdId s.own t.reference t.card.key = some x) (hheld : x.state = .held) :
    (s.voidBegun t).voidTxn t false = ((s.withoutTxn t.reference).removeHold x.id).answer
      (successRecord .void t.tag (toBytes 2 t.reference)) := by
  have hreleased := State.serveRelease_held (s := s.voidBegun t) hx hheld
  have hgone : ((s.removeHold x.id).voidBegun t).withoutTxn t.reference = (s.removeHold x.id).withoutTxn t.reference :=
    State.withoutTxn_voidBegun _ _
  simp only [State.voidTxn, hs]
  rw [show (s.voidBegun t).own = s.own from rfl, hreleased, State.endVoid_local hs]
  exact congrArg (fun u : State => u.answer (successRecord .void t.tag (toBytes 2 t.reference))) hgone

/-- A stand-in is given up without a frame. -/
theorem State.voidTxn_standin (hs : t.state = .standinHeld) : (s.voidBegun t).voidTxn t false =
    ((s.withoutTxn t.reference).releaseReservation).answer (successRecord .void t.tag (toBytes 2 t.reference)) := by
  simp only [State.voidTxn, hs]
  rw [State.endVoid_reserved (by simp [hs]), State.withoutTxn_voidBegun]

/-- A remote hold is released by a frame that has its place. -/
theorem State.voidTxn_remote (hs : t.state = .remoteHeld) (hroom : s.lc.hasRoom 1 = true)
    (hnew : ∀ f ∈ s.lc.waitList, f.ticket ≠ s.ticket) : (s.voidBegun t).voidTxn t false =
      (((s.withoutTxn t.reference).releaseReservation).hand t.station t.releaseMsg).answer
        (successRecord .void t.tag (toBytes 2 t.reference)) := by
  have hplaced : ((s.voidBegun t).hand t.station t.releaseMsg).waits (s.voidBegun t).ticket = false :=
    State.waits_hand_placed _ hroom hnew
  have hgone : ((s.voidBegun t).hand t.station t.releaseMsg).withoutTxn t.reference
      = (s.hand t.station t.releaseMsg).withoutTxn t.reference := by
    rw [State.voidBegun, State.modifyTxn_hand]
    exact State.withoutTxn_modifyTxn fun _ => rfl
  simp only [State.voidTxn, hs, hplaced, Bool.false_eq_true, if_false]
  rw [State.endVoid_reserved (by simp [hs]), hgone, State.releaseReservation, State.releaseReservation, State.setAu_hand,
    State.withoutTxn_hand, State.withoutTxn_au, State.withoutTxn_au, State.hand_au]

/-- A remote hold whose frame waits for a place: the void waits with it. -/
theorem State.voidTxn_waits (hs : t.state = .remoteHeld) (hroom : s.lc.hasRoom 1 = false) :
    (s.voidBegun t).voidTxn t false = (s.modifyTxn t.reference fun x =>
      { x with timer := none, voiding := some (s.ticket, false) }).hand t.station t.releaseMsg := by
  have hwaits : ((s.voidBegun t).hand t.station t.releaseMsg).waits (s.voidBegun t).ticket = true :=
    State.waits_hand_waits _ hroom
  simp only [State.voidTxn, hs, hwaits, if_true]
  rw [State.voidBegun, State.modifyTxn_hand, State.modifyTxn_hand]
  exact State.modifyTxn_modifyTxn (f := fun x => { x with timer := none })
    (g := fun x => { x with voiding := some (s.ticket, false), timer := none }) fun _ => rfl

end

/-- Settles O11: the end of the void of each kind of hold. -/
theorem voidCompletes : Obligations.VoidCompletes := by
  refine ⟨?localHold, ?remote, ?standin, ?waits⟩
  case localHold =>
    intro s r rest t x h href ht hx hheld
    rw [exec_voidTxn h href ht (.inl rfl), State.voidTxn_local (s := s.popRequest rest) ht.2.2.1 hx hheld]
    rfl
  case remote =>
    intro s r rest t target h href ht htarget hroom hnew
    have hstation : t.station = target := by rw [Txn.station, htarget]; rfl
    rw [exec_voidTxn h href ht (.inr (.inl rfl)), State.voidTxn_remote (s := s.popRequest rest) ht.2.2.1 hroom hnew,
      hstation]
    exact congrArg (fun u : State => Host.Outcome.next u.settle)
      (State.popRequest_hand_answer ((s.withoutTxn t.reference).releaseReservation) rest target t.releaseMsg _)
  case standin =>
    intro s r rest t h href ht
    rw [exec_voidTxn h href ht (.inr (.inr rfl)), State.voidTxn_standin (s := s.popRequest rest) ht.2.2.1]
    rfl
  case waits =>
    intro s r rest t target h href ht htarget hroom
    have hstation : t.station = target := by rw [Txn.station, htarget]; rfl
    rw [exec_voidTxn h href ht (.inr (.inl rfl)), State.voidTxn_waits (s := s.popRequest rest) ht.2.2.1 hroom, hstation]
    rfl

end Sys2Proof.Machine
end

