-- ==== Sys2Proof/Proofs/CloseAndHandoverRequests.lean ====
section
/-! PROOFS. CLOSE PERIOD with the close that it makes, and HANDOVER. -/
namespace Sys2Proof.Machine

/-! ### Frames that do not read the banks -/

section
variable {s : State}

/-- The frame that a BEACON is not is placed as it is (R163). -/
theorem State.placeFrame_of_kind {f : OutFrame} (h : f.msg.kind ≠ 14) : s.placeFrame f = s.setLc { s.lc with
    outbound := insertBy (fun g => g.msg.cls) f s.lc.outbound
    pauseGuard := if f.msg.kind = 15 then some (s.now + s.sc.config.pauseTime) else s.lc.pauseGuard } := by
  unfold State.placeFrame State.contents
  rw [if_neg h]

/-- Handing a frame that is no BEACON does not read the banks. -/
theorem State.setSu_hand (x : Settlement) (d : Nat) {m : Msg} (h : m.kind ≠ 14) :
    (s.setSu x).hand d m = (s.hand d m).setSu x := by
  cases hroom : s.lc.hasRoom m.cls
  · rw [s.hand_waits d m hroom, (s.setSu x).hand_waits d m hroom]; rfl
  · rw [s.hand_placed d m hroom, (s.setSu x).hand_placed d m hroom, State.placeFrame_of_kind h, State.placeFrame_of_kind h]
    rfl

end

/-! ### A close in its parts (R99) -/

/-- A close up to the finish of its own round: the banks move, CLOSE is handed, and the peers' marks clear. -/
def State.rolled (s : State) (q : Nat) : State :=
  let t := if (s.rollBanks q).onLine then (s.rollBanks q).broadcast (.close q) else s.rollBanks q
  t.setPm { t.pm with peers := Table.mapEntries {} (fun _ e => { e with missed := 0, degraded := false }) t.pm.peers }

section
variable {s : State} {q : Nat}

/-- CLOSE touches the line alone. -/
theorem State.rolled_line (s : State) (q : Nat) : (s.rollBanks q).LineOnly
    (if (s.rollBanks q).onLine then (s.rollBanks q).broadcast (.close q) else s.rollBanks q) := by
  split
  · exact State.broadcast_lineOnly _ _
  · exact .refl _

theorem State.rolled_su (s : State) (q : Nat) : (s.rolled q).su = (s.rollBanks q).su := (s.rolled_line q).su

theorem State.closeTo_eq (s : State) (q : Nat) : s.closeTo q =
    if s.forcedFinish.su.toClosing.finished then (s.forcedFinish.rolled q).finishRound else s.forcedFinish.rolled q := by
  have hclosing : (s.forcedFinish.rolled q).su.closing = some s.forcedFinish.su.toClosing := by
    rw [State.rolled_su]; rfl
  unfold State.closeTo
  change (match (s.forcedFinish.rolled q).su.closing with
    | some c => if c.finished then (s.forcedFinish.rolled q).finishRound else s.forcedFinish.rolled q
    | none => s.forcedFinish.rolled q) = _
  rw [hclosing]

theorem State.forcedFinish_empty (h : s.su.closing = none) : s.forcedFinish = s := by
  unfold State.forcedFinish
  rw [h]

/-- A bank with activity starts a round (R103). -/
theorem Settlement.toClosing_unfinished {u : Settlement} (h : ∃ e ∈ u.entries, e.2.active = true) :
    u.toClosing.finished = false := by
  obtain ⟨e, he, ha⟩ := h
  have hqueued : (e.1, e.2.closeStatus) ∈ u.toClosing.status :=
    List.mem_filter.mpr ⟨List.mem_map.mpr ⟨e, he, rfl⟩, by simp [PosEntry.closeStatus, ha]⟩
  rw [Bool.eq_false_iff]
  intro hf
  have := List.all_eq_true.mp hf _ hqueued
  simp [PosEntry.closeStatus, ha] at this

/-- A bank without activity has no statuses (R103). -/
theorem Settlement.toClosing_status {u : Settlement} (h : ∀ e ∈ u.entries, e.2.active = false) :
    u.toClosing.status = [] := by
  unfold Settlement.toClosing
  rw [List.filter_eq_nil_iff]
  intro x hx
  obtain ⟨e, he, rfl⟩ := List.mem_map.mp hx
  simp [PosEntry.closeStatus, h e he]

/-! ### The finish of a round (R113, R114) -/

/-- The notice of a finished round is for a handover (R119). -/
theorem State.roundNotice_none (h : s.cu.handover = none) {period : Nat} : s.roundNotice period = s := by
  unfold State.roundNotice
  rw [h]

/-- A round that finishes where no statement is half handed and no handover waits for it. -/
theorem State.finishRound_plain {c : Closing} (hc : s.su.closing = some c) (hsend : s.su.sending = none)
    (hhand : s.cu.handover = none) : s.finishRound =
      (s.setTill { s.till with payouts := pushPayout s.till.payouts c.payout }).setSu
        { s.su with closing := none, window := none } := by
  have hdrop : (s.setTill { s.till with payouts := pushPayout s.till.payouts c.payout }).dropStatement
      = s.setTill { s.till with payouts := pushPayout s.till.payouts c.payout } := by
    unfold State.dropStatement
    rw [show (s.setTill { s.till with payouts := pushPayout s.till.payouts c.payout }).su.sending = none from hsend]
  unfold State.finishRound
  rw [hc]
  dsimp only
  rw [hdrop]
  exact State.roundNotice_none (s := (s.setTill { s.till with payouts := pushPayout s.till.payouts c.payout }).setSu
    { s.su with closing := none, window := none }) hhand

/-- The payout of a round without statuses counts none. -/
theorem Closing.payout_quiet {c : Closing} (h : c.status = []) : c.payout.matched = 0 ∧ c.payout.broken = 0
    ∧ c.payout.unconfirmed = 0 ∧ c.payout.saturated = 0 ∧ c.payout.undeliverable = 0 := by
  simp [Closing.payout, Closing.countCompare, h]

end

/-- Settles O12: a close by its parts, `rolled` and the two finishes. -/
theorem closePeriodMovesTheOpenBank : Obligations.ClosePeriodMovesTheOpenBank := by
  refine ⟨?request, ?active, ?quiet, ?forced⟩
  case request =>
    intro s r rest h
    have hbelow : ¬ periodMax ≤ s.su.openPeriod → (s.popRequest rest).serveClosePeriod r =
        ((s.popRequest rest).closeTo (s.su.openPeriod + 1)).answer (successRecord .closePeriod r.tag
          (toBytes 4 s.su.openPeriod ++ toBytes 4 (s.su.openPeriod + 1))) := fun hlt => if_neg hlt
    have hlast : periodMax ≤ s.su.openPeriod → (s.popRequest rest).serveClosePeriod r =
        (s.popRequest rest).decline .closePeriod r .wrongState := fun hle => if_pos hle
    rw [exec_closePeriod h]
    refine ⟨fun hlt => ?_, fun hle => ?_⟩
    · rw [hbelow (Nat.not_le.mpr hlt)]
      rfl
    · rw [hlast hle]
      rfl
  case active =>
    intro s q hc ha t
    have ht : t = s.rolled q := by
      change s.closeTo q = _
      rw [State.closeTo_eq, State.forcedFinish_empty hc, if_neg (by simp [Settlement.toClosing_unfinished ha])]
    rw [ht]
    have hline := s.rolled_line q
    refine ⟨s.rolled_su q, ?_, ?_, hline.sc, hline.till, hline.cu, hline.br, hline.au, hline.now, hline.free, hline.pending⟩
    · have hlc := congrArg State.lc (State.setSu_hand (s := s) (s.rollBanks q).su 255 (m := .close q) (by simp [Msg.kind]))
      have honLine : (s.rollBanks q).onLine = s.onLine := rfl
      change (if (s.rollBanks q).onLine then (s.rollBanks q).broadcast (.close q) else s.rollBanks q).lc = _
      cases hon : s.onLine
      · rw [if_neg (by simp [honLine, hon]), if_neg (by simp)]
        rfl
      · rw [if_pos (honLine.trans hon), if_pos rfl]
        exact hlc
    · exact congrArg (fun p : PeerMon => { p with
        peers := Table.mapEntries {} (fun _ e => { e with missed := 0, degraded := false }) p.peers }) hline.pm
  case quiet =>
    intro s q hc hhand hsend hquiet
    have hstatus := Settlement.toClosing_status hquiet
    have hline := s.rolled_line q
    have hsu := s.rolled_su q
    have hfinish : s.closeTo q = (((s.rolled q).setTill { (s.rolled q).till with
        payouts := pushPayout (s.rolled q).till.payouts s.su.toClosing.payout }).setSu
        { (s.rolled q).su with closing := none, window := none }) := by
      rw [State.closeTo_eq, State.forcedFinish_empty hc, if_pos (by rw [Closing.finished, hstatus]; rfl)]
      exact State.finishRound_plain (by rw [hsu]; rfl) (by rw [hsu]; exact hsend)
        ((congrArg Custody.handover hline.cu).trans hhand)
    obtain ⟨hmatched, hbroken, hunconfirmed, hsaturated, hundeliverable⟩ := Closing.payout_quiet hstatus
    rw [hfinish]
    exact ⟨rfl, rfl, congrArg Settlement.openPeriod hsu, s.su.toClosing.payout,
      congrArg (fun l => pushPayout l s.su.toClosing.payout) (congrArg TillPort.payouts hline.till), rfl, rfl, rfl, rfl,
      hmatched, hbroken, hunconfirmed, hsaturated, hundeliverable, rfl⟩
  case forced =>
    intro s q c hc hsend hhand finished
    have hforced : s.forcedFinish = (s.setTill { s.till with payouts := pushPayout s.till.payouts finished.payout }).setSu
        { s.su with closing := none, window := none } := by
      unfold State.forcedFinish
      rw [hc]
      exact State.finishRound_plain (s := s.setSu { s.su with closing := some finished }) rfl hsend hhand
    rw [State.closeTo_eq, State.closeTo_eq, hforced]
    rw [State.forcedFinish_empty (s := (s.setTill _).setSu { s.su with closing := none, window := none }) rfl]

/-! ### HANDOVER (R117) -/

section
variable {s : State} {c : Nat}

theorem stationOk_iff : stationOk c = true ↔ 1 ≤ c ∧ c ≤ 239 := by simp [stationOk]

theorem State.handoverRefusal_badValue (hj : s.sc.station = .joined) (h : ¬ (1 ≤ c ∧ c ≤ 239 ∧ c ≠ s.own)) :
    s.handoverRefusal c = some .badValue := by
  have hbad : stationOk c = false ∨ c = s.own := by
    by_cases hown : c = s.own
    · exact .inr hown
    · exact .inl (Bool.eq_false_iff.mpr fun hok => h ⟨(stationOk_iff.mp hok).1, (stationOk_iff.mp hok).2, hown⟩)
  unfold State.handoverRefusal
  rw [if_neg (by simp [hj])]
  exact if_pos (by simpa using hbad)

theorem State.handoverRefusal_wrongState (hj : s.sc.station = .joined) (h : 1 ≤ c ∧ c ≤ 239 ∧ c ≠ s.own)
    (hbad : (s.peerAt c).presence ≠ .present ∨ s.br.txns ≠ [] ∨ s.cu.adoption ≠ none ∨ periodMax ≤ s.su.openPeriod) :
    s.handoverRefusal c = some .wrongState := by
  have hgood : ¬ (!stationOk c || decide (c = s.own)) = true := by
    simp [stationOk_iff.mpr ⟨h.1, h.2.1⟩, h.2.2]
  unfold State.handoverRefusal
  rw [if_neg (by simp [hj]), if_neg hgood]
  by_cases hp : (s.peerAt c).presence ≠ .present
  · rw [if_pos hp]
  by_cases ht : s.br.txns = []
  · by_cases hd : s.cu.adoption = none
    · rw [if_neg hp, if_neg (by simp [ht]), if_neg (by simp [hd]),
        if_pos ((hbad.resolve_left hp).resolve_left (not_not.mpr ht) |>.resolve_left (not_not.mpr hd))]
    · rw [if_neg hp, if_neg (by simp [ht]), if_pos (by simpa [Option.isSome_iff_ne_none] using hd)]
  · rw [if_neg hp, if_pos (by simpa using ht)]

theorem State.handoverRefusal_passes (hj : s.sc.station = .joined) (hlow : 1 ≤ c) (hhigh : c ≤ 239) (hown : c ≠ s.own)
    (hp : (s.peerAt c).presence = .present) (ht : s.br.txns = []) (hd : s.cu.adoption = none)
    (hperiod : s.su.openPeriod < periodMax) : s.handoverRefusal c = none := by
  simp [State.handoverRefusal, hj, stationOk_iff.mpr ⟨hlow, hhigh⟩, hown, hp, ht, hd, hperiod]

theorem State.serveHandover_refused {r : Request} {why : Reason} (h : s.handoverRefusal (fieldAt r.fields 0 1) = some why) :
    s.serveHandover r = s.decline .handover r why := by
  unfold State.serveHandover
  dsimp only
  rw [h]

end

/-- Settles O13: the tests in their order. -/
theorem handoverRequestCompletes : Obligations.HandoverRequestCompletes := by
  refine ⟨?drains, ?refused⟩
  case drains =>
    intro s r rest c h hc hj hlow hhigh hown hp ht hd hperiod
    have hpass : (s.popRequest rest).handoverRefusal (fieldAt r.fields 0 1) = none := by
      rw [hc]
      exact State.handoverRefusal_passes (s := s.popRequest rest) hj hlow hhigh hown hp ht hd hperiod
    rw [exec_handover h, State.serveHandover]
    dsimp only
    rw [hpass, hc]
    rfl
  case refused =>
    intro s r rest h hj
    rw [exec_handover h]
    refine ⟨fun hbad => ?_, fun hgood hbad => ?_⟩
    · rw [State.serveHandover_refused (s := s.popRequest rest) (State.handoverRefusal_badValue (s := s.popRequest rest) hj hbad)]
      rfl
    · rw [State.serveHandover_refused (s := s.popRequest rest)
        (State.handoverRefusal_wrongState (s := s.popRequest rest) hj hgood hbad)]
      rfl

end Sys2Proof.Machine
end

