-- ==== Sys2Proof/Proofs/ReadingRequests.lean ====
section
/-! PROOFS. The requests that only read: their answers, and the items of their results. -/
namespace Sys2Proof.Machine

/-! ### STATUS (R177) -/

/-- The bytes of one pin place. -/
def pinPlace (pins : List HomeEntry) (k : Nat) : List Byte :=
  match pins[k]? with
  | some e => toBytes 1 e.home ++ toBytes 1 e.custodian
  | none => toBytes 2 0

/-- The pin places stand in their order. -/
theorem pinBytes_succ (pins : List HomeEntry) (n : Nat) : pinBytes pins (n + 1) = pinPlace pins 0 ++ pinBytes pins.tail n := by
  cases pins <;> rfl

theorem pinPlace_tail (pins : List HomeEntry) (k : Nat) : pinPlace pins.tail k = pinPlace pins (k + 1) := by
  cases pins <;> rfl

theorem pinBytes_four (pins : List HomeEntry) :
    pinBytes pins 4 = pinPlace pins 0 ++ (pinPlace pins 1 ++ (pinPlace pins 2 ++ pinPlace pins 3)) := by
  rw [pinBytes_succ, pinBytes_succ, pinBytes_succ, pinBytes_succ, pinPlace_tail, pinPlace_tail, pinPlace_tail,
    pinPlace_tail, pinPlace_tail, pinPlace_tail, show pinBytes pins.tail.tail.tail.tail 0 = [] from rfl, List.append_nil]

/-- The count of UNKNOWN peers takes in the peers that are not listed (log 15). -/
theorem State.peersIn_unknown (s : State) :
    s.peersIn .unknown = ((s.pm.peers.filter fun e => e.1 ≠ s.own).filter fun e => e.2.presence = .unknown).length
      + ((if 1 ≤ s.own ∧ s.own ≤ 239 then 238 else 239) - (s.pm.peers.filter fun e => e.1 ≠ s.own).length) := by
  unfold State.peersIn
  by_cases h : 1 ≤ s.own ∧ s.own ≤ 239 <;> simp [stationOk, h]

theorem State.peersIn_listed (s : State) {p : Presence} (h : p ≠ .unknown) :
    s.peersIn p = ((s.pm.peers.filter fun e => e.1 ≠ s.own).filter fun e => e.2.presence = p).length := if_neg h

/-- The substate's code, and the cards that an open adoption has still to receive. -/
theorem State.sub_code (s : State) : s.sub.map (·.code) = s.cu.handover.map fun h => h.sub.code := by
  unfold State.sub
  rw [Option.map_map]
  rfl

theorem State.statusCards_eq (s : State) : s.statusCards =
    toBytes 2 (countState s.cu.cards .active) ++ toBytes 2 (countState s.cu.cards .closed)
      ++ toBytes 2 (countState s.cu.cards .pendingAdopt) ++ toBytes 2 s.usableSlots ++ toBytes 3 s.cu.nextSerial
      ++ optionalBytes 1 (s.cu.adoption.map (·.station)) ++ toBytes 2 (countState s.cu.cards .pendingAdopt)
      ++ toBytes 2 ((s.cu.adoption.map (·.toCome)).getD 0) := by
  unfold State.statusCards
  cases s.cu.adoption <;> rfl

/-! ### PEER (R157) -/

/-- The station that an advice counts for (R82). -/
theorem State.currentTarget_eq (s : State) (x : Advice) : s.currentTarget x =
    if x.state = .inDelivery then x.lastTarget.getD (s.targetOf x.card.home) else s.targetOf x.card.home := by
  unfold State.currentTarget
  cases x.state <;> cases x.lastTarget <;> rfl

theorem State.targetOf_eq (s : State) (home : Nat) : s.targetOf home = if s.isHere home = true then s.own
    else ((s.pm.homeMap.find? fun m => m.home = home).map (·.custodian)).getD home := by
  unfold State.targetOf
  rw [State.custodianOf_eq]

theorem State.pauseEndOf_instant (s : State) (a : Nat) : (s.pauseEndOf a).map (· % 4294967296) =
    (s.lc.pauses.find? fun x => x.1 = a).map fun x => x.2 % 4294967296 := by
  unfold State.pauseEndOf
  rw [Option.map_map]
  rfl

theorem State.servePeer_good {s : State} {r : Request} (h : 1 ≤ fieldAt r.fields 0 1 ∧ fieldAt r.fields 0 1 ≤ 239) :
    s.servePeer r = (s.answer (successRecord .peer r.tag (s.peerFields (fieldAt r.fields 0 1)))).useFree 1 :=
  if_pos (stationOk_iff.mpr h)

theorem State.servePeer_bad {s : State} {r : Request} (h : ¬ (1 ≤ fieldAt r.fields 0 1 ∧ fieldAt r.fields 0 1 ≤ 239)) :
    s.servePeer r = s.decline .peer r .badValue := if_neg (mt stationOk_iff.mp h)

/-! ### READ POSITION (R96) -/

theorem State.serveReadPosition_badBank {s : State} {r : Request} (h : 1 < fieldAt r.fields 1 1) :
    s.serveReadPosition r = s.decline .readPosition r .badValue := if_pos h

theorem State.serveReadPosition_good {s : State} {r : Request} (hlow : 1 ≤ fieldAt r.fields 0 1)
    (hhigh : fieldAt r.fields 0 1 ≤ 239) (hbank : fieldAt r.fields 1 1 ≤ 1) : s.serveReadPosition r =
      s.answer (successRecord .readPosition r.tag (if fieldAt r.fields 1 1 = 0 then s.openFields (fieldAt r.fields 0 1)
        else s.closingFields (fieldAt r.fields 0 1))) :=
  (if_neg (Nat.not_lt.mpr hbank)).trans (if_pos (stationOk_iff.mpr ⟨hlow, hhigh⟩))

/-- Settles O14: each request's answer, and the bytes of its items in their order. -/
theorem readingsChangeNothingElse : Obligations.ReadingsChangeNothingElse := by
  refine ⟨?status, ?peer, ?position, ?float, ?statusItems, ?peerItems, ?entryItems, ?closingItems⟩
  case status =>
    intro s r rest h
    rw [exec_status h]
    rfl
  case peer =>
    intro s r rest a h ha
    rw [exec_peer h]
    subst ha
    refine ⟨fun hgood => ?_, fun hbad => ?_⟩
    · rw [State.servePeer_good hgood]
      rfl
    · rw [State.servePeer_bad hbad]
      rfl
  case position =>
    intro s r rest a h ha
    rw [exec_readPosition h]
    subst ha
    refine ⟨fun hlow hhigh hbank => ?_, fun hlow hhigh hbank => ?_, fun hbad => ?_⟩
    · rw [State.serveReadPosition_good hlow hhigh (by omega), if_pos hbank]
      rfl
    · rw [State.serveReadPosition_good hlow hhigh (by omega), if_neg (by omega)]
      rfl
    · rw [State.serveReadPosition_badBank hbad]
      rfl
  case float =>
    intro s r rest h
    rw [exec_readFloat h]
    rfl
  case statusItems =>
    intro s counted listed pin c
    simp only [State.statusFields, State.statusStation, State.statusCards_eq, State.statusWork, State.statusLine,
      State.statusPeers, State.roundBytes, ConfigRecord.bytes, pinBytes_four, State.peersIn_unknown,
      State.peersIn_listed s (p := .present) (by decide), State.peersIn_listed s (p := .quiet) (by decide),
      State.peersIn_listed s (p := .absent) (by decide), State.sub_code, List.append_assoc]
    rfl
  case peerItems =>
    intro s a
    refine ⟨s.freeNat 0, ?_⟩
    intro e instant target
    have htarget : (fun x => decide (s.currentTarget x = a)) = fun x => decide (target x = a) := by
      funext x
      rw [State.currentTarget_eq, State.targetOf_eq]
    simp only [State.peerFields, State.pauseEndOf_instant, htarget, List.append_assoc]
    change _ = toBytes 1 (s.peerAt a).presence.code ++ _
    cases (s.peerAt a).lastBeacon <;> cases s.pm.homeMap.find? fun m => decide (m.home = a) <;>
      simp only [beaconBytes, State.homeEntryBytes, BeaconData.bytes, List.append_assoc]
    · rfl
    · rename_i m; cases m.learned <;> rfl
    · rfl
    · rename_i b m; cases m.learned <;> rfl
  case entryItems => exact fun _ _ => ⟨rfl, rfl, rfl⟩
  case closingItems =>
    intro s a
    refine ⟨fun c hc => ?_, fun hc => ?_⟩
    · simp only [State.closingFields, State.roundBytes, hc]
      rfl
    · have hzero : toBytes 1 0 ++ (toBytes 1 0 ++ toBytes 4 0) = toBytes 6 0 := by decide
      have hcodes : toBytes 1 CompareStatus.none.code ++ toBytes 1 SendStatus.none.code = toBytes 2 0 := by decide
      simp only [State.closingFields, State.roundBytes, hc, ← hzero, ← hcodes, List.append_assoc]
      rfl

end Sys2Proof.Machine
end

