-- ==== Sys2Proof/Proofs/ConfigureRequest.lean ====
section
/-! PROOFS. CONFIGURE and JOIN: the fields read and written, the clamp list, the pins, and the values taken. -/
namespace Sys2Proof.Machine

/-! ### Bytes (R189) -/

/-- The number that bytes spell, folded from the most significant byte. -/
theorem foldl_bytes (l : List Byte) (acc : Nat) :
    l.foldl (fun v b => v * 256 + b.toNat) acc = acc * 256 ^ l.length + ofBytes l := by
  induction l generalizing acc with
  | nil => simp [ofBytes]
  | cons b l ih =>
    rw [List.foldl_cons, ih, ofBytes, List.length_cons, Nat.pow_succ]
    ring

theorem fieldAt_eq_foldl (f : List Byte) (offset length : Nat) :
    fieldAt f offset length = ((f.drop offset).take length).foldl (fun v b => v * 256 + b.toNat) 0 := by
  rw [foldl_bytes, Nat.zero_mul, Nat.zero_add]
  rfl

theorem toBytes_eq_map (n v : Nat) : toBytes n v = (List.range n).map fun i => BitVec.ofNat 8 (v / 256 ^ (n - 1 - i)) := by
  induction n with
  | zero => rfl
  | succ n ih =>
    rw [toBytes, ih, List.range_succ_eq_map, List.map_cons, List.map_map]
    congr 1
    apply List.map_congr_left
    intro i hi
    have : n - 1 - i = n + 1 - 1 - (i + 1) := by omega
    simp [this]

/-! ### The clamp list (R178) -/

/-- One entry for each value that is not the one written, under its place in the order. -/
theorem clampEntries_eq (code : Nat) (written taken : List Nat) : clampEntries code written taken =
    (((written.zip taken).zipIdx code).filter fun x => x.1.1 ≠ x.1.2).map fun x =>
      { code := x.2, written := x.1.1, taken := x.1.2 } := by
  induction written generalizing code taken with
  | nil => rfl
  | cons w ws ih =>
    cases taken with
    | nil => rfl
    | cons t ts =>
      by_cases h : w = t
      · simp [clampEntries, h, ih]
      · simp [clampEntries, h, ih]

theorem clampFields_eq (l : List ClampEntry) : clampFields l = toBytes 1 l.length
    ++ l.flatMap fun e => toBytes 1 e.code ++ toBytes 4 e.written ++ toBytes 4 e.taken := by
  rw [clampFields, List.flatMap_def]

/-! ### Pins (R167) -/

theorem State.pinDropped_iff (s : State) (earlier : List PinPlace) (p : PinPlace) : s.pinDropped earlier p = true ↔
    ¬ (1 ≤ p.home ∧ p.home ≤ 239) ∨ ¬ (1 ≤ p.custodian ∧ p.custodian ≤ 239) ∨ p.home = p.custodian ∨ p.home = s.own
      ∨ p.custodian = s.own ∨ p.home ∈ s.cu.adopted ∨ ∃ q ∈ earlier, q.home = p.home := by
  have hbad : ∀ a, (!stationOk a) = true ↔ ¬ (1 ≤ a ∧ a ≤ 239) := fun a => by
    rw [Bool.not_eq_true', Bool.eq_false_iff, ne_eq, stationOk_iff]
  simp only [State.pinDropped, Bool.or_eq_true, hbad, decide_eq_true_eq, List.contains_iff_mem, List.any_eq_true, or_assoc]

theorem State.sortPins_dropped {s : State} {earlier : List PinPlace} {p : PinPlace} (h : s.pinDropped earlier p = true)
    (rest : List PinPlace) : s.sortPins earlier (p :: rest) =
      ((s.sortPins (earlier ++ [p]) rest).1, p :: (s.sortPins (earlier ++ [p]) rest).2) := if_pos h

theorem State.sortPins_taken {s : State} {earlier : List PinPlace} {p : PinPlace} (h : s.pinDropped earlier p = false)
    (rest : List PinPlace) : s.sortPins earlier (p :: rest) =
      (p :: (s.sortPins (earlier ++ [p]) rest).1, (s.sortPins (earlier ++ [p]) rest).2) :=
  if_neg (Bool.eq_false_iff.mp h)

/-- Which pins are dropped decides how they are sorted. -/
theorem State.sortPins_congr {s t : State} (h : ∀ earlier p, s.pinDropped earlier p = t.pinDropped earlier p)
    (earlier l : List PinPlace) : s.sortPins earlier l = t.sortPins earlier l := by
  induction l generalizing earlier with
  | nil => rfl
  | cons p l ih => simp only [State.sortPins, h, ih]

theorem pinPlaces_eq (f : List Byte) : pinPlaces f = ([
    { code := 20, home := fieldAt f 42 1, custodian := fieldAt f 43 1 },
    { code := 21, home := fieldAt f 44 1, custodian := fieldAt f 45 1 },
    { code := 22, home := fieldAt f 46 1, custodian := fieldAt f 47 1 },
    { code := 23, home := fieldAt f 48 1, custodian := fieldAt f 49 1 }] : List PinPlace).filter
    fun p => ¬ (p.home = 0 ∧ p.custodian = 0) := by
  have hempty : (fun p : PinPlace => (decide (p.home ≠ 0) || decide (p.custodian ≠ 0))) =
      fun p => decide (¬ (p.home = 0 ∧ p.custodian = 0)) := by
    funext p
    rw [Bool.eq_iff_iff]
    simp only [Bool.or_eq_true, decide_eq_true_eq]
    omega
  rw [← hempty]
  rfl

/-! ### The record taken (R29) -/

/-- The lifetime records stay where the fee rate does. -/
theorem State.takeConfig_eq (s : State) (c : ConfigRecord) : s.takeConfig c = (s.setSc { s.sc with config := c }).setSu
    { s.su with lifetime := if c.feeRate = s.sc.config.feeRate then s.su.lifetime else [] } := by
  unfold State.takeConfig
  by_cases h : c.feeRate = s.sc.config.feeRate
  · rw [if_pos h, if_pos h]; rfl
  · rw [if_neg h, if_neg h]; rfl

/-- Settles O15: the answers of the two requests, and the fields, the list and the pins. -/
theorem configureAndJoinComplete : Obligations.ConfigureAndJoinComplete := by
  refine ⟨?configure, ?join, pinPlaces_eq, State.pinDropped_iff, fun _ => rfl, fun _ => rfl,
    clampEntries_eq 1, ?pins, clampFields_eq, fieldAt_eq_foldl, toBytes_eq_map⟩
  case configure =>
    intro s r rest h
    rw [exec_configure h, State.serveConfigure]
    dsimp only
    rw [State.takeConfig_eq, State.sortPins_congr (s := s.popRequest rest) (t := s) fun _ _ => rfl]
    rfl
  case join =>
    intro s r rest h
    rw [exec_join h]
    rfl
  case pins =>
    exact fun s earlier p rest => ⟨rfl, fun h => State.sortPins_dropped h rest, fun h => State.sortPins_taken h rest, rfl⟩

end Sys2Proof.Machine
end

