-- ==== Sys2Proof/Proofs/ConfiguredValues.lean ====
section
/-! PROOFS. The values that a CONFIGURE takes: their ranges, their relations, and what is outstanding. -/
namespace Sys2Proof.Machine

/-! ### Sums and largest values -/

section
variable {α : Type}

theorem le_maxOf (f : α → Nat) {l : List α} {x : α} (h : x ∈ l) : f x ≤ maxOf f l := by
  induction l with
  | nil => simp at h
  | cons y l ih =>
    rw [maxOf]
    rcases List.mem_cons.mp h with rfl | h
    · exact le_max_left _ _
    · exact (ih h).trans (le_max_right _ _)

theorem maxOf_attained (f : α → Nat) (l : List α) : maxOf f l = 0 ∨ ∃ x ∈ l, f x = maxOf f l := by
  induction l with
  | nil => exact .inl rfl
  | cons y l ih =>
    rw [maxOf]
    rcases le_total (f y) (maxOf f l) with h | h
    · rw [max_eq_right h]
      exact ih.imp_right fun ⟨x, hx, hf⟩ => ⟨x, List.mem_cons_of_mem _ hx, hf⟩
    · rw [max_eq_left h]
      exact .inr ⟨y, List.mem_cons_self, rfl⟩

theorem maxOf_le {f : α → Nat} {l : List α} {n : Nat} (h : ∀ x ∈ l, f x ≤ n) : maxOf f l ≤ n := by
  rcases maxOf_attained f l with hz | ⟨x, hx, hf⟩
  · omega
  · exact hf ▸ h x hx

/-- The larger of two largest values is one of the values. -/
theorem max_maxOf_attained {β : Type} (f : α → Nat) (l : List α) (g : β → Nat) (m : List β) :
    max (maxOf f l) (maxOf g m) = 0 ∨ (∃ x ∈ l, f x = max (maxOf f l) (maxOf g m))
      ∨ ∃ y ∈ m, g y = max (maxOf f l) (maxOf g m) := by
  rcases le_total (maxOf f l) (maxOf g m) with h | h
  · rw [max_eq_right h]
    exact (maxOf_attained g m).imp_right .inr
  · rw [max_eq_left h]
    exact (maxOf_attained f l).imp_right .inl

/-- A sum over the elements that satisfy `p`. -/
theorem sumOf_ite (f : α → Nat) (p : α → Bool) (l : List α) :
    sumOf (fun x => if p x then f x else 0) l = ((l.filter p).map f).sum := by
  induction l with
  | nil => rfl
  | cons x l ih =>
    rw [sumOf, ih]
    by_cases h : p x = true <;> simp [h]

theorem sumOf_pos {f : α → Nat} {l : List α} (h : 0 < sumOf f l) : ∃ x ∈ l, 0 < f x := by
  induction l with
  | nil => exact absurd h (Nat.lt_irrefl 0)
  | cons x l ih =>
    rcases Nat.eq_zero_or_pos (f x) with hz | hpos
    · obtain ⟨y, hy, hp⟩ := ih (by rw [sumOf, hz] at h; omega)
      exact ⟨y, List.mem_cons_of_mem _ hy, hp⟩
    · exact ⟨x, List.mem_cons_self, hpos⟩

theorem sumOf_le_of_le {f g : α → Nat} (h : ∀ x, f x ≤ g x) (l : List α) : sumOf f l ≤ sumOf g l := by
  induction l with
  | nil => exact le_refl _
  | cons x l ih => exact Nat.add_le_add (h x) ih

end

/-! ### Provisional outstanding (R79, R80) -/

section
variable (s : State)

theorem State.outstandingWhere_eq (p : CardNo → Bool) : s.outstandingWhere p =
    ((s.au.queue.filter fun a => a.kind = .standin && a.state ≠ .settled && p a.card).map (·.amount)).sum
      + ((s.br.txns.filter fun t => t.state = .standinHeld && p t.card).map (·.amount)).sum := by
  rw [← sumOf_ite, ← sumOf_ite]
  rfl

/-- Something is outstanding only where an advice or a transaction is for it. -/
theorem State.outstandingWhere_pos {p : CardNo → Bool} (h : 0 < s.outstandingWhere p) :
    (∃ a ∈ s.au.queue, p a.card = true) ∨ ∃ t ∈ s.br.txns, p t.card = true := by
  rcases Nat.eq_zero_or_pos (sumOf (fun a => if a.counts && p a.card then a.amount else 0) s.au.queue) with hz | hpos
  · right
    obtain ⟨t, ht, hp⟩ := sumOf_pos (f := fun t : Txn => if t.state = .standinHeld && p t.card then t.amount else 0)
      (l := s.br.txns) (by unfold State.outstandingWhere at h; omega)
    refine ⟨t, ht, ?_⟩
    by_contra hn
    simp [hn] at hp
  · left
    obtain ⟨a, ha, hp⟩ := sumOf_pos hpos
    refine ⟨a, ha, ?_⟩
    by_contra hn
    simp [hn] at hp

theorem State.outstandingWhere_mono {p q : CardNo → Bool} (h : ∀ c, p c = true → q c = true) :
    s.outstandingWhere p ≤ s.outstandingWhere q := by
  refine Nat.add_le_add (sumOf_le_of_le (fun a => ?_) _) (sumOf_le_of_le (fun t => ?_) _)
  · by_cases hp : p a.card = true
    · simp [hp, h _ hp]
    · simp [hp]
  · by_cases hp : p t.card = true
    · simp [hp, h _ hp]
    · simp [hp]

theorem State.outstandingHome_le (home : Nat) : s.outstandingHome home ≤ s.largestHome := by
  rcases Nat.eq_zero_or_pos (s.outstandingHome home) with hz | hpos
  · omega
  · rcases s.outstandingWhere_pos hpos with ⟨a, ha, hp⟩ | ⟨t, ht, hp⟩
    · rw [← of_decide_eq_true hp]
      exact (le_maxOf (fun a : Advice => s.outstandingHome a.card.home) ha).trans (le_max_left _ _)
    · rw [← of_decide_eq_true hp]
      exact (le_maxOf (fun t : Txn => s.outstandingHome t.card.home) ht).trans (le_max_right _ _)

theorem State.outstandingCard_le (k : Key) : s.outstandingCard k ≤ s.largestCard := by
  rcases Nat.eq_zero_or_pos (s.outstandingCard k) with hz | hpos
  · omega
  · rcases s.outstandingWhere_pos hpos with ⟨a, ha, hp⟩ | ⟨t, ht, hp⟩
    · rw [← of_decide_eq_true hp]
      exact (le_maxOf (fun a : Advice => s.outstandingCard a.card.key) ha).trans (le_max_left _ _)
    · rw [← of_decide_eq_true hp]
      exact (le_maxOf (fun t : Txn => s.outstandingCard t.card.key) ht).trans (le_max_right _ _)

/-- A card's outstanding is part of its home's. -/
theorem State.outstandingCard_le_home (card : CardNo) : s.outstandingCard card.key ≤ s.outstandingHome card.home :=
  s.outstandingWhere_mono fun _ hc => decide_eq_true (congrArg Key.home (of_decide_eq_true hc))

theorem State.largestCard_le_largestHome : s.largestCard ≤ s.largestHome :=
  max_le (maxOf_le fun a _ => (s.outstandingCard_le_home a.card).trans (s.outstandingHome_le _))
    (maxOf_le fun t _ => (s.outstandingCard_le_home t.card).trans (s.outstandingHome_le _))

theorem State.largestHome_attained : s.largestHome = 0 ∨ ∃ home, s.outstandingHome home = s.largestHome := by
  refine (max_maxOf_attained (fun a : Advice => s.outstandingHome a.card.home) s.au.queue
    (fun t : Txn => s.outstandingHome t.card.home) s.br.txns).imp_right ?_
  rintro (⟨a, _, ha⟩ | ⟨t, _, ht⟩)
  · exact ⟨_, ha⟩
  · exact ⟨_, ht⟩

theorem State.largestCard_attained : s.largestCard = 0 ∨ ∃ k, s.outstandingCard k = s.largestCard := by
  refine (max_maxOf_attained (fun a : Advice => s.outstandingCard a.card.key) s.au.queue
    (fun t : Txn => s.outstandingCard t.card.key) s.br.txns).imp_right ?_
  rintro (⟨a, _, ha⟩ | ⟨t, _, ht⟩)
  · exact ⟨_, ha⟩
  · exact ⟨_, ht⟩

/-! ### The highest ACTIVE balance (R15) -/

theorem State.balance_le_highestActive {r : Card} (hr : r ∈ s.cu.cards) (ha : r.state = .active) :
    r.balance ≤ s.highestActive := by
  have h := le_maxOf (fun r : Card => if r.state = .active then r.balance else 0) hr
  rwa [if_pos ha] at h

theorem State.highestActive_attained :
    s.highestActive = 0 ∨ ∃ r ∈ s.cu.cards, r.state = .active ∧ r.balance = s.highestActive := by
  rcases maxOf_attained (fun r : Card => if r.state = .active then r.balance else 0) s.cu.cards with hz | ⟨r, hr, hv⟩
  · exact .inl hz
  · by_cases ha : r.state = .active
    · rw [if_pos ha] at hv
      exact .inr ⟨r, hr, ha, hv⟩
    · rw [if_neg ha] at hv
      exact .inl hv.symm

theorem State.highestActive_le {n : Nat} (h : ∀ r ∈ s.cu.cards, r.state = .active → r.balance ≤ n) :
    s.highestActive ≤ n := by
  rcases s.highestActive_attained with hz | ⟨r, hr, ha, hv⟩
  · omega
  · exact hv ▸ h r hr ha

end

/-! ### The values taken (R178) -/

/-- The nearest value in a range. -/
theorem clampTo_eq {low high : Nat} (h : low ≤ high) (v : Nat) :
    clampTo low high v = if v < low then low else if high < v then high else v := by
  unfold clampTo
  split
  · omega
  · split <;> omega

/-- The lower load limit is the value written, or the highest one under the upper limit (R165). -/
theorem State.adjust_lower (s : State) (w : ConfigRecord) :
    (s.adjust w).lower = min (min w.lower 3999) ((s.adjust w).upper - 1) := by
  change (if min w.lower 3999 < (s.adjust w).upper then min w.lower 3999 else (s.adjust w).upper - 1) = _
  split <;> omega

/-- Settles O16: the ranges from the clamps, the relations from the largest values. -/
theorem configuredValuesAreInRange : Obligations.ConfiguredValuesAreInRange := by
  refine ⟨?ranges, ?values, ?kept, ?outstanding⟩
  case ranges =>
    intro s w hbalance c
    have hactive := s.highestActive_le hbalance
    have hcards := s.largestCard_le_largestHome
    have hlower := s.adjust_lower w
    simp only [State.adjust, clampTo] at hlower
    refine ⟨?_, ?_, fun r hr ha => (s.balance_le_highestActive hr ha).trans (le_max_right _ _), ?_⟩
    all_goals simp only [c, State.adjust, clampTo,]
    · omega
    · omega
    · and_intros <;> omega
  case values =>
    intro s w clamp c
    have hclamp : ∀ {low high}, low ≤ high → ∀ v, clampTo low high v = clamp low high v := clampTo_eq
    have hzero : ∀ high v, min v high = clamp 0 high v := fun high v => by
      rw [← hclamp (Nat.zero_le high), clampTo, Nat.zero_max, Nat.min_comm]
    simp only [c, State.adjust, hclamp (show 1000 ≤ 10000000 by decide), hclamp (show 1 ≤ 255 by decide),
      hclamp (show 30 ≤ 900 by decide), hclamp (show 100 ≤ 5000 by decide), hclamp (show 10 ≤ 900 by decide),
      hclamp (show 1 ≤ 5 by decide), hclamp (show 1 ≤ 30 by decide), hclamp (show 1 ≤ 4000 by decide),
      hclamp (show 1 ≤ 15 by decide), hclamp (show 10 ≤ 600 by decide), hclamp (show 5 ≤ 255 by decide),
      hzero 1000 w.feeRate, hzero 1000000 w.normalBudget, hzero 1000000 w.busyBudget, hzero 3999 w.lower, and_self]
  case kept =>
    intro s w
    have hlower := s.adjust_lower w
    cases w
    simp only [State.adjust, clampTo] at hlower
    dsimp only
    intros
    simp only [State.adjust, clampTo, ConfigRecord.mk.injEq]
    and_intros <;> omega
  case outstanding =>
    exact fun s => ⟨fun _ => s.outstandingWhere_eq _, fun _ => s.outstandingWhere_eq _, s.outstandingHome_le,
      s.largestHome_attained, s.outstandingCard_le, s.largestCard_attained, fun _ => s.balance_le_highestActive,
      s.highestActive_attained⟩

end Sys2Proof.Machine
end

