-- ==== Sys2Proof/Proofs/Starts.lean ====
section
/-! PROOFS. Warm and cold starts, and the reports that are given a free slot. -/
namespace Sys2Proof.Machine

/-! ### The latched address (R181) -/

section
variable {p : Straps} {stored : Option Nat}

theorem addressValid_iff : addressValid p = true ↔ StrapsValid p := stationOk_iff

theorem latchAddress_bad (h : ¬ StrapsValid p) : latchAddress stored p = (stored, some .badAddress) :=
  if_pos (by rw [Bool.eq_false_iff.mpr (mt addressValid_iff.mp h)]; rfl)

theorem latchAddress_changed (h : StrapsValid p) {a : Nat} (ha : a ≠ p.address) :
    latchAddress (some a) p = (some a, some .addressChanged) := by
  simp [latchAddress, addressValid_iff.mpr h, ha]

theorem latchAddress_good (h : StrapsValid p) (hs : stored = none ∨ stored = some p.address) :
    latchAddress stored p = (some p.address, none) := by
  rcases hs with rfl | rfl <;> simp [latchAddress, addressValid_iff.mpr h]

end

/-! ### A warm start (R183) -/

section
variable {s : State} {p : Straps}

/-- A start that is not cold is warm. -/
theorem State.start_warm (hclear : p.clear = false) (hvalid : s.sc.storeValid = true) : s.start p true = s.warmStart p :=
  if_neg (by simp [State.startCold, hclear, hvalid])

theorem State.start_cold {held : Bool} (h : p.clear = true ∨ s.sc.storeValid = false ∨ held = false) :
    s.start p held = s.coldStart p := if_pos (by rcases h with h | h | h <;> simp [State.startCold, h])

theorem State.warmStart_warmStarted (s : State) (p : Straps) : s.WarmStarted p (s.warmStart p) where
  straps := rfl
  halted h := by simp [State.warmStart, latchAddress_bad h]
  changed h := by
    rintro ⟨a, hs, ha⟩
    simp [State.warmStart, hs, latchAddress_changed h ha]
  started h hs := by simp [State.warmStart, latchAddress_good h hs]
  controller := ⟨rfl, rfl, rfl, rfl, rfl, rfl, rfl, rfl⟩
  till := rfl
  custody := rfl
  broker := rfl
  advices := rfl
  banks := rfl
  line := rfl
  peers := rfl
  clock := rfl
  queue := rfl

/-- The return from RETAIN adds the report to a warm start. -/
theorem State.WarmStarted.reportStop {t : State} (h : s.WarmStarted p t) : s.WarmStarted p t.reportStop := by
  unfold State.reportStop
  cases t.sc.stopRecord with
  | none => exact h
  | some x =>
    exact ⟨h.straps, h.halted, h.changed, h.started, h.controller, h.till, h.custody, h.broker, h.advices, h.banks, h.line,
      h.peers, h.clock, h.queue⟩

/-- What intake takes is not kept over a start. -/
theorem State.warmStart_popRequest (s : State) (rest : List Request) (p : Straps) :
    (s.popRequest rest).warmStart p = s.warmStart p := rfl

/-! ### A cold start (R183) -/

theorem State.coldStart_eq (s : State) (p : Straps) : s.coldStart p = s.coldStarted p := by
  unfold State.coldStart State.coldStarted
  by_cases h : StrapsValid p
  · simp [addressValid_iff.mpr h, h]
  · simp [Bool.eq_false_iff.mpr (mt addressValid_iff.mp h), h]

/-! ### The four ways to start -/

theorem exec_resetPin {warning : Bool} (hs : s.sc.station ≠ .retain) (hw : s.sc.supply = .normal ∨ warning = false) :
    exec (.resetPin p warning) s = .next (s.start p true) := by
  have hno : (s.sc.supply = .warned && warning) = false := by rcases hw with hw | hw <;> simp [hw]
  change Host.Outcome.next (if s.sc.station = .retain then s
    else if s.sc.supply = .warned && warning then (s.start p true).warn else s.start p true) = _
  rw [if_neg hs, hno]
  rfl

theorem exec_supplyReturn_retain {held : Bool} (hs : s.sc.station = .retain) :
    exec (.supplyReturn p held) s = .next (s.endRetain { straps := p, held }) := congrArg _ (if_pos hs)

theorem exec_supplyReturn_departing {held : Bool} (hs : s.sc.station ≠ .retain) (hw : s.sc.supply = .warned) :
    exec (.supplyReturn p held) s = .next (s.setSc { s.sc with returned := some { straps := p, held } }) :=
  congrArg _ ((if_neg hs).trans (if_pos hw))

theorem exec_supplyReturn_normal {held : Bool} (hs : s.sc.station ≠ .retain) (hw : s.sc.supply = .normal) :
    exec (.supplyReturn p held) s = .next s := congrArg _ ((if_neg hs).trans (if_neg (by simp [hw])))

end

/-- Settles O17: each of the four is the same warm start, with the report after RETAIN. -/
theorem warmStartsKeepTheRetainedStore : Obligations.WarmStartsKeepTheRetainedStore := by
  refine ⟨?powerUp, ?resetPin, ?restart, ?supplyReturn⟩
  case powerUp =>
    intro s p hclear hvalid
    exact ⟨_, congrArg Host.Outcome.next (State.start_warm hclear hvalid), s.warmStart_warmStarted p, rfl, rfl⟩
  case resetPin =>
    intro s p warning hclear hvalid hs hw
    exact ⟨_, (exec_resetPin hs hw).trans (congrArg _ (State.start_warm hclear hvalid)), s.warmStart_warmStarted p, rfl, rfl⟩
  case restart =>
    intro s r rest p h hclear hvalid
    have hstart : (s.popRequest rest).start p true = s.warmStart p :=
      (State.start_warm (s := s.popRequest rest) hclear hvalid).trans (s.warmStart_popRequest rest p)
    exact ⟨_, (exec_restart h p).trans (congrArg _ hstart), s.warmStart_warmStarted p, rfl, rfl⟩
  case supplyReturn =>
    intro s p x hs hclear hvalid hx
    have hend : s.endRetain { straps := p, held := true } = (s.warmStart p).reportStop :=
      if_neg (by simp [State.startCold, hclear, hvalid])
    refine ⟨_, (exec_supplyReturn_retain hs).trans (congrArg _ hend), (s.warmStart_warmStarted p).reportStop, ?_, ?_⟩ <;>
      rw [State.reportStop, show (s.warmStart p).sc.stopRecord = some x from hx] <;> rfl

/-- Settles O18: each of the four is the same cold start where the store is not to be kept. -/
theorem coldStartsClearEverything : Obligations.ColdStartsClearEverything := by
  refine ⟨?powerUp, ?resetPin, ?restart, ?supplyReturn, ?inRetain, ?notInRetain⟩
  case powerUp =>
    intro s p held h
    exact congrArg Host.Outcome.next ((State.start_cold h).trans (s.coldStart_eq p))
  case resetPin =>
    intro s p warning h hs hw
    rw [exec_resetPin hs hw, State.start_cold (h.imp_right .inl), State.coldStart_eq]
  case restart =>
    intro s r rest p h hcold
    rw [exec_restart h, State.start_cold (s := s.popRequest rest) (hcold.imp_right .inl), State.coldStart_eq]
    rfl
  case supplyReturn =>
    intro s p held hs h
    have hend : s.endRetain { straps := p, held } = s.coldStart p :=
      if_pos (by rcases h with h | h | h <;> simp [State.startCold, h])
    rw [exec_supplyReturn_retain hs, hend, State.coldStart_eq]
  case inRetain => exact fun s p warning hs => congrArg _ (if_pos hs)
  case notInRetain =>
    exact fun s p held hs => ⟨exec_supplyReturn_departing hs, exec_supplyReturn_normal hs⟩

/-! ### Reports (R175, R189) -/

section
variable {s : State}

/-- A settled advice waits where it is in the queue (R92). -/
theorem exec_adviceSettled {a : Advice} {before after : List Advice} (hlive : s.live = true) (hslot : s.slotFree = true)
    (hpayouts : s.till.payouts = []) (hlatch : s.su.latch = none) (hqueue : s.au.queue = before ++ a :: after)
    (hbefore : ∀ b ∈ before, b.state ≠ .settled) (ha : a.state = .settled) :
    exec .adviceSettled s = .next (s.reportAdvice a (before ++ after)).settle := by
  have htake : takeFirst (fun x => decide (x.state = .settled)) s.au.queue = some (a, before ++ after) := by
    rw [hqueue]
    exact takeFirst_append (fun b hb => decide_eq_false (hbefore b hb)) (decide_eq_true ha)
  change Host.Outcome.next (match takeFirst (fun x => decide (x.state = .settled)) s.au.queue with
    | none => s
    | some (a, rest) =>
      if s.live && s.slotFree && s.till.payouts.isEmpty && s.su.latch.isNone then (s.reportAdvice a rest).settle else s) = _
  rw [htake]
  simp [hlive, hslot, hpayouts, hlatch]

/-- The first latch in the order is given the slot (R175). -/
theorem exec_reportLatchPlaced {r : Record} {t : State} (hlive : s.live = true) (hslot : s.slotFree = true)
    (hpayouts : s.till.payouts = []) (h : s.firstLatch = some (r, t)) :
    exec .reportLatchPlaced s = .next (t.placeReport r) := by
  change Host.Outcome.next (match s.firstLatch with
    | none => s
    | some (r, s1) => if s.live && s.slotFree && s.till.payouts.isEmpty then s1.placeReport r else s) = _
  rw [h]
  simp [hlive, hslot, hpayouts]

end

@[simp] theorem toDigits_length (n v : Nat) : (toDigits n v).length = n := by
  induction n generalizing v with
  | zero => rfl
  | succ n ih => rw [toDigits, List.length_cons, ih]

@[simp] theorem toSignedBytes_length (n : Nat) (v : Int) : (toSignedBytes n v).length = n := toBytes_length _ _

/-- Settles O19: the order of the sources, and the fields of the two records. -/
theorem reportsArePlacedInTheirOrder : Obligations.ReportsArePlacedInTheirOrder := by
  refine ⟨?payout, ?advice, ?latches, fun _ => ⟨rfl, ?payoutLength⟩, fun a _ => ⟨?adviceFields, ?adviceLength⟩⟩
  case payout =>
    intro s p rest hlive hslot hp
    change Host.Outcome.next (match s.till.payouts with
      | [] => s
      | p :: rest =>
        if s.live && s.slotFree then (s.setTill { s.till with payouts := rest }).placeReport (payoutRecord p) else s) = _
    rw [hp]
    simp only [hlive, hslot, Bool.and_self, if_true]
    rfl
  case advice =>
    intro s a g before after hlive hslot hpayouts hlatch hqueue hbefore ha hg
    rw [exec_adviceSettled hlive hslot hpayouts hlatch hqueue hbefore ha, State.reportAdvice, hg]
    rfl
  case latches =>
    intro s r hlive hslot hpayouts placed
    refine ⟨fun hsu => ?_, fun hsu hsettled => ⟨fun hbr => ?_, fun hbr => ⟨fun hsc => ?_, fun hsc =>
      ⟨fun hlc => ?_, fun hlc hpm => ?_⟩⟩⟩⟩
    · rw [exec_reportLatchPlaced hlive hslot hpayouts (r := r) (by simp only [State.firstLatch, hsu]; rfl)]
      rfl
    · rw [exec_reportLatchPlaced hlive hslot hpayouts (r := r)
        (by simp only [State.firstLatch, hsu, hsettled, hbr]; rfl)]
      rfl
    · rw [exec_reportLatchPlaced hlive hslot hpayouts (r := r)
        (by simp only [State.firstLatch, hsu, hsettled, hbr, hsc]; rfl)]
      rfl
    · rw [exec_reportLatchPlaced hlive hslot hpayouts (r := r)
        (by simp only [State.firstLatch, hsu, hsettled, hbr, hsc, hlc]; rfl)]
      rfl
    · rw [exec_reportLatchPlaced hlive hslot hpayouts (r := r)
        (by simp only [State.firstLatch, hsu, hsettled, hbr, hsc, hlc, hpm]; rfl)]
      rfl
  case payoutLength => simp [payoutRecord, markByte]
  case adviceFields =>
    have hkind : a.kind.code = if a.kind = .standin then 0 else 1 := by cases a.kind <;> rfl
    rw [adviceSettledRecord, hkind]
    simp only [resultFlags, Bool.false_eq_true, if_false, Nat.zero_add]
  case adviceLength => simp [adviceSettledRecord, cardToTill]

end Sys2Proof.Machine
end

