-- ==== Sys2Proof/Proofs/ExchangesAtHome.lean ====
section
/-! PROOFS. The exchanges served at the home: which frames are discarded, and the answer to each of the others. -/
namespace Sys2Proof.Machine

/-! ### The form of a frame (R34) -/

/-- What the form of a frame is discarded for: its amount, or the entry of its requester and reference. -/
def State.formBad (s : State) (p n : Nat) (k : Key) (kind : HoldKind) (amount : Nat) : Prop :=
  amount = 0 ∨ 10000000 < amount ∨ ∃ h, s.holdFor p n = some h ∧ (h.key ≠ k ∨ h.kind ≠ kind)

section
variable {s : State} {p n amount : Nat} {k : Key} {kind : HoldKind}

theorem State.otherEntry_iff : (s.otherCard p n k || s.otherKind p n kind) = true ↔
    ∃ h, s.holdFor p n = some h ∧ (h.key ≠ k ∨ h.kind ≠ kind) := by
  unfold State.otherCard State.otherKind
  cases s.holdFor p n <;> simp

theorem State.formBad_iff :
    (amountBad amount || s.otherCard p n k || s.otherKind p n kind) = true ↔ s.formBad p n k kind amount := by
  rw [Bool.or_assoc, Bool.or_eq_true, State.otherEntry_iff]
  simp [amountBad, State.formBad, or_assoc]

/-- A frame with an amount in range and no entry has a good form. -/
theorem State.formGood_new (hpos : 0 < amount) (hmax : amount ≤ 10000000) (hnew : s.holdFor p n = none) :
    ¬ s.formBad p n k kind amount := by
  rintro (hz | hover | ⟨h, hh, _⟩)
  · omega
  · omega
  · rw [hnew] at hh
    cases hh

/-- A frame with an amount in range and an entry that suits it has a good form. -/
theorem State.formGood_entry {h : Hold} (hpos : 0 < amount) (hmax : amount ≤ 10000000) (hh : s.holdFor p n = some h)
    (hk : h.key = k) (hkind : h.kind = kind) : ¬ s.formBad p n k kind amount := by
  rintro (hz | hover | ⟨x, hx, hbad⟩)
  · omega
  · omega
  · rw [hh] at hx
    cases hx
    exact hbad.elim (· hk) (· hkind)

theorem State.knows_iff {card : CardNo} : s.knows card = true ↔ card.valid = true ∧ s.isHere card.home = true := by
  simp [State.knows]

end

/-! ### The step of each frame (R148) -/

section
variable {s : State} {p : Nat} {m : Msg} {before after : List InFrame}

theorem exec_auth (h : s.Holds .custodyUnit p m before after) (hk : m.kind = 1) (hr : s.custodyReady = true) :
    exec .auth s = .next ((s.withInbound (before ++ after)).serveAuthFrame p m) :=
  congrArg Host.Outcome.next (State.takeFrame_holds h hk hr _)

theorem exec_advice (h : s.Holds .custodyUnit p m before after) (hk : m.kind = 10) (hr : s.custodyReady = true) :
    exec .advice s = .next ((s.withInbound (before ++ after)).serveAdviceFrame p m) :=
  congrArg Host.Outcome.next (State.takeFrame_holds h hk hr _)

theorem exec_creditFrame (h : s.Holds .custodyUnit p m before after) (hk : m.kind = 6) (hr : s.custodyReady = true) :
    exec .creditFrame s = .next ((s.withInbound (before ++ after)).serveCreditFrame p m) :=
  congrArg Host.Outcome.next (State.takeFrame_holds h hk hr _)

theorem exec_enquire (h : s.Holds .custodyUnit p m before after) (hk : m.kind = 8) (hr : s.custodyReady = true) :
    exec .enquire s = .next ((s.withInbound (before ++ after)).serveEnquireFrame p m) :=
  congrArg Host.Outcome.next (State.takeFrame_holds h hk hr _)

theorem exec_capture (h : s.Holds .custodyUnit p m before after) (hk : m.kind = 3) (hr : s.custodyReady = true) :
    exec .capture s = .next ((s.withInbound (before ++ after)).serveCaptureFrame p m).settle := by
  simp only [exec, execCapture, State.event_live h.1, State.takeFrame_holds h hk hr]

theorem exec_release (h : s.Holds .custodyUnit p m before after) (hk : m.kind = 5) (hr : s.custodyReady = true) :
    exec .release s = .next ((s.withInbound (before ++ after)).serveReleaseFrame p m).settle := by
  simp only [exec, execRelease, State.event_live h.1, State.takeFrame_holds h hk hr]

end

/-! ### AUTH (R35, R36) -/

section
variable {s u : State} {p amount n : Nat} {card : CardNo} {a : AuthAnswer}

theorem State.serveAuthFrame_discarded (h : s.formBad p n card.key .redemption amount) :
    s.serveAuthFrame p (.auth card amount n) = s := if_pos (State.formBad_iff.mpr h)

theorem State.serveAuthFrame_known (h : ¬ s.formBad p n card.key .redemption amount) (hk : s.knows card = true)
    (ha : s.serveAuth p n card.key amount = (u, a)) :
    s.serveAuthFrame p (.auth card amount n) = (u.reply p (s.authReplyMsg n card a)).useFree 4 := by
  refine (if_neg (mt State.formBad_iff.mp h)).trans ?_
  rw [if_pos hk, ha]

theorem State.serveAuthFrame_unknown (h : ¬ s.formBad p n card.key .redemption amount) (hk : ¬ s.knows card = true) :
    s.serveAuthFrame p (.auth card amount n) =
      (s.reply p (s.authReplyMsg n card { status := .unknownCard })).useFree 4 := by
  refine (if_neg (mt State.formBad_iff.mp h)).trans ?_
  rw [if_neg hk]

/-- A repeated AUTH is answered from its entry (R35). -/
theorem State.serveAuth_repeated {k : Key} {h : Hold} (hh : s.holdFor p n = some h) : s.serveAuth p n k amount =
    (s, { status := .approved, hold := some h.id, amount := h.amount, available := s.cu.available k }) := by
  simp [State.serveAuth, hh]

end

/-- Settles O28: the form, then the answer of the Custody Unit. -/
theorem authCompletes : Obligations.AuthCompletes := by
  refine ⟨?new, ?repeated, ?refused⟩
  case new =>
    intro s p before after card amount reference c h hr hvalid hhere hpos hmax hnew hc ha hholds hstation available
    have hform : ¬ (s.withInbound (before ++ after)).formBad p reference card.key .redemption amount :=
      State.formGood_new hpos hmax hnew
    have hknown : (s.withInbound (before ++ after)).knows card = true := State.knows_iff.mpr ⟨hvalid, hhere⟩
    have hfull : s.holdsFull = false := Bool.eq_false_iff.mpr (mt State.holdsFull_iff.mp (Nat.not_le.mpr hholds))
    have havail := Custody.available_active (c := s.cu) hc ha
    rw [exec_auth h rfl hr]
    refine ⟨fun henough => ?_, fun hshort => ?_⟩
    · rw [State.serveAuthFrame_known hform hknown (State.serveAuth_approved (s := s.withInbound (before ++ after)) hnew hc ha
        hfull (State.handing_eq_false (s := s) hstation) (henough.trans_eq havail.symm))]
      rfl
    · rw [State.serveAuthFrame_known hform hknown (State.serveAuth_insufficient (s := s.withInbound (before ++ after)) hnew hc
        ha hfull (State.handing_eq_false (s := s) hstation) (havail.trans_lt hshort))]
      rw [← show s.cu.available card.key = available from havail]
      exact ⟨_, _, rfl⟩
  case repeated =>
    intro s p before after card amount reference x h hr hvalid hhere hpos hmax hx hkey hkind
    rw [exec_auth h rfl hr, State.serveAuthFrame_known (State.formGood_entry (s := s.withInbound (before ++ after)) hpos hmax
      hx hkey hkind) (State.knows_iff.mpr ⟨hvalid, hhere⟩) (State.serveAuth_repeated hx)]
    rfl
  case refused =>
    intro s p before after card amount reference h hr taken refused known discarded
    have hexec := exec_auth h rfl hr
    have answered : ∀ {a : AuthAnswer}, taken.serveAuthFrame p (.auth card amount reference)
        = (taken.reply p (taken.authReplyMsg reference card a)).useFree 4 → refused a.status.code :=
      fun hs => ⟨_, _, _, hexec.trans (congrArg Host.Outcome.next hs)⟩
    refine ⟨fun hbad => ?_, fun hgood hunknown => ?_, fun hgood hknown hnew => ⟨fun hnone => ?_, fun c hc =>
      ⟨fun hclosed => ?_, fun ha hbusy => ?_⟩⟩⟩
    · rw [hexec, State.serveAuthFrame_discarded (s := taken) hbad]
    · exact answered (State.serveAuthFrame_unknown (s := taken) hgood (mt State.knows_iff.mp hunknown))
    · exact answered (State.serveAuthFrame_known (s := taken) hgood (State.knows_iff.mpr hknown)
        (State.serveAuth_unknown (s := taken) hnew hnone))
    · exact answered (State.serveAuthFrame_known (s := taken) hgood (State.knows_iff.mpr hknown)
        (State.serveAuth_closed (s := taken) hnew hc hclosed))
    · exact answered (State.serveAuthFrame_known (s := taken) hgood (State.knows_iff.mpr hknown)
        (State.serveAuth_busy (s := taken) hnew hc ha (hbusy.imp State.holdsFull_iff.mpr (State.handing_iff s).mpr)))

end Sys2Proof.Machine
end

