-- ==== Sys2Proof/Proofs/CaptureAndAdvice.lean ====
section
/-! PROOFS. CAPTURE and ADVICE served at the home: the posting each makes, and its reply. -/
namespace Sys2Proof.Machine

section
variable {s u : State} {p n amount : Nat} {k : Key} {card : CardNo} {id : HoldId} {a : PostAnswer}

/-! ### CAPTURE -/

theorem State.captureBad_iff : s.captureBad p card id n amount = true ↔
    (amount = 0 ∧ s.holdNamed id p n card.key = none ∨ 10000000 < amount
      ∨ ∃ h, s.holdFor p n = some h ∧ (h.key ≠ card.key ∨ h.kind ≠ .redemption)) := by
  unfold State.captureBad
  rw [Bool.or_assoc, Bool.or_eq_true, State.otherEntry_iff]
  simp [or_assoc]

theorem State.serveCaptureFrame_discarded (h : s.captureBad p card id n amount = true) :
    s.serveCaptureFrame p (.capture card id n amount) = s := if_pos h

theorem State.serveCaptureFrame_served (h : s.captureBad p card id n amount = false)
    (ha : s.serveCapture p n card.key id amount (s.knows card) = (u, a)) :
    s.serveCaptureFrame p (.capture card id n amount) = u.reply p (captureReplyMsg n a) := by
  refine (if_neg (Bool.eq_false_iff.mp h)).trans ?_
  rw [ha]

/-- A CAPTURE of an amount above 0, or that names an entry, has a good form. -/
theorem State.captureGood (hsome : 0 < amount ∨ ∃ h, s.holdNamed id p n card.key = some h) (hmax : amount ≤ 10000000)
    (hentry : ∀ h, s.holdFor p n = some h → h.key = card.key ∧ h.kind = .redemption) :
    s.captureBad p card id n amount = false := by
  rw [Bool.eq_false_iff, ne_eq, State.captureBad_iff]
  rintro (⟨hz, hnone⟩ | hover | ⟨h, hh, hbad⟩)
  · rcases hsome with hpos | ⟨h, hh⟩
    · omega
    · rw [hnone] at hh
      cases hh
  · omega
  · exact hbad.elim (· (hentry h hh).1) (· (hentry h hh).2)

/-- A CAPTURE of a good number that names a HELD hold (R39). -/
theorem State.serveCapture_known {known : Bool} {x : Hold} (hknown : known = true) (hx : s.holdNamed id p n k = some x)
    (hs : x.state = .held) : s.serveCapture p n k id amount known = s.captureHold x amount := by
  subst hknown
  exact State.serveCapture_held hx hs

/-! ### ADVICE -/

theorem State.serveAdviceFrame_discarded {kind : Nat} (h : s.formBad p n card.key .redemption amount) :
    s.serveAdviceFrame p (.advice card amount n kind id) = s := if_pos (State.formBad_iff.mpr h)

theorem State.serveAdviceFrame_served {kind : Nat} (h : ¬ s.formBad p n card.key .redemption amount)
    (ha : s.servePosting p n card.key amount (s.knows card) false = (u, a)) :
    s.serveAdviceFrame p (.advice card amount n kind id) = u.reply p (adviceReplyMsg n { a with late := false }) := by
  refine (if_neg (mt State.formBad_iff.mp h)).trans ?_
  unfold State.serveAdvice
  rw [ha]

/-! ### Forced postings for another station (R44, R45) -/

/-- The code of a posting that takes what it can. -/
theorem postedStatus_code (c : Prop) [Decidable c] :
    (if c then XStatus.posted else XStatus.postedShort).code = if c then 8 else 9 := by split <;> rfl

/-- What is available for a number: nothing where the card is not held here (R34, R44). -/
theorem State.roomFor_eq (s : State) (card : CardNo) (v : Nat) : (if s.knows card = true then v else 0) =
    if card.valid = true ∧ s.isHere card.home = true then v else 0 := by
  by_cases h : s.knows card = true
  · rw [if_pos h, if_pos (State.knows_iff.mp h)]
  · rw [if_neg h, if_neg (mt State.knows_iff.mpr h)]

/-- The state after a forced posting for station `p` that posts `posted`. -/
def State.forcePosted (s : State) (p : Nat) (k : Key) (posted : Nat) : State := (s.debited k posted).bookHome p posted

/-- The answer to a forced posting that posts `posted` of `amount`. -/
def State.forcedAnswer (s : State) (p amount posted : Nat) (late : Bool) : PostAnswer :=
  { status := if posted = amount then .posted else .postedShort
    figures := s.peerFigures p posted (amount - posted), late }

/-- The answer to one that posts nothing. -/
def State.unpostedAnswer (s : State) (amount : Nat) (late : Bool) : PostAnswer :=
  { status := .notPosted, figures := { short := amount, stamp := s.su.openPeriod }, late }

variable {late : Bool} {posted : Nat}

/-- A posting that matches no entry, of a number with `room` available. -/
theorem State.servePosting_newPosted (hp : p ≠ s.own) (hnew : s.holdFor p n = none) (hholds : s.cu.holds.length < 96)
    (hstation : s.sc.station ≠ .handingOver)
    (hposted : min amount (if card.valid = true ∧ s.isHere card.home = true then s.cu.available card.key else 0) = posted)
    (hpos : 0 < posted) : s.servePosting p n card.key amount (s.knows card) late =
      ((s.forcePosted p card.key posted).addHold
        (s.forcedEntry p n card.key amount late (s.peerFigures p posted (amount - posted))),
        s.forcedAnswer p amount posted late) := by
  have hfull : s.holdsFull = false := Bool.eq_false_iff.mpr (mt State.holdsFull_iff.mp (Nat.not_le.mpr hholds))
  rw [State.servePosting_new hnew hfull (by simp [State.handing_eq_false hstation])]
  rw [← State.roomFor_eq] at hposted
  subst hposted
  exact State.forcedPosting_new (State.forcedFigures_peer hp hpos)

theorem State.servePosting_newUnposted (hnew : s.holdFor p n = none) (hholds : s.cu.holds.length < 96)
    (hstation : s.sc.station ≠ .handingOver ∨ ¬ (card.valid = true ∧ s.isHere card.home = true))
    (hz : min amount (if card.valid = true ∧ s.isHere card.home = true then s.cu.available card.key else 0) = 0) :
    s.servePosting p n card.key amount (s.knows card) late =
      (s.addHold (s.forcedEntry p n card.key amount late { short := amount, stamp := s.su.openPeriod }),
        s.unpostedAnswer amount late) := by
  have hfull : s.holdsFull = false := Bool.eq_false_iff.mpr (mt State.holdsFull_iff.mp (Nat.not_le.mpr hholds))
  have hopen : (s.knows card && s.handing) = false := by
    rcases hstation with h | h
    · simp [State.handing_eq_false h]
    · simp [Bool.eq_false_iff.mpr (mt State.knows_iff.mp h)]
  rw [State.servePosting_new hnew hfull hopen]
  rw [← State.roomFor_eq] at hz
  exact State.forcedPosting_new (State.forcedFigures_zero hz)

theorem State.servePosting_newRefused (hnew : s.holdFor p n = none)
    (hbusy : 96 ≤ s.cu.holds.length ∨ s.sc.station = .handingOver ∧ (card.valid = true ∧ s.isHere card.home = true)) :
    s.servePosting p n card.key amount (s.knows card) late = (s, .busy) := by
  refine State.servePosting_newBusy hnew (hbusy.imp State.holdsFull_iff.mpr fun h => ?_)
  rw [State.knows_iff.mpr h.2, (State.handing_iff s).mpr h.1]
  rfl

/-- A posting in place of a HELD hold. -/
theorem State.servePosting_heldPosted {x : Hold} (hp : p ≠ s.own) (hx : s.holdFor p n = some x) (hs : x.state = .held)
    (hstation : s.sc.station ≠ .handingOver)
    (hposted : min amount (if card.valid = true ∧ s.isHere card.home = true then (s.cu.without x).available card.key else 0)
      = posted) (hpos : 0 < posted) : s.servePosting p n card.key amount (s.knows card) late =
      ((s.forcePosted p card.key posted).setHolds (updateWhere (fun y => y.id = x.id) (fun y =>
        { s.forcedEntry p n card.key amount late (s.peerFigures p posted (amount - posted)) with id := y.id }) s.cu.holds),
        s.forcedAnswer p amount posted late) := by
  rw [State.servePosting_held hx hs (State.handing_eq_false hstation)]
  rw [← State.roomFor_eq] at hposted
  subst hposted
  exact State.forcedPosting_held (State.forcedFigures_peer hp hpos)

theorem State.servePosting_heldUnposted {x : Hold} (hx : s.holdFor p n = some x) (hs : x.state = .held)
    (hstation : s.sc.station ≠ .handingOver)
    (hz : min amount (if card.valid = true ∧ s.isHere card.home = true then (s.cu.without x).available card.key else 0) = 0) :
    s.servePosting p n card.key amount (s.knows card) late =
      (s.setHolds (updateWhere (fun y => y.id = x.id) (fun y =>
        { s.forcedEntry p n card.key amount late { short := amount, stamp := s.su.openPeriod } with id := y.id }) s.cu.holds),
        s.unpostedAnswer amount late) := by
  rw [State.servePosting_held hx hs (State.handing_eq_false hstation)]
  rw [← State.roomFor_eq] at hz
  exact State.forcedPosting_held (State.forcedFigures_zero hz)

end

/-- Settles O29: the form of the frame, then the posting by the hold that is named or by the reference. -/
theorem captureCompletes : Obligations.CaptureCompletes := by
  refine ⟨?named, ?repeated, ?nothing, ?unmatched, ?byReference, ?discarded⟩
  case named =>
    intro s p before after card id reference final x h hr hp hvalid hhere hmax hpos hamount hx hid hkey hs hkind posted l fee
      figures hnamed
    have hknown : (s.withInbound (before ++ after)).knows card = true := State.knows_iff.mpr ⟨hvalid, hhere⟩
    obtain ⟨_, _, hstation, _, _⟩ := State.holdNamed_some hnamed
    have hpost := State.postRedemption_peer (s := s.withInbound (before ++ after)) (k := x.key) (amount := posted) hp
    rw [← hstation] at hpost
    have hserved := (State.serveCapture_known (s := s.withInbound (before ++ after)) (amount := final) hknown hnamed hs).trans
      (State.captureHold_posts (Nat.lt_min.mpr ⟨hpos, hamount⟩) hpost)
    rw [exec_capture h rfl hr, State.serveCaptureFrame_served (State.captureGood (s := s.withInbound (before ++ after))
      (.inl hpos) hmax fun y hy => by cases hx.symm.trans hy; exact ⟨hkey, hkind⟩) hserved,
      hkey, hstation]
    rfl
  case repeated =>
    intro s p before after card id reference final x h hr hmax hx hkey hkind hnamed hs
    rw [exec_capture h rfl hr, State.serveCaptureFrame_served (State.captureGood (s := s.withInbound (before ++ after))
      (.inr ⟨x, hnamed⟩) hmax fun y hy => by cases hx.symm.trans hy; exact ⟨hkey, hkind⟩)
      (State.serveCapture_captured (s := s.withInbound (before ++ after)) hnamed hs)]
    rfl
  case nothing =>
    intro s p before after card id reference x h hr hvalid hhere hx hkey hkind hnamed hs
    have hknown : (s.withInbound (before ++ after)).knows card = true := State.knows_iff.mpr ⟨hvalid, hhere⟩
    have hserved := (State.serveCapture_known (s := s.withInbound (before ++ after)) (amount := 0) hknown hnamed hs).trans
      (State.captureHold_zero _ x (Nat.zero_min _))
    rw [exec_capture h rfl hr, State.serveCaptureFrame_served (State.captureGood (s := s.withInbound (before ++ after))
      (.inr ⟨x, hnamed⟩) (by decide) fun y hy => by cases hx.symm.trans hy; exact ⟨hkey, hkind⟩)
      hserved]
    rfl
  case unmatched =>
    intro s p before after card id reference final h hr hp hpos hmax hnew room posted l fee figures entry counter taken known
    have hgood : taken.captureBad p card id reference final = false := State.captureGood (.inl hpos) hmax fun y hy => by
      cases hnew.symm.trans hy
    have hserved : taken.serveCapture p reference card.key id final (taken.knows card)
        = taken.servePosting p reference card.key final (taken.knows card) true :=
      State.serveCapture_byReference (.inl (State.holdNamed_none hnew))
    rw [exec_capture h rfl hr]
    refine ⟨fun hholds hstation hsome => ?_, fun hholds hstation hz => ?_, fun hbusy => ?_⟩
    · rw [State.serveCaptureFrame_served (s := taken) hgood (hserved.trans
        (State.servePosting_newPosted (s := taken) hp hnew hholds hstation rfl hsome)), captureReplyMsg, State.forcedAnswer]
      dsimp only
      rw [postedStatus_code]
      rfl
    · rw [State.serveCaptureFrame_served (s := taken) hgood (hserved.trans
        (State.servePosting_newUnposted (s := taken) hnew hholds hstation hz))]
      rfl
    · rw [State.serveCaptureFrame_served (s := taken) hgood (hserved.trans
        (State.servePosting_newRefused (s := taken) hnew hbusy))]
      rfl
  case byReference =>
    intro s p before after card id reference final x h hr hp hpos hmax hx hkey hkind hs hnamed released room posted l fee entry
      taken
    have hgood : taken.captureBad p card id reference final = false := State.captureGood (.inl hpos) hmax fun y hy => by
      cases hx.symm.trans hy
      exact ⟨hkey, hkind⟩
    have hserved : taken.serveCapture p reference card.key id final (taken.knows card)
        = taken.servePosting p reference card.key final (taken.knows card) true :=
      State.serveCapture_byReference (hnamed.imp_right fun hn =>
        ⟨x, hn.1, hs, Bool.eq_false_iff.mpr (mt State.knows_iff.mp hn.2)⟩)
    rw [exec_capture h rfl hr]
    refine ⟨fun hstation hsome => ?_, fun hstation hz => ?_, fun hstation => ?_⟩
    · rw [State.serveCaptureFrame_served (s := taken) hgood (hserved.trans
        (State.servePosting_heldPosted (s := taken) hp hx hs hstation rfl hsome)), captureReplyMsg, State.forcedAnswer]
      dsimp only
      rw [postedStatus_code]
      rfl
    · rw [State.serveCaptureFrame_served (s := taken) hgood (hserved.trans
        (State.servePosting_heldUnposted (s := taken) hx hs hstation hz))]
      rfl
    · rw [State.serveCaptureFrame_served (s := taken) hgood (hserved.trans
        (State.servePosting_heldBusy (s := taken) hx hs ((State.handing_iff s).mpr hstation)))]
      rfl
  case discarded =>
    intro s p before after card id reference final h hr hbad
    rw [exec_capture h rfl hr, State.serveCaptureFrame_discarded (s := s.withInbound (before ++ after))
      (State.captureBad_iff.mpr hbad)]

/-- Settles O32: the form of the frame, then the forced posting that its reference gets. -/
theorem adviceIsForcedPosted : Obligations.AdviceIsForcedPosted := by
  refine ⟨?unmatched, ?matched, ?discarded⟩
  case unmatched =>
    intro s p before after card amount reference kind id h hr hp hpos hmax hnew room posted l fee figures nothing entry known
    have hgood : ¬ (s.withInbound (before ++ after)).formBad p reference card.key .redemption amount :=
      State.formGood_new hpos hmax hnew
    rw [exec_advice h rfl hr]
    refine ⟨fun hholds hstation hsome => ?_, fun hholds hstation hz => ?_, fun hbusy => ?_⟩
    · rw [State.serveAdviceFrame_served hgood (State.servePosting_newPosted (s := s.withInbound (before ++ after)) hp hnew
        hholds hstation rfl hsome), adviceReplyMsg, State.forcedAnswer]
      dsimp only
      rw [postedStatus_code]
      rfl
    · rw [State.serveAdviceFrame_served hgood (State.servePosting_newUnposted (s := s.withInbound (before ++ after)) hnew
        hholds hstation hz)]
      rfl
    · rw [State.serveAdviceFrame_served hgood (State.servePosting_newRefused (s := s.withInbound (before ++ after)) hnew
        hbusy)]
      rfl
  case matched =>
    intro s p before after card amount reference kind id x h hr hp hpos hmax hx hkey hkind released room posted l fee entry
      taken
    have hgood : ¬ taken.formBad p reference card.key .redemption amount := State.formGood_entry hpos hmax hx hkey hkind
    rw [exec_advice h rfl hr]
    refine ⟨fun hs hstation hsome => ?_, fun hs hstation hz => ?_, fun hs hstation => ?_, fun hs => ?_⟩
    · rw [State.serveAdviceFrame_served (s := taken) hgood (State.servePosting_heldPosted (s := taken) hp hx hs hstation rfl
        hsome), adviceReplyMsg, State.forcedAnswer]
      dsimp only
      rw [postedStatus_code]
      rfl
    · rw [State.serveAdviceFrame_served (s := taken) hgood (State.servePosting_heldUnposted (s := taken) hx hs hstation hz)]
      rfl
    · rw [State.serveAdviceFrame_served (s := taken) hgood (State.servePosting_heldBusy (s := taken) hx hs
        ((State.handing_iff s).mpr hstation))]
      rfl
    · rw [State.serveAdviceFrame_served (s := taken) hgood (State.servePosting_captured (s := taken) hx hs)]
      rfl
  case discarded =>
    intro s p before after card amount reference kind id h hr hbad
    rw [exec_advice h rfl hr, State.serveAdviceFrame_discarded (s := s.withInbound (before ++ after)) hbad]

end Sys2Proof.Machine
end

