-- ==== Sys2Proof/Proofs/HoldsAndCredits.lean ====
section
/-! PROOFS. How holds leave the table, and the CREDIT and ENQUIRE frames. -/
namespace Sys2Proof.Machine

/-! ### Holds leave (R37, R42, R50) -/

/-- An advice once the LOCAL hold-offs clear (R88). -/
def Advice.localCleared (a : Advice) : Advice :=
  match a.holdOff with
  | some (.locally _) => { a with holdOff := none }
  | some (.frame _) | some (.beacon _) | none => a

theorem State.clearLocal_eq (s : State) :
    s.clearLocal = s.setAu { s.au with queue := s.au.queue.map Advice.localCleared } := by
  have hclear : (fun a : Advice => match a.holdOff with
      | some (.locally _) => { a with holdOff := none }
      | _ => a) = Advice.localCleared := by
    funext a
    unfold Advice.localCleared
    rcases a.holdOff with _ | (_ | _ | _) <;> rfl
  exact congrArg (fun f => s.setAu { s.au with queue := s.au.queue.map f }) hclear

theorem State.removeHold_eq (s : State) (id : HoldId) : s.removeHold id =
    (s.setCu { s.cu with holds := s.cu.holds.filter fun h => h.id ≠ id }).setAu
      { s.au with queue := s.au.queue.map Advice.localCleared } := State.clearLocal_eq _

section
variable {s : State} {p n : Nat} {card : CardNo} {id : HoldId}

theorem State.serveReleaseFrame_known (hk : s.knows card = true) :
    s.serveReleaseFrame p (.release card id n) = s.serveRelease p n card.key id := if_pos hk

theorem State.serveReleaseFrame_nothing (h : ∀ x, s.holdNamed id p n card.key = some x → x.state = .captured) :
    s.serveReleaseFrame p (.release card id n) = s := by
  have hserve : s.serveRelease p n card.key id = s := by
    unfold State.serveRelease
    cases hx : s.holdNamed id p n card.key with
    | none => rfl
    | some x => exact if_neg (by simp [h x hx])
  change (if s.knows card then s.serveRelease p n card.key id else s) = s
  rw [hserve, ite_self]

/-- The first element under a test satisfies another test too. -/
theorem find?_and {α : Type} {q r : α → Bool} {l : List α} {x : α} (h : l.find? q = some x) (hr : r x = true) :
    l.find? (fun y => q y && r y) = some x := by
  induction l with
  | nil => cases h
  | cons y l ih =>
    by_cases hq : q y = true
    · rw [List.find?_cons_of_pos hq] at h
      cases h
      exact List.find?_cons_of_pos (by simp [hq, hr])
    · rw [List.find?_cons_of_neg hq] at h
      rw [List.find?_cons_of_neg (by simp [hq])]
      exact ih h

/-- The timer of the entry with an id runs out (R37, R50). -/
theorem State.holdTimer_ends {x : Hold} (hx : s.cu.holds.find? (fun y => y.id = x.id) = some x) (hnow : s.now ≤ x.timer) :
    s.holdTimer x.id x.state = ((s.setNow x.timer).removeHold x.id).settle := by
  have hin : s.holdIn x.id x.state = some x := find?_and (r := fun y : Hold => decide (y.state = x.state)) hx (by simp)
  have hreach : s.reach x.timer = s.setNow x.timer := by rw [State.reach, Nat.max_eq_right hnow]
  unfold State.holdTimer
  rw [hin]
  dsimp only
  rw [hreach]

theorem exec_holdExpiry (hlive : s.live = true) : exec (.holdExpiry id) s = .next (s.holdTimer id .held) :=
  congrArg Host.Outcome.next (State.event_live hlive _)

theorem exec_retentionEnd (hlive : s.live = true) : exec (.retentionEnd id) s = .next (s.holdTimer id .captured) :=
  congrArg Host.Outcome.next (State.event_live hlive _)

end

/-- Settles O30: the frame that names a hold, and the two timers. -/
theorem holdsLeaveTheTable : Obligations.HoldsLeaveTheTable := by
  refine ⟨?released, ?nothing, ?timers⟩
  case released =>
    intro s p before after card id reference x h hr hvalid hhere hx hs
    rw [exec_release h rfl hr, State.serveReleaseFrame_known (s := s.withInbound (before ++ after)) (State.knows_iff.mpr ⟨hvalid, hhere⟩),
      State.serveRelease_held (s := s.withInbound (before ++ after)) hx hs, State.removeHold_eq]
    rfl
  case nothing =>
    intro s p before after card id reference h hr hnone
    rw [exec_release h rfl hr, State.serveReleaseFrame_nothing (s := s.withInbound (before ++ after)) hnone]
  case timers =>
    intro s x hlive hnow hx gone
    have hgone : s.holdTimer x.id x.state = gone.settle := by
      rw [State.holdTimer_ends hx hnow, State.removeHold_eq]
      rfl
    exact ⟨fun hs => by rw [exec_holdExpiry hlive, ← hs, hgone], fun hs => by rw [exec_retentionEnd hlive, ← hs, hgone]⟩

/-! ### CREDIT (R47) -/

section
variable {s u : State} {p n amount : Nat} {k : Key} {card : CardNo} {a : CreditAnswer}

theorem State.serveCreditFrame_discarded (h : s.formBad p n card.key .credit amount) :
    s.serveCreditFrame p (.credit card amount n) = s := if_pos (State.formBad_iff.mpr h)

theorem State.serveCreditFrame_known (h : ¬ s.formBad p n card.key .credit amount) (hk : s.knows card = true)
    (ha : s.serveCredit p n card.key amount = (u, a)) :
    s.serveCreditFrame p (.credit card amount n) = (u.reply p (s.creditReplyMsg n a)).useFree 2 := by
  refine (if_neg (mt State.formBad_iff.mp h)).trans ?_
  rw [if_pos hk, ha]

theorem State.serveCreditFrame_unknown (h : ¬ s.formBad p n card.key .credit amount) (hk : ¬ s.knows card = true) :
    s.serveCreditFrame p (.credit card amount n) =
      (s.reply p (s.creditReplyMsg n { status := .unknownCard })).useFree 2 := by
  refine (if_neg (mt State.formBad_iff.mp h)).trans ?_
  rw [if_neg hk]

theorem State.serveCredit_repeated {h : Hold} (hh : s.holdFor p n = some h) : s.serveCredit p n k amount =
    (s, { status := .approved, amount := some h.amount, stamp := some h.figures.stamp }) := by
  simp [State.serveCredit, hh]

theorem State.serveCredit_refused {st : XStatus} {room : Nat} (hnew : s.holdFor p n = none)
    (h : s.creditRefusal k amount = some (st, room)) : s.serveCredit p n k amount =
      (s, { status := st, amount := if st = .overCap then some room else none }) := by
  simp [State.serveCredit, hnew, h]

theorem State.serveCredit_full (hnew : s.holdFor p n = none) (h : s.creditRefusal k amount = none)
    (hfull : s.holdsFull = true) : s.serveCredit p n k amount = (s, { status := .homeBusy }) := by
  simp [State.serveCredit, hnew, h, hfull]

theorem State.serveCredit_credited (hnew : s.holdFor p n = none) (h : s.creditRefusal k amount = none)
    (hfull : s.holdsFull = false) : s.serveCredit p n k amount = (s.creditForPeer p n k amount,
      { status := .approved, amount := some amount, stamp := some s.su.openPeriod }) := by
  simp [State.serveCredit, hnew, h, hfull]

/-- The tests of a credit on an ACTIVE card (R11). -/
theorem State.creditRefusal_none {c : Card} (hc : s.cu.served k = some c) (ha : c.state = .active)
    (hstation : s.sc.station ≠ .handingOver) (hroom : amount ≤ s.creditRoom c) : s.creditRefusal k amount = none := by
  rw [State.creditRefusal_served hc, if_neg (by simp [ha]), if_neg (by simp [State.handing_eq_false hstation]),
    if_neg (Nat.not_lt.mpr hroom)]

theorem State.creditRefusal_closed {c : Card} (hc : s.cu.served k = some c) (hclosed : c.state = .closed) :
    s.creditRefusal k amount = some (.cardClosed, 0) := by
  rw [State.creditRefusal_served hc, if_pos hclosed]

theorem State.creditRefusal_busy {c : Card} (hc : s.cu.served k = some c) (ha : c.state = .active)
    (hstation : s.sc.station = .handingOver) : s.creditRefusal k amount = some (.homeBusy, 0) := by
  rw [State.creditRefusal_served hc, if_neg (by simp [ha]), if_pos ((State.handing_iff s).mpr hstation)]

theorem State.creditRefusal_over {c : Card} (hc : s.cu.served k = some c) (ha : c.state = .active)
    (hstation : s.sc.station ≠ .handingOver) (hroom : s.creditRoom c < amount) :
    s.creditRefusal k amount = some (.overCap, s.creditRoom c) := by
  rw [State.creditRefusal_served hc, if_neg (by simp [ha]), if_neg (by simp [State.handing_eq_false hstation]),
    if_pos hroom]

/-! ### ENQUIRE (R48) -/

theorem State.otherCard_iff : s.otherCard p n k = true ↔ ∃ h, s.holdFor p n = some h ∧ h.key ≠ k := by
  unfold State.otherCard
  cases s.holdFor p n <;> simp

theorem State.serveEnquireFrame_discarded {h : Hold} (hh : s.holdFor p n = some h) (hk : h.key ≠ card.key) :
    s.serveEnquireFrame p (.enquire card n) = s := if_pos (State.otherCard_iff.mpr ⟨h, hh, hk⟩)

theorem State.serveEnquireFrame_served (h : ∀ x, s.holdFor p n = some x → x.key = card.key) :
    s.serveEnquireFrame p (.enquire card n) = (s.reply p (s.enquireReplyMsg n card)).useFree 2 :=
  if_neg fun hother => by
    obtain ⟨x, hx, hk⟩ := State.otherCard_iff.mp hother
    exact hk (h x hx)

/-- What an ENQUIRE finds is refused with its status (R48). -/
theorem State.enquireReplyMsg_unknown (h : ¬ s.knows card = true ∨ s.cu.served card.key = none) :
    s.enquireReplyMsg n card = .enquireReply n 2 (s.freeNat 0 % 4294967296) (s.freeNat 1 % 4294967296) := by
  have hnone : (if s.knows card then s.cu.served card.key else none) = none := by
    rcases h with h | h
    · rw [if_neg h]
    · rw [h, ite_self]
  unfold State.enquireReplyMsg
  rw [hnone]
  rfl

theorem State.enquireReplyMsg_closed {c : Card} (hk : s.knows card = true) (hc : s.cu.served card.key = some c)
    (hclosed : c.state = .closed) :
    s.enquireReplyMsg n card = .enquireReply n 3 (s.freeNat 0 % 4294967296) (s.freeNat 1 % 4294967296) := by
  unfold State.enquireReplyMsg
  rw [if_pos hk, hc]
  exact if_pos hclosed

theorem State.enquireReplyMsg_active {c : Card} (hk : s.knows card = true) (hc : s.cu.served card.key = some c)
    (ha : c.state = .active) :
    s.enquireReplyMsg n card = .enquireReply n 0 c.balance (c.balance - heldOn s.cu.holds card.key) := by
  unfold State.enquireReplyMsg
  rw [if_pos hk, hc, ← Custody.available_active hc ha]
  exact if_neg (by simp [ha])

end

/-- Settles O31: the form of each frame, then the answer of the Custody Unit. -/
theorem creditAndEnquireComplete : Obligations.CreditAndEnquireComplete := by
  refine ⟨?credited, ?enquired, ?creditRefused, ?enquireRefused⟩
  case credited =>
    intro s p before after card amount reference c h hr hvalid hhere hpos hmax hnew hc ha hstation hroom hlimit hholds
    have hfull : s.holdsFull = false := Bool.eq_false_iff.mpr (mt State.holdsFull_iff.mp (Nat.not_le.mpr hholds))
    rw [exec_creditFrame h rfl hr, State.serveCreditFrame_known
      (State.formGood_new (s := s.withInbound (before ++ after)) hpos hmax hnew) (State.knows_iff.mpr ⟨hvalid, hhere⟩)
      (State.serveCredit_credited (s := s.withInbound (before ++ after)) hnew
        (State.creditRefusal_none (s := s.withInbound (before ++ after)) hc ha hstation (Nat.le_min.mpr ⟨hroom, hlimit⟩)) hfull)]
    rfl
  case enquired =>
    intro s p before after card reference c h hr hvalid hhere hentry hc ha
    rw [exec_enquire h rfl hr, State.serveEnquireFrame_served (s := s.withInbound (before ++ after)) hentry,
      State.enquireReplyMsg_active (s := s.withInbound (before ++ after)) (State.knows_iff.mpr ⟨hvalid, hhere⟩) hc ha]
    rfl
  case creditRefused =>
    intro s p before after card amount reference h hr taken replied refused known discarded
    have hexec := exec_creditFrame h rfl hr
    have answered : ∀ {a : CreditAnswer}, taken.serveCreditFrame p (.credit card amount reference)
        = (taken.reply p (taken.creditReplyMsg reference a)).useFree 2 → refused a.status.code :=
      fun hs => ⟨_, _, hexec.trans (congrArg Host.Outcome.next hs)⟩
    refine ⟨fun hbad => ?_, fun hgood hunknown => ?_, fun hgood hknown => ⟨fun x hx => ?_, fun hnew => ⟨fun hnone => ?_,
      fun c hc => ⟨fun hclosed => ?_, fun ha hstation => ?_, fun ha hstation =>
        ⟨fun hover => ?_, fun hroom hholds => ?_⟩⟩⟩⟩⟩
    · rw [hexec, State.serveCreditFrame_discarded (s := taken) hbad]
    · exact answered (State.serveCreditFrame_unknown (s := taken) hgood (mt State.knows_iff.mp hunknown))
    · exact hexec.trans (congrArg Host.Outcome.next (State.serveCreditFrame_known (s := taken) hgood
        (State.knows_iff.mpr hknown) (State.serveCredit_repeated (s := taken) hx)))
    · exact answered (State.serveCreditFrame_known (s := taken) hgood (State.knows_iff.mpr hknown)
        (State.serveCredit_refused (s := taken) hnew (State.creditRefusal_unknown (s := taken) hnone _)))
    · exact answered (State.serveCreditFrame_known (s := taken) hgood (State.knows_iff.mpr hknown)
        (State.serveCredit_refused (s := taken) hnew (State.creditRefusal_closed (s := taken) hc hclosed)))
    · exact answered (State.serveCreditFrame_known (s := taken) hgood (State.knows_iff.mpr hknown)
        (State.serveCredit_refused (s := taken) hnew (State.creditRefusal_busy (s := taken) hc ha hstation)))
    · exact ⟨_, hexec.trans (congrArg Host.Outcome.next (State.serveCreditFrame_known (s := taken) hgood
        (State.knows_iff.mpr hknown)
        (State.serveCredit_refused (s := taken) hnew (State.creditRefusal_over (s := taken) hc ha hstation hover))))⟩
    · exact answered (State.serveCreditFrame_known (s := taken) hgood (State.knows_iff.mpr hknown)
        (State.serveCredit_full (s := taken) hnew (State.creditRefusal_none (s := taken) hc ha hstation hroom)
          (State.holdsFull_iff.mpr hholds)))
  case enquireRefused =>
    intro s p before after card reference h hr taken refused known
    have hexec := exec_enquire h rfl hr
    have answered : ∀ {status balance available : Nat},
        (¬ ∃ x, s.holdFor p reference = some x ∧ x.key ≠ card.key) →
        taken.enquireReplyMsg reference card = .enquireReply reference status balance available → refused status := by
      intro status balance available hentry hmsg
      refine ⟨balance, available, hexec.trans ?_⟩
      rw [State.serveEnquireFrame_served (s := taken) fun x hx => not_not.mp fun hk => hentry ⟨x, hx, hk⟩, hmsg]
    refine ⟨fun x hx hk => ?_, fun hentry => ?_⟩
    · rw [hexec, State.serveEnquireFrame_discarded (s := taken) hx hk]
    · have hnone : ¬ ∃ x, s.holdFor p reference = some x ∧ x.key ≠ card.key := fun ⟨x, hx, hk⟩ => hk (hentry x hx)
      exact ⟨fun hunknown => answered hnone
          (State.enquireReplyMsg_unknown (s := taken) (hunknown.imp_left (mt State.knows_iff.mp))),
        fun hknown c hc hclosed => answered hnone
          (State.enquireReplyMsg_closed (s := taken) (State.knows_iff.mpr hknown) hc hclosed)⟩

end Sys2Proof.Machine
end

