-- ==== Sys2Proof/Proofs/Payloads.lean ====
section
/-! PROOFS. The payload of each frame kind reads back. -/
namespace Sys2Proof.Machine

section
variable {n v off : Nat}

/-- A payload's last field. -/
theorem fieldAt_last (h : v < 256 ^ n) : fieldAt (toBytes n v) 0 n = v := by
  simpa using fieldAt_front h []

/-- A field behind another one. -/
theorem fieldAt_behind (h : n ≤ off) (v : Nat) (rest : List Byte) (len : Nat) :
    fieldAt (toBytes n v ++ rest) off len = fieldAt rest (off - n) len := by
  have hskip := fieldAt_skip (toBytes_length n v) rest (off - n) len
  rwa [Nat.add_sub_cancel' h] at hskip

end

/-- The length of a payload is that of its kind (spec 12, section 12.2). -/
theorem Msg.kindLength_kind (m : Msg) : kindLength m.kind = some m.encode.length := by
  cases m <;> simp [Msg.kind, Msg.encode, kindLength, cardBytes, holdIdBytes, BeaconData.bytes]

/-- Settles O57: each field stands behind the ones before it, and reads back within its width. -/
theorem payloadsReadBackAsSent : Obligations.PayloadsReadBackAsSent := by
  intro m hfits
  refine ⟨?_, m.kindLength_kind⟩
  unfold Msg.decode
  rw [if_pos m.kindLength_kind]
  cases m
  all_goals
    simp only [Msg.Fits, CardNo.Fits, holdIdFits, FitsIn, Nat.reducePow] at hfits
    simp [Msg.kind, Msg.encode, cardBytes, holdIdBytes, BeaconData.bytes, cardAt, holdIdAt, fieldAt_behind, fieldAt_front,
      fieldAt_last, hfits]

end Sys2Proof.Machine
end

