-- ==== Sys2Proof/Proofs/Places.lean ====
section
/-! PROOFS. The places of the outbound queue: handing a frame, freeing a place, granting it to a request that waits. -/
namespace Sys2Proof.Machine

/-- Room for a class: a place in the queue, and for classes 1 to 3 one of the 18 (R149). -/
theorem LineCtl.hasRoom_iff (l : LineCtl) (cls : Nat) :
    l.hasRoom cls = true ↔ l.outbound.length < 24 ∧ (cls = 0 ∨ lowCount l.outbound < 18) := by
  simp [LineCtl.hasRoom]

/-- No element satisfies the test. -/
theorem takeFirst_eq_none {α : Type} {p : α → Bool} {l : List α} (h : ∀ x ∈ l, p x = false) : takeFirst p l = none := by
  induction l with
  | nil => rfl
  | cons x l ih => simp [takeFirst, h x (by simp), ih fun y hy => h y (by simp [hy])]

section
variable {s : State}

/-- Placing a frame, whatever its kind (R150, R151, R163). -/
theorem State.placeFrame_eq (s : State) (f : OutFrame) : s.placeFrame f = s.setLc { s.lc with
    pauseGuard := if f.msg.kind = 15 then some (s.now + s.sc.config.pauseTime) else s.lc.pauseGuard
    outbound := (s.lc.outbound.takeWhile fun g => g.msg.cls ≤ f.msg.cls)
      ++ { f with msg := if f.msg.kind = 14 then .beacon s.beaconData else f.msg }
      :: s.lc.outbound.dropWhile fun g => g.msg.cls ≤ f.msg.cls } := by
  unfold State.placeFrame
  rw [insertBy_eq, s.contents_cls]
  rfl

/-! ### A freed place (R149) -/

/-- A frame has left the queue, and its place is not offered yet. -/
def State.withoutFrame (s : State) (ticket : Nat) : State :=
  s.setLc { s.lc with outbound := s.lc.outbound.filter fun g => g.ticket ≠ ticket }

theorem State.removeFrame_eq_grant (s : State) (ticket : Nat) : s.removeFrame ticket = (s.withoutFrame ticket).grant := rfl

/-- The oldest waiting request of class 0 comes first. -/
theorem State.grant_control {before after : List OutFrame} {f : OutFrame} (hw : s.lc.waitList = before ++ f :: after)
    (hb : ∀ g ∈ before, g.msg.cls ≠ 0) (hf : f.msg.cls = 0) (hroom : s.lc.hasRoom 0 = true) :
    s.grant = (s.setLc { s.lc with waitList := before ++ after }).placeFrame f := by
  unfold State.grant
  rw [hw, takeFirst_append (fun g hg => decide_eq_false (hb g hg)) (decide_eq_true hf)]
  exact if_pos hroom

/-- Where none of class 0 waits, the oldest request is the one that may have the place. -/
theorem State.grant_oldest {f : OutFrame} {rest : List OutFrame} (hw : s.lc.waitList = f :: rest)
    (h : ∀ g ∈ s.lc.waitList, g.msg.cls ≠ 0) :
    s.grant = if s.lc.hasRoom f.msg.cls then (s.setLc { s.lc with waitList := rest }).placeFrame f else s := by
  unfold State.grant
  rw [takeFirst_eq_none fun g hg => decide_eq_false (h g hg), hw]

/-- A full queue grants nothing. -/
theorem State.grant_full (h : 24 ≤ s.lc.outbound.length) : s.grant = s := by
  have hroom (cls : Nat) : s.lc.hasRoom cls = false :=
    Bool.eq_false_iff.mpr fun hr => Nat.not_lt.mpr h ((s.lc.hasRoom_iff cls).mp hr).1
  unfold State.grant
  simp only [hroom]
  split
  · rfl
  · split <;> rfl

/-- A queue full for classes 1 to 3 grants nothing where no request of class 0 waits. -/
theorem State.grant_lowFull (hw : ∀ g ∈ s.lc.waitList, g.msg.cls ≠ 0) (h : 18 ≤ lowCount s.lc.outbound) : s.grant = s := by
  cases hq : s.lc.waitList with
  | nil => exact State.grant_of_nil hq
  | cons f rest =>
    rw [State.grant_oldest hq hw]
    refine if_neg fun hr => ?_
    have hlow := ((s.lc.hasRoom_iff f.msg.cls).mp hr).2
    exact hlow.elim (hw f (by simp [hq])) (Nat.not_lt.mpr h)

end

/-- Settles O25: `hand` by its room test, and `removeFrame` by what the wait list holds. -/
theorem handedFramesArePlacedOrWait : Obligations.HandedFramesArePlacedOrWait := by
  refine ⟨fun s dest m hbeacon hpause => ⟨fun hroom => ?placed, fun hroom => ?waits⟩,
    fun s ticket => ⟨fun before f after hw hb hf hroom => ?control, fun f rest hw hnone hroom hlow => ?oldest, fun h => ?kept⟩⟩
  case placed =>
    rw [s.hand_placed dest m ((s.lc.hasRoom_iff _).mpr hroom), State.placeFrame_eq]
    simp only [if_neg hbeacon, if_neg hpause]
    rfl
  case waits => exact s.hand_waits dest m (Bool.eq_false_iff.mpr fun h => hroom ((s.lc.hasRoom_iff _).mp h))
  case control =>
    have hr := ((s.withoutFrame ticket).lc.hasRoom_iff 0).mpr ⟨hroom, .inl rfl⟩
    rw [State.removeFrame_eq_grant, State.grant_control (s := s.withoutFrame ticket) hw hb hf hr, State.placeFrame_eq]
    rfl
  case oldest =>
    have hr := ((s.withoutFrame ticket).lc.hasRoom_iff f.msg.cls).mpr ⟨hroom, .inr hlow⟩
    rw [State.removeFrame_eq_grant, State.grant_oldest (s := s.withoutFrame ticket) hw hnone, if_pos hr, State.placeFrame_eq]
    rfl
  case kept =>
    obtain hw | hfull | ⟨hw, hlow⟩ := h
    · exact State.removeFrame_of_nil hw ticket
    · exact State.grant_full (s := s.withoutFrame ticket) hfull
    · exact State.grant_lowFull (s := s.withoutFrame ticket) hw hlow

/-! ### Acceptance (R147) -/

/-- A payload that reads as a message has the length of its kind. -/
theorem Msg.decode_length {code : Nat} {p : List Byte} {m : Msg} (h : Msg.decode code p = some m) :
    kindLength code = some p.length := by
  unfold Msg.decode at h
  split at h
  · assumption
  · simp at h

/-- Settles O20: the tests of `accepts` in its order, and the length test that `Msg.decode` makes. -/
theorem acceptanceFollowsItsTests : Obligations.AcceptanceFollowsItsTests := by
  intro s f m
  have hdest : s.destSuits f = true ↔ f.dest = (if 13 ≤ f.kind ∧ f.kind ≤ 17 then 255 else s.own) := by
    unfold State.destSuits
    by_cases hk : 13 ≤ f.kind ∧ f.kind ≤ 17 <;> simp [kindBroadcast, hk]
  have htakes : s.lc.takes f.cls = true ↔ s.lc.inbound.length < (if f.cls = 0 then 16 else 12) := decide_eq_true_iff
  constructor
  · intro h
    unfold State.accepts at h
    split at h
    case isFalse => simp at h
    case isTrue htests =>
      simp only [Bool.and_eq_true, Bool.or_eq_true, decide_eq_true_eq, hdest, htakes] at htests
      obtain ⟨⟨⟨hline, hcls⟩, hd⟩, ht⟩ := htests
      exact ⟨by simpa [kindBroadcast] using hline, hcls, hd, ht, Msg.decode_length h, h⟩
  · rintro ⟨hline, hcls, hd, ht, -, hm⟩
    refine (if_pos ?_).trans hm
    simp only [Bool.and_eq_true, Bool.or_eq_true, decide_eq_true_eq, hdest, htakes]
    exact ⟨⟨⟨by simpa [kindBroadcast] using hline, hcls⟩, hd⟩, ht⟩

/-! ### Bus free (R140, R141) -/

section
variable {s : State}

/-- With the line ACTIVE and free, or at a bus free after a frame, this station may start. -/
theorem State.startMoment_active {m : StartMoment} (hline : s.lineState = .active)
    (h : s.lc.activity = .free ∨ m = .busFree ∧ (s.lc.activity = .busy ∨ s.lc.activity = .receiving)) :
    s.startMoment m = true := by
  unfold State.startMoment State.lineUp
  obtain hfree | ⟨rfl, hbusy | hreceiving⟩ := h
  · simp [hline, hfree]
  · simp [hline, hbusy]
  · simp [hline, hreceiving]

/-- A bus free outside the departure step starts the first frame that may be started. -/
theorem exec_busFree_starts {m : StartMoment} {f : OutFrame} (hmoment : s.startMoment m = true)
    (hdep : s.sc.departure = none) (hf : s.startable = some f) (c : Contention) :
    exec (.busFree m c) s = .next (s.contend f c) := by
  have hlate : s.departureOver = false := by simp [State.departureOver, hdep]
  simp only [exec, execBusFree, hmoment, hlate, if_true, Bool.false_eq_true, if_false, hf]

/-- With no such frame it starts nothing. -/
theorem exec_busFree_idle {m : StartMoment} (hmoment : s.startMoment m = true) (hdep : s.sc.departure = none)
    (hf : s.startable = none) (c : Contention) : exec (.busFree m c) s = .next (s.standBy m c) := by
  have hlate : s.departureOver = false := by simp [State.departureOver, hdep]
  simp only [exec, execBusFree, hmoment, hlate, if_true, Bool.false_eq_true, if_false, hf]

theorem State.startable_first {before after : List OutFrame} {f : OutFrame} (hline : s.lineState = .active)
    (hq : s.lc.outbound = before ++ f :: after) (hb : ∀ g ∈ before, s.eligible g = false) (hf : s.eligible f = true) :
    s.startable = some f := by
  have hskip : before.find? s.eligible = none := List.find?_eq_none.mpr fun g hg => by simp [hb g hg]
  unfold State.startable
  rw [if_pos hline, hq, List.find?_append, hskip]
  simp [hf]

theorem State.startable_none (h : ∀ g ∈ s.lc.outbound, s.eligible g = false) : s.startable = none := by
  have hnone : s.lc.outbound.find? s.eligible = none := List.find?_eq_none.mpr fun g hg => by simp [h g hg]
  unfold State.startable
  rw [hnone, ite_self]

/-- A contender whose arbitration value is no lower loses (R141). -/
theorem State.contend_rival (s : State) (f : OutFrame) (cls source : Nat) : s.contend f (.rival cls source) =
    if cls * 256 + source < f.msg.cls * 256 + s.own then s.setActivity .receiving else s.winLine f := rfl

end

/-- Settles O23: the frame that `startable` finds, against each contention. -/
theorem busFreeStartsTheFirstEligibleFrame : Obligations.BusFreeStartsTheFirstEligibleFrame := by
  intro s m hline hdep hline'
  have hmoment := State.startMoment_active hline hline'
  refine ⟨fun before after f hq hb hf => ?starts, fun hnone hm => ?idle⟩
  case starts =>
    have hexec := exec_busFree_starts hmoment hdep (State.startable_first hline hq hb hf)
    refine ⟨hexec .alone, fun cls source hwin => ?_, fun cls source hlose => ?_, hexec .brokenFlag⟩
    · rw [hexec, State.contend_rival, if_neg (Nat.not_lt.mpr hwin)]
      rfl
    · rw [hexec, State.contend_rival, if_pos hlose]
      rfl
  case idle =>
    rw [exec_busFree_idle hmoment hdep (State.startable_none hnone)]
    simp only [State.standBy, if_neg hm, State.setActivity]

end Sys2Proof.Machine
end

