-- ==== Sys2Proof/Proofs/Owners.lean ====
section
/-! PROOFS. What the owner of a frame does on the report of its send: by the kind of the frame, and by who still waits. -/
namespace Sys2Proof.Machine

/-- The first match after a change that keeps what is matched. -/
theorem find?_updateWhere {α : Type} {p q : α → Bool} {f : α → α} (h : ∀ x, p (f x) = p x) (l : List α) :
    (updateWhere q f l).find? p = (l.find? p).map fun x => if q x then f x else x := by
  unfold updateWhere
  rw [List.find?_map]
  congr 2
  funext x
  by_cases hq : q x = true <;> simp [hq, h]

section
variable {s : State} {f : OutFrame}

/-- The frame of a handover's own exchange. -/
theorem State.handoverOfTicket_eq {h : Handover} {n : Nat} (hh : s.cu.handover = some h) :
    s.handoverOfTicket n = if h.ticket = some n then some h else none := by
  unfold State.handoverOfTicket
  rw [hh]

theorem State.handoverOfTicket_eq_none {n : Nat} (h : ∀ h, s.cu.handover = some h → h.ticket ≠ some n) :
    s.handoverOfTicket n = none := by
  cases hh : s.cu.handover with
  | none =>
    unfold State.handoverOfTicket
    rw [hh]
  | some h' => rw [State.handoverOfTicket_eq hh, if_neg (h h' hh)]

/-! ### ACKNOWLEDGED (R144) -/

theorem State.acknowledged_request (hk : f.msg.kind = 1 ∨ f.msg.kind = 3 ∨ f.msg.kind = 6 ∨ f.msg.kind = 8) :
    s.acknowledged f = match s.txnOfTicket f.ticket with
      | some t => s.modifyTxn t.reference fun t => { t with ticket := none, timer := some (s.now + t.replyTimeout) }
      | none => s := by
  obtain ⟨ticket, dest, msg, sends⟩ := f
  cases msg <;> simp [Msg.kind] at hk <;> rfl

theorem State.acknowledged_advice (hk : f.msg.kind = 10) :
    s.acknowledged f = match s.adviceOfTicket f.ticket with
      | some a => s.modifyAdvice a.reference fun a => { a with ticket := none, timer := some (s.now + s.replyTimeout) }
      | none => s := by
  obtain ⟨ticket, dest, msg, sends⟩ := f
  cases msg <;> simp [Msg.kind] at hk
  rfl

theorem State.acknowledged_handover (hk : f.msg.kind = 18 ∨ f.msg.kind = 21) :
    s.acknowledged f = match s.handoverOfTicket f.ticket with
      | some h => s.setHandover (some { h with ticket := none, timer := some (s.now + h.replyTimeout) })
      | none => s := by
  obtain ⟨ticket, dest, msg, sends⟩ := f
  cases msg <;> simp [Msg.kind] at hk <;> rfl

theorem State.acknowledged_card (hk : f.msg.kind = 20) :
    s.acknowledged f = match s.cu.handover with
      | some h => s.setHandover (some { h with unacked := h.unacked.filter fun n => n ≠ f.ticket })
      | none => s := by
  obtain ⟨ticket, dest, msg, sends⟩ := f
  cases msg <;> simp [Msg.kind] at hk
  rfl

/-- No other frame's owner acts on ACKNOWLEDGED. -/
theorem State.acknowledged_other (hk : f.msg.kind ∉ [1, 3, 6, 8, 10, 18, 20, 21]) : s.acknowledged f = s := by
  obtain ⟨ticket, dest, msg, sends⟩ := f
  cases msg <;> simp [Msg.kind] at hk <;> rfl

/-! ### UNDELIVERABLE (R144) -/

theorem State.undeliverable_request (hk : f.msg.kind = 1 ∨ f.msg.kind = 3 ∨ f.msg.kind = 6 ∨ f.msg.kind = 8) :
    s.undeliverable f = match s.txnOfTicket f.ticket with
      | some t => s.failAttempt t
      | none => s := by
  obtain ⟨ticket, dest, msg, sends⟩ := f
  cases msg <;> simp [Msg.kind] at hk <;> rfl

theorem State.undeliverable_release (hk : f.msg.kind = 5) : s.undeliverable f = s.failedExchange f.dest := by
  obtain ⟨ticket, dest, msg, sends⟩ := f
  cases msg <;> simp [Msg.kind] at hk
  rfl

theorem State.undeliverable_advice (hk : f.msg.kind = 10) :
    s.undeliverable f = match s.adviceOfTicket f.ticket with
      | some a => s.failAdvice a
      | none => s := by
  obtain ⟨ticket, dest, msg, sends⟩ := f
  cases msg <;> simp [Msg.kind] at hk
  rfl

theorem State.undeliverable_offer (hk : f.msg.kind = 18) :
    s.undeliverable f = match s.handoverOfTicket f.ticket with
      | some h => (s.failHandover .undeliverable 0).failedExchange h.custodian
      | none => s := by
  obtain ⟨ticket, dest, msg, sends⟩ := f
  cases msg <;> simp [Msg.kind] at hk
  rfl

theorem State.undeliverable_card (hk : f.msg.kind = 20) :
    s.undeliverable f = match s.cu.handover with
      | some h =>
        if h.unacked.contains f.ticket then (s.failHandover .undeliverable 0).failedExchange h.custodian else s
      | none => s := by
  obtain ⟨ticket, dest, msg, sends⟩ := f
  cases msg <;> simp [Msg.kind] at hk
  rfl

theorem State.undeliverable_transferEnd (hk : f.msg.kind = 21) :
    s.undeliverable f = match s.handoverOfTicket f.ticket with
      | some h => s.failTransferEnd h
      | none => s := by
  obtain ⟨ticket, dest, msg, sends⟩ := f
  cases msg <;> simp [Msg.kind] at hk
  rfl

/-- No other frame's owner acts on UNDELIVERABLE. -/
theorem State.undeliverable_other (hk : f.msg.kind ∉ [1, 3, 5, 6, 8, 10, 12, 18, 20, 21]) : s.undeliverable f = s := by
  obtain ⟨ticket, dest, msg, sends⟩ := f
  cases msg <;> simp [Msg.kind] at hk <;> rfl

/-- Frames of class 0 have no owner that waits for them. -/
theorem State.undeliverable_control (h : f.msg.cls = 0) : s.undeliverable f = s := by
  refine State.undeliverable_other fun hk => ?_
  unfold Msg.cls at h
  simp only [List.mem_cons, List.not_mem_nil, or_false] at hk
  rcases hk with hk | hk | hk | hk | hk | hk | hk | hk | hk | hk <;> simp [hk, kindClass] at h

/-! ### SENT and DROPPED (R129, R144) -/

/-- The DEPART of ANNOUNCING has gone. -/
theorem State.broadcastGone_announcing {h : Handover} {cause : Nat} (hm : f.msg = .depart cause)
    (hh : s.cu.handover = some h) (hsub : h.sub = .announcing) (ht : h.ticket = some f.ticket) :
    s.broadcastGone f = s.retire := by
  unfold State.broadcastGone
  rw [hm, State.handoverOfTicket_eq hh, if_pos ht]
  exact if_pos hsub

theorem State.broadcastGone_other (hk : f.msg.kind ≠ 16) : s.broadcastGone f = s := by
  unfold State.broadcastGone
  split
  · rename_i hm _
    simp [hm, Msg.kind] at hk
  · rfl

/-- A broadcast that no handover announces with is nobody's. -/
theorem State.broadcastGone_notAnnouncing
    (h : ∀ h, s.cu.handover = some h → h.sub ≠ .announcing ∨ h.ticket ≠ some f.ticket) : s.broadcastGone f = s := by
  unfold State.broadcastGone
  cases hh : s.cu.handover with
  | none =>
    rw [State.handoverOfTicket_eq_none fun h hh' => by simp [hh] at hh']
    cases f.msg <;> rfl
  | some h' =>
    rw [State.handoverOfTicket_eq hh]
    obtain hsub | ht := h h' hh
    · split
      · rename_i heq
        refine if_neg ?_
        split at heq
        · simpa [← Option.some.inj heq] using hsub
        · simp at heq
      · rfl
    · rw [if_neg ht]
      cases f.msg <;> rfl

end

end Sys2Proof.Machine
end

