-- ==== Sys2Proof/Proofs/Sends.lean ====
section
/-! PROOFS. The end of a send: at its slot, by a clash, or cut off by STUCK; and what each does to the owner. -/
namespace Sys2Proof.Machine

section
variable {s : State}

/-- Handing a frame that is no BEACON does not read the Custody Unit. -/
theorem State.setCu_hand (x : Custody) (d : Nat) {m : Msg} (h : m.kind ≠ 14) :
    (s.setCu x).hand d m = (s.hand d m).setCu x := by
  cases hroom : s.lc.hasRoom m.cls
  · rw [s.hand_waits d m hroom, (s.setCu x).hand_waits d m hroom]; rfl
  · rw [s.hand_placed d m hroom, (s.setCu x).hand_placed d m hroom, State.placeFrame_of_kind h, State.placeFrame_of_kind h]
    rfl

/-! ### A frame that leaves (R149) -/

/-- Granting a place leaves the pause list as it is. -/
theorem State.grant_pauses (s : State) : s.grant.lc.pauses = s.lc.pauses := by
  unfold State.grant
  split
  · split <;> rfl
  · split
    · rfl
    · split <;> rfl

/-! ### One failed send (R144) -/

variable {f : OutFrame}

theorem State.failSend_again (h : f.sends + 1 < 4) : s.failSend f = s.setLc { s.lc with
    outbound := updateWhere (fun g => g.ticket = f.ticket) (fun g => { g with sends := g.sends + 1 }) s.lc.outbound } :=
  if_pos h

/-- The fourth failed send of a frame to one station. -/
theorem State.failSend_unicast (h : 4 ≤ f.sends + 1) (hd : f.dest ≠ 255) :
    s.failSend f = (s.removeFrame f.ticket).undeliverable f :=
  (if_neg (Nat.not_lt.mpr h)).trans (if_neg (by simpa [OutFrame.isBroadcast] using hd))

/-- The fourth failed send of a frame to all stations. -/
theorem State.failSend_broadcast (h : 4 ≤ f.sends + 1) (hd : f.dest = 255) :
    s.failSend f = (s.removeFrame f.ticket).broadcastGone f :=
  (if_neg (Nat.not_lt.mpr h)).trans (if_pos (by simpa [OutFrame.isBroadcast] using hd))

theorem State.endSend_broadcast (dominant : Bool) (hd : f.dest = 255) :
    s.endSend f dominant = (s.removeFrame f.ticket).broadcastGone f := if_pos (by simpa [OutFrame.isBroadcast] using hd)

theorem State.endSend_unicast (dominant : Bool) (hd : f.dest ≠ 255) :
    s.endSend f dominant = if dominant then (s.removeFrame f.ticket).acknowledged f else s.failSend f :=
  if_neg (by simpa [OutFrame.isBroadcast] using hd)

/-! ### The three steps that end a send -/

variable {x : Sending}

theorem exec_sendEnd (hl : s.live = true) (hx : s.lc.activity = .sending x) (hf : s.sent x = some f) (dominant : Bool) :
    exec (.sendEnd dominant) s = .next (s.lineBusy.restartBeacon.endSend f dominant).settle := by
  simp only [exec, execSendEnd, hx, hl, if_true, State.slotReached, hf]

theorem exec_clashMismatch (hl : s.live = true) (hx : s.lc.activity = .sending x) (hf : s.sent x = some f) :
    exec .clashMismatch s = .next ((s.lineBusy.clash 0 x.kind x.dest).failSend f).settle := by
  simp only [exec, execClashMismatch, hx, hl, if_true, State.sendAborted, hf]

theorem exec_stuck (hl : s.live = true) (hline : s.lineUp = true) :
    exec .stuck s = .next (s.enterStuck.cutOff s.lc.activity).settle := by
  simp only [exec, execStuck, hline, hl, if_true]

theorem State.cutOff_sending (hf : s.sent x = some f) : s.cutOff (.sending x) = s.failSend f := by
  simp only [State.cutOff, hf]

theorem State.cutOff_idle {a : LineActivity} (h : ∀ x, a ≠ .sending x) : s.cutOff a = s := by
  cases a with
  | sending x => exact absurd rfl (h x)
  | busy | free | receiving => rfl

theorem State.lineUp_active (h : s.lineState = .active) : s.lineUp = true := by simp [State.lineUp, h]

end

/-- Settles O22: the receptions that are passed over, and each end of a send through `failSend`. -/
theorem discardsClashesAndStuckComplete : Obligations.DiscardsClashesAndStuckComplete := by
  refine ⟨fun s hr => ?brokenFlag, fun s bits hr hd => ?discard, fun s levels f hl hr hf hsrc => ?heardOwn,
    fun s x f hl hx hf hsends => ?clash, fun s x f hl hx hf hsends hd hcls hw => ?clashControl, fun s hl hline hx => ?stuck,
    fun s x f hl hline hx hf hsends => ?stuckSending, fun s x f hl hx hf hsends hw => ?fourth,
    fun s since hl hsince hline => ?stuckEnd⟩
  case brokenFlag =>
    simp only [exec, execFrameDiscarded, hr, if_true]
    rfl
  case discard =>
    simp only [exec, execFrameDiscarded, hr, hd, if_true]
    rfl
  case heardOwn =>
    simp only [exec, execHeardOwn, hr, hf, hsrc, hl, if_true]
    rfl
  case clash =>
    rw [exec_clashMismatch hl hx hf, State.failSend_again hsends]
    rfl
  case clashControl =>
    rw [exec_clashMismatch hl hx hf, State.failSend_unicast hsends hd,
      State.removeFrame_of_nil (s := s.lineBusy.clash 0 x.kind x.dest) hw, State.undeliverable_control hcls]
    rfl
  case stuck =>
    have hup : s.lineUp = true := by
      unfold State.lineUp
      rcases hline with h | h <;> simp [h]
    refine ⟨s.freeNat 0 % 4294967296, ?_⟩
    rw [exec_stuck hl hup, State.cutOff_idle hx]
    rfl
  case stuckSending =>
    refine ⟨s.freeNat 0 % 4294967296, ?_⟩
    rw [exec_stuck hl (State.lineUp_active hline), hx, State.cutOff_sending (s := s.enterStuck) hf, State.failSend_again hsends]
    rfl
  case fourth =>
    have hclash := exec_clashMismatch hl hx hf
    have hleft := State.removeFrame_of_nil (s := s.lineBusy.clash 0 x.kind x.dest) hw f.ticket
    refine ⟨fun hd => ?_, fun hd => ?_, fun hline => ⟨s.freeNat 0 % 4294967296, ?_⟩⟩
    · rw [hclash, State.failSend_unicast hsends hd, hleft]
      rfl
    · rw [hclash, State.failSend_broadcast hsends hd, hleft]
      rfl
    · have hstuck := exec_stuck hl (State.lineUp_active hline)
      have hgone := State.removeFrame_of_nil (s := s.enterStuck) hw f.ticket
      rw [hx, State.cutOff_sending (s := s.enterStuck) hf] at hstuck
      refine ⟨fun hd => ?_, fun hd => ?_⟩
      · rw [hstuck, State.failSend_unicast hsends hd, hgone]
        rfl
      · rw [hstuck, State.failSend_broadcast hsends hd, hgone]
        rfl
  case stuckEnd =>
    simp only [exec, execStuckEnd, hsince, hline, if_true, State.leaveStuck, hl]
    rfl

end Sys2Proof.Machine
end

