-- ==== Sys2Proof/Proofs/SendEnd.lean ====
section
/-! PROOFS. SEND_END, and each report to an owner in the words of the obligation. -/
namespace Sys2Proof.Machine

section
variable {s : State} {f : OutFrame}

/-! ### Transactions (R60) -/

/-- The owner of a transaction's frame starts its reply timer. -/
theorem State.acknowledged_txn {t : Txn} (hk : f.msg.kind = 1 ∨ f.msg.kind = 3 ∨ f.msg.kind = 6 ∨ f.msg.kind = 8)
    (ht : s.txnOfTicket f.ticket = some t) :
    s.acknowledged f = s.modifyTxn t.reference fun t => { t with ticket := none, timer := some (s.now + t.replyTimeout) } := by
  rw [State.acknowledged_request hk, ht]

/-- A transaction whose report has come, its reply timer at its end. -/
def Txn.atTimeout (t : Txn) (now : Nat) : Txn := { t with ticket := none, timer := some now }

/-- The state with the reply timer of a transaction at its end. -/
def State.timedOut (s : State) (reference : Nat) : State :=
  s.modifyTxn reference fun t => t.atTimeout s.now

theorem State.timedOut_txnFor {t : Txn} {n : Nat} (ht : s.txnFor n = some t) :
    (s.timedOut n).txnFor n = some (t.atTimeout s.now) := by
  have hfind := find?_updateWhere (p := fun y : Txn => decide (y.reference = n)) (q := fun y : Txn => decide (y.reference = n))
    (f := fun y => y.atTimeout s.now) (fun _ => rfl) s.br.txns
  have hfirst : s.br.txns.find? (fun y => y.reference = n) = some t := ht
  rw [hfirst, Option.map_some, if_pos (List.find?_some hfirst)] at hfind
  exact hfind

/-- A failed attempt does not read the reply timer. -/
theorem State.failAttempt_timedOut (s : State) (t : Txn) :
    (s.timedOut t.reference).failAttempt (t.atTimeout s.now) = s.failAttempt t := by
  have hcleared : (s.timedOut t.reference).modifyTxn t.reference (fun t => { t with ticket := none, timer := none }) =
      s.modifyTxn t.reference fun t => { t with ticket := none, timer := none } :=
    congrArg (fun l => s.setBr { s.br with txns := l })
      (updateWhere_twice (p := fun x : Txn => decide (x.reference = t.reference))
        (f := fun t : Txn => t.atTimeout s.now) (fun _ hx => hx) s.br.txns)
  have hattempt : (s.timedOut t.reference).failAttempt (t.atTimeout s.now) =
      let s1 := ((s.timedOut t.reference).modifyTxn t.reference fun t =>
        { t with ticket := none, timer := none }).failedExchange t.station
      let t1 := { t with ticket := none, timer := none }
      if 0 < t.attemptsLeft && (s1.peerAt t.station).presence.reachable then s1.sendAttempt t1 else s1.exhausted t1 := rfl
  rw [hattempt, hcleared]
  rfl

/-- A reply timer that has run out fails the attempt (R60). -/
theorem exec_replyTimeout {t : Txn} {n at_ : Nat} (hl : s.live = true) (ht : s.txnFor n = some t)
    (htimer : t.timer = some at_)
    (hstate : t.state = .authWait ∨ t.state = .captureWait ∨ t.state = .creditWait ∨ t.state = .enquireWait) :
    exec (.replyTimeout n) s = .next ((s.reach at_).failAttempt t).settle := by
  have hwaiting : t.state.waiting = true := by rcases hstate with h | h | h | h <;> simp [h, TxnState.waiting]
  have htimed : s.timedTxn n true = some (t, at_) := by
    unfold State.timedTxn
    rw [ht]
    simp only [htimer, hwaiting, if_true]
  simp only [exec, execReplyTimeout, State.event_live hl, htimed]

/-! ### The handover (R120, R123) -/

/-- An attempt of TRANSFER-END, as one change of the handover and one frame. -/
theorem State.sendTransferEnd_eq {h : Handover} (hh : s.cu.handover = some h) :
    s.sendTransferEnd = (s.setCu { s.cu with handover := some { h with
      ending := true, attemptsLeft := h.attemptsLeft - 1, ticket := some s.ticket, timer := none } }).hand
      h.custodian (.transferEnd h.count h.total) := by
  unfold State.sendTransferEnd State.setHandover
  rw [hh, State.setCu_hand (h := by simp [Msg.kind])]
  simp only [State.hand_cu]

/-- One failed exchange that is not the third in a row (R160). -/
theorem State.failedExchange_below {p : Nat} (h : (s.peerAt p).failed < 2) :
    s.failedExchange p = s.modifyPeer p fun e => { e with failed := e.failed + 1 } := by
  have hcount : min 3 ((s.peerAt p).failed + 1) = (s.peerAt p).failed + 1 := by omega
  have hnot : ¬ (s.peerAt p).failed + 1 = 3 := by omega
  unfold State.failedExchange
  rw [hcount]
  simp only [hnot, decide_false, Bool.false_and, Bool.false_eq_true, if_false]
  rfl

/-- A failed attempt of TRANSFER-END with another one left, toward a peer that stays as it is. -/
theorem State.failTransferEnd_again {h : Handover} (hleft : 0 < h.attemptsLeft)
    (hfailed : (s.peerAt h.custodian).failed < 2) :
    s.failTransferEnd h = ((s.setCu { s.cu with handover := some { h with
        ending := true, attemptsLeft := h.attemptsLeft - 1, ticket := some s.ticket, timer := none } }).setPm
        { s.pm with peers := Table.modify {} s.pm.peers h.custodian fun e => { e with failed := e.failed + 1 } }).hand
      h.custodian (.transferEnd h.count h.total) := by
  have hexchange := State.failedExchange_below (s := s.setHandover (some { h with ticket := none, timer := none })) hfailed
  unfold State.failTransferEnd
  rw [if_neg hleft.ne', hexchange]
  exact (if_pos rfl).trans (State.sendTransferEnd_eq (h := { h with ticket := none, timer := none }) rfl)

/-! ### The report of a frame nobody waits for -/

/-- No transaction, advice or handover waits for the report of the frame. -/
def State.unclaimed (s : State) (ticket : Nat) : Prop :=
  ¬ ((∃ t ∈ s.br.txns, t.ticket = some ticket) ∨ (∃ a ∈ s.au.queue, a.ticket = some ticket)
    ∨ ∃ h, s.cu.handover = some h ∧ (h.ticket = some ticket ∨ ticket ∈ h.unacked))

namespace State.unclaimed
variable {n : Nat}

theorem txn (h : s.unclaimed n) : s.txnOfTicket n = none :=
  List.find?_eq_none.mpr fun t ht hn => h (.inl ⟨t, ht, of_decide_eq_true hn⟩)

theorem advice (h : s.unclaimed n) : s.adviceOfTicket n = none :=
  List.find?_eq_none.mpr fun a ha hn => h (.inr (.inl ⟨a, ha, of_decide_eq_true hn⟩))

theorem handover (h : s.unclaimed n) : s.handoverOfTicket n = none :=
  State.handoverOfTicket_eq_none fun h' hh hn => h (.inr (.inr ⟨h', hh, .inl hn⟩))

theorem unacked (h : s.unclaimed n) {h' : Handover} (hh : s.cu.handover = some h') : n ∉ h'.unacked :=
  fun hn => h (.inr (.inr ⟨h', hh, .inr hn⟩))

/-- Its ACKNOWLEDGED does nothing. -/
theorem acknowledged (h : s.unclaimed f.ticket) : s.acknowledged f = s := by
  by_cases hother : f.msg.kind ∉ [1, 3, 6, 8, 10, 18, 20, 21]
  · exact State.acknowledged_other hother
  simp only [not_not, List.mem_cons, List.not_mem_nil, or_false] at hother
  by_cases hcard : f.msg.kind = 20
  · rw [State.acknowledged_card hcard]
    split
    case h_1 h' hh =>
      have hkept : h'.unacked.filter (fun n => n ≠ f.ticket) = h'.unacked :=
        List.filter_eq_self.mpr fun n hn => by
          have hne : n ≠ f.ticket := fun heq => h.unacked hh (heq ▸ hn)
          simpa using hne
      rw [hkept]
      exact congrArg (fun x => s.setCu { s.cu with handover := x }) hh.symm
    case h_2 => rfl
  · by_cases hadvice : f.msg.kind = 10
    · rw [State.acknowledged_advice hadvice, h.advice]
    · by_cases hoffer : f.msg.kind = 18 ∨ f.msg.kind = 21
      · rw [State.acknowledged_handover hoffer, h.handover]
      · rw [State.acknowledged_request (by omega), h.txn]

/-- Its UNDELIVERABLE does nothing, but for a RELEASE and a statement, whose owners go by the frame. -/
theorem undeliverable (h : s.unclaimed f.ticket) (h5 : f.msg.kind ≠ 5) (h12 : f.msg.kind ≠ 12) : s.undeliverable f = s := by
  by_cases hother : f.msg.kind ∉ [1, 3, 5, 6, 8, 10, 12, 18, 20, 21]
  · exact State.undeliverable_other hother
  simp only [not_not, List.mem_cons, List.not_mem_nil, or_false] at hother
  by_cases hcard : f.msg.kind = 20
  · rw [State.undeliverable_card hcard]
    split
    case h_1 h' hh => exact if_neg (by simpa using h.unacked hh)
    case h_2 => rfl
  · by_cases hadvice : f.msg.kind = 10
    · rw [State.undeliverable_advice hadvice, h.advice]
    · by_cases hoffer : f.msg.kind = 18
      · rw [State.undeliverable_offer hoffer, h.handover]
      · by_cases hend : f.msg.kind = 21
        · rw [State.undeliverable_transferEnd hend, h.handover]
        · rw [State.undeliverable_request (by omega), h.txn]

end State.unclaimed

/-! ### A send at its slot -/

variable {x : Sending}

/-- A send that reaches its slot with nothing waiting for the place. -/
def State.slotIdle (s : State) (q : List OutFrame) : State :=
  (s.setLc { s.lc with activity := .busy, ackDriven := false, outbound := q }).setPm { s.pm with beaconFrom := some s.now }

/-- An acknowledged frame leaves, and its owner acts. -/
theorem exec_sendEnd_acknowledged (hl : s.live = true) (hx : s.lc.activity = .sending x) (hf : s.sent x = some f)
    (hw : s.lc.waitList = []) (hd : f.dest ≠ 255) :
    exec (.sendEnd true) s = .next ((s.slotIdle (s.lc.outbound.filter fun g => g.ticket ≠ f.ticket)).acknowledged f).settle := by
  rw [exec_sendEnd hl hx hf, State.endSend_unicast true hd, if_pos rfl,
    State.removeFrame_of_nil (s := s.lineBusy.restartBeacon) hw]
  rfl

/-- The fourth recessive slot takes the frame from the queue. -/
theorem exec_sendEnd_undeliverable (hl : s.live = true) (hx : s.lc.activity = .sending x) (hf : s.sent x = some f)
    (hw : s.lc.waitList = []) (hd : f.dest ≠ 255) (hsends : 4 ≤ f.sends + 1) :
    exec (.sendEnd false) s = .next ((s.slotIdle (s.lc.outbound.filter fun g => g.ticket ≠ f.ticket)).undeliverable f).settle := by
  rw [exec_sendEnd hl hx hf, State.endSend_unicast false hd, if_neg Bool.false_ne_true, State.failSend_unicast hsends hd,
    State.removeFrame_of_nil (s := s.lineBusy.restartBeacon) hw]
  rfl

end

/-- Settles O24: a send by what its slot reads, and each owner's act by the kind of the frame. -/
theorem sendEndCompletes : Obligations.SendEndCompletes := by
  refine ⟨fun s x f dominant hl hx hf hw => ?slot, fun s x f h cause dominant hl hx hf hd hm hh hsub ht => ?retired,
    fun s f => ?acknowledged, fun s f => ?undeliverable, fun s f hwaited => ?nobody, fun s f => ?broadcast⟩
  case slot =>
    refine ⟨fun t hd hk ht => ?_, fun hd => exec_sendEnd_acknowledged hl hx hf hw hd, fun hd hsends => ?_,
      fun hd hsends => exec_sendEnd_undeliverable hl hx hf hw hd hsends, fun hd hsends hcls => ?_, fun hd hk => ?_⟩
    · rw [exec_sendEnd_acknowledged hl hx hf hw hd, State.acknowledged_txn (s := s.slotIdle _) hk ht]
      rfl
    · rw [exec_sendEnd hl hx hf, State.endSend_unicast false hd, if_neg Bool.false_ne_true, State.failSend_again hsends]
      rfl
    · rw [exec_sendEnd_undeliverable hl hx hf hw hd hsends, State.undeliverable_control hcls]
      rfl
    · rw [exec_sendEnd hl hx hf, State.endSend_broadcast dominant hd, State.broadcastGone_other hk,
        State.removeFrame_of_nil (s := s.lineBusy.restartBeacon) hw]
      rfl
  case retired =>
    have hleft := s.lineBusy.restartBeacon.removeFrame_lineOnly f.ticket
    have hretired := State.broadcastGone_announcing (s := s.lineBusy.restartBeacon.removeFrame f.ticket) hm
      (by rw [hleft.cu]; exact hh) hsub ht
    refine ⟨(s.lineBusy.restartBeacon.removeFrame f.ticket).retire, ?_, ?_, ?_, rfl, rfl, rfl, rfl, rfl, rfl, ?_, ?_, ?_, ?_,
      ?_, ?_⟩
    · rw [exec_sendEnd hl hx hf, State.endSend_broadcast dominant hd, hretired]
    · exact congrArg (fun c : StationCtl => { c with station := StationState.retired }) hleft.sc
    · exact congrArg (fun c : Custody => { c with handover := none, holds := [] }) hleft.cu
    · exact hleft.till
    · exact hleft.su
    · exact hleft.br
    · exact hleft.au
    · exact State.grant_pauses (s.lineBusy.restartBeacon.withoutFrame f.ticket)
    · intro hw
      have hguard := congrArg (fun t : State => t.lc.pauseGuard)
        (State.removeFrame_of_nil (s := s.lineBusy.restartBeacon) hw f.ticket)
      exact hguard
  case acknowledged =>
    refine ⟨fun t hk ht => State.acknowledged_txn hk ht, fun a hk ha => ?_, fun h hk hh ht => ?_, fun h hk hh => ?_,
      fun hk => State.acknowledged_other hk⟩
    · rw [State.acknowledged_advice hk, show s.adviceOfTicket f.ticket = some a from ha, ← State.replyTimeout_eq]
      rfl
    · rw [State.acknowledged_handover hk, State.handoverOfTicket_eq hh, if_pos ht]
      rfl
    · rw [State.acknowledged_card hk, hh]
      rfl
  case undeliverable =>
    refine ⟨fun t hl hk ht htxn hstate => ?_, fun a p hk ha hp => ?_, fun hk => State.undeliverable_release hk,
      fun part period gross fee credit grossN feeN creditN mark hm => ⟨fun c hc hperiod => ?_, fun hnot => ?_⟩,
      fun h hh hk => ?_, fun h hk hh ht => ⟨fun hleft => ?_, fun hleft hfailed => ?_⟩, fun hk => State.undeliverable_other hk⟩
    · have hfail : s.undeliverable f = s.failAttempt t := by
        rw [State.undeliverable_request hk, show s.txnOfTicket f.ticket = some t from ht]
      rw [hfail, ← State.failAttempt_timedOut]
      refine (exec_replyTimeout (s := s.timedOut t.reference) hl (State.timedOut_txnFor htxn) rfl hstate).trans ?_
      rw [show (s.timedOut t.reference).reach s.now = s.timedOut t.reference from
        congrArg (s.timedOut t.reference).setNow (Nat.max_self s.now)]
    · have hfail : s.undeliverable f = s.failAdvice a := by
        rw [State.undeliverable_advice hk, show s.adviceOfTicket f.ticket = some a from ha]
      rw [hfail]
      unfold State.failAdvice
      rw [hp]
      rfl
    · unfold State.undeliverable
      rw [hm]
      unfold State.statementUndeliverable
      rw [hc]
      exact if_pos hperiod
    · unfold State.undeliverable
      rw [hm]
      unfold State.statementUndeliverable
      cases hc : s.su.closing with
      | none => rfl
      | some c => exact if_neg (hnot c hc)
    · obtain ⟨hk, ht⟩ | ⟨hk, hu⟩ := hk
      · rw [State.undeliverable_offer hk, State.handoverOfTicket_eq hh, if_pos ht]
      · rw [State.undeliverable_card hk, hh]
        exact if_pos (by simpa using hu)
    · rw [State.undeliverable_transferEnd hk, State.handoverOfTicket_eq hh, if_pos ht]
      exact if_pos hleft
    · rw [State.undeliverable_transferEnd hk, State.handoverOfTicket_eq hh, if_pos ht]
      exact State.failTransferEnd_again hleft hfailed
  case nobody =>
    have hnobody : s.unclaimed f.ticket := hwaited
    exact ⟨hnobody.acknowledged, hnobody.undeliverable⟩
  case broadcast =>
    refine ⟨fun h cause hm hh hsub ht => State.broadcastGone_announcing hm hh hsub ht, ?_⟩
    rintro (hk | hnot)
    · exact State.broadcastGone_other hk
    · exact State.broadcastGone_notAnnouncing hnot

end Sys2Proof.Machine
end

