-- ==== Sys2Proof/Proofs/Hearing.lean ====
section
/-! PROOFS. A frame that is heard: its sender's entry, the open entry, the hold-offs, and what acceptance adds. -/
namespace Sys2Proof.Machine

/-- A changed entry, read at any address, where the change leaves no start value. -/
theorem Table.get_modify {α : Type} [DecidableEq α] {d : α} {t : Table α} {a : Nat} {f : α → α}
    (h : f (Table.get d t a) ≠ d) (b : Nat) :
    Table.get d (Table.modify d t a f) b = if b = a then f (Table.get d t a) else Table.get d t b := by
  unfold Table.modify
  by_cases hb : b = a
  · rw [if_pos hb, hb, Table.get_put_self d a _ h]
  · rw [if_neg hb, Table.get_put_other d _ hb]

/-! ### The sender's entry (R154, R158, R162) -/

/-- Number of frames missed before this one. -/
def Peer.gap (e : Peer) (q : Nat) : Nat := missedBetween e.lastSequence q

/-- The entry with its sequence tracked past `d` missed frames. -/
def Peer.tracked (e : Peer) (q d : Nat) : Peer := { e with
  lastSequence := some q, missed := min (e.missed + d) 65535, degraded := e.degraded || (d ≠ 0 && 8 ≤ e.missed + d) }

/-- The entry of a station that exchanges again. -/
def Peer.heardAt (e : Peer) (now : Nat) : Peer := { e with lastHeard := some now, failed := 0 }

/-- The entry of a station just heard, before its presence is set. -/
def Peer.heard (e : Peer) (now q : Nat) : Peer := (e.tracked q (e.gap q)).heardAt now

theorem Peer.tracked_ne (e : Peer) (q d : Nat) : e.tracked q d ≠ {} := fun h =>
  Option.some_ne_none q (congrArg Peer.lastSequence h)

theorem Peer.heard_ne (e : Peer) (now q : Nat) : e.heard now q ≠ {} := fun h =>
  Option.some_ne_none q (congrArg Peer.lastSequence h)

/-- The open entry is marked where frames were missed (R162). -/
def Settlement.markMissed (u : Settlement) (p d : Nat) : Settlement :=
  if d = 0 then u else { u with entries := Table.modify {} u.entries p fun e => { e with missed := true } }

/-- The station with another state of the banks and the peers, busy on the line. -/
def State.beside (s : State) (x : Settlement) (y : PeerMon) : State := ((s.setSu x).setPm y).lineBusy

section
variable {s : State} {p q : Nat}

/-- Which frames of the open entry's peer were missed. -/
theorem Settlement.markMissed_openEntry (u : Settlement) (p d a : Nat) : (u.markMissed p d).openEntry a =
    if a = p ∧ d ≠ 0 then { u.openEntry a with missed := true } else u.openEntry a := by
  unfold Settlement.markMissed
  by_cases hd : d = 0
  · simp [hd]
  · rw [if_neg hd]
    have hmark := Table.get_modify (d := ({} : PosEntry)) (t := u.entries) (a := p) (f := fun e => { e with missed := true })
      (fun h => Bool.noConfusion (congrArg PosEntry.missed h)) a
    refine Eq.trans hmark ?_
    by_cases ha : a = p
    · rw [if_pos ha, if_pos ⟨ha, hd⟩, ha]
      rfl
    · rw [if_neg ha, if_neg fun h => ha h.1]
      rfl

theorem Settlement.markMissed_entries (u : Settlement) (p d : Nat) :
    u.markMissed p d = { u with entries := (u.markMissed p d).entries } := by
  unfold Settlement.markMissed
  split <;> rfl

/-- The change of the sender's entry alone. -/
def State.heardPeers (s : State) (p q : Nat) : PeerMon :=
  { s.pm with peers := Table.modify {} s.pm.peers p fun e => e.heard s.now q }

/-- Tracking a sequence and noting the moment it was heard are one change of the sender's entry. -/
theorem State.trackSequence_heard (s : State) (p q : Nat) :
    ((s.lineBusy.trackSequence p q).modifyPeer p fun e => e.heardAt s.now) =
      s.beside (s.su.markMissed p ((s.peerAt p).gap q)) (s.heardPeers p q) := by
  have hpeers (x : Settlement) : ((s.lineBusy.modifyPeer p fun e => e.tracked q ((s.peerAt p).gap q)).setSu x).modifyPeer p
      (fun e => e.heardAt s.now) = s.beside x (s.heardPeers p q) :=
    congrArg (fun l => s.beside x { s.pm with peers := l })
      (Table.modify_modify {} s.pm.peers p (fun e => e.tracked q ((s.peerAt p).gap q)) (fun e => e.heardAt s.now)
        (Peer.tracked_ne _ q _))
  have hgap : missedBetween (s.lineBusy.peerAt p).lastSequence q = (s.peerAt p).gap q := rfl
  rw [← hpeers]
  unfold State.trackSequence Settlement.markMissed
  rw [hgap]
  by_cases hd : (s.peerAt p).gap q = 0
  · simp only [hd, if_true]
    rfl
  · simp only [hd, if_false]
    rfl

/-- The change of the sender's entry with a presence. -/
def State.presencePeers (s : State) (p q : Nat) (v : Presence) : PeerMon :=
  { s.pm with peers := Table.modify {} s.pm.peers p fun e => { e.heard s.now q with presence := v } }

/-- A presence set behind the rest is the same change of the entry. -/
theorem State.heardPeers_presence (s : State) (x : Settlement) (p q : Nat) (v : Presence) :
    ((s.beside x (s.heardPeers p q)).modifyPeer p fun e => { e with presence := v }) = s.beside x (s.presencePeers p q v) :=
  congrArg (fun l => s.beside x { s.pm with peers := l })
    (Table.modify_modify ({} : Peer) s.pm.peers p (fun e => e.heard s.now q) (fun e => { e with presence := v })
      (Peer.heard_ne _ _ q))

/-- A presence that the entry has already is no change. -/
theorem State.presencePeers_same (s : State) (p q : Nat) : s.presencePeers p q (s.peerAt p).presence = s.heardPeers p q := rfl

/-- Each station's entry afterwards. -/
theorem State.presencePeers_get (s : State) (p q : Nat) (v : Presence) (a : Nat) :
    Table.get {} (s.presencePeers p q v).peers a =
      if a = p then { (s.peerAt p).heard s.now q with presence := v } else s.peerAt a :=
  Table.get_modify (d := ({} : Peer)) (t := s.pm.peers) (f := fun e => { e.heard s.now q with presence := v })
    (fun h => Option.some_ne_none q (congrArg Peer.lastSequence h)) a

end

/-! ### Acceptance (R143, R148, R151, R152) -/

section
variable {s : State} {f : RawFrame} {m : Msg}

/-- With fewer than 12 frames inbound no PAUSE is handed. -/
theorem State.pauseIfFull_of_lt (h : s.lc.inbound.length < 12) : s.pauseIfFull = s := by
  refine if_neg ?_
  simp [Nat.not_le.mpr h]

theorem State.pauseIfFull_lineOnly (s : State) : s.LineOnly s.pauseIfFull := by
  unfold State.pauseIfFull
  split
  · exact s.broadcast_lineOnly _
  · exact .refl s

theorem State.accept_lineOnly (s : State) (f : RawFrame) (m : Msg) : s.LineOnly (s.accept f m) := by
  have hline : ∀ t : State, s.LineOnly t →
      s.LineOnly (t.setLc { t.lc with ackDriven := decide (s.lineState = .active) }).pauseIfFull :=
    fun t ht => (ht.trans (t.setLc_lineOnly _)).trans (State.pauseIfFull_lineOnly _)
  unfold State.accept
  refine hline _ ?_
  cases m
  case pause t =>
    change s.LineOnly (s.takePause f.source t)
    unfold State.takePause
    split
    · exact .refl s
    · exact s.setLc_lineOnly _
  all_goals exact s.setLc_lineOnly _

/-- An accepted frame that is no PAUSE joins the inbound queue. -/
theorem State.accept_joins (hm : ∀ t, m ≠ .pause t) (h : s.lc.inbound.length < 11) : s.accept f m = s.setLc { s.lc with
    inbound := s.lc.inbound ++ [{ source := f.source, msg := m }], ackDriven := decide (s.lineState = .active) } := by
  have hroom : (s.lc.inbound ++ [({ source := f.source, msg := m } : InFrame)]).length < 12 := by simpa using Nat.succ_lt_succ h
  have hjoins := State.pauseIfFull_of_lt (s := s.setLc { s.lc with
    inbound := s.lc.inbound ++ [{ source := f.source, msg := m }], ackDriven := decide (s.lineState = .active) }) hroom
  cases m
  case pause t => exact absurd rfl (hm t)
  all_goals exact hjoins

/-- A PAUSE is acted on at once. -/
theorem State.accept_pause (f : RawFrame) (t : Nat) (h : s.lc.inbound.length < 12) :
    s.accept f (.pause t) = (s.takePause f.source t).setLc
      { (s.takePause f.source t).lc with ackDriven := decide (s.lineState = .active) } := by
  have hkept : (s.takePause f.source t).lc.inbound = s.lc.inbound := by
    unfold State.takePause
    split <;> rfl
  rw [← hkept] at h
  exact State.pauseIfFull_of_lt (s := (s.takePause f.source t).setLc
    { (s.takePause f.source t).lc with ackDriven := decide (s.lineState = .active) }) h

theorem State.takePause_zero (x : Nat) : s.takePause x 0 = s := if_pos rfl

theorem State.takePause_new {x t : Nat} (ht : 0 < t) (h : ∀ e ∈ s.lc.pauses, e.1 ≠ x) :
    s.takePause x t = s.setLc { s.lc with pauses := s.lc.pauses ++ [(x, s.now + t)] } := by
  have hnew : s.pausedBy x = false := List.any_eq_false.mpr fun e he => by simpa using h e he
  unfold State.takePause
  rw [if_neg ht.ne', hnew]
  rfl

theorem State.takePause_extends {x t : Nat} (ht : 0 < t) (h : ∃ e ∈ s.lc.pauses, e.1 = x) :
    s.takePause x t = s.setLc { s.lc with
      pauses := s.lc.pauses.map fun e => if e.1 = x then (x, max e.2 (s.now + t)) else e } := by
  have hheld : s.pausedBy x = true := by
    obtain ⟨e, he, hx⟩ := h
    exact List.any_eq_true.mpr ⟨e, he, by simpa using hx⟩
  unfold State.takePause
  rw [if_neg ht.ne', hheld]
  rfl

/-- Acceptance leaves what is outbound, while it hands no PAUSE. -/
theorem State.accept_outbound (f : RawFrame) (m : Msg) (h : s.lc.inbound.length < 11) :
    (s.accept f m).lc.outbound = s.lc.outbound ∧ (s.accept f m).lc.waitList = s.lc.waitList := by
  cases m
  case pause t =>
    rw [State.accept_pause f t (by omega)]
    unfold State.takePause
    split <;> exact ⟨rfl, rfl⟩
  all_goals
    rw [State.accept_joins (by simp) h]
    exact ⟨rfl, rfl⟩

/-! ### The step -/

/-- What hearing a frame does before its acceptance. -/
def State.noted (s : State) (f : RawFrame) : State :=
  ((((s.lineBusy.trackSequence f.source f.sequence).heardFrom f.source f.kind).clearHoldOffs f.source f.kind).countFrame)

/-- FRAME_HEARD from another station (R142). -/
theorem exec_frameHeard {levels : List Bool} (hl : s.live = true) (hr : s.receiving = true) (hf : receive levels = .frame f)
    (hlow : 1 ≤ f.source) (hhigh : f.source ≤ 239) (hown : f.source ≠ s.own) :
    exec (.frameHeard levels) s = .next (s.hearFrame f).settle := by
  have hok : stationOk f.source = true := stationOk_iff.mpr ⟨hlow, hhigh⟩
  simp only [exec, execFrameHeard, hr, hf, if_true, hown, if_false, hok, hl, Bool.and_self]

theorem State.hearFrame_refused (h : s.accepts f = none) : s.hearFrame f = s.noted f := by
  unfold State.hearFrame
  rw [h]
  rfl

theorem State.hearFrame_accepted (h : s.accepts f = some m) : s.hearFrame f = (s.noted f).accept f m := by
  unfold State.hearFrame
  rw [h]
  rfl

theorem State.hearFrame_lineOnly (s : State) (f : RawFrame) : (s.noted f).LineOnly (s.hearFrame f) := by
  cases h : s.accepts f with
  | none =>
    rw [State.hearFrame_refused h]
    exact .refl _
  | some m =>
    rw [State.hearFrame_accepted h]
    exact State.accept_lineOnly _ _ _

theorem State.hearFrame_outbound (h : (s.noted f).lc.inbound.length < 11) :
    (s.hearFrame f).lc.outbound = (s.noted f).lc.outbound ∧ (s.hearFrame f).lc.waitList = (s.noted f).lc.waitList := by
  cases ha : s.accepts f with
  | none =>
    rw [State.hearFrame_refused ha]
    exact ⟨rfl, rfl⟩
  | some m =>
    rw [State.hearFrame_accepted ha]
    exact State.accept_outbound f m h

/-- A frame of the load window (R165). -/
def PeerMon.counted (y : PeerMon) : PeerMon := { y with windowCount := y.windowCount + 1 }

theorem State.noted_of_heardFrom {w : State} {x : Settlement} {y : PeerMon}
    (h : (s.lineBusy.trackSequence f.source f.sequence).heardFrom f.source f.kind = w.beside x y) :
    s.noted f = (w.beside x y.counted).clearHoldOffs f.source f.kind := by
  unfold State.noted
  rw [h]
  rfl

theorem State.trackSequence_now (s : State) (p q : Nat) : (s.lineBusy.trackSequence p q).now = s.now := by
  unfold State.trackSequence
  dsimp only
  split <;> rfl

/-- The open bank after a frame. -/
def State.suHearing (s : State) (f : RawFrame) : Settlement :=
  s.su.markMissed f.source ((s.peerAt f.source).gap f.sequence)

/-- A frame that is no DEPART makes its sender PRESENT (R158). -/
theorem State.noted_present (hk : f.kind ≠ 16) : s.noted f =
    (s.beside (s.suHearing f) (s.presencePeers f.source f.sequence .present).counted).clearHoldOffs f.source f.kind := by
  refine State.noted_of_heardFrom ?_
  rw [← s.heardPeers_presence (s.suHearing f), State.suHearing, ← State.trackSequence_heard,
    ← s.trackSequence_now f.source f.sequence]
  exact if_neg hk

/-- The hold-offs that a frame clears (R87). -/
theorem State.clearHoldOffs_eq (s : State) (p kind : Nat) : s.clearHoldOffs p kind = s.setAu { s.au with
    queue := s.au.queue.map fun a => match a.holdOff with
      | some (.frame x) => if x = p then { a with holdOff := none } else a
      | some (.beacon x) => if x = p ∧ kind = 14 then { a with holdOff := none } else a
      | some (.locally _) => a
      | none => a } := by
  refine congrArg (fun l => s.setAu { s.au with queue := l }) (List.map_congr_left fun a _ => ?_)
  match h : a.holdOff with
  | none => rfl
  | some (.frame x) => simp [HoldOff.clearedBy]
  | some (.beacon x) => simp [HoldOff.clearedBy]
  | some (.locally _) => simp [HoldOff.clearedBy]

end

/-! ### A DEPART (R123, R161) -/

section
variable {s : State} {f : RawFrame} {x : Settlement} {y : PeerMon}

/-- Handing a frame that is no BEACON beside other banks and peers. -/
theorem State.hand_beside (x : Settlement) (y : PeerMon) (d : Nat) {m : Msg} (h : m.kind ≠ 14) :
    (s.beside x y).hand d m = (s.hand d m).beside x y := by
  cases hroom : s.lc.hasRoom m.cls
  · rw [s.hand_waits d m hroom, (s.beside x y).hand_waits d m hroom]
    rfl
  · rw [s.hand_placed d m hroom, (s.beside x y).hand_placed d m hroom, State.placeFrame_of_kind h, State.placeFrame_of_kind h]
    rfl

/-- A handover's failure, its custodian ABSENT: the frames dropped, the ABORT handed, JOINED again, the record. -/
theorem State.failHandover_absent {h : Handover} (hh : s.cu.handover = some h) : s.failHandover .custodianAbsent 0 =
    let t := (s.dropRequests isHandoverFrame).hand h.custodian .abortHandover
    (((t.setHandover none).setSc { t.sc with station := .joined }).answer
      (handoverFailedRecord h.tag .custodianAbsent 0)).clearLocal := by
  unfold State.failHandover
  rw [hh]
  rfl

theorem State.failHandover_beside {h : Handover} (hh : s.cu.handover = some h) :
    (s.beside x y).failHandover .custodianAbsent 0 = (s.failHandover .custodianAbsent 0).beside x y := by
  have hhand := State.hand_beside (s := s.dropRequests isHandoverFrame) x y h.custodian (m := .abortHandover)
    (by simp [Msg.kind])
  have hbeside : (s.beside x y).dropRequests isHandoverFrame = (s.dropRequests isHandoverFrame).beside x y := rfl
  rw [State.failHandover_absent hh, State.failHandover_absent (s := s.beside x y) hh, hbeside, hhand]
  rfl

/-- What a failing handover leaves as it is. -/
theorem State.failHandover_keeps {h : Handover} (hh : s.cu.handover = some h) :
    (s.failHandover .custodianAbsent 0).br = s.br ∧ (s.failHandover .custodianAbsent 0).now = s.now
      ∧ (s.failHandover .custodianAbsent 0).free = s.free ∧ (s.failHandover .custodianAbsent 0).pending = s.pending
      ∧ (s.failHandover .custodianAbsent 0).lc.inbound = s.lc.inbound := by
  have hline := (s.dropRequests isHandoverFrame).hand_lineOnly h.custodian .abortHandover
  have hinbound := (s.dropRequests isHandoverFrame).hand_inbound h.custodian .abortHandover
  rw [State.failHandover_absent hh]
  exact ⟨hline.br, hline.now, hline.free, hline.pending, hinbound⟩

/-- The handover that a DEPART from `p` fails. -/
def State.failsBy (s : State) (p : Nat) (h : Handover) : Prop :=
  s.cu.handover = some h ∧ h.custodian = p ∧ (h.sub = .offering ∨ h.sub = .transferring) ∧ (s.peerAt p).presence ≠ .absent

/-- A peer that was not ABSENT becomes so, and the handover toward it fails. -/
theorem State.makeAbsent_fails {p : Nat} {h : Handover} (hf : s.failsBy p h) : s.makeAbsent p =
    (s.modifyPeer p fun e => { e with presence := .absent }).failHandover .custodianAbsent 0 := by
  obtain ⟨hh, hcust, hsub, hp⟩ := hf
  have hmine : (h.custodian = p && (h.sub = .offering || h.sub = .transferring)) = true := by simpa [hcust] using hsub
  unfold State.makeAbsent
  rw [if_neg hp]
  simp only [State.modifyPeer_cu, hh, hmine, if_true]

/-- A peer that was not ABSENT becomes so, and no handover runs toward it. -/
theorem State.makeAbsent_other {p : Nat} (hp : (s.peerAt p).presence ≠ .absent) (hf : ∀ h, ¬ s.failsBy p h) :
    s.makeAbsent p = s.modifyPeer p fun e => { e with presence := .absent } := by
  unfold State.makeAbsent
  rw [if_neg hp]
  simp only [State.modifyPeer_cu]
  split
  case h_1 h hh =>
    refine if_neg fun hmine => hf h ⟨hh, ?_, ?_, hp⟩
    · simpa using (Bool.and_eq_true_iff.mp hmine).1
    · simpa using (Bool.and_eq_true_iff.mp hmine).2
  case h_2 => rfl

theorem State.makeAbsent_absent {p : Nat} (hp : (s.peerAt p).presence = .absent) : s.makeAbsent p = s := if_pos hp

/-- The presence is as before while only the moment is noted. -/
theorem State.beside_presence (s : State) (x : Settlement) (p q : Nat) :
    ((s.beside x (s.heardPeers p q)).peerAt p).presence = (s.peerAt p).presence := by
  have hget := Table.get_modify (d := ({} : Peer)) (t := s.pm.peers) (a := p) (f := fun e => e.heard s.now q)
    (Peer.heard_ne _ _ q) p
  rw [if_pos rfl] at hget
  have hpresence := congrArg Peer.presence hget
  exact hpresence

theorem State.heardFrom_depart (hk : f.kind = 16) :
    (s.lineBusy.trackSequence f.source f.sequence).heardFrom f.source f.kind =
      (s.beside (s.suHearing f) (s.heardPeers f.source f.sequence)).makeAbsent f.source := by
  rw [State.suHearing, ← State.trackSequence_heard, ← s.trackSequence_now f.source f.sequence]
  exact if_pos hk

/-- A DEPART that fails the handover. -/
theorem State.noted_depart_fails {h : Handover} (hk : f.kind = 16) (hf : s.failsBy f.source h) : s.noted f =
    ((s.failHandover .custodianAbsent 0).beside (s.suHearing f)
      (s.presencePeers f.source f.sequence .absent).counted).clearHoldOffs f.source f.kind := by
  obtain ⟨hh, hcust, hsub, hp⟩ := hf
  refine State.noted_of_heardFrom ?_
  have hbeside : (s.beside (s.suHearing f) (s.heardPeers f.source f.sequence)).failsBy f.source h :=
    ⟨hh, hcust, hsub, by rw [State.beside_presence]; exact hp⟩
  rw [State.heardFrom_depart hk, State.makeAbsent_fails hbeside, State.heardPeers_presence, State.failHandover_beside hh]

/-- A DEPART that fails none. -/
theorem State.noted_depart_other (hk : f.kind = 16) (hf : ∀ h, ¬ s.failsBy f.source h) : s.noted f =
    (s.beside (s.suHearing f) (s.presencePeers f.source f.sequence .absent).counted).clearHoldOffs f.source f.kind := by
  refine State.noted_of_heardFrom ?_
  rw [State.heardFrom_depart hk]
  have hpresence := s.beside_presence (s.suHearing f) f.source f.sequence
  by_cases hp : (s.peerAt f.source).presence = .absent
  · rw [State.makeAbsent_absent (hpresence.trans hp), ← s.presencePeers_same, hp]
  · have hbeside : ∀ h, ¬ (s.beside (s.suHearing f) (s.heardPeers f.source f.sequence)).failsBy f.source h := by
      rintro h ⟨hh, hcust, hsub, -⟩
      exact hf h ⟨hh, hcust, hsub, hp⟩
    rw [State.makeAbsent_other (by rw [hpresence]; exact hp) hbeside, State.heardPeers_presence]

/-- The hold-offs that a DEPART clears. -/
theorem State.clearHoldOffs_depart (s : State) (p : Nat) : (s.clearHoldOffs p 16).au.queue =
    s.au.queue.map fun a => if a.holdOff = some (.frame p) then { a with holdOff := none } else a := by
  refine List.map_congr_left fun a _ => ?_
  match h : a.holdOff with
  | none => rfl
  | some (.frame x) => simp [HoldOff.clearedBy]
  | some (.beacon x) => simp [HoldOff.clearedBy]
  | some (.locally _) => simp [HoldOff.clearedBy]

end

end Sys2Proof.Machine
end

