-- ==== Sys2Proof/Proofs/FrameHeard.lean ====
section
/-! PROOFS. FRAME_HEARD as a whole, from what is noted and what is accepted. -/
namespace Sys2Proof.Machine

section
variable {s w : State} {f : RawFrame} {v : Presence}

/-- `w` with the sender's entry and the open entry changed by a frame that `s` hears, and the hold-offs cleared. -/
def State.noting (s : State) (f : RawFrame) (w : State) (v : Presence) : State :=
  (w.beside (s.suHearing f) (s.presencePeers f.source f.sequence v).counted).clearHoldOffs f.source f.kind

/-- The hold-offs that a DEPART clears. -/
theorem State.noting_depart (hk : f.kind = 16) : (s.noting f w v).au.queue =
    w.au.queue.map fun a => if a.holdOff = some (.frame f.source) then { a with holdOff := none } else a := by
  unfold State.noting
  rw [hk]
  exact State.clearHoldOffs_depart _ _

section
variable (h : s.noted f = s.noting f w v)
include h

/-- Acceptance changes the line alone. -/
theorem State.hearFrame_noting : (s.noting f w v).LineOnly (s.hearFrame f) := by
  rw [← h]
  exact s.hearFrame_lineOnly f

/-- Each station's entry afterwards. -/
theorem State.hearFrame_peerAt (a : Nat) : (s.hearFrame f).peerAt a =
    if a = f.source then { (s.peerAt f.source).heard s.now f.sequence with presence := v } else s.peerAt a := by
  unfold State.peerAt
  rw [(State.hearFrame_noting h).pm]
  exact s.presencePeers_get f.source f.sequence v a

/-- While acceptance hands no PAUSE, the outbound queue and the wait list are those of `w`. -/
theorem State.hearFrame_outboundOf (hin : w.lc.inbound.length < 11) :
    (s.hearFrame f).lc.outbound = w.lc.outbound ∧ (s.hearFrame f).lc.waitList = w.lc.waitList := by
  have hkept := State.hearFrame_outbound (s := s) (f := f) (by rw [h]; exact hin)
  rw [h] at hkept
  exact hkept

end

end

/-- Settles O21: what is noted, by the sender's presence, and on it the acceptance. -/
theorem frameHeardCompletes : Obligations.FrameHeardCompletes := by
  refine ⟨fun s levels f hl hr hf hlow hhigh hown hk => ?present, fun s levels f hl hr hf hlow hhigh hown hk => ?depart⟩
  case present =>
    have hn : s.noted f = s.noting f s .present := State.noted_present hk
    have hline := State.hearFrame_noting hn
    have haccepts {m : Msg} (ha : s.accepts f = some m) : s.hearFrame f = (s.noting f s .present).accept f m := by
      rw [State.hearFrame_accepted ha, hn]
    refine ⟨s.hearFrame f, exec_frameHeard hl hr hf hlow hhigh hown, State.hearFrame_peerAt hn, ?_, fun a => ?_, ?_, ?_, hline.sc,
      hline.till, hline.cu, hline.br, hline.now, hline.free, hline.pending,
      fun ha => ?_, fun m ha hm hin => ?_, fun t ha ht hnew hin => ?_, fun t ha ht hheld hin => ?_, fun ha hin => ?_⟩
    · rw [hline.pm]
      rfl
    · rw [hline.su]
      exact s.su.markMissed_openEntry f.source _ a
    · rw [hline.su]
      exact s.su.markMissed_entries f.source _
    · exact hline.au.trans (congrArg State.au (State.clearHoldOffs_eq _ f.source f.kind))
    · rw [State.hearFrame_refused ha, hn]
      rfl
    · rw [haccepts ha, State.accept_joins (s := s.noting f s .present) hm hin]
      rfl
    · rw [haccepts ha, State.accept_pause (s := s.noting f s .present) f t hin,
        State.takePause_new (s := s.noting f s .present) ht hnew]
      rfl
    · rw [haccepts ha, State.accept_pause (s := s.noting f s .present) f t hin,
        State.takePause_extends (s := s.noting f s .present) ht hheld]
      rfl
    · rw [haccepts ha, State.accept_pause (s := s.noting f s .present) f 0 hin, State.takePause_zero]
      rfl
  case depart =>
    have hexec := exec_frameHeard hl hr hf hlow hhigh hown
    by_cases hex : ∃ h, s.failsBy f.source h
    · obtain ⟨h, hfails⟩ := hex
      obtain ⟨hbr, hnow, hfree, hpending, hinbound⟩ := State.failHandover_keeps hfails.1
      have hn : s.noted f = s.noting f (s.failHandover .custodianAbsent 0) .absent :=
        State.noted_depart_fails hk hfails
      have hline := State.hearFrame_noting hn
      have hpeer := (State.hearFrame_peerAt hn f.source).trans (if_pos rfl)
      have hdeparture := congrArg Peer.departure hpeer
      refine ⟨s.hearFrame f, hexec, congrArg Peer.presence hpeer, congrArg Peer.lastHeard hpeer,
        congrArg Peer.failed hpeer, hdeparture, hline.br.trans hbr, hline.now.trans hnow,
        hline.free.trans hfree, hline.pending.trans hpending, fun _ _ => ⟨hline.sc, hline.cu,
        hline.till, (congrArg AdviceUnit.queue hline.au).trans (State.noting_depart hk),
        fun hin => State.hearFrame_outboundOf hn (by rw [hinbound]; exact hin)⟩, fun hnone => absurd hfails (hnone h)⟩
    · have hnone : ∀ h, ¬ s.failsBy f.source h := fun h hfails => hex ⟨h, hfails⟩
      have hn : s.noted f = s.noting f s .absent := State.noted_depart_other hk hnone
      have hline := State.hearFrame_noting hn
      have hpeer := (State.hearFrame_peerAt hn f.source).trans (if_pos rfl)
      have hdeparture := congrArg Peer.departure hpeer
      refine ⟨s.hearFrame f, hexec, congrArg Peer.presence hpeer, congrArg Peer.lastHeard hpeer,
        congrArg Peer.failed hpeer, hdeparture, hline.br, hline.now, hline.free, hline.pending,
        fun h hfails => absurd hfails (hnone h), fun _ => ⟨hline.sc, hline.cu, hline.till,
        (congrArg AdviceUnit.queue hline.au).trans (State.noting_depart hk),
        fun hin => State.hearFrame_outboundOf hn hin⟩⟩

end Sys2Proof.Machine
end

