-- ==== Sys2Proof/Proofs/Booking.lean ====
section
/-! PROOFS. Figures booked by their stamp: the open entry, the closing entry, or late. -/
namespace Sys2Proof.Machine

section
variable {s : State} {p stamp amount : Nat} {g : Figures} {f late : PosEntry → PosEntry}

/-- The closing entry still takes postings (R102). -/
theorem Settlement.closingTakes_iff {u : Settlement} {c : Closing} (hc : u.closing = some c) :
    u.closingTakes p stamp = true ↔ c.period = stamp ∧ (Table.get {} c.status p : StatementStatus).compare = .pending
      ∧ (Table.get {} c.status p : StatementStatus).send = .queued := by
  unfold Settlement.closingTakes
  rw [hc]
  simp [and_assoc]

theorem Settlement.closingTakes_none {u : Settlement} (hc : u.closing = none) : u.closingTakes p stamp = false := by
  unfold Settlement.closingTakes
  rw [hc]

/-- A period above the open one is closed to. -/
theorem State.catchUp_of_lt {q : Nat} (h : s.su.openPeriod < q) : s.catchUp q = s.closeTo q := if_pos h

theorem State.bookByStamp_open (h : stamp = s.su.openPeriod) : s.bookByStamp p stamp f late = s.modifyOpen p f := if_pos h

theorem State.bookByStamp_closing {c : Closing} (h : stamp ≠ s.su.openPeriod) (hc : s.su.closing = some c)
    (htakes : s.su.closingTakes p stamp = true) : s.bookByStamp p stamp f late = s.setSu { s.su with
      closing := some { c with
        entries := Table.modify {} c.entries p f
        status := Table.modify {} c.status p fun st => st.afterPosting (f (Table.get {} c.entries p)) } } := by
  refine (if_neg h).trans ((if_pos htakes).trans ?_)
  unfold State.modifyClosing
  rw [hc]

theorem State.bookByStamp_late (h : stamp ≠ s.su.openPeriod) (htakes : s.su.closingTakes p stamp = false) :
    s.bookByStamp p stamp f late = s.modifyOpen p fun e => late (f e) :=
  (if_neg h).trans (if_neg (Bool.eq_false_iff.mp htakes))

/-- Figures of a period above the open one close to it first. -/
theorem State.bookFigures_ahead (h : s.su.openPeriod < g.stamp) :
    s.bookFigures p g = (s.closeTo g.stamp).bookFigures p g := by
  have hopen := s.closeTo_openPeriod g.stamp
  unfold State.bookFigures
  rw [State.catchUp_of_lt h, State.catchUp_of_le hopen.ge]

/-- Figures with nothing posted and no short book nothing. -/
theorem State.bookFigures_nothing (h : g.stamp ≤ s.su.openPeriod) (hp : g.posted = 0) (hs : g.short = 0) :
    s.bookFigures p g = s := by
  unfold State.bookFigures
  rw [State.catchUp_of_le h, if_pos hs, if_pos hp]

theorem State.bookFigures_posted (h : g.stamp ≤ s.su.openPeriod) (hp : 0 < g.posted) (hs : g.short = 0) :
    s.bookFigures p g = s.bookByStamp p g.stamp
      (fun e => e.bookPosting g.posted (min g.fee g.posted)) fun e => e.bookLate g.posted (min g.fee g.posted) 0 := by
  unfold State.bookFigures
  rw [State.catchUp_of_le h, if_pos hs, if_neg hp.ne']

/-- Figures with the open period's stamp go to the open entry. -/
theorem State.bookFigures_open (h : g.stamp = s.su.openPeriod) (hp : 0 < g.posted) (hs : g.short = 0) :
    s.bookFigures p g = s.modifyOpen p fun e => e.bookPosting g.posted (min g.fee g.posted) :=
  (State.bookFigures_posted h.le hp hs).trans (State.bookByStamp_open h)

/-- A short is stand-in loss of the open entry, on top of the rest. -/
theorem State.bookFigures_short (hs : 0 < g.short) :
    s.bookFigures p g = (s.bookFigures p { g with short := 0 }).modifyOpen p fun e => e.bookLoss g.short := if_neg hs.ne'

theorem State.bookCredit_ahead (h : s.su.openPeriod < stamp) :
    s.bookCredit p amount stamp = (s.closeTo stamp).bookCredit p amount stamp := by
  have hopen := s.closeTo_openPeriod stamp
  unfold State.bookCredit
  rw [State.catchUp_of_lt h, State.catchUp_of_le hopen.ge]

theorem State.bookCredit_within (h : stamp ≤ s.su.openPeriod) : s.bookCredit p amount stamp =
    s.bookByStamp p stamp (fun e => e.bookCredit amount) fun e => e.bookLate 0 0 amount := by
  unfold State.bookCredit
  rw [State.catchUp_of_le h]

end

/-- Settles O36: the bank that the stamp names, and the order of close, figures and loss. -/
theorem figuresAreBookedByTheirStamp : Obligations.FiguresAreBookedByTheirStamp := by
  refine ⟨fun s p stamp f late => ⟨fun h => State.bookByStamp_open h, fun c hlt hc htakes => ?closing, fun hlt hnot => ?late⟩,
    fun s p g => ⟨fun h => ⟨s.closeTo_openPeriod g.stamp, State.bookFigures_ahead h⟩, fun h =>
      ⟨fun hp hs => State.bookFigures_posted h hp hs, fun hp hs => State.bookFigures_nothing h hp hs,
        fun hs => State.bookFigures_short hs⟩⟩,
    fun s p amount stamp => ⟨fun h => State.bookCredit_ahead h, fun h => State.bookCredit_within h⟩⟩
  case closing => exact State.bookByStamp_closing hlt.ne hc ((Settlement.closingTakes_iff hc).mpr htakes)
  case late =>
    refine State.bookByStamp_late hlt.ne ?_
    cases hc : s.su.closing with
    | none => exact Settlement.closingTakes_none hc
    | some c => exact Bool.eq_false_iff.mpr (mt (Settlement.closingTakes_iff hc).mp (hnot c hc))

end Sys2Proof.Machine
end

