-- ==== Sys2Proof/Proofs/Replies.lean ====
section
/-! PROOFS. Replies taken at the redeemer: AUTH-REPLY, CAPTURE-REPLY, CREDIT-REPLY, ENQUIRE-REPLY and ADVICE-REPLY. -/
namespace Sys2Proof.Machine

/-! ### The steps -/

section
variable {s : State} {p : Nat} {m : Msg} {before after : List InFrame}

theorem exec_authReply (h : s.Holds .requestBroker p m before after) (hk : m.kind = 2) (hr : s.onLine = true) :
    exec .authReply s = .next ((s.withInbound (before ++ after)).serveAuthReply p m) :=
  congrArg Host.Outcome.next (State.takeFrame_holds h hk hr _)

theorem exec_enquireReply (h : s.Holds .requestBroker p m before after) (hk : m.kind = 9) (hr : s.onLine = true) :
    exec .enquireReply s = .next ((s.withInbound (before ++ after)).serveEnquireReply p m) :=
  congrArg Host.Outcome.next (State.takeFrame_holds h hk hr _)

theorem exec_captureReply (h : s.Holds .requestBroker p m before after) (hk : m.kind = 4) (hr : s.onLine = true) :
    exec .captureReply s = .next ((s.withInbound (before ++ after)).serveCaptureReply p m).settle := by
  simp only [exec, execCaptureReply, State.event_live h.1, State.takeFrame_holds h hk hr]

theorem exec_creditReply (h : s.Holds .requestBroker p m before after) (hk : m.kind = 7) (hr : s.onLine = true) :
    exec .creditReply s = .next ((s.withInbound (before ++ after)).serveCreditReply p m).settle := by
  simp only [exec, execCreditReply, State.event_live h.1, State.takeFrame_holds h hk hr]

theorem exec_adviceReply (h : s.Holds .adviceUnit p m before after) (hk : m.kind = 11) (hr : s.onLine = true) :
    exec .adviceReply s = .next ((s.withInbound (before ++ after)).serveAdviceReply p m).settle := by
  simp only [exec, execAdviceReply, State.event_live h.1, State.takeFrame_holds h hk hr]

end

/-! ### The transaction that a reply matches (R61) -/

section
variable {s : State} {t : Txn} {n p : Nat}

/-- A matched transaction has the reference and the state it was matched by. -/
theorem State.matching_some {st : TxnState} (h : s.matching n p st = some t) : t.reference = n ∧ t.state = st := by
  have hmatch := List.find?_some h
  simp only [Bool.and_eq_true, decide_eq_true_eq] at hmatch
  obtain ⟨⟨href, -⟩, hstate⟩ := hmatch
  exact ⟨href, hstate⟩

/-- A transaction whose frame has gone ends with a DECLINED result. -/
theorem State.declineTxn_placed (ht : t.ticket = none) (why : Reason) (carried : Nat) :
    s.declineTxn t why carried = (s.withoutTxn t.reference).answer (declinedRecord t.resultKind t.tag why carried) := by
  unfold State.declineTxn
  rw [State.freeTxn_eq_withoutTxn ht]

end

/-! ### AUTH-REPLY (R62, R64) -/

section
variable {s : State} {p n status amount room : Nat} {card : CardNo} {hold : HoldId} {t : Txn}

theorem State.serveAuthReply_matched (h : s.matching n p .authWait = some t) :
    s.serveAuthReply p (.authReply n status card hold amount room) = s.authReplied t status hold room := by
  unfold State.serveAuthReply
  dsimp only
  rw [h]

theorem State.serveAuthReply_unmatched (h : s.matching n p .authWait = none) :
    s.serveAuthReply p (.authReply n status card hold amount room) =
      if status = XStatus.approved.code && !s.answeredAlready n p hold then s.hand p (.release card hold n) else s := by
  unfold State.serveAuthReply
  dsimp only
  rw [h]

theorem State.authReplied_approved (ht : t.ticket = none) : s.authReplied t 0 hold room =
    (s.modifyTxn t.reference fun t =>
      { t with state := .remoteHeld, hold := some hold, ticket := none, timer := some s.abandonAt }).answer
      (approvedRecord t false room) := by
  refine (if_pos rfl).trans ?_
  unfold State.remoteHeld
  rw [ht]
  rfl

theorem State.authReplied_refused (ht : t.ticket = none) (hs : status ≠ 0) : s.authReplied t status hold room =
    ((s.withoutTxn t.reference).answer (authDeclined t status room)).releaseReservation := by
  refine (if_neg hs).trans ?_
  rw [State.freeTxn_eq_withoutTxn ht]

/-- A transaction that already has this hold. -/
theorem State.answeredAlready_iff : s.answeredAlready n p hold = true ↔
    ∃ t ∈ s.br.txns, t.reference = n ∧ t.target = some p ∧ (t.state = .remoteHeld ∨ t.state = .captureWait)
      ∧ t.hold = some hold := by
  simp [State.answeredAlready, and_assoc]

end

/-- Settles O33: matched or not, by the status. -/
theorem authReplyCompletes : Obligations.AuthReplyCompletes := by
  refine ⟨?approved, ?insufficient, ?released, ?others⟩
  case approved =>
    intro s p before after reference card hold amount available t h hr hmatch ht
    rw [exec_authReply h rfl hr, State.serveAuthReply_matched (s := s.withInbound (before ++ after)) hmatch,
      State.authReplied_approved ht]
    rfl
  case insufficient =>
    intro s p before after reference card hold amount available t h hr hmatch _ ht
    rw [exec_authReply h rfl hr, State.serveAuthReply_matched (s := s.withInbound (before ++ after)) hmatch,
      State.authReplied_refused ht (by decide)]
    rfl
  case released =>
    intro s p before after reference card hold amount available h hr hmatch hnone
    have hnew : s.answeredAlready reference p hold = false := by
      refine Bool.eq_false_iff.mpr fun hheld => ?_
      obtain ⟨t, ht, href, htarget, hstate, hhold⟩ := State.answeredAlready_iff.mp hheld
      exact hnone t ht href htarget hstate hhold
    rw [exec_authReply h rfl hr, State.serveAuthReply_unmatched (s := s.withInbound (before ++ after)) hmatch]
    refine congrArg Host.Outcome.next (if_pos ?_)
    change (decide (0 = XStatus.approved.code) && !s.answeredAlready reference p hold) = true
    rw [hnew]
    rfl
  case others =>
    intro s p before after reference status card hold amount available h hr taken
    refine ⟨?_, fun hmatch hnot => ?_⟩
    · intro t hmatch ht declined
      have hexec (hs : status ≠ 0) : exec .authReply s =
          .next (((taken.withoutTxn t.reference).answer (authDeclined t status available)).releaseReservation) := by
        rw [exec_authReply h rfl hr, State.serveAuthReply_matched (s := taken) hmatch, State.authReplied_refused ht hs]
      refine ⟨?_, ?_, ?_⟩
      · rintro rfl
        exact hexec (by decide)
      · rintro rfl
        exact hexec (by decide)
      · rintro rfl
        exact hexec (by decide)
    · rw [exec_authReply h rfl hr, State.serveAuthReply_unmatched (s := taken) hmatch]
      refine congrArg Host.Outcome.next (if_neg ?_)
      obtain hs | hheld := hnot
      · simp [XStatus.code, hs]
      · have hagain : taken.answeredAlready reference p hold = true := State.answeredAlready_iff.mpr hheld
        simp [hagain]

/-! ### CREDIT-REPLY and ENQUIRE-REPLY (R73, R74) -/

section
variable {s : State} {p n status amount stamp balance available : Nat} {t : Txn}

/-- What a matched CREDIT-REPLY brings (R73). -/
def State.creditReplied (s : State) (t : Txn) (p amount stamp : Nat) : Option XStatus → State
  | some .approved => ((s.bookCredit p amount stamp).freeTxn t).answer
      (successRecord .credit t.tag (toBytes 4 amount ++ toBytes 4 0 ++ toBytes 4 stamp))
  | some .unknownCard => s.declineTxn t .unknownCard
  | some .cardClosed => s.declineTxn t .cardClosed
  | some .homeBusy => s.declineTxn t .homeBusy
  | some .overCap => s.declineTxn t .overCap amount
  | _ => s

theorem State.serveCreditReply_matched (h : s.matching n p .creditWait = some t) :
    s.serveCreditReply p (.creditReply n status amount stamp) = s.creditReplied t p amount stamp (XStatus.ofCode status) := by
  unfold State.serveCreditReply
  dsimp only
  rw [h]
  cases XStatus.ofCode status with
  | none => rfl
  | some st => cases st <;> rfl

theorem State.serveCreditReply_unmatched (h : s.matching n p .creditWait = none) :
    s.serveCreditReply p (.creditReply n status amount stamp) = s := by
  unfold State.serveCreditReply
  dsimp only
  rw [h]

/-- What a matched ENQUIRE-REPLY brings (R74). -/
def State.enquireReplied (s : State) (t : Txn) (balance available : Nat) : Option XStatus → State
  | some .approved => (s.freeTxn t).answer (successRecord .balance t.tag (toBytes 4 balance ++ toBytes 4 available))
  | some .unknownCard => s.declineTxn t .unknownCard
  | some .cardClosed => s.declineTxn t .cardClosed
  | _ => s

theorem State.serveEnquireReply_matched (h : s.matching n p .enquireWait = some t) :
    s.serveEnquireReply p (.enquireReply n status balance available) =
      s.enquireReplied t balance available (XStatus.ofCode status) := by
  unfold State.serveEnquireReply
  dsimp only
  rw [h]
  cases XStatus.ofCode status with
  | none => rfl
  | some st => cases st <;> rfl

theorem State.serveEnquireReply_unmatched (h : s.matching n p .enquireWait = none) :
    s.serveEnquireReply p (.enquireReply n status balance available) = s := by
  unfold State.serveEnquireReply
  dsimp only
  rw [h]

/-- A confirmed credit, its frame gone. -/
theorem State.creditReplied_approved (ht : t.ticket = none) : s.creditReplied t p amount stamp (some .approved) =
    ((s.bookCredit p amount stamp).withoutTxn t.reference).answer
      (successRecord .credit t.tag (toBytes 4 amount ++ toBytes 4 0 ++ toBytes 4 stamp)) := by
  unfold State.creditReplied
  rw [State.freeTxn_eq_withoutTxn ht]

end

/-! ### CAPTURE-REPLY (R67 to R69, R91) -/

section
variable {s : State} {p n status flags posted fee net short stamp : Nat} {t : Txn}

/-- The statuses that carry figures. -/
theorem isPostingCode_of (h : status = 8 ∨ status = 9 ∨ status = 10 ∨ status = 11) : isPostingCode status = true := by
  rcases h with rfl | rfl | rfl | rfl <;> rfl

theorem State.serveCaptureReply_figures (h : s.matching n p .captureWait = some t) (hs : isPostingCode status = true) :
    s.serveCaptureReply p (.captureReply n status flags posted fee net short stamp) =
      s.captured t p { posted, fee, net, short, stamp } (decide (flags % 2 = 1)) := by
  unfold State.serveCaptureReply
  dsimp only
  rw [h]
  exact if_pos hs

theorem State.serveCaptureReply_busy (h : s.matching n p .captureWait = some t) :
    s.serveCaptureReply p (.captureReply n 4 flags posted fee net short stamp) = s.captureToAdvice t := by
  unfold State.serveCaptureReply
  dsimp only
  rw [h]
  rfl

theorem State.serveCaptureReply_late (h : s.matching n p .captureWait = none) :
    s.serveCaptureReply p (.captureReply n status flags posted fee net short stamp) =
      s.lateCapture n status p { posted, fee, net, short, stamp } (decide (flags % 2 = 1)) := by
  unfold State.serveCaptureReply
  dsimp only
  rw [h]

/-- A matched capture whose frame has gone. -/
theorem State.captured_placed {g : Figures} {late : Bool} (ht : t.ticket = none) : s.captured t p g late =
    (((s.bookFigures p g).releaseReservation).withoutTxn t.reference).answer (completedRecord t g late) := by
  unfold State.captured
  rw [State.freeTxn_eq_withoutTxn ht]

theorem completedRecord_eq (t : Txn) (g : Figures) : completedRecord t g (decide (flags % 2 = 1)) =
    { kind := 4, tag := t.tag, status := 2, fields := toBytes 2 t.reference
        ++ toBytes 1 (if flags % 2 = 1 then 4 else 0) ++ toBytes 4 g.posted ++ toBytes 4 g.fee ++ toBytes 4 g.net
        ++ toBytes 4 g.short ++ toBytes 4 g.stamp } := by
  by_cases hf : flags % 2 = 1 <;> simp [completedRecord, successRecord, resultFlags, ReqKind.code, ReqKind.success, hf]

/-- A request that waits for room leaves with its advice. -/
theorem State.dropRequest_eq (s : State) (k : Option Nat) :
    s.dropRequest k = s.setLc { s.lc with waitList := s.lc.waitList.filter fun g => k ≠ some g.ticket } := by
  cases k with
  | none =>
    have hall : s.lc.waitList.filter (fun g => (none : Option Nat) ≠ some g.ticket) = s.lc.waitList :=
      List.filter_eq_self.mpr fun g _ => by simp
    rw [hall]
    rfl
  | some k =>
    refine congrArg (fun l => s.setLc { s.lc with waitList := l }) (List.filter_congr fun g _ => ?_)
    by_cases hk : g.ticket = k
    · simp [hk]
    · simp [hk, Ne.symm hk]

/-- The unsettled CAPTURE advice of a reference. -/
theorem State.lateCapture_found {a : Advice} {g : Figures} {late : Bool}
    (ha : s.au.queue.find? (fun a => a.reference = n && a.kind = .capture && a.state ≠ .settled) = some a)
    (hs : isPostingCode status = true) :
    s.lateCapture n status p g late = s.settleAdvice a { status, figures := g, station := p, late } := by
  unfold State.lateCapture
  rw [ha]
  exact if_pos hs

theorem State.lateCapture_discarded {g : Figures} {late : Bool}
    (h : s.au.queue.find? (fun a => a.reference = n && a.kind = .capture && a.state ≠ .settled) = none
      ∨ isPostingCode status = false) : s.lateCapture n status p g late = s := by
  unfold State.lateCapture
  split
  case h_1 a ha =>
    obtain hnone | hs := h
    · rw [hnone] at ha
      exact absurd ha (by simp)
    · exact if_neg (Bool.eq_false_iff.mp hs)
  case h_2 => rfl

/-- An advice settles with its figures booked, and the send that waits for room leaves (R90, R91). -/
theorem State.settleAdvice_eq (s : State) (a : Advice) (g : Settled) : s.settleAdvice a g =
    let booked := s.bookFigures g.station g.figures
    (booked.setLc { booked.lc with waitList := booked.lc.waitList.filter fun x => a.ticket ≠ some x.ticket }).setAu
      { booked.au with
        queue := updateWhere (fun x => x.reference = a.reference) (fun x => { x with
          state := .settled, holdOff := none, ticket := none, timer := none, settled := some g }) booked.au.queue } := by
  unfold State.settleAdvice State.markSettled
  rw [State.dropRequest_eq]
  rfl

end

/-- Settles O34: each reply by its match and its status. -/
theorem captureCreditAndEnquireRepliesComplete : Obligations.CaptureCreditAndEnquireRepliesComplete := by
  refine ⟨?captureOpen, ?captureFigures, ?captureBusy, ?creditOpen, ?credit, ?enquire, ?creditOther, ?enquireOther, ?lateCapture⟩
  case captureOpen =>
    intro s p before after reference status flags posted fee net stamp t h hr hmatch ht hs hstamp hpos
    rw [exec_captureReply h rfl hr, State.serveCaptureReply_figures (s := s.withInbound (before ++ after)) hmatch
      (isPostingCode_of hs), State.captured_placed ht, completedRecord_eq,
      State.bookFigures_open (s := s.withInbound (before ++ after)) hstamp hpos rfl]
    rfl
  case captureFigures =>
    intro s p before after reference status flags posted fee net short stamp t h hr hmatch ht hs completed taken
    have hexec : exec .captureReply s = .next (completed (taken.bookFigures p { posted, fee, net, short, stamp })).settle := by
      rw [exec_captureReply h rfl hr, State.serveCaptureReply_figures (s := taken) hmatch (isPostingCode_of hs),
        State.captured_placed ht, completedRecord_eq]
      rfl
    refine ⟨hexec, fun hposted hshort hstamp => ?_⟩
    rw [hexec, State.bookFigures_nothing (s := taken) hstamp hposted hshort]
  case captureBusy =>
    intro s p before after reference flags posted fee net short stamp t h hr hmatch ht
    rw [exec_captureReply h rfl hr, State.serveCaptureReply_busy (s := s.withInbound (before ++ after)) hmatch]
    unfold State.captureToAdvice
    rw [State.freeTxn_eq_withoutTxn ht]
    rfl
  case creditOpen =>
    intro s p before after reference amount stamp t h hr hmatch ht hstamp
    rw [exec_creditReply h rfl hr, State.serveCreditReply_matched (s := s.withInbound (before ++ after)) hmatch]
    refine congrArg (fun u => Host.Outcome.next (State.settle u)) ((State.creditReplied_approved ht).trans ?_)
    rw [State.bookCredit_within (s := s.withInbound (before ++ after)) hstamp.le,
      State.bookByStamp_open (s := s.withInbound (before ++ after)) hstamp]
    rfl
  case credit =>
    intro s p before after reference amount stamp t h hr hmatch ht
    rw [exec_creditReply h rfl hr, State.serveCreditReply_matched (s := s.withInbound (before ++ after)) hmatch]
    exact congrArg (fun u => Host.Outcome.next (State.settle u)) (State.creditReplied_approved ht)
  case enquire =>
    intro s p before after reference balance available t h hr hmatch ht
    rw [exec_enquireReply h rfl hr, State.serveEnquireReply_matched (s := s.withInbound (before ++ after)) hmatch]
    refine congrArg Host.Outcome.next ?_
    change ((s.withInbound (before ++ after)).freeTxn t).answer _ = _
    rw [State.freeTxn_eq_withoutTxn ht]
    rfl
  case creditOther =>
    intro s p before after reference status amount stamp h hr taken
    refine ⟨?_, fun hmatch => ?_⟩
    · intro t hmatch ht declined
      have hkind : t.resultKind = .credit := by simp [Txn.resultKind, (State.matching_some hmatch).2]
      have hexec : exec .creditReply s = .next (taken.creditReplied t p amount stamp (XStatus.ofCode status)).settle := by
        rw [exec_creditReply h rfl hr, State.serveCreditReply_matched (s := taken) hmatch]
      have hdeclined (why : Reason) (carried : Nat) : taken.declineTxn t why carried = declined why.code carried := by
        rw [State.declineTxn_placed ht, hkind]
        rfl
      refine ⟨?_, ?_, ?_, ?_⟩
      · rintro rfl
        exact hexec.trans (congrArg (fun u => Host.Outcome.next (State.settle u)) (hdeclined .unknownCard 0))
      · rintro rfl
        exact hexec.trans (congrArg (fun u => Host.Outcome.next (State.settle u)) (hdeclined .cardClosed 0))
      · rintro rfl
        exact hexec.trans (congrArg (fun u => Host.Outcome.next (State.settle u)) (hdeclined .homeBusy 0))
      · rintro rfl
        exact hexec.trans (congrArg (fun u => Host.Outcome.next (State.settle u)) (hdeclined .overCap amount))
    · rw [exec_creditReply h rfl hr, State.serveCreditReply_unmatched (s := taken) hmatch]
  case enquireOther =>
    intro s p before after reference status balance available h hr taken
    refine ⟨fun t hmatch ht hs => ?_, fun hmatch => ?_⟩
    · have hkind : t.resultKind = .balance := by simp [Txn.resultKind, (State.matching_some hmatch).2]
      rw [exec_enquireReply h rfl hr, State.serveEnquireReply_matched (s := taken) hmatch]
      obtain rfl | rfl := hs
      · refine congrArg Host.Outcome.next ((State.declineTxn_placed ht .unknownCard 0).trans ?_)
        rw [hkind]
        rfl
      · refine congrArg Host.Outcome.next ((State.declineTxn_placed ht .cardClosed 0).trans ?_)
        rw [hkind]
        rfl
    · rw [exec_enquireReply h rfl hr, State.serveEnquireReply_unmatched (s := taken) hmatch]
  case lateCapture =>
    intro s p before after reference status flags posted fee net short stamp h hr hmatch taken found
    have hexec := exec_captureReply h rfl hr
    rw [State.serveCaptureReply_late (s := taken) hmatch] at hexec
    refine ⟨?_, fun hnot => ?_⟩
    · intro a ha hs booked
      have href : a.reference = reference := by
        have hfound := List.find?_some ha
        simp only [Bool.and_eq_true, decide_eq_true_eq] at hfound
        exact hfound.1.1
      rw [hexec, State.lateCapture_found (s := taken) ha (isPostingCode_of hs), State.settleAdvice_eq, href]
    · rw [hexec, State.lateCapture_discarded (s := taken) (hnot.imp_right fun hs => by rw [hs]; rfl)]

/-! ### ADVICE-REPLY (R86, R89, R90) -/

section
variable {s : State} {p n status flags posted fee net short stamp : Nat} {a : Advice}

theorem State.serveAdviceReply_figures (h : s.adviceMatching n p = some a) (hs : isPostingCode status = true) :
    s.serveAdviceReply p (.adviceReply n status flags posted fee net short stamp) = s.settleAdvice a
      { status, figures := { posted, fee, net, short, stamp }, station := p, late := decide (flags % 2 = 1) } := by
  unfold State.serveAdviceReply
  dsimp only
  rw [h]
  exact if_pos hs

theorem State.serveAdviceReply_busy (h : s.adviceMatching n p = some a) :
    s.serveAdviceReply p (.adviceReply n 4 flags posted fee net short stamp) =
      (s.dropRequest a.ticket).modifyAdvice n fun a => a.back (.beacon p) := by
  unfold State.serveAdviceReply
  dsimp only
  rw [h]
  rfl

/-- An advice whose frame has gone settles in the queue alone. -/
theorem State.settleAdvice_placed (ht : a.ticket = none) (g : Settled) : s.settleAdvice a g =
    (s.bookFigures g.station g.figures).modifyAdvice a.reference fun x =>
      { x with state := .settled, settled := some g, holdOff := none, ticket := none, timer := none } := by
  unfold State.settleAdvice State.markSettled
  rw [ht]
  rfl

end

/-- Settles O35: the advice settles by its figures, or waits for a BEACON. -/
theorem adviceReplyCompletes : Obligations.AdviceReplyCompletes := by
  refine ⟨?openBank, ?figures, ?busy⟩
  case openBank =>
    intro s p before after reference status flags posted fee net short stamp a h hr hmatch ht href hs hstamp hposted hshort
    rw [exec_adviceReply h rfl hr, State.serveAdviceReply_figures (s := s.withInbound (before ++ after)) hmatch
      (isPostingCode_of hs), State.settleAdvice_placed ht, href, State.bookFigures_short (by exact hshort),
      State.bookFigures_open (s := s.withInbound (before ++ after)) hstamp hposted rfl]
    rfl
  case figures =>
    intro s p before after reference status flags posted fee net short stamp a h hr hmatch ht href hs settled taken
    have hexec : exec .adviceReply s = .next (settled (taken.bookFigures p { posted, fee, net, short, stamp })).settle := by
      rw [exec_adviceReply h rfl hr, State.serveAdviceReply_figures (s := taken) hmatch (isPostingCode_of hs),
        State.settleAdvice_placed ht, href]
      rfl
    refine ⟨hexec, fun hposted hshort hstamp => ?_, fun hposted hshort hstamp => ?_⟩
    · rw [hexec, State.bookFigures_nothing (s := taken) hstamp hposted hshort]
    · rw [hexec, State.bookFigures_open (s := taken) hstamp hposted hshort]
      rfl
  case busy =>
    intro s p before after reference flags posted fee net short stamp a h hr hmatch ht
    rw [exec_adviceReply h rfl hr, State.serveAdviceReply_busy (s := s.withInbound (before ++ after)) hmatch, ht]
    rfl

end Sys2Proof.Machine
end

