-- ==== Sys2Proof/Proofs/Closes.lean ====
section
/-! PROOFS. What a close leaves as it is: the inbound queue, the supply state, and that the station is on the line. -/
namespace Sys2Proof.Machine

/-- The inbound queue and the supply state are the same, and the station state is the same or JOINED. -/
structure State.StillUp (s t : State) : Prop where
  inbound : t.lc.inbound = s.lc.inbound
  supply : t.sc.supply = s.sc.supply
  station : t.sc.station = s.sc.station ∨ t.sc.station = .joined

namespace State.StillUp
variable {s t u : State}

theorem refl (s : State) : s.StillUp s := ⟨rfl, rfl, .inl rfl⟩

theorem trans (h : s.StillUp t) (g : t.StillUp u) : s.StillUp u :=
  ⟨g.inbound.trans h.inbound, g.supply.trans h.supply, g.station.elim (fun hg => hg ▸ h.station) .inr⟩

/-- Blocks that take events still do. -/
theorem live (h : s.StillUp t) (hl : s.live = true) : t.live = true := by
  simp only [State.live, Bool.and_eq_true, decide_eq_true_eq] at hl ⊢
  refine ⟨h.supply.trans hl.1, ?_⟩
  obtain hsame | hjoined := h.station
  · rw [hsame]
    exact hl.2
  · simp [hjoined]

/-- A station on the line still is. -/
theorem onLine (h : s.StillUp t) (hs : s.onLine = true) : t.onLine = true := by
  unfold State.onLine at hs ⊢
  obtain hsame | hjoined := h.station
  · rw [hsame]
    exact hs
  · simp [hjoined]

end State.StillUp

section
variable (s : State)

theorem State.hand_stillUp (d : Nat) (m : Msg) : s.StillUp (s.hand d m) :=
  ⟨s.hand_inbound d m, congrArg StationCtl.supply (s.hand_sc d m), .inl (congrArg StationCtl.station (s.hand_sc d m))⟩

theorem State.setSu_stillUp (x : Settlement) : s.StillUp (s.setSu x) := ⟨rfl, rfl, .inl rfl⟩

theorem State.setTill_stillUp (x : TillPort) : s.StillUp (s.setTill x) := ⟨rfl, rfl, .inl rfl⟩

theorem State.setHandover_stillUp (x : Option Handover) : s.StillUp (s.setHandover x) := ⟨rfl, rfl, .inl rfl⟩

/-- A failing handover brings the station back to JOINED. -/
theorem State.failHandover_stillUp (c : FailCause) (n : Nat) : s.StillUp (s.failHandover c n) := by
  unfold State.failHandover
  split
  · exact .refl s
  · dsimp only
    split
    · exact ⟨rfl, rfl, .inr rfl⟩
    · have hhand := (s.dropRequests isHandoverFrame).hand_stillUp
      exact ⟨(hhand _ _).inbound, (hhand _ _).supply, .inr rfl⟩

theorem State.enterOffering_stillUp : s.StillUp s.enterOffering := by
  unfold State.enterOffering
  split
  · exact .refl s
  · dsimp only
    split
    · exact ((s.setHandover_stillUp _).trans (State.hand_stillUp _ _ _)).trans (State.setHandover_stillUp _ _)
    · exact (s.setHandover_stillUp _).trans (State.failHandover_stillUp _ _ _)

theorem State.roundNotice_stillUp (n : Nat) : s.StillUp (s.roundNotice n) := by
  unfold State.roundNotice
  split
  · split
    · exact s.enterOffering_stillUp
    · exact .refl s
  · exact .refl s

theorem State.dropStatement_stillUp : s.StillUp s.dropStatement := by
  unfold State.dropStatement
  split
  · exact .refl s
  · exact ⟨rfl, rfl, .inl rfl⟩

theorem State.finishRound_stillUp : s.StillUp s.finishRound := by
  unfold State.finishRound
  split
  · exact .refl s
  · exact (((s.setTill_stillUp _).trans (State.dropStatement_stillUp _)).trans (State.setSu_stillUp _ _)).trans
      (State.roundNotice_stillUp _ _)

theorem State.forcedFinish_stillUp : s.StillUp s.forcedFinish := by
  unfold State.forcedFinish
  split
  · exact .refl s
  · exact (s.setSu_stillUp _).trans (State.finishRound_stillUp _)

theorem State.rolled_stillUp (q : Nat) : s.StillUp (s.rolled q) := by
  have hrolled : s.StillUp (if (s.rollBanks q).onLine then (s.rollBanks q).broadcast (.close q) else s.rollBanks q) := by
    split
    · exact (s.setSu_stillUp _).trans ((s.rollBanks q).hand_stillUp 255 (.close q))
    · exact ⟨rfl, rfl, .inl rfl⟩
  exact ⟨hrolled.inbound, hrolled.supply, hrolled.station⟩

/-- A close keeps the station on the line with what it has received. -/
theorem State.closeTo_stillUp (q : Nat) : s.StillUp (s.closeTo q) := by
  have hrolled := s.forcedFinish_stillUp.trans (s.forcedFinish.rolled_stillUp q)
  rw [State.closeTo_eq]
  split
  · exact hrolled.trans (State.finishRound_stillUp _)
  · exact hrolled

end

end Sys2Proof.Machine
end

