-- ==== Sys2Proof/Proofs/Statements.lean ====
section
/-! PROOFS. STATEMENT frames: classified by their period, kept, paired and compared. -/
namespace Sys2Proof.Machine

theorem exec_statement {s : State} {p : Nat} {m : Msg} {before after : List InFrame}
    (h : s.Holds .settlementUnit p m before after) (hk : m.kind = 12) (hr : s.onLine = true) :
    exec .statement s = .next ((s.withInbound (before ++ after)).serveStatement p m).settle := by
  simp only [exec, execStatement, State.event_live h.1, State.takeFrame_holds h hk hr]

section
variable {s : State} {p part period gross fee credit grossN feeN creditN mark : Nat} {c : Closing} {x y i r : StatementPart}

/-! ### The period (R105) -/

/-- A statement for the largest period is discarded. -/
theorem State.serveStatement_last (h : 4294967295 ≤ period) :
    s.serveStatement p (.statement part period gross fee credit grossN feeN creditN mark) = s := if_pos h

/-- The part that a STATEMENT frame carries. -/
def partOf (part gross fee credit grossN feeN creditN mark : Nat) : StatementPart :=
  { redeemer := decide (part = 1), gross, fee, credit, grossN, feeN, creditN, saturated := decide (mark ≠ 0) }

/-- A statement for a closed period is classified. -/
theorem State.serveStatement_closed (h : period < 4294967295) (hpart : part ≤ 1) (hopen : period < s.su.openPeriod) :
    s.serveStatement p (.statement part period gross fee credit grossN feeN creditN mark) =
      s.classifyPart p period (partOf part gross fee credit grossN feeN creditN mark) := by
  refine (if_neg (Nat.not_le.mpr h)).trans ?_
  rw [State.catchUp_of_le hopen]
  exact if_neg (Nat.not_lt.mpr hpart)

/-- A statement for a period that is not closed yet is one for the state in which it is. -/
theorem State.serveStatement_ahead (hopen : s.su.openPeriod ≤ period) :
    s.serveStatement p (.statement part period gross fee credit grossN feeN creditN mark) =
      if 4294967295 ≤ period then s
      else (s.closeTo (period + 1)).serveStatement p (.statement part period gross fee credit grossN feeN creditN mark) := by
  have hclosed := s.closeTo_openPeriod (period + 1)
  by_cases hlast : 4294967295 ≤ period
  · rw [if_pos hlast, State.serveStatement_last hlast]
  · rw [if_neg hlast]
    refine (if_neg hlast).trans (Eq.trans ?_ (if_neg hlast).symm)
    rw [State.catchUp_of_lt (Nat.lt_succ_of_le hopen), State.catchUp_of_le hclosed.ge]

/-! ### The cases of a part (R106) -/

theorem State.classifyPart_late (h : ∀ c, s.su.closing = some c → c.period ≠ period) :
    s.classifyPart p period x = s.lateStatement := by
  unfold State.classifyPart
  cases hc : s.su.closing with
  | none => rfl
  | some c => exact if_neg (h c hc)

/-- A part for an entry that takes statements. -/
theorem State.classifyPart_taken (hc : s.su.closing = some c) (hp : c.period = period)
    (ht : (Table.get {} c.status p : StatementStatus).compare = .pending
      ∨ (Table.get {} c.status p : StatementStatus).compare = .none) :
    s.classifyPart p period x = s.storePart c p x := by
  unfold State.classifyPart
  rw [hc]
  refine (if_pos hp).trans ?_
  rcases ht with ht | ht <;> rw [ht]

/-- A part for an entry that has its result is discarded. -/
theorem State.classifyPart_done (hc : s.su.closing = some c) (hp : c.period = period)
    (ht : (Table.get {} c.status p : StatementStatus).compare = .match
      ∨ (Table.get {} c.status p : StatementStatus).compare = .brk
      ∨ (Table.get {} c.status p : StatementStatus).compare = .saturated) :
    s.classifyPart p period x = s := by
  unfold State.classifyPart
  rw [hc]
  refine (if_pos hp).trans ?_
  rcases ht with ht | ht | ht <;> rw [ht]

theorem State.storePart_first (h : (Table.get {} c.status p : StatementStatus).part = none) :
    s.storePart c p x = s.modifyStatus c p fun st => { st with part := some x } := by
  unfold State.storePart
  rw [h]

theorem State.storePart_again (h : (Table.get {} c.status p : StatementStatus).part = some y) (hk : y.redeemer = x.redeemer) :
    s.storePart c p x = s.modifyStatus c p fun st => { st with part := some x } := by
  unfold State.storePart
  rw [h]
  exact if_pos hk

theorem State.storePart_pairsR (h : (Table.get {} c.status p : StatementStatus).part = some y) (hy : y.redeemer = false)
    (hx : x.redeemer = true) : s.storePart c p x = s.compareStatement c p y x := by
  unfold State.storePart
  rw [h]
  exact (if_neg (by simp [hy, hx])).trans (if_pos hx)

theorem State.storePart_pairsI (h : (Table.get {} c.status p : StatementStatus).part = some y) (hy : y.redeemer = true)
    (hx : x.redeemer = false) : s.storePart c p x = s.compareStatement c p x y := by
  unfold State.storePart
  rw [h]
  exact (if_neg (by simp [hy, hx])).trans (if_neg (by simp [hx]))

/-! ### The compare (R107, R109, R110) -/

/-- The figures of the other station are those of this one, changed over. -/
def mirrors (c : Closing) (p : Nat) (i r : StatementPart) : Prop :=
  sideOfParts i r = (Table.get {} c.entries p : PosEntry).side.mirror

/-- Statuses of one entry changed, and a report in the latch. -/
def State.withStatus (s : State) (c : Closing) (p : Nat) (f : StatementStatus → StatementStatus) (latch : Option Record) :
    State := s.setSu { s.su with latch, closing := some { c with status := Table.modify {} c.status p f } }

theorem State.compareStatement_none (h : (Table.get {} c.status p : StatementStatus).compare = .none) :
    s.compareStatement c p i r = s.withStatus c p (fun st => { st with compare := .brk, send := .queued, part := none })
      (some (breakRecord c.period p (Table.get {} c.entries p) (s.su.openEntry p) (sideOfParts i r))) := if_pos h

/-- A complete statement for a PENDING entry, by the result of the compare. -/
theorem State.compareStatement_pending (h : (Table.get {} c.status p : StatementStatus).compare = .pending)
    {v : CompareStatus} (hv : compareSides (Table.get {} c.entries p) (sideOfParts i r) (i.saturated || r.saturated) = v) :
    s.compareStatement c p i r = s.withStatus c p (fun st => { st with compare := v, part := none })
      (if v = .brk then some (breakRecord c.period p (Table.get {} c.entries p) (s.su.openEntry p) (sideOfParts i r))
        else s.su.latch) := by
  refine (if_neg (by simp [h])).trans ?_
  rw [hv]
  by_cases hb : v = .brk
  · rw [if_pos hb, if_pos hb]
    rfl
  · rw [if_neg hb, if_neg hb]
    rfl

theorem State.compareStatement_saturated (h : (Table.get {} c.status p : StatementStatus).compare = .pending)
    (hs : i.saturated = true ∨ r.saturated = true) :
    s.compareStatement c p i r = s.withStatus c p (fun st => { st with compare := .saturated, part := none }) s.su.latch :=
  State.compareStatement_pending h (if_pos (by simpa using hs))

theorem State.compareStatement_match (h : (Table.get {} c.status p : StatementStatus).compare = .pending)
    (hi : i.saturated = false) (hr : r.saturated = false) (hm : mirrors c p i r) :
    s.compareStatement c p i r = s.withStatus c p (fun st => { st with compare := .match, part := none }) s.su.latch :=
  State.compareStatement_pending h ((if_neg (by simp [hi, hr])).trans (if_pos hm))

theorem State.compareStatement_break (h : (Table.get {} c.status p : StatementStatus).compare = .pending)
    (hi : i.saturated = false) (hr : r.saturated = false) (hm : ¬ mirrors c p i r) :
    s.compareStatement c p i r = s.withStatus c p (fun st => { st with compare := .brk, part := none })
      (some (breakRecord c.period p (Table.get {} c.entries p) (s.su.openEntry p) (sideOfParts i r))) :=
  State.compareStatement_pending h ((if_neg (by simp [hi, hr])).trans (if_neg hm))

/-- The mirror figure by figure. -/
theorem mirrors_iff (c : Closing) (p : Nat) (i r : StatementPart) : mirrors c p i r ↔
    let e : PosEntry := Table.get {} c.entries p
    i.gross = e.gr ∧ i.grossN = e.grN ∧ i.fee = e.fr ∧ i.feeN = e.frN ∧ i.credit = e.cr ∧ i.creditN = e.crN
      ∧ r.gross = e.gi ∧ r.grossN = e.giN ∧ r.fee = e.fi ∧ r.feeN = e.fiN ∧ r.credit = e.ci ∧ r.creditN = e.ciN := by
  simp [mirrors, sideOfParts, Side.mirror, PosEntry.side, and_assoc]

end

/-- Settles O37: the period, then the part, then the compare. -/
theorem statementCompletes : Obligations.StatementCompletes := by
  refine ⟨?first, ?pair, ?cases, ?compare, fun period p e opened d => ⟨?record, ?recordLength⟩, ?late, ?ahead⟩
  case first =>
    intro s p before after period gross fee credit grossN feeN creditN c h hr hc hperiod hopen hlast hcompare hpart
    rw [exec_statement h rfl hr, State.serveStatement_closed (s := s.withInbound (before ++ after)) hlast (by decide) hopen,
      State.classifyPart_taken (s := s.withInbound (before ++ after)) hc hperiod (.inl hcompare), State.storePart_first hpart]
    rfl
  case pair =>
    intro s p before after period gross fee credit grossN feeN creditN mark c i h hr hc hperiod hopen hlast hcompare hpart hi e
      same after_
    have hexec : exec .statement s = .next ((s.withInbound (before ++ after)).compareStatement c p i
        (partOf 1 gross fee credit grossN feeN creditN mark)).settle := by
      rw [exec_statement h rfl hr, State.serveStatement_closed (s := s.withInbound (before ++ after)) hlast le_rfl hopen,
        State.classifyPart_taken (s := s.withInbound (before ++ after)) hc hperiod (.inl hcompare),
        State.storePart_pairsR hpart hi rfl]
    have hsame : mirrors c p i (partOf 1 gross fee credit grossN feeN creditN mark) ↔ same := mirrors_iff ..
    refine ⟨?_, fun hsat => ?_, ?_⟩
    · rintro ⟨hisat, hmark, hm⟩
      rw [hexec, State.compareStatement_match hcompare hisat (by simpa [partOf] using hmark) (hsame.mpr hm)]
      rfl
    · rw [hexec, State.compareStatement_saturated hcompare (hsat.imp_right fun hmark => by simpa [partOf] using hmark)]
      rfl
    · rintro ⟨hisat, hmark, hm⟩
      rw [hexec, State.compareStatement_break hcompare hisat (by simpa [partOf] using hmark) (mt hsame.mp hm), hperiod]
      rfl
  case cases =>
    intro s p before after part period gross fee credit grossN feeN creditN mark c h hr hpart hc hperiod hopen hlast st x kept
      compared
    have hclassified : exec .statement s = .next ((s.withInbound (before ++ after)).classifyPart p period x).settle := by
      rw [exec_statement h rfl hr, State.serveStatement_closed (s := s.withInbound (before ++ after)) hlast hpart hopen]
      rfl
    refine ⟨fun htaken => ?_, fun hdone => ?_⟩
    · rw [State.classifyPart_taken (s := s.withInbound (before ++ after)) hc hperiod htaken] at hclassified
      refine ⟨fun hnone => ?_, fun y hy => ⟨fun hkind => ?_, fun hkind hp => ?_, fun hkind hp => ?_⟩⟩
      · rw [hclassified, State.storePart_first hnone]
        rfl
      · rw [hclassified, State.storePart_again hy hkind]
        rfl
      · rw [hclassified, State.storePart_pairsR hy hkind (decide_eq_true hp)]
      · rw [hclassified, State.storePart_pairsI hy hkind (decide_eq_false (by omega))]
    · rw [hclassified, State.classifyPart_done (s := s.withInbound (before ++ after)) hc hperiod hdone]
  case compare =>
    intro s c p i r hc e theirs same after_ report
    exact ⟨fun hnone => State.compareStatement_none hnone, fun hpending =>
      ⟨fun hsat => State.compareStatement_saturated hpending hsat, fun hi hr =>
        ⟨fun hm => State.compareStatement_match hpending hi hr hm, fun hm => State.compareStatement_break hpending hi hr hm⟩⟩⟩
  case record => simp [breakRecord, Side.bytes, figureBytes, PosEntry.side, markByte]
  case recordLength => simp [breakRecord, Side.bytes, figureBytes, PosEntry.side, markByte]
  case late =>
    intro s p before after part period gross fee credit grossN feeN creditN mark h hr hpart hopen hlast hnone
    rw [exec_statement h rfl hr, State.serveStatement_closed (s := s.withInbound (before ++ after)) hlast hpart hopen,
      State.classifyPart_late (s := s.withInbound (before ++ after)) hnone]
    rfl
  case ahead =>
    intro s p before after part period gross fee credit grossN feeN creditN mark h hr taken
    refine ⟨fun hlast => ?_, ?_⟩
    · rw [exec_statement h rfl hr, State.serveStatement_last hlast]
    · intro hopen hlast closed
      have hup := taken.closeTo_stillUp (period + 1)
      have hholds : closed.Holds .settlementUnit p
          (.statement part period gross fee credit grossN feeN creditN mark) before after :=
        ⟨hup.live h.1, h.2.1, h.2.2⟩
      have hline : closed.onLine = true := hup.onLine (s := taken) hr
      have hback : closed.withInbound (before ++ after) = taken.closeTo (period + 1) :=
        congrArg (fun q => (taken.closeTo (period + 1)).setLc { (taken.closeTo (period + 1)).lc with inbound := q })
          hup.inbound.symm
      refine ⟨?_, hholds, hline, taken.closeTo_openPeriod (period + 1)⟩
      rw [exec_statement h rfl hr, exec_statement hholds rfl hline, hback,
        State.serveStatement_ahead (s := taken) hopen, if_neg (Nat.not_le.mpr hlast)]

end Sys2Proof.Machine
end

