-- ==== Sys2Proof/Proofs/Notices.lean ====
section
/-! PROOFS. CLOSE, BEACON, DEPART and CUSTODY frames, and the home map they teach. -/
namespace Sys2Proof.Machine

/-! ### The steps -/

section
variable {s : State} {p : Nat} {m : Msg} {before after : List InFrame}

theorem exec_close (h : s.Holds .settlementUnit p m before after) (hk : m.kind = 13) (hr : s.hears = true) :
    exec .close s = .next ((s.withInbound (before ++ after)).serveClose p m).settle := by
  simp only [exec, execClose, State.event_live h.1, State.takeFrame_holds h hk hr]

theorem exec_beacon (h : s.Holds .peerMonitor p m before after) (hk : m.kind = 14) (hr : s.hears = true) :
    exec .beacon s = .next ((s.withInbound (before ++ after)).serveBeacon p m).settle := by
  simp only [exec, execBeacon, State.event_live h.1, State.takeFrame_holds h hk hr]

theorem exec_depart (h : s.Holds .peerMonitor p m before after) (hk : m.kind = 16) (hr : s.hears = true) :
    exec .depart s = .next ((s.withInbound (before ++ after)).serveDepart p m) :=
  congrArg Host.Outcome.next (State.takeFrame_holds h hk hr _)

theorem exec_custody (h : s.Holds .peerMonitor p m before after) (hk : m.kind = 17) (hr : s.hears = true) :
    exec .custody s = .next ((s.withInbound (before ++ after)).serveCustody p m).settle := by
  simp only [exec, execCustody, State.event_live h.1, State.takeFrame_holds h hk hr]

end

/-! ### The LEARNED entry with the oldest learn time (R168) -/

/-- No LEARNED entry of the list is older than the one learned at `t` for `home`. -/
def OldestOf (l : List HomeEntry) (home t : Nat) : Prop :=
  ∀ e ∈ l, ∀ u, e.learned = some u → t < u ∨ t = u ∧ home ≤ e.home

theorem oldestLearned_none {l : List HomeEntry} (h : oldestLearned l = none) : ∀ e ∈ l, e.learned = none := by
  induction l with
  | nil => simp
  | cons e l ih =>
    unfold oldestLearned at h
    split at h
    · rename_i hlearned
      simpa [hlearned] using ih h
    · simp at h
    · dsimp only at h
      split at h <;> simp at h

/-- What `oldestLearned` finds: a LEARNED entry that none of the list is older than. -/
theorem oldestLearned_some {l : List HomeEntry} {b : HomeEntry} (h : oldestLearned l = some b) :
    b ∈ l ∧ ∃ t, b.learned = some t ∧ OldestOf l b.home t := by
  induction l generalizing b with
  | nil => simp [oldestLearned] at h
  | cons e l ih =>
    unfold oldestLearned at h
    split at h
    case h_1 hlearned =>
      obtain ⟨hmem, t, ht, hold⟩ := ih h
      refine ⟨.tail _ hmem, t, ht, ?_⟩
      rintro x (_ | ⟨_, hx⟩) u hu
      · simp [hlearned] at hu
      · exact hold x hx u hu
    case h_2 t hlearned hnone =>
      obtain rfl : e = b := by simpa using h
      refine ⟨.head _, t, hlearned, ?_⟩
      rintro x (_ | ⟨_, hx⟩) u hu
      · exact .inr ⟨Option.some.inj (hlearned.symm.trans hu), le_rfl⟩
      · simp [oldestLearned_none hnone x hx] at hu
    case h_3 t b' hlearned hsome =>
      obtain ⟨hmem, t', ht', hold⟩ := ih hsome
      simp only [ht', Option.getD_some, Bool.or_eq_true, Bool.and_eq_true, decide_eq_true_eq] at h
      split at h
      case isTrue hbefore =>
        obtain rfl : b' = b := by simpa using h
        refine ⟨.tail _ hmem, t', ht', ?_⟩
        rintro x (_ | ⟨_, hx⟩) u hu
        · obtain rfl : t = u := Option.some.inj (hlearned.symm.trans hu)
          omega
        · exact hold x hx u hu
      case isFalse hnot =>
        obtain rfl : e = b := by simpa using h
        refine ⟨.head _, t, hlearned, ?_⟩
        rintro x (_ | ⟨_, hx⟩) u hu
        · exact .inr ⟨Option.some.inj (hlearned.symm.trans hu), le_rfl⟩
        · have hx' := hold x hx u hu
          omega

/-- An entry that none is older than gives its home to what `oldestLearned` finds. -/
theorem oldestLearned_home {l : List HomeEntry} {o : HomeEntry} {t0 : Nat} (ho : o ∈ l) (ht : o.learned = some t0)
    (hold : OldestOf l o.home t0) : ∃ b, oldestLearned l = some b ∧ b.home = o.home := by
  cases hb : oldestLearned l with
  | none => simp [oldestLearned_none hb o ho] at ht
  | some b =>
    obtain ⟨hmem, t, htb, hbold⟩ := oldestLearned_some hb
    have hforth := hold b hmem t htb
    have hback := hbold o ho t0 ht
    exact ⟨b, rfl, by omega⟩

/-! ### A custody statement (R168) -/

section
variable {s : State} {h c source : Nat}

/-- A custody statement that may be learned: of another station's home, not adopted here, in range. -/
structure State.Learnable (s : State) (h c : Nat) : Prop where
  notOwn : h ≠ s.own
  notHere : h ∉ s.cu.adopted
  other : c ≠ s.own
  moved : h ≠ c
  home : 1 ≤ h ∧ h ≤ 239
  custodian : 1 ≤ c ∧ c ≤ 239

/-- What is learned. -/
def State.fresh (s : State) (h c : Nat) : HomeEntry := { home := h, custodian := c, learned := some s.now }

/-- Learning a custody statement, its entry in the map or not. -/
theorem State.learn_eq (hl : s.Learnable h c) : s.learn h c source =
    match s.pm.homeMap.find? fun e => e.home = h with
    | some e =>
      if e.learned.isNone then s
      else s.setHomeMap (updateWhere (fun e => e.home = h) (fun _ => s.fresh h c) s.pm.homeMap)
    | none =>
      if s.pm.homeMap.length < 16 then s.setHomeMap (s.pm.homeMap ++ [s.fresh h c])
      else match oldestLearned s.pm.homeMap with
        | some o => s.setHomeMap ((s.pm.homeMap.filter fun e => e.home ≠ o.home) ++ [s.fresh h c])
        | none => s := by
  refine (if_neg hl.notOwn).trans ((if_neg ?_).trans rfl)
  simp [hl.notHere, hl.other, hl.moved, stationOk, hl.home, hl.custodian]

theorem State.learn_replaces (hl : s.Learnable h c) {e : HomeEntry}
    (he : s.pm.homeMap.find? (fun e => e.home = h) = some e) (hlearned : e.learned.isSome = true) :
    s.learn h c source = s.setHomeMap (updateWhere (fun e => e.home = h) (fun _ => s.fresh h c) s.pm.homeMap) := by
  rw [State.learn_eq hl, he]
  exact if_neg (by simpa [Option.isNone_iff_eq_none, Option.isSome_iff_ne_none] using hlearned)

theorem State.find?_homeMap_none (hnew : ∀ e ∈ s.pm.homeMap, e.home ≠ h) :
    s.pm.homeMap.find? (fun e => e.home = h) = none := by
  simpa [List.find?_eq_none] using hnew

theorem State.learn_adds (hl : s.Learnable h c) (hnew : ∀ e ∈ s.pm.homeMap, e.home ≠ h) (hroom : s.pm.homeMap.length < 16) :
    s.learn h c source = s.setHomeMap (s.pm.homeMap ++ [s.fresh h c]) := by
  rw [State.learn_eq hl, State.find?_homeMap_none hnew]
  exact if_pos hroom

/-- In a full map the oldest LEARNED entry makes room. -/
theorem State.learn_full (hl : s.Learnable h c) (hnew : ∀ e ∈ s.pm.homeMap, e.home ≠ h) (hfull : 16 ≤ s.pm.homeMap.length)
    {o : HomeEntry} {t0 : Nat} (ho : o ∈ s.pm.homeMap) (ht : o.learned = some t0) (hold : OldestOf s.pm.homeMap o.home t0) :
    s.learn h c source = s.setHomeMap ((s.pm.homeMap.filter fun e => e.home ≠ o.home) ++ [s.fresh h c]) := by
  obtain ⟨b, hb, hhome⟩ := oldestLearned_home ho ht hold
  rw [State.learn_eq hl, State.find?_homeMap_none hnew, hb, ← hhome]
  exact if_neg (Nat.not_lt.mpr hfull)

/-- A custody statement that may not be learned does nothing. -/
theorem State.learn_refused (hown : h ≠ s.own)
    (hbad : s.cu.adopted.contains h = true ∨ c = s.own ∨ h = c ∨ ¬ (1 ≤ h ∧ h ≤ 239) ∨ ¬ (1 ≤ c ∧ c ≤ 239)) :
    s.learn h c source = s := by
  refine (if_neg hown).trans (if_pos ?_)
  simp only [Bool.or_eq_true, decide_eq_true_eq, Bool.not_eq_true', Bool.eq_false_iff, ne_eq, stationOk_iff]
  tauto

/-- A PINNED entry stands. -/
theorem State.learn_pinned (hown : h ≠ s.own) {e : HomeEntry} (he : s.pm.homeMap.find? (fun e => e.home = h) = some e)
    (hp : e.learned = none) : s.learn h c source = s := by
  by_cases hbad : s.cu.adopted.contains h = true ∨ c = s.own ∨ h = c ∨ ¬ (1 ≤ h ∧ h ≤ 239) ∨ ¬ (1 ≤ c ∧ c ≤ 239)
  · exact State.learn_refused hown hbad
  · simp only [not_or, not_not, List.contains_iff_mem] at hbad
    obtain ⟨hhere, hother, hmoved, hhome, hcustodian⟩ := hbad
    rw [State.learn_eq ⟨hown, hhere, hother, hmoved, hhome, hcustodian⟩, he]
    exact if_pos (by simp [hp])

/-! ### Proof of commit (R128) -/

theorem State.learn_own_other (hne : c ≠ source) : s.learn s.own c source = s := (if_pos rfl).trans (if_neg hne)

theorem State.learn_own : s.learn s.own c c = s.proofOfCommit c := (if_pos rfl).trans (if_pos rfl)

theorem State.proofOfCommit_none
    (hnot : ∀ x, s.cu.handover = some x → ¬ (x.sub = .transferring ∧ x.ending = true ∧ x.custodian = c)) :
    s.proofOfCommit c = s := by
  unfold State.proofOfCommit
  cases hx : s.cu.handover with
  | none => rfl
  | some x => exact if_neg (by simpa [and_assoc] using hnot x hx)

/-- A handover with TRANSFER-END outstanding completes. -/
theorem State.proofOfCommit_completes {x : Handover} (hx : s.cu.handover = some x) (hsub : x.sub = .transferring)
    (hend : x.ending = true) : s.proofOfCommit x.custodian = s.completeHandover := by
  unfold State.proofOfCommit
  rw [hx]
  exact if_pos (by simp [hsub, hend])

/-- The requests of a handover's exchanges leave the wait list. -/
theorem State.dropRequests_handover (s : State) : s.dropRequests isHandoverFrame = s.setLc { s.lc with
    waitList := s.lc.waitList.filter fun f => f.msg.kind ∉ [18, 20, 21] } :=
  congrArg (fun l => s.setLc { s.lc with waitList := l })
    (List.filter_congr fun f _ => by simp [isHandoverFrame, Bool.and_assoc])

/-- The completion: what stays, what is announced. -/
theorem State.completeHandover_eq {x : Handover} (hx : s.cu.handover = some x) : s.completeHandover =
    (((((s.setLc { s.lc with waitList := s.lc.waitList.filter fun f => f.msg.kind ∉ [18, 20, 21] }).setCu { s.cu with
      cards := s.cu.cards.filter fun r => r.state ≠ .active
      ledger := { s.cu.ledger with handedOut := s.cu.ledger.handedOut + x.total }
      handover := some { x with
        sub := .announcing, timer := none, ending := false, attemptsLeft := 0, ticket := some s.ticket } }).setSc
      { s.sc with committedMark := true }).answer (handedOverRecord x)).hand 255 (.depart 0)) := by
  unfold State.completeHandover
  rw [hx, ← State.dropRequests_handover]
  rfl

end

/-- Settles O38: the four frames, and the cases of a custody statement. -/
theorem noticesComplete : Obligations.NoticesComplete := by
  refine ⟨fun s p before after hh => ?frames, fun s h c source hown hhere hother hmoved hlow hhigh hlow' hhigh' => ?learned,
    ?learnAll, fun s h c source hown hbad => ?refused, fun s c source hnot => ?ownOther, fun s x hx hsub hend => ?commit⟩
  case frames =>
    intro taken
    refine ⟨fun q h => ⟨fun hlt => ?_, fun hle => ?_⟩, ?_, fun cause h => exec_depart h rfl hh, fun h c hholds =>
      exec_custody hholds rfl hh, fun h c hholds hown hhere hother hmoved hlow hhigh hlow' hhigh' hroom hnew => ?_⟩
    · rw [exec_close h rfl hh]
      exact congrArg (fun u => Host.Outcome.next (State.settle u)) (State.catchUp_of_lt (s := taken) hlt)
    · rw [exec_close h rfl hh]
      exact congrArg (fun u => Host.Outcome.next (State.settle u)) (State.catchUp_of_le (s := taken) hle)
    · intro b h heard homes
      have hexec : exec .beacon s = .next (((heard.catchUp b.period).learnAll p homes)).settle := exec_beacon h rfl hh
      refine ⟨fun hle => ?_, fun hlt => ?_⟩
      · rw [hexec, State.catchUp_of_le (s := heard) hle]
      · rw [hexec, State.catchUp_of_lt (s := heard) hlt]
    · have hfar : h ∉ s.cu.adopted := by simpa using hhere
      have hl : taken.Learnable h c :=
        ⟨hown, hfar, hother, hmoved, ⟨hlow, hhigh⟩, ⟨hlow', hhigh'⟩⟩
      rw [exec_custody hholds rfl hh]
      exact congrArg (fun u => Host.Outcome.next (State.settle u)) (State.learn_adds (s := taken) hl hnew hroom)
  case learned =>
    intro entry
    have hl : s.Learnable h c := ⟨hown, hhere, hother, hmoved, ⟨hlow, hhigh⟩, ⟨hlow', hhigh'⟩⟩
    refine ⟨fun e he hlearned => ?_, fun o t0 hnew hfull ho ht hold => State.learn_full hl hnew hfull ho ht hold⟩
    rw [State.learn_replaces hl he hlearned]
    simp only [updateWhere, decide_eq_true_eq]
    rfl
  case learnAll =>
    intro s c homes
    induction homes generalizing s with
    | nil => rfl
    | cons h l ih => exact ih (s.learn h c c)
  case refused =>
    rcases hbad with hhere | hother | hmoved | hhome | hcustodian | ⟨e, he, hp⟩
    · exact State.learn_refused hown (.inl hhere)
    · exact State.learn_refused hown (.inr (.inl hother))
    · exact State.learn_refused hown (.inr (.inr (.inl hmoved)))
    · exact State.learn_refused hown (.inr (.inr (.inr (.inl hhome))))
    · exact State.learn_refused hown (.inr (.inr (.inr (.inr hcustodian))))
    · exact State.learn_pinned hown he hp
  case ownOther =>
    by_cases hc : c = source
    · subst hc
      rw [State.learn_own]
      exact State.proofOfCommit_none (hnot.resolve_left fun hne => hne rfl)
    · exact State.learn_own_other hc
  case commit =>
    rw [State.learn_own, State.proofOfCommit_completes hx hsub hend, State.completeHandover_eq hx]
    rfl

end Sys2Proof.Machine
end

