-- ==== Sys2Proof/Proofs/Handover.lean ====
section
/-! PROOFS. The frames of a handover at the custodian and at the departing station, and its failure. -/
namespace Sys2Proof.Machine

/-! ### The steps -/

section
variable {s : State} {p : Nat} {m : Msg} {before after : List InFrame}

theorem exec_offer (h : s.Holds .custodyUnit p m before after) (hk : m.kind = 18) (hr : s.custodyReady = true) :
    exec .offer s = .next ((s.withInbound (before ++ after)).serveOffer p m) :=
  congrArg Host.Outcome.next (State.takeFrame_holds h hk hr _)

theorem exec_cardTransfer (h : s.Holds .custodyUnit p m before after) (hk : m.kind = 20) (hr : s.custodyReady = true) :
    exec .cardTransfer s = .next ((s.withInbound (before ++ after)).serveCardTransfer p m) :=
  congrArg Host.Outcome.next (State.takeFrame_holds h hk hr _)

theorem exec_abortHandover (h : s.Holds .custodyUnit p m before after) (hk : m.kind = 23) (hr : s.custodyReady = true) :
    exec .abortHandover s = .next ((s.withInbound (before ++ after)).serveAbort p m) :=
  congrArg Host.Outcome.next (State.takeFrame_holds h hk hr _)

theorem exec_offerReply (h : s.Holds .custodyUnit p m before after) (hk : m.kind = 19) (hr : s.custodyReady = true) :
    exec .offerReply s = .next ((s.withInbound (before ++ after)).serveOfferReply p m).settle := by
  simp only [exec, execOfferReply, State.event_live h.1, State.takeFrame_holds h hk hr]

theorem exec_transferEnd (h : s.Holds .custodyUnit p m before after) (hk : m.kind = 21) (hr : s.custodyReady = true) :
    exec .transferEnd s = .next ((s.withInbound (before ++ after)).serveTransferEnd p m).settle := by
  simp only [exec, execTransferEnd, State.event_live h.1, State.takeFrame_holds h hk hr]

theorem exec_transferReply (h : s.Holds .custodyUnit p m before after) (hk : m.kind = 22) (hr : s.custodyReady = true) :
    exec .transferReply s = .next ((s.withInbound (before ++ after)).serveTransferReply p m).settle := by
  simp only [exec, execTransferReply, State.event_live h.1, State.takeFrame_holds h hk hr]

end

/-! ### The open adoption (R121, R125) -/

section
variable {s : State} {p : Nat} {a : Adoption}

theorem State.adoptionFrom_some (ha : s.cu.adoption = some a) (hp : a.station = p) : s.adoptionFrom p = some a := by
  unfold State.adoptionFrom
  rw [ha]
  exact if_pos hp

theorem State.adoptionFrom_none (h : ∀ a, s.cu.adoption = some a → a.station ≠ p) : s.adoptionFrom p = none := by
  unfold State.adoptionFrom
  cases ha : s.cu.adoption with
  | none => rfl
  | some a => exact if_neg (h a ha)

/-- An open adoption that is closed without a commit. -/
theorem State.discardAdoption_eq (ha : s.cu.adoption = some a) (o : AdoptionOutcome) : s.discardAdoption o = s.setCu { s.cu with
    cards := s.cu.cards.filter fun r => r.state ≠ .pendingAdopt
    adoption := none
    lastAdoption := some { station := a.station, count := a.count, total := a.total, outcome := o } } := by
  unfold State.discardAdoption
  rw [ha]

/-! ### OFFER (R121) -/

variable {now count total highest n h1 h2 h3 h4 : Nat} {homes : List Nat}

/-- What an OFFER is answered, once the adoption it replaces is gone. -/
def State.answerOffer (s : State) (now p count total highest : Nat) (homes : List Nat) : State :=
  match s.offerRefusal count total highest homes with
  | some cause => s.reply p (.offerReply 1 cause.code)
  | none => (s.setAdoption (some { station := p, homes, count, total, toCome := count, fault := false,
                                   idle := now + adoptionIdle })).reply p (.offerReply 0 0)

theorem State.serveOffer_eq (s : State) (p count total highest n h1 h2 h3 h4 : Nat) :
    s.serveOffer p (.offer count total highest n h1 h2 h3 h4) =
      (if (s.adoptionFrom p).isSome then s.discardAdoption .discarded else s).answerOffer s.now p count total highest
        (offerHomes n h1 h2 h3 h4) := by
  cases h : (if (s.adoptionFrom p).isSome then s.discardAdoption .discarded else s).offerRefusal count total highest
    (offerHomes n h1 h2 h3 h4) with
  | none => simp only [State.serveOffer, State.answerOffer, h]
  | some cause => simp only [State.serveOffer, State.answerOffer, h]

/-- An OFFER refused by its first test that applies. -/
theorem State.answerOffer_refused {cause : OfferCause} (h : s.offerRefusal count total highest homes = some cause) :
    s.answerOffer now p count total highest homes = s.reply p (.offerReply 1 cause.code) := by
  unfold State.answerOffer
  rw [h]

theorem State.answerOffer_accepted (h : s.offerRefusal count total highest homes = none) :
    s.answerOffer now p count total highest homes = (s.setAdoption (some {
      station := p, homes, count, total, toCome := count, fault := false, idle := now + adoptionIdle })).reply p
      (.offerReply 0 0) := by
  unfold State.answerOffer
  rw [h]

/-- Where no handover runs and no adoption is open, an OFFER is tested by its homes and figures. -/
theorem State.offerRefusal_tests (hs : s.sc.station ≠ .handingOver) (ha : s.cu.adoption = none) :
    s.offerRefusal count total highest homes =
      if homes.any s.isHere then some .conflict
      else if 3 < s.cu.adopted.length + homes.length then some .tooManyHomes
      else if s.sc.config.cardCap < highest then some .overCap
      else if s.usableSlots < count || s.cu.ledger.headroom < total then some .noRoom
      else none :=
  (if_neg (by simp [State.handing, hs])).trans (if_neg (by simp [ha]))

end

/-- Settles O39: the tests of an OFFER in their order, behind the discard of the adoption it replaces. -/
theorem offerCompletes : Obligations.OfferCompletes := by
  refine ⟨?tests, ?again⟩
  case tests =>
    intro s p before after count total highest n h1 h2 h3 h4 h hr hnone homes refused
    have hexec : exec .offer s =
        .next ((s.withInbound (before ++ after)).answerOffer s.now p count total highest homes) := by
      rw [exec_offer h rfl hr, State.serveOffer_eq, State.adoptionFrom_none (s := s.withInbound (before ++ after)) hnone]
      rfl
    have hrefused {cause : OfferCause} (hc : s.offerRefusal count total highest homes = some cause) :
        exec .offer s = .next (refused cause.code) := by
      rw [hexec, State.answerOffer_refused (s := s.withInbound (before ++ after)) hc]
    refine ⟨fun hs => hrefused (if_pos (by simp [State.handing, hs])), fun hs =>
      ⟨fun ha => hrefused ((if_neg (by simp [State.handing, hs])).trans
        (if_pos (by simpa [Option.isSome_iff_ne_none] using ha))), fun ha => ?_⟩⟩
    have htests := State.offerRefusal_tests (s := s) (count := count) (total := total) (highest := highest) (homes := homes) hs ha
    refine ⟨fun hhere => hrefused (htests.trans (if_pos (by simpa using hhere))), fun hhere => ?_⟩
    have hconflict : ¬ homes.any s.isHere = true := by simpa using hhere
    rw [if_neg hconflict] at htests
    refine ⟨fun hmany => hrefused (htests.trans (if_pos hmany)), fun hfew => ?_⟩
    rw [if_neg (Nat.not_lt.mpr hfew)] at htests
    refine ⟨fun hcap => hrefused (htests.trans (if_pos hcap)), fun hcap => ?_⟩
    rw [if_neg (Nat.not_lt.mpr hcap)] at htests
    refine ⟨fun hroom => hrefused (htests.trans (if_pos (by simpa using hroom))), fun hslots htotal => ?_⟩
    rw [if_neg (by simp [Nat.not_lt.mpr hslots, Nat.not_lt.mpr htotal])] at htests
    rw [hexec, State.answerOffer_accepted (s := s.withInbound (before ++ after)) htests]
    rfl
  case again =>
    intro s p before after count total highest n h1 h2 h3 h4 a h hr ha hp
    generalize hcleared : s.setCu { s.cu with
      cards := s.cu.cards.filter fun r => r.state ≠ .pendingAdopt
      adoption := none
      lastAdoption := some { station := p, count := a.count, total := a.total, outcome := .discarded } } = t
    have hdiscard : (s.withInbound (before ++ after)).discardAdoption .discarded = t.withInbound (before ++ after) := by
      rw [State.discardAdoption_eq (s := s.withInbound (before ++ after)) ha, hp, ← hcleared]
      rfl
    have hholds : t.Holds .custodyUnit p (.offer count total highest n h1 h2 h3 h4) before after := by
      rw [← hcleared]
      exact h
    have hready : t.custodyReady = true := by
      rw [← hcleared]
      exact hr
    have hnone : t.cu.adoption = none := by rw [← hcleared]; rfl
    have hfrom := State.adoptionFrom_some (s := s.withInbound (before ++ after)) ha hp
    have hfrom' := State.adoptionFrom_none (s := t.withInbound (before ++ after)) (p := p)
      fun a ha => by simp [State.withInbound, hnone] at ha
    rw [exec_offer h rfl hr, exec_offer hholds rfl hready, State.serveOffer_eq, State.serveOffer_eq, hfrom, hfrom']
    subst hcleared
    exact congrArg (fun u => Host.Outcome.next (u.answerOffer s.now p count total highest (offerHomes n h1 h2 h3 h4))) hdiscard

/-! ### Discarded adoptions (R125, R131) -/

section
variable {s : State} {p : Nat} {a : Adoption}

theorem State.serveAbort_discards (ha : s.cu.adoption = some a) (hp : a.station = p) :
    s.serveAbort p .abortHandover = s.discardAdoption .discarded :=
  if_pos (by rw [State.adoptionFrom_some ha hp]; rfl)

theorem State.serveAbort_other (h : ∀ a, s.cu.adoption = some a → a.station ≠ p) : s.serveAbort p .abortHandover = s :=
  if_neg (by rw [State.adoptionFrom_none h]; simp)

end

/-- Settles O40: an ABORT by its source, and the idle limit. -/
theorem adoptionsAreDiscarded : Obligations.AdoptionsAreDiscarded := by
  refine ⟨fun s p before after a h hr ha => ⟨fun hp => ?_, fun hp => ?_⟩, fun s p before after h hr ha => ?_,
    fun s a hl ha hle => ?_⟩
  · rw [exec_abortHandover h rfl hr, State.serveAbort_discards (s := s.withInbound (before ++ after)) ha hp,
      State.discardAdoption_eq (s := s.withInbound (before ++ after)) ha]
    rfl
  · have hother : ∀ b, s.cu.adoption = some b → b.station ≠ p := fun b hb => by
      obtain rfl : a = b := Option.some.inj (ha.symm.trans hb)
      exact hp
    rw [exec_abortHandover h rfl hr, State.serveAbort_other (s := s.withInbound (before ++ after)) hother]
  · have hnone : ∀ b, s.cu.adoption = some b → b.station ≠ p := fun b hb => by simp [ha] at hb
    rw [exec_abortHandover h rfl hr, State.serveAbort_other (s := s.withInbound (before ++ after)) hnone]
  · simp only [exec, execAdoptionIdleLimit, State.event_live hl, ha]
    rw [State.discardAdoption_eq (s := s.reach a.idle) ha, State.reach, Nat.max_eq_right hle]
    rfl

/-! ### The departing station's replies (R120, R123, R128) -/

section
variable {s : State} {p cause : Nat} {h : Handover}

theorem State.serveOfferReply_accept (hh : s.cu.handover = some h) (hsub : h.sub = .offering) (hp : h.custodian = p) :
    s.serveOfferReply p (.offerReply 0 cause) = s.enterTransferring h := by
  unfold State.serveOfferReply
  rw [hh]
  exact if_pos (by simp [hsub, hp])

theorem State.serveOfferReply_refuse (hh : s.cu.handover = some h) (hsub : h.sub = .offering) (hp : h.custodian = p) :
    s.serveOfferReply p (.offerReply 1 cause) = (s.dropRequest h.ticket).failHandover .refused cause := by
  unfold State.serveOfferReply
  rw [hh]
  exact if_pos (by simp [hsub, hp])

theorem State.serveTransferReply_commit (hh : s.cu.handover = some h) (hsub : h.sub = .transferring)
    (hend : h.ending = true) (hp : h.custodian = p) : s.serveTransferReply p (.transferReply 0) = s.completeHandover := by
  unfold State.serveTransferReply
  rw [hh]
  exact if_pos (by simp [hsub, hend, hp])

theorem State.serveTransferReply_mismatch (hh : s.cu.handover = some h) (hsub : h.sub = .transferring)
    (hend : h.ending = true) (hp : h.custodian = p) :
    s.serveTransferReply p (.transferReply 1) = s.failHandover .mismatch 0 := by
  unfold State.serveTransferReply
  rw [hh]
  exact if_pos (by simp [hsub, hend, hp])

/-- Nothing is dropped from an empty wait list. -/
theorem State.dropRequests_of_nil (hw : s.lc.waitList = []) (q : OutFrame → Bool) : s.dropRequests q = s := by
  have hsame : s.dropRequests q = s.setLc { s.lc with waitList := s.lc.waitList } := by
    unfold State.dropRequests
    rw [hw]
    rfl
  exact hsame

/-- A completion with nothing waiting for room. -/
theorem State.completeHandover_of_nil (hh : s.cu.handover = some h) (hw : s.lc.waitList = []) : s.completeHandover =
    (((s.setCu { s.cu with
      cards := s.cu.cards.filter fun r => r.state ≠ .active
      ledger := { s.cu.ledger with handedOut := s.cu.ledger.handedOut + h.total }
      handover := some { h with
        sub := .announcing, timer := none, ending := false, attemptsLeft := 0, ticket := some s.ticket } }).setSc
      { s.sc with committedMark := true }).answer (handedOverRecord h)).hand 255 (.depart 0) := by
  have hdrop := State.dropRequests_of_nil hw isHandoverFrame
  rw [State.completeHandover_eq hh, ← State.dropRequests_handover, hdrop]

end

/-- Settles O41: the two replies by their verdict. -/
theorem custodianRepliesComplete : Obligations.CustodianRepliesComplete := by
  refine ⟨?offerReply, ?transferReply⟩
  case offerReply =>
    intro s p before after cause h hr hh hsub hp ht taken
    refine ⟨fun hholds => ?_, fun hholds => ?_⟩
    · rw [exec_offerReply hholds rfl hr, State.serveOfferReply_accept (s := taken) hh hsub hp]
      unfold State.enterTransferring
      rw [ht]
      rfl
    · rw [exec_offerReply hholds rfl hr, State.serveOfferReply_refuse (s := taken) hh hsub hp, ht]
      rfl
  case transferReply =>
    intro s p before after h hr hh hsub hend hp hw taken
    refine ⟨fun hholds => ?_, fun hholds => ?_⟩
    · rw [exec_transferReply hholds rfl hr, State.serveTransferReply_commit (s := taken) hh hsub hend hp,
        State.completeHandover_of_nil (s := taken) hh hw]
      rfl
    · rw [exec_transferReply hholds rfl hr, State.serveTransferReply_mismatch (s := taken) hh hsub hend hp]

/-! ### The failure (R130) -/

section
variable {s : State}

/-- The state on which a failing handover builds: its ABORT-HANDOVER handed where one is due. -/
def State.aborting (s : State) (cause : FailCause) (h : Handover) : State :=
  if cause = .notDrained then s else s.hand h.custodian .abortHandover

theorem State.aborting_lineOnly (s : State) (cause : FailCause) (h : Handover) : s.LineOnly (s.aborting cause h) := by
  unfold State.aborting
  split
  · exact .refl s
  · exact s.hand_lineOnly _ _

/-- A failing handover with nothing waiting for room. -/
theorem State.failHandover_of_nil {h : Handover} (hh : s.cu.handover = some h) (hw : s.lc.waitList = []) (cause : FailCause)
    (refusal : Nat) : s.failHandover cause refusal =
      let t := s.aborting cause h
      (((t.setHandover none).setSc { t.sc with station := .joined }).answer
        (handoverFailedRecord h.tag cause refusal)).clearLocal := by
  unfold State.failHandover
  rw [hh, State.dropRequests_of_nil hw]
  rfl

/-- No hold-off of kind LOCAL is left. -/
theorem State.clearLocal_none (s : State) : ∀ a ∈ s.clearLocal.au.queue, ∀ x, a.holdOff ≠ some (.locally x) := by
  intro a ha x
  obtain ⟨b, -, rfl⟩ := List.mem_map.mp ha
  split
  · simp
  · rename_i hnot
    exact fun hx => hnot x hx

end

/-- Settles O42: the operations of `failHandover`, block by block. -/
theorem aFailedHandoverReturnsToJoined : Obligations.AFailedHandoverReturnsToJoined := by
  intro s cause refusal h hh hw t
  have ht := State.failHandover_of_nil hh hw cause refusal
  have hline := s.aborting_lineOnly cause h
  have hlc : (s.aborting cause h).lc = if cause = .notDrained then s.lc else (s.hand h.custodian .abortHandover).lc :=
    apply_ite State.lc _ _ _
  rw [show t = _ from ht]
  refine ⟨?_, ?_, ?_, ?_, hlc, State.clearLocal_none _, ?_, hline.br, hline.su, hline.pm, hline.now⟩
  · exact congrArg (fun c : StationCtl => { c with station := StationState.joined }) hline.sc
  · exact congrArg (fun c : Custody => { c with handover := none }) hline.cu
  · exact congrArg (fun x : TillPort => x.results ++ [handoverFailedRecord h.tag cause refusal]) hline.till
  · exact congrArg (fun x : TillPort => x.reserved - 1) hline.till
  · exact (List.length_map _).trans (congrArg (fun x : AdviceUnit => x.queue.length) hline.au)

/-! ### CARD-TRANSFER (R124) -/

section
variable {s : State} {p home serial balance issued last acts : Nat} {a : Adoption} {r : Card}

theorem State.serveCardTransfer_taken (ha : s.cu.adoption = some a) (hp : a.station = p)
    (hhome : a.homes.contains home = true) :
    s.serveCardTransfer p (.cardTransfer home serial balance issued last acts) =
      (s.setAdoption (some { a with idle := s.now + adoptionIdle })).storeTransferred { a with idle := s.now + adoptionIdle }
        (transferCard home serial balance issued last acts) := by
  unfold State.serveCardTransfer
  rw [State.adoptionFrom_some ha hp]
  exact if_pos hhome

theorem State.serveCardTransfer_other (ha : s.cu.adoption = some a) (h : a.station ≠ p ∨ a.homes.contains home = false) :
    s.serveCardTransfer p (.cardTransfer home serial balance issued last acts) = s := by
  unfold State.serveCardTransfer
  by_cases hp : a.station = p
  · rw [State.adoptionFrom_some ha hp]
    exact if_neg (by simpa using h.resolve_left (not_not.mpr hp))
  · rw [State.adoptionFrom_none fun b hb => by rwa [← Option.some.inj (ha.symm.trans hb)]]

theorem State.storeTransferred_repeat (h : s.cu.record r.key = some r) : s.storeTransferred a r = s := if_pos h

theorem State.storeTransferred_fault (hnot : s.cu.record r.key ≠ some r)
    (h : (s.cu.record r.key).isSome = true ∨ s.sc.config.cardCap < r.balance) :
    s.storeTransferred a r = s.adoptionFault a :=
  (if_neg hnot).trans (if_pos (by simpa using h))

theorem State.storeTransferred_new (h : s.cu.record r.key = none) (hcap : r.balance ≤ s.sc.config.cardCap)
    (hroom : s.cu.cards.length < 6144) : s.storeTransferred a r = s.setCu { s.cu with
      cards := s.cu.cards ++ [r], adoption := some { a with toCome := a.toCome - 1 } } := by
  refine (if_neg (by simp [h])).trans ((if_neg (by simp [h, Nat.not_lt.mpr hcap])).trans ?_)
  rw [State.makeRoom_eq (.inl ⟨hroom, rfl⟩)]
  rfl

end

/-- Settles O43: the first case that applies to a transferred card. -/
theorem cardTransferCompletes : Obligations.CardTransferCompletes := by
  intro s p before after home serial balance issued last acts a h hr ha card taken open_
  have hserved := exec_cardTransfer h rfl hr
  refine ⟨fun hp hhome => ?_, fun hother => ?_⟩
  · have hexec : exec .cardTransfer s = .next ((taken.setAdoption (some open_)).storeTransferred open_ card) :=
      hserved.trans (congrArg Host.Outcome.next (State.serveCardTransfer_taken (s := taken) ha hp hhome))
    have hmarked (hnot : s.cu.record { home, serial } ≠ some card)
        (hbad : (s.cu.record { home, serial }).isSome = true ∨ s.sc.config.cardCap < balance) :
        exec .cardTransfer s = .next (taken.setCu { s.cu with adoption := some { open_ with fault := true } }) := by
      rw [hexec, State.storeTransferred_fault (s := taken.setAdoption (some open_)) (r := card) hnot hbad]
      rfl
    refine ⟨fun hnew hcap hroom => ?_, fun hsame => ?_, ?_⟩
    · rw [hexec, State.storeTransferred_new (s := taken.setAdoption (some open_)) (r := card) hnew hcap hroom]
      rfl
    · rw [hexec, State.storeTransferred_repeat (s := taken.setAdoption (some open_)) (r := card) hsame]
      rfl
    · rintro (⟨other, hrecord, hne⟩ | ⟨hnone, hcap⟩)
      · exact hmarked (by simpa [hrecord] using hne) (.inl (by simp [hrecord]))
      · exact hmarked (by simp [hnone]) (.inr hcap)
  · rw [hserved, State.serveCardTransfer_other (s := taken) ha hother]

/-! ### TRANSFER-END (R126, R127, R133) -/

section
variable {s : State} {p count total : Nat} {a : Adoption}

theorem State.serveTransferEnd_commits (ha : s.cu.adoption = some a) (hp : a.station = p)
    (hm : s.mayCommit a count total = true) :
    s.serveTransferEnd p (.transferEnd count total) = (s.commitAdoption a).reply p (.transferReply 0) := by
  unfold State.serveTransferEnd
  rw [State.adoptionFrom_some ha hp]
  exact if_pos hm

theorem State.serveTransferEnd_mismatch (ha : s.cu.adoption = some a) (hp : a.station = p)
    (hm : ¬ s.mayCommit a count total = true) :
    s.serveTransferEnd p (.transferEnd count total) = (s.discardAdoption .mismatch).reply p (.transferReply 1) := by
  unfold State.serveTransferEnd
  rw [State.adoptionFrom_some ha hp]
  exact if_neg hm

theorem State.serveTransferEnd_closed (h : ∀ a, s.cu.adoption = some a → a.station ≠ p) :
    s.serveTransferEnd p (.transferEnd count total) =
      s.reply p (.transferReply (if s.committedBefore p count total then 0 else 1)) := by
  unfold State.serveTransferEnd
  rw [State.adoptionFrom_none h]

theorem State.mayCommit_iff : s.mayCommit a count total = true ↔ a.fault = false ∧ s.pendingCards.length = count
    ∧ a.count = count ∧ sumOf (·.balance) s.pendingCards = total ∧ a.total = total ∧ total ≤ s.cu.ledger.headroom := by
  simp [State.mayCommit, and_assoc]

end

/-- Settles O44: commit or mismatch, or the record's answer. -/
theorem transferEndCompletes : Obligations.TransferEndCompletes := by
  refine ⟨?adopting, ?closed⟩
  case adopting =>
    intro s p before after count total a h hr ha hp stored agrees last taken
    refine ⟨fun hagrees => ?_, fun hnot => ?_⟩
    · rw [exec_transferEnd h rfl hr, State.serveTransferEnd_commits (s := taken) ha hp
        (State.mayCommit_iff (s := taken) |>.mpr hagrees), State.commitAdoption, hp]
      rfl
    · rw [exec_transferEnd h rfl hr, State.serveTransferEnd_mismatch (s := taken) ha hp
        (fun hm => hnot ((State.mayCommit_iff (s := taken)).mp hm)), State.discardAdoption_eq (s := taken) ha, hp]
      rfl
  case closed =>
    intro s p before after count total h hr hnone
    rw [exec_transferEnd h rfl hr, State.serveTransferEnd_closed (s := s.withInbound (before ++ after)) hnone]
    refine congrArg (fun v => Host.Outcome.next (State.settle ((s.withInbound (before ++ after)).reply p (.transferReply v)))) ?_
    simp only [State.committedBefore, decide_eq_true_eq]
    rfl

end Sys2Proof.Machine
end

