-- ==== Sys2Proof/Proofs/DueAdvices.lean ====
section
/-! PROOFS. What an event makes due: voids whose RELEASE has its place, advices applied here, advices sent. -/
namespace Sys2Proof.Machine

/-! ### The order of what is due (log 17) -/

/-- The first of a list of things that is due. -/
theorem findSome?_id_cons {α : Type} (a : Option α) (l : List (Option α)) :
    (a :: l).findSome? id = (a <|> l.findSome? id) := by
  cases a <;> simp [List.findSome?]

theorem State.react_eq_findSome? (s : State) : s.react = [s.reactVoid, s.reactStatementPlaced, s.reactDrain, s.reactRound,
    s.reactTransfer, s.reactApply, s.reactSend, s.reactStatement].findSome? id := by
  simp only [State.react, findSome?_id_cons, List.findSome?_nil, Option.orElse_eq_orElse, Option.orElse_eq_or, Option.or_none]

theorem settleWith_quiet {s : State} (h : s.react = none) (n : Nat) : settleWith n s = s := by
  cases n with
  | zero => rfl
  | succ n =>
    unfold settleWith
    rw [h]

theorem settleWith_step {s t : State} {n : Nat} (h : s.react = some t) : settleWith (n + 1) s = settleWith n t := by
  conv_lhs => unfold settleWith
  rw [h]

/-- The first element that satisfies a test, behind elements that do not. -/
theorem find?_append_first {α : Type} {p : α → Bool} {before after : List α} {a : α} (hb : ∀ b ∈ before, p b = false)
    (ha : p a = true) : (before ++ a :: after).find? p = some a := by
  have hskip : before.find? p = none := List.find?_eq_none.mpr fun b hmem => by simp [hb b hmem]
  rw [List.find?_append, hskip]
  simp [ha]

/-! ### Voids (R71, R72) -/

section
variable {s : State} {t : Txn} {ticket : Nat} {abandoned : Bool}

/-- The RELEASE of a void has its place. -/
def State.voidPlaced (s : State) (t : Txn) : Bool :=
  match t.voiding with
  | some v => !s.waits v.1
  | none => false

theorem State.voidPlaced_none (h : t.voiding = none) : s.voidPlaced t = false := by
  unfold State.voidPlaced
  rw [h]

theorem State.voidPlaced_some {v : Nat × Bool} (h : t.voiding = some v) : s.voidPlaced t = !s.waits v.1 := by
  unfold State.voidPlaced
  rw [h]

theorem State.voidPlaced_waiting (h : ∀ v, t.voiding = some v → s.waits v.1 = true) : s.voidPlaced t = false := by
  cases hv : t.voiding with
  | none => exact State.voidPlaced_none hv
  | some v => simp [State.voidPlaced_some hv, h v hv]

/-- A ticket that is on the wait list no more. -/
theorem State.waits_eq_false (h : ∀ f ∈ s.lc.waitList, f.ticket ≠ ticket) : s.waits ticket = false :=
  List.any_eq_false.mpr fun f hf => by simpa using h f hf

theorem State.reactVoid_found (ht : s.br.txns.find? s.voidPlaced = some t) (hv : t.voiding = some (ticket, abandoned)) :
    s.reactVoid = some (s.endVoid t abandoned) := by
  have hfound : s.reactVoid = match s.br.txns.find? s.voidPlaced with
    | some t => some (s.endVoid t (match t.voiding with
      | some v => v.2
      | none => false))
    | none => none := rfl
  rw [hfound, ht]
  dsimp only
  rw [hv]

theorem State.reactVoid_none (h : s.br.txns.find? s.voidPlaced = none) : s.reactVoid = none := by
  have hfound : s.reactVoid = match s.br.txns.find? s.voidPlaced with
    | some t => some (s.endVoid t (match t.voiding with
      | some v => v.2
      | none => false))
    | none => none := rfl
  rw [hfound, h]

/-- A void by the abandonment timer ends with a report (R72). -/
theorem State.endVoid_abandoned (hs : t.state ≠ .localHeld) : s.endVoid t true =
    let freed := (s.withoutTxn t.reference).releaseReservation
    freed.setBr { freed.br with latch := some (abandonedRecord t) } := by
  simp only [State.endVoid, hs, if_false]
  rfl

end

/-! ### Which advices may go (R83, R88) -/

section
variable {s : State} {a : Advice} {target : Nat}

/-- A hold-off keeps an advice from the one station it names. -/
theorem Advice.mayGo_iff : a.mayGo target = true ↔
    a.holdOff ≠ some (.frame target) ∧ a.holdOff ≠ some (.beacon target) ∧ a.holdOff ≠ some (.locally target) := by
  unfold Advice.mayGo
  match a.holdOff with
  | none => simp
  | some (.frame x) => simp
  | some (.beacon x) => simp
  | some (.locally x) => simp

theorem State.onLine_iff : s.onLine = true ↔ s.sc.station = .joined ∨ s.sc.station = .handingOver := by
  simp [State.onLine]

theorem State.mayApply_iff : s.mayApply a = true ↔ a.state = .waiting
    ∧ (s.sc.station = .joined ∨ s.sc.station = .handingOver) ∧ (a.card.home = s.own ∨ a.card.home ∈ s.cu.adopted)
    ∧ a.holdOff ≠ some (.frame s.own) ∧ a.holdOff ≠ some (.beacon s.own) ∧ a.holdOff ≠ some (.locally s.own) := by
  simp only [State.mayApply, Bool.and_eq_true, decide_eq_true_eq, State.onLine_iff, Advice.mayGo_iff, and_assoc]
  simp [State.isHere]

/-- The oldest WAITING advice for a target has this reference. -/
theorem State.oldestFor_iff {n : Nat} : (s.oldestFor target).map (·.reference) = some n ↔
    ∃ before b after, s.au.queue = before ++ b :: after ∧ b.state = .waiting ∧ s.targetOf b.card.home = target
      ∧ b.reference = n ∧ ∀ x ∈ before, ¬ (x.state = .waiting ∧ s.targetOf x.card.home = target) := by
  unfold State.oldestFor
  constructor
  · intro h
    obtain ⟨b, hb, href⟩ := Option.map_eq_some_iff.mp h
    obtain ⟨htest, before, after, hq, hbefore⟩ := List.find?_eq_some_iff_append.mp hb
    simp only [Bool.and_eq_true, decide_eq_true_eq] at htest
    exact ⟨before, b, after, hq, htest.1, htest.2, href, fun x hx hmatch => by simpa [hmatch.1, hmatch.2] using hbefore x hx⟩
  · rintro ⟨before, b, after, hq, hstate, htarget, href, hbefore⟩
    rw [hq, find?_append_first (fun x hx => by simpa using hbefore x hx) (by simp [hstate, htarget])]
    exact congrArg some href

theorem State.maySend_iff : s.maySend a = true ↔
    a.state = .waiting ∧ (s.sc.station = .joined ∨ s.sc.station = .handingOver) ∧ s.isHere a.card.home = false
    ∧ (s.peerAt (s.targetOf a.card.home)).presence = .present ∧ (∀ e ∈ s.lc.pauses, e.1 ≠ s.targetOf a.card.home)
    ∧ (∀ b ∈ s.au.queue, b.state = .inDelivery → b.lastTarget ≠ some (s.targetOf a.card.home))
    ∧ (a.holdOff ≠ some (.frame (s.targetOf a.card.home)) ∧ a.holdOff ≠ some (.beacon (s.targetOf a.card.home))
      ∧ a.holdOff ≠ some (.locally (s.targetOf a.card.home)))
    ∧ (s.oldestFor (s.targetOf a.card.home)).map (·.reference) = some a.reference := by
  simp only [State.maySend, Bool.and_eq_true, decide_eq_true_eq, State.onLine_iff, Advice.mayGo_iff, and_assoc,
    Bool.not_eq_true']
  simp [State.pausedBy]

/-! ### Applying an advice here (R44, R45, R88) -/

/-- An advice whose request does not wait for room settles in the queue alone. -/
theorem State.markSettled_placed (ht : a.ticket = none) (g : Settled) : s.markSettled a g =
    s.modifyAdvice a.reference fun x =>
      { x with state := .settled, settled := some g, holdOff := none, ticket := none, timer := none } := by
  unfold State.markSettled
  rw [ht]
  rfl

variable {u : State} {r : PostAnswer}

theorem State.applyAdvice_busy
    (h : s.servePosting s.own a.reference a.card.key a.amount true false = (u, .busy)) :
    s.applyAdvice a = u.modifyAdvice a.reference fun a => a.back (.locally s.own) := by
  unfold State.applyAdvice State.serveAdvice
  rw [h]
  exact if_pos rfl

theorem State.applyAdvice_settles (h : s.servePosting s.own a.reference a.card.key a.amount true false = (u, r))
    (hr : r.status ≠ .homeBusy) (ht : a.ticket = none) : s.applyAdvice a =
      (u.modifyCounters fun c => { c with onUsLoss := satAdd amountMax c.onUsLoss r.figures.short }).modifyAdvice a.reference
        fun x => { x with
          state := .settled, holdOff := none, ticket := none, timer := none
          settled := some { status := r.status.code, figures := r.figures, station := s.own, late := false } } := by
  unfold State.applyAdvice State.serveAdvice
  rw [h]
  exact (if_neg hr).trans (State.markSettled_placed ht _)

/-- Where every advice ahead may not be applied, the first that may is. -/
theorem State.reactApply_first {before after : List Advice} (hq : s.au.queue = before ++ a :: after)
    (hb : ∀ b ∈ before, s.mayApply b = false) (ha : s.mayApply a = true) : s.reactApply = some (s.applyAdvice a) := by
  unfold State.reactApply
  rw [hq, find?_append_first hb ha]

theorem State.reactSend_first {before after : List Advice} (hq : s.au.queue = before ++ a :: after)
    (hb : ∀ b ∈ before, s.maySend b = false) (ha : s.maySend a = true) : s.reactSend = some (s.sendAdvice a) := by
  unfold State.reactSend
  rw [hq, find?_append_first hb ha]

theorem State.reactApply_none (h : ∀ a ∈ s.au.queue, s.mayApply a = false) : s.reactApply = none := by
  have hnone : s.au.queue.find? s.mayApply = none := List.find?_eq_none.mpr fun a ha => by simp [h a ha]
  unfold State.reactApply
  rw [hnone]

theorem State.reactSend_none (h : ∀ a ∈ s.au.queue, s.maySend a = false) : s.reactSend = none := by
  have hnone : s.au.queue.find? s.maySend = none := List.find?_eq_none.mpr fun a ha => by simp [h a ha]
  unfold State.reactSend
  rw [hnone]

/-! ### Sending an advice (R84) -/

/-- An advice is sent: its frame is handed, beside the change of the queue. -/
theorem State.sendAdvice_eq (s : State) (a : Advice) : s.sendAdvice a = (s.setAu { s.au with
    queue := updateWhere (fun x => x.reference = a.reference) (fun x => { x with
      state := .inDelivery, lastTarget := some (s.targetOf a.card.home), holdOff := none, ticket := some s.ticket
      timer := none }) s.au.queue }).hand (s.targetOf a.card.home) a.msg := by
  unfold State.sendAdvice State.modifyAdvice State.setQueue
  rw [State.setAu_hand]
  simp only [State.hand_au]

/-- The ADVICE frame of an advice. -/
theorem Advice.msg_eq (a : Advice) : a.msg =
    .advice a.card a.amount a.reference (if a.kind = .standin then 0 else 1) (a.hold.getD ⟨0, 0⟩) := by
  unfold Advice.msg
  cases a.kind <;> rfl

end

/-- Settles O45: the order, and the three things that advices and voids make due. -/
theorem dueVoidsAndAdvicesAreDone : Obligations.DueVoidsAndAdvicesAreDone := by
  refine ⟨fun s => ⟨rfl, rfl, settleWith_quiet, fun t n h => settleWith_step h, s.react_eq_findSome?⟩, ?void, fun s h => ?noVoid,
    fun s a => State.mayApply_iff, fun s h => State.reactApply_none h, ?apply, fun s home => s.targetOf_eq home, ?maySend,
    fun s h => State.reactSend_none h, ?send⟩
  case void =>
    intro s before after t ticket abandoned hq hv hs hb hplaced freed
    have hnot : t.state ≠ .localHeld := by simp [hs]
    have hfound : s.br.txns.find? s.voidPlaced = some t := by
      rw [hq, find?_append_first (fun x hx => State.voidPlaced_waiting (hb x hx))
        (by rw [State.voidPlaced_some hv, State.waits_eq_false hplaced]; rfl)]
    have hdue := State.reactVoid_found hfound hv
    refine ⟨?_, ?_⟩
    · rintro rfl
      rw [hdue, State.endVoid_reserved hnot]
      rfl
    · rintro rfl
      rw [hdue, State.endVoid_abandoned hnot]
      unfold abandonedRecord
      rw [hs]
      rfl
  case noVoid =>
    exact State.reactVoid_none (List.find?_eq_none.mpr fun x hx => by simp [State.voidPlaced_waiting (h x hx)])
  case apply =>
    intro s before after a hq hb ha ht posted entry counter loss settled
    have hdue := State.reactApply_first hq hb ha
    refine ⟨fun hnew hs hholds => ?_, fun hnew hbusy => ?_, fun h hh hstate => ?_⟩
    · have hfull : s.holdsFull = false := Bool.eq_false_iff.mpr (mt State.holdsFull_iff.mp (Nat.not_le.mpr hholds))
      have hhand := State.handing_eq_false hs
      have hposting := State.servePosting_new (k := a.card.key) (amount := a.amount) (known := true) (late := false) hnew hfull
        (by simp [hhand])
      refine ⟨?_, ?_⟩
      · intro hpos g
        have hforced := State.forcedPosting_new (n := a.reference) (known := true) (late := false)
          (State.forcedFigures_own (s := s) (k := a.card.key) (amount := a.amount) (available := s.cu.available a.card.key) hpos)
        rw [hdue, State.applyAdvice_settles (hposting.trans hforced) (by split <;> simp) ht, postedStatus_code]
        rfl
      · intro hzero g
        have hforced := State.forcedPosting_new (n := a.reference) (known := true) (late := false)
          (State.forcedFigures_zero (s := s) (p := s.own) (k := a.card.key) (amount := a.amount)
            (available := s.cu.available a.card.key) hzero)
        rw [hdue, State.applyAdvice_settles (hposting.trans hforced) (by simp) ht]
        rfl
    · rw [hdue, State.applyAdvice_busy (State.servePosting_newBusy hnew (hbusy.symm.imp State.holdsFull_iff.mpr
        fun hs => by simp [State.handing, hs]))]
      rfl
    · rw [hdue, State.applyAdvice_settles (State.servePosting_captured hh hstate) (by simp [PostAnswer.repeated]) ht]
      rfl
  case maySend =>
    intro s a target
    rw [State.maySend_iff, State.oldestFor_iff]
    simp only [and_assoc]
    rfl
  case send =>
    intro s before after a hq hb ha target
    rw [State.reactSend_first hq hb ha, State.sendAdvice_eq, Advice.msg_eq]

end Sys2Proof.Machine
end

