-- ==== Sys2Proof/Proofs/DueRounds.lean ====
section
/-! PROOFS. What an event makes due: statements, the drain, the finish of a round, the card transfers. -/
namespace Sys2Proof.Machine

section
variable {s : State}

/-! ### Statements (R104) -/

theorem State.reactStatementPlaced_waits {w : StatementSend} (hw : s.su.sending = some w)
    (h : s.waits w.partI = true ∨ s.waits w.partR = true) : s.reactStatementPlaced = none := by
  unfold State.reactStatementPlaced
  rw [hw]
  exact if_pos (by simpa using h)

theorem State.reactStatementPlaced_sent {w : StatementSend} {c : Closing} (hw : s.su.sending = some w)
    (hc : s.su.closing = some c) (hI : s.waits w.partI = false) (hR : s.waits w.partR = false) :
    s.reactStatementPlaced = some (s.setSu { s.su with
      sending := none
      closing := some { c with status := Table.modify {} c.status w.peer fun st =>
        if st.send = .queued then { st with send := .sent } else st } }) := by
  unfold State.reactStatementPlaced
  rw [hw]
  refine (if_neg (by simp [hI, hR])).trans ?_
  dsimp only
  rw [hc]
  rfl

theorem State.reactStatementPlaced_none (h : s.su.sending = none) : s.reactStatementPlaced = none := by
  unfold State.reactStatementPlaced
  rw [h]

/-- A ticket that is on the wait list. -/
theorem State.waits_eq_true {n : Nat} {f : OutFrame} (hf : f ∈ s.lc.waitList) (hn : f.ticket = n) : s.waits n = true :=
  List.any_eq_true.mpr ⟨f, hf, by simpa using hn⟩

/-- Each hand uses a name. -/
theorem State.hand_ticket (s : State) (d : Nat) (m : Msg) : (s.hand d m).ticket = s.ticket + 1 := by
  cases hroom : s.lc.hasRoom m.cls
  · rw [s.hand_waits d m hroom]
    rfl
  · rw [s.hand_placed d m hroom]
    rfl

/-- An entry whose statement may go now. -/
def State.mayState (s : State) (e : Nat × StatementStatus) : Bool := e.2.send = .queued && (s.peerAt e.1).presence.reachable

theorem State.mayState_eq_false {e : Nat × StatementStatus}
    (h : ¬ (e.2.send = .queued ∧ (s.peerAt e.1).presence.reachable = true)) : s.mayState e = false :=
  Bool.eq_false_iff.mpr fun ht => h (by simpa [State.mayState] using ht)

/-- Both parts of the next statement are handed. -/
theorem State.reactStatement_next {c : Closing} {p : Nat} (hc : s.su.closing = some c) (hw : s.su.sending = none)
    (hon : s.onLine = true) (hp : s.nextStatement c = some p) :
    s.reactStatement = some (((s.setSu { s.su with
        sending := some { peer := p, partI := s.ticket, partR := s.ticket + 1 } }).hand p
      (statementMsgs c.period (Table.get {} c.entries p)).1).hand p (statementMsgs c.period (Table.get {} c.entries p)).2) := by
  have hdue : s.reactStatement = some (((s.hand p (statementMsgs c.period (Table.get {} c.entries p)).1).hand p
      (statementMsgs c.period (Table.get {} c.entries p)).2).setSu { s.su with
        sending := some { peer := p, partI := s.ticket, partR := s.ticket + 1 } }) := by
    unfold State.reactStatement
    rw [hc, hw]
    refine (if_pos hon).trans ?_
    rw [hp]
    dsimp only
    rw [State.hand_ticket]
    simp only [State.hand_su]
  have hI : (statementMsgs c.period (Table.get {} c.entries p)).1.kind ≠ 14 := by simp [statementMsgs, Msg.kind]
  have hR : (statementMsgs c.period (Table.get {} c.entries p)).2.kind ≠ 14 := by simp [statementMsgs, Msg.kind]
  rw [hdue, State.setSu_hand _ _ hI, State.setSu_hand _ _ hR]

/-- No statement goes. -/
theorem State.reactStatement_none (h : s.su.closing = none ∨ s.su.sending.isSome = true ∨ s.onLine = false
    ∨ ∀ c, s.su.closing = some c → s.nextStatement c = none) : s.reactStatement = none := by
  unfold State.reactStatement
  cases hc : s.su.closing with
  | none => rfl
  | some c =>
    cases hw : s.su.sending with
    | some w => rfl
    | none =>
      cases hon : s.onLine
      · exact if_neg Bool.false_ne_true
      · have hnone : s.nextStatement c = none := by
          obtain hno | hsending | hoff | hall := h
          · simp [hc] at hno
          · simp [hw] at hsending
          · simp [hon] at hoff
          · exact hall c hc
        refine (if_pos rfl).trans ?_
        rw [hnone]

/-! ### The drain (R118, R119) -/

theorem State.drained_iff : s.drained = true ↔
    (∀ x ∈ s.cu.holds, x.state ≠ .held) ∧ s.au.queue = [] ∧ s.au.reservations = 0 := by
  simp [State.drained, AdviceUnit.used]

/-- CLOSING entered, before its close. -/
def State.enteredClosing (s : State) (h : Handover) : State := s.setCu { s.cu with
  handover := some { h with sub := .closing, timer := none, closingPeriod := s.su.openPeriod } }

theorem State.reactDrain_drained {h : Handover} (hh : s.cu.handover = some h) (hsub : h.sub = .draining)
    (hd : s.drained = true) : s.reactDrain = some
      (if s.su.openPeriod < periodMax then (s.enteredClosing h).closeTo (s.su.openPeriod + 1) else s.enteredClosing h) := by
  unfold State.reactDrain
  rw [hh]
  exact if_pos (by simp [hsub, hd])

theorem State.reactDrain_not {h : Handover} (hh : s.cu.handover = some h) (hnot : h.sub ≠ .draining ∨ s.drained = false) :
    s.reactDrain = none := by
  unfold State.reactDrain
  rw [hh]
  refine if_neg ?_
  obtain hsub | hd := hnot
  · simp [hsub]
  · simp [hd]

/-! ### The finish of a round (R112, R113, R119, R120) -/

theorem Closing.finished_iff {c : Closing} : c.finished = true ↔ ∀ e ∈ c.status, e.2.compare ≠ .pending ∧ e.2.send ≠ .queued := by
  simp [Closing.finished]

/-- A finished round, before its notice. -/
def State.roundDone (s : State) (c : Closing) : State :=
  (s.setTill { s.till with payouts := pushPayout s.till.payouts c.payout }).setSu { s.su with closing := none, window := none }

theorem State.finishRound_unsent {c : Closing} (hc : s.su.closing = some c) (hsend : s.su.sending = none) :
    s.finishRound = (s.roundDone c).roundNotice c.period := by
  have hdrop : (s.setTill { s.till with payouts := pushPayout s.till.payouts c.payout }).dropStatement
      = s.setTill { s.till with payouts := pushPayout s.till.payouts c.payout } := by
    unfold State.dropStatement
    rw [show (s.setTill { s.till with payouts := pushPayout s.till.payouts c.payout }).su.sending = none from hsend]
  unfold State.finishRound
  rw [hc]
  dsimp only
  rw [hdrop]
  rfl

theorem State.reactRound_unfinished {c : Closing} (hc : s.su.closing = some c) (hf : c.finished = false) :
    s.reactRound = none := by
  unfold State.reactRound
  rw [hc]
  exact if_neg (by simp [hf])

theorem State.reactRound_finished {c : Closing} (hc : s.su.closing = some c) (hf : c.finished = true)
    (hsend : s.su.sending = none) : s.reactRound = some ((s.roundDone c).roundNotice c.period) := by
  rw [← State.finishRound_unsent hc hsend]
  unfold State.reactRound
  rw [hc]
  exact if_pos hf

theorem State.roundNotice_other {n : Nat} (h : ∀ h, s.cu.handover = some h → ¬ (h.sub = .closing ∧ h.closingPeriod ≤ n)) :
    s.roundNotice n = s := by
  unfold State.roundNotice
  cases hh : s.cu.handover with
  | none => rfl
  | some h' => exact if_neg (by simpa using h h' hh)

theorem State.roundNotice_closing {n : Nat} {h : Handover} (hh : s.cu.handover = some h) (hsub : h.sub = .closing)
    (hn : h.closingPeriod ≤ n) : s.roundNotice n = s.enterOffering := by
  unfold State.roundNotice
  rw [hh]
  exact if_pos (by simp [hsub, hn])

/-- The handover in OFFERING, its OFFER under a ticket. -/
def State.offering (s : State) (h : Handover) (ticket : Option Nat) : State := s.setCu { s.cu with handover := some { h with
  sub := .offering, count := (s.cu.cards.filter fun r => r.state = .active).length
  total := sumOf (·.balance) (s.cu.cards.filter fun r => r.state = .active)
  highest := maxOf (·.balance) (s.cu.cards.filter fun r => r.state = .active), timer := none, ticket } }

/-- The OFFER frame (R120). -/
def State.offerMsg (s : State) (h : Handover) : Msg :=
  let cards := s.cu.cards.filter fun r => r.state = .active
  .offer cards.length (sumOf (·.balance) cards) (maxOf (·.balance) cards) h.homes.length (h.homes.getD 0 0)
    (h.homes.getD 1 0) (h.homes.getD 2 0) (h.homes.getD 3 0)

theorem State.enterOffering_reachable {h : Handover} (hh : s.cu.handover = some h)
    (hp : (s.peerAt h.custodian).presence.reachable = true) :
    s.enterOffering = (s.offering h (some s.ticket)).hand h.custodian (s.offerMsg h) := by
  unfold State.offering State.enterOffering
  rw [hh, State.setCu_hand _ _ (by simp [State.offerMsg, Msg.kind])]
  refine (if_pos hp).trans ?_
  rw [State.setHandover, State.setHandover, State.setCu_hand _ _ (by simp [Msg.kind])]
  unfold State.offerMsg
  rw [← s.hand_cu h.custodian (s.offerMsg h)]
  rfl

theorem State.enterOffering_unreachable {h : Handover} (hh : s.cu.handover = some h)
    (hp : (s.peerAt h.custodian).presence.reachable = false) :
    s.enterOffering = (s.offering h h.ticket).failHandover .custodianAbsent 0 := by
  unfold State.enterOffering
  rw [hh]
  exact if_neg (by simp [hp])

/-! ### The card transfers (R123) -/

theorem State.reactTransfer_card {h : Handover} {r : Card} {rest : List Card} (hh : s.cu.handover = some h)
    (hsub : h.sub = .transferring) (hend : h.ending = false) (hr : h.toSend = r :: rest)
    (hplaced : ∀ n ∈ h.unacked, s.waits n = false) :
    s.reactTransfer = some ((s.setCu { s.cu with handover := some { h with
      toSend := rest, unacked := h.unacked ++ [s.ticket] } }).hand h.custodian
      (.cardTransfer r.key.home r.key.serial r.balance r.issuePeriod r.lastActivity r.activity)) := by
  have hnone : h.unacked.any s.waits = false := List.any_eq_false.mpr fun n hn => by simp [hplaced n hn]
  rw [State.setCu_hand (h := by simp [Msg.kind])]
  unfold State.reactTransfer
  rw [hh]
  refine (if_pos (by simp [hsub, hend])).trans ?_
  rw [hr]
  refine (if_neg (by simp [hnone])).trans ?_
  unfold State.setHandover
  rw [State.hand_cu]

theorem State.reactTransfer_waits {h : Handover} {r : Card} {rest : List Card} (hh : s.cu.handover = some h)
    (hsub : h.sub = .transferring) (hend : h.ending = false) (hr : h.toSend = r :: rest)
    (hwaits : ∃ n ∈ h.unacked, s.waits n = true) : s.reactTransfer = none := by
  unfold State.reactTransfer
  rw [hh]
  refine (if_pos (by simp [hsub, hend])).trans ?_
  rw [hr]
  exact if_pos (List.any_eq_true.mpr hwaits)

theorem State.reactTransfer_end {h : Handover} (hh : s.cu.handover = some h) (hsub : h.sub = .transferring)
    (hend : h.ending = false) (hr : h.toSend = []) (hu : h.unacked = []) : s.reactTransfer = some s.sendTransferEnd := by
  unfold State.reactTransfer
  rw [hh]
  refine (if_pos (by simp [hsub, hend])).trans ?_
  rw [hr]
  exact if_pos (by simp [hu])

theorem State.reactTransfer_unacked {h : Handover} (hh : s.cu.handover = some h) (hsub : h.sub = .transferring)
    (hend : h.ending = false) (hr : h.toSend = []) (hu : h.unacked ≠ []) : s.reactTransfer = none := by
  unfold State.reactTransfer
  rw [hh]
  refine (if_pos (by simp [hsub, hend])).trans ?_
  rw [hr]
  exact if_neg (by simpa using hu)

theorem State.reactTransfer_not {h : Handover} (hh : s.cu.handover = some h) (hnot : h.sub ≠ .transferring ∨ h.ending = true) :
    s.reactTransfer = none := by
  unfold State.reactTransfer
  rw [hh]
  refine if_neg ?_
  obtain hsub | hend := hnot
  · simp [hsub]
  · simp [hend]

end

/-- Settles O46: each of the five, where it is due and where not. -/
theorem dueRoundsAndHandoversGoOn : Obligations.DueRoundsAndHandoversGoOn := by
  refine ⟨fun s w c hw hc => ⟨fun hplaced => ?placed, ?waiting⟩, fun s h => State.reactStatementPlaced_none h, ?statement,
    fun s h => ?noStatement, fun s h hh => ?drain, fun s c hc => ?round, fun s h hh => ?transfer⟩
  case placed =>
    exact State.reactStatementPlaced_sent hw hc (State.waits_eq_false fun f hf => (hplaced f hf).1)
      (State.waits_eq_false fun f hf => (hplaced f hf).2)
  case waiting =>
    rintro ⟨f, hf, hI | hR⟩
    · exact State.reactStatementPlaced_waits hw (.inl (State.waits_eq_true hf hI))
    · exact State.reactStatementPlaced_waits hw (.inr (State.waits_eq_true hf hR))
  case statement =>
    intro s c before after p st hc hw hon hq hb hst hp e mark
    have hnext : s.nextStatement c = some p := by
      have hfound : c.status.find? s.mayState = some (p, st) := by
        rw [hq, find?_append_first (fun x hx => State.mayState_eq_false (hb x hx)) (by simp [State.mayState, hst, hp])]
      exact congrArg (Option.map (·.1)) hfound
    exact State.reactStatement_next hc hw hon hnext
  case noStatement =>
    refine State.reactStatement_none (h.imp_right (Or.imp_right (Or.imp_right fun hall c hc => ?_)))
    have hnone : c.status.find? s.mayState = none :=
      List.find?_eq_none.mpr fun e he => by simp [State.mayState_eq_false (hall c hc e he)]
    exact congrArg (Option.map (·.1)) hnone
  case drain =>
    intro entered drained
    refine ⟨fun hsub hd => ⟨fun hlt => ?_, fun hle => ?_⟩, fun hnot => ?_⟩
    · exact (State.reactDrain_drained hh hsub (State.drained_iff.mpr hd)).trans (congrArg some (if_pos hlt))
    · exact (State.reactDrain_drained hh hsub (State.drained_iff.mpr hd)).trans (congrArg some (if_neg (Nat.not_lt.mpr hle)))
    · exact State.reactDrain_not hh (hnot.imp_right fun hd => Bool.eq_false_iff.mpr (mt State.drained_iff.mp hd))
  case round =>
    intro done finished
    refine ⟨fun hnot => ?_, fun hd hsend => ⟨fun hother => ?_, ?_⟩⟩
    · exact State.reactRound_unfinished hc (Bool.eq_false_iff.mpr (mt Closing.finished_iff.mp hnot))
    · rw [State.reactRound_finished hc (Closing.finished_iff.mpr hd) hsend, State.roundNotice_other (s := s.roundDone c) hother]
      rfl
    · intro h hh hsub hperiod cards total highest offering
      have hdue := State.reactRound_finished hc (Closing.finished_iff.mpr hd) hsend
      rw [State.roundNotice_closing (s := s.roundDone c) hh hsub hperiod] at hdue
      refine ⟨fun hp => ?_, fun hp => ?_⟩
      · rw [hdue, State.enterOffering_reachable (s := s.roundDone c) hh hp]
        rfl
      · rw [hdue, State.enterOffering_unreachable (s := s.roundDone c) hh hp]
        rfl
  case transfer =>
    refine ⟨fun hsub hend => ⟨fun r rest hr => ⟨fun hplaced => ?_, fun hwaits => ?_⟩, fun hr hu => ?_, fun hr hu => ?_⟩,
      fun hnot => State.reactTransfer_not hh hnot⟩
    · exact State.reactTransfer_card hh hsub hend hr hplaced
    · exact State.reactTransfer_waits hh hsub hend hr hwaits
    · rw [State.reactTransfer_end hh hsub hend hr hu, State.sendTransferEnd_eq hh]
    · exact State.reactTransfer_unacked hh hsub hend hr hu

end Sys2Proof.Machine
end

