-- ==== Sys2Proof/Proofs/Presences.lean ====
section
/-! PROOFS. Failed exchanges and silence: how a peer becomes QUIET and ABSENT, and what fails with it. -/
namespace Sys2Proof.Machine

section
variable {s : State} {p : Nat}

/-- A timer whose instant has come takes the clock there. -/
theorem State.reach_of_le {t : Nat} (h : s.now ≤ t) : s.reach t = s.setNow t := congrArg s.setNow (Nat.max_eq_right h)

theorem Presence.reachable_iff {v : Presence} : v.reachable = true ↔ v = .present ∨ v = .quiet := by
  cases v <;> simp [Presence.reachable]

theorem Presence.unreachable_iff {v : Presence} : v.reachable = false ↔ v = .absent ∨ v = .unknown := by
  cases v <;> simp [Presence.reachable]

theorem Presence.ne_absent {v : Presence} (h : v.reachable = true) : v ≠ .absent := by
  rintro rfl
  simp [Presence.reachable] at h

/-- No handover fails where none runs toward the station in OFFERING or TRANSFERRING. -/
theorem State.not_failsBy (h : ∀ h, s.cu.handover = some h → h.custodian ≠ p ∨ h.sub ≠ .offering ∧ h.sub ≠ .transferring) :
    ∀ h, ¬ s.failsBy p h := by
  rintro x ⟨hx, hcust, hsub, -⟩
  obtain hother | ⟨ho, ht⟩ := h x hx
  · exact hother hcust
  · exact hsub.elim ho ht

/-! ### Failed exchanges (R160) -/

/-- The third failed exchange, or a later one, with a peer that is not reachable. -/
theorem State.failedExchange_unreachable (h : 2 ≤ (s.peerAt p).failed) (hp : (s.peerAt p).presence.reachable = false) :
    s.failedExchange p = s.modifyPeer p fun e => { e with failed := 3 } := by
  have hcount : min 3 ((s.peerAt p).failed + 1) = 3 := by omega
  unfold State.failedExchange
  rw [hcount]
  exact if_neg (by simp [hp])

/-- The third failed exchange with a reachable peer makes it ABSENT. -/
theorem State.failedExchange_reachable (h : 2 ≤ (s.peerAt p).failed) (hp : (s.peerAt p).presence.reachable = true) :
    s.failedExchange p = (s.modifyPeer p fun e => { e with failed := 3 }).makeAbsent p := by
  have hcount : min 3 ((s.peerAt p).failed + 1) = 3 := by omega
  unfold State.failedExchange
  rw [hcount]
  exact if_pos (by simp [hp])

/-- The count at its top, and then ABSENT, is one change of the entry. -/
theorem State.modifyPeer_third (s : State) (p : Nat) :
    ((s.modifyPeer p fun e => { e with failed := 3 }).modifyPeer p fun e => { e with presence := .absent }) =
      s.modifyPeer p fun e => { e with presence := .absent, failed := 3 } :=
  congrArg (fun l => s.setPm { s.pm with peers := l })
    (Table.modify_modify ({} : Peer) s.pm.peers p (fun e => { e with failed := 3 }) (fun e => { e with presence := .absent })
      fun h => Nat.noConfusion (congrArg Peer.failed h))

/-- An entry whose count alone has changed. -/
theorem State.modifyPeer_third_presence (s : State) (p : Nat) :
    ((s.modifyPeer p fun e => { e with failed := 3 }).peerAt p).presence = (s.peerAt p).presence := by
  have hget := Table.get_modify (d := ({} : Peer)) (t := s.pm.peers) (a := p) (f := fun e => { e with failed := 3 })
    (fun h => Nat.noConfusion (congrArg Peer.failed h)) p
  have hpresence := congrArg Peer.presence (hget.trans (if_pos rfl))
  exact hpresence

theorem State.failedExchange_third (h : 2 ≤ (s.peerAt p).failed) (hp : (s.peerAt p).presence.reachable = true)
    (hnone : ∀ h, ¬ s.failsBy p h) : s.failedExchange p = s.modifyPeer p fun e => { e with presence := .absent, failed := 3 } := by
  have hpresence := s.modifyPeer_third_presence p
  rw [State.failedExchange_reachable h hp, ← State.modifyPeer_third]
  refine State.makeAbsent_other (by rw [hpresence]; exact Presence.ne_absent hp) ?_
  rintro x ⟨hx, hcust, hsub, -⟩
  exact hnone x ⟨hx, hcust, hsub, Presence.ne_absent hp⟩

theorem State.failedExchange_failing {x : Handover} (h : 2 ≤ (s.peerAt p).failed) (hp : (s.peerAt p).presence.reachable = true)
    (hx : s.failsBy p x) : s.failedExchange p =
      (s.modifyPeer p fun e => { e with presence := .absent, failed := 3 }).failHandover .custodianAbsent 0 := by
  obtain ⟨hh, hcust, hsub, hne⟩ := hx
  rw [State.failedExchange_reachable h hp, ← State.modifyPeer_third]
  exact State.makeAbsent_fails ⟨hh, hcust, hsub, by rw [State.modifyPeer_third_presence]; exact hne⟩

/-- One failed exchange where no handover can fail by it, as one change of the entry. -/
theorem State.failedExchange_plain
    (h : (s.peerAt p).failed < 2 ∨ (s.peerAt p).presence.reachable = true ∧ s.cu.handover = none) :
    s.failedExchange p = s.modifyPeer p fun e =>
      if e.failed < 2 then { e with failed := e.failed + 1 } else { e with presence := .absent, failed := 3 } := by
  by_cases hf : (s.peerAt p).failed < 2
  · rw [State.failedExchange_below hf]
    exact congrArg (fun v => s.setPm { s.pm with peers := Table.put {} p v s.pm.peers }) (if_pos hf).symm
  · obtain ⟨hp, hnone⟩ := h.resolve_left hf
    rw [State.failedExchange_third (Nat.not_lt.mp hf) hp (State.not_failsBy fun x hx => by simp [hnone] at hx)]
    exact congrArg (fun v => s.setPm { s.pm with peers := Table.put {} p v s.pm.peers }) (if_neg hf).symm

/-! ### Silence (R159) -/

theorem exec_quiet {t : Nat} (hl : s.live = true) (ht : (s.peerAt p).lastHeard = some t) (hp : (s.peerAt p).presence = .present) :
    exec (.quiet p) s =
      .next ((s.reach (t + 3 * s.beaconInterval)).modifyPeer p fun e => { e with presence := .quiet }) := by
  simp only [exec, execQuiet, State.event_live hl, ht, hp, if_true]

theorem exec_absent {t : Nat} (hl : s.live = true) (ht : (s.peerAt p).lastHeard = some t)
    (hp : (s.peerAt p).presence.reachable = true) :
    exec (.absent p) s = .next ((s.reach (t + 10 * s.beaconInterval)).makeAbsent p).settle := by
  simp only [exec, execAbsent, State.event_live hl, ht, hp, if_true]

end

/-- Settles O51: silence by `makeAbsent`, and a failed exchange by its count. -/
theorem silentPeersBecomeQuietAndAbsent : Obligations.SilentPeersBecomeQuietAndAbsent := by
  refine ⟨fun s p t hl ht hp hnow => ?quiet, fun s p t hl ht hp hnow => ?absent, fun s p hh hf hp => ?third,
    fun s p => ⟨fun hf => State.failedExchange_below hf, fun hf hp =>
      State.failedExchange_unreachable hf (Presence.unreachable_iff.mpr hp)⟩,
    fun s h hh hsub hf hp => ?failing⟩
  case quiet =>
    rw [exec_quiet hl ht hp, State.reach_of_le hnow]
    rfl
  case absent =>
    intro silent
    have hreach := Presence.reachable_iff.mpr hp
    have hne := Presence.ne_absent hreach
    have hexec := exec_absent hl ht hreach
    rw [State.reach_of_le hnow] at hexec
    refine ⟨fun hnone => ?_, fun h hh hcust hsub => ?_⟩
    · rw [hexec, State.makeAbsent_other (s := s.setNow (t + 10 * s.beaconInterval)) hne (State.not_failsBy hnone)]
      rfl
    · rw [hexec, State.makeAbsent_fails (s := s.setNow (t + 10 * s.beaconInterval)) ⟨hh, hcust, hsub, hne⟩]
      rfl
  case third => exact State.failedExchange_third hf (Presence.reachable_iff.mpr hp) (State.not_failsBy hh)
  case failing =>
    have hreach := Presence.reachable_iff.mpr hp
    exact State.failedExchange_failing hf hreach ⟨hh, rfl, hsub, Presence.ne_absent hreach⟩

end Sys2Proof.Machine
end

