-- ==== Sys2Proof/Proofs/ReplyTimers.lean ====
section
/-! PROOFS. The timers of transactions and advices: a reply that does not come, and a till that does not. -/
namespace Sys2Proof.Machine

/-- A sum over a list whose changed elements count the same. -/
theorem sumOf_updateWhere {α : Type} {p : α → Bool} {f : α → α} {g : α → Nat} (h : ∀ x, g (f x) = g x) (l : List α) :
    sumOf g (updateWhere p f l) = sumOf g l := by
  induction l with
  | nil => rfl
  | cons x l ih =>
    have hx : g (if p x then f x else x) = g x := by split <;> simp [h]
    exact congrArg₂ (· + ·) hx ih

/-- A transaction whose attempt is over. -/
def Txn.over (t : Txn) : Txn := { t with ticket := none, timer := none }

/-- The table with the attempt of a transaction over. -/
def State.attemptOver (s : State) (n : Nat) : State := s.modifyTxn n Txn.over

/-- One failed exchange with a peer, none failing with it. -/
def State.failedOnce (s : State) (p : Nat) : State := s.modifyPeer p fun e =>
  if e.failed < 2 then { e with failed := e.failed + 1 } else { e with presence := .absent, failed := 3 }

section
variable {s : State} {t : Txn} {p : Nat}

theorem State.failedOnce_presence (s : State) (p : Nat) : ((s.failedOnce p).peerAt p).presence =
    if (s.peerAt p).failed < 2 then (s.peerAt p).presence else .absent := by
  have hne : (if (s.peerAt p).failed < 2 then { s.peerAt p with failed := (s.peerAt p).failed + 1 }
      else { s.peerAt p with presence := .absent, failed := 3 }) ≠ ({} : Peer) := by
    split
    · exact fun h => Nat.noConfusion (congrArg Peer.failed h)
    · exact fun h => Nat.noConfusion (congrArg Peer.failed h)
  have hget := Table.get_modify (d := ({} : Peer)) (t := s.pm.peers) (a := p) (f := fun e =>
    if e.failed < 2 then { e with failed := e.failed + 1 } else { e with presence := .absent, failed := 3 }) hne p
  have hpresence := congrArg Peer.presence (hget.trans (if_pos rfl))
  exact hpresence.trans (apply_ite Peer.presence _ _ _)

/-- The attempts left decide what a failed attempt comes to. -/
theorem State.failAttempt_eq (hp : t.target = some p)
    (hf : (s.peerAt p).failed < 2 ∨ (s.peerAt p).presence.reachable = true ∧ s.cu.handover = none) :
    s.failAttempt t = if 0 < t.attemptsLeft && ((s.failedOnce p).peerAt p).presence.reachable
      then ((s.failedOnce p).attemptOver t.reference).sendAttempt t.over
      else ((s.failedOnce p).attemptOver t.reference).exhausted t.over := by
  have hstation : t.station = p := by simp [Txn.station, hp]
  have hfailed : (s.attemptOver t.reference).failedExchange p = (s.failedOnce p).attemptOver t.reference :=
    State.failedExchange_plain (s := s.attemptOver t.reference) hf
  have hattempt : s.failAttempt t =
      let s1 := (s.attemptOver t.reference).failedExchange t.station
      if 0 < t.attemptsLeft && (s1.peerAt t.station).presence.reachable then s1.sendAttempt t.over else s1.exhausted t.over := rfl
  rw [hattempt, hstation, hfailed]
  rfl

/-- The next attempt is handed. -/
theorem State.failAttempt_again {m : Msg} (hp : t.target = some p) (hm : t.msg = some m) (hleft : 0 < t.attemptsLeft)
    (hf : (s.peerAt p).failed < 2) (hreach : (s.peerAt p).presence.reachable = true) :
    s.failAttempt t = ((s.failedOnce p).modifyTxn t.reference fun x =>
      { x with attemptsLeft := x.attemptsLeft - 1, ticket := some s.ticket, timer := none }).hand p m := by
  have hstation : t.over.station = p := by simp [Txn.station, Txn.over, hp]
  rw [State.failAttempt_eq hp (.inl hf), State.failedOnce_presence, if_pos hf, hreach, if_pos (by simpa using hleft),
    State.sendAttempt_eq (t := t.over) hm, hstation, ← State.modifyTxn_hand]
  exact congrArg (fun u : State => u.hand p m) (State.modifyTxn_modifyTxn (f := Txn.over)
    (g := fun x => { x with attemptsLeft := x.attemptsLeft - 1, ticket := some s.ticket, timer := none }) fun _ => rfl)

/-- No attempt is left. -/
theorem State.failAttempt_exhausted (hp : t.target = some p)
    (hf : (s.peerAt p).failed < 2 ∨ (s.peerAt p).presence.reachable = true ∧ s.cu.handover = none)
    (hout : t.attemptsLeft = 0 ∨ 2 ≤ (s.peerAt p).failed ∨ (s.peerAt p).presence.reachable = false) :
    s.failAttempt t = ((s.failedOnce p).attemptOver t.reference).exhausted t.over := by
  rw [State.failAttempt_eq hp hf, State.failedOnce_presence]
  refine if_neg ?_
  obtain hleft | hthird | hunreach := hout
  · simp [hleft]
  · simp [Nat.not_lt.mpr hthird, Presence.reachable]
  · split
    · simp [hunreach]
    · simp [Presence.reachable]

/-! ### What a transaction without attempts comes to (R63, R68, R73, R74, R81) -/

/-- The end of an attempt counts for nothing in the stand-in decision. -/
theorem State.standinGranted_attemptOver (s : State) (n : Nat) (card : CardNo) (amount : Nat) :
    (s.attemptOver n).standinGranted card amount = s.standinGranted card amount := by
  have hsame (q : CardNo → Bool) : (s.attemptOver n).outstandingWhere q = s.outstandingWhere q :=
    congrArg (sumOf (fun a => if a.counts && q a.card then a.amount else 0) s.au.queue + ·)
      (sumOf_updateWhere (f := Txn.over) (fun _ => rfl) s.br.txns)
  rw [Bool.eq_iff_iff, State.standinGranted_iff, State.standinGranted_iff]
  unfold State.outstandingCard State.outstandingHome
  rw [hsame, hsame]
  rfl

theorem State.withoutTxn_attemptOver (s : State) (n : Nat) : (s.attemptOver n).withoutTxn n = s.withoutTxn n :=
  State.withoutTxn_modifyTxn (f := Txn.over) fun _ => rfl

theorem State.exhausted_granted (hs : t.state = .authWait) (hg : s.standinGranted t.card t.amount = true) :
    (s.attemptOver t.reference).exhausted t.over = (s.modifyTxn t.reference fun x => { x with
      state := .standinHeld, hold := none, ticket := none, timer := some s.abandonAt }).answer (approvedRecord t true 0) := by
  have hover : t.over.state = .authWait := hs
  have hgranted : (s.attemptOver t.reference).standinGranted t.over.card t.over.amount = true :=
    (s.standinGranted_attemptOver _ _ _).trans hg
  unfold State.exhausted
  rw [hover]
  refine (State.standIn_granted hgranted).trans ?_
  exact congrArg (fun u : State => u.answer (approvedRecord t true 0)) (State.modifyTxn_modifyTxn (f := Txn.over)
    (g := fun x => { x with state := .standinHeld, hold := none, ticket := none, timer := some s.abandonAt }) fun _ => rfl)

/-- A transaction whose attempt is over ends DECLINED. -/
theorem State.declineTxn_over {why : Reason} : (s.attemptOver t.reference).declineTxn t.over why =
    (s.withoutTxn t.reference).answer (declinedRecord t.resultKind t.tag why) := by
  rw [State.declineTxn_placed rfl, show t.over.reference = t.reference from rfl, State.withoutTxn_attemptOver]
  rfl

theorem State.exhausted_declined (hs : t.state = .authWait) (hg : s.standinGranted t.card t.amount = false) :
    (s.attemptOver t.reference).exhausted t.over =
      ((s.withoutTxn t.reference).answer (declinedRecord .redeem t.tag .homeUnreachable)).releaseReservation := by
  have hover : t.over.state = .authWait := hs
  have hkind : t.resultKind = .redeem := by simp [Txn.resultKind, hs]
  have hdenied : (s.attemptOver t.reference).standinGranted t.over.card t.over.amount = false :=
    (s.standinGranted_attemptOver _ _ _).trans hg
  unfold State.exhausted
  rw [hover]
  refine (State.standIn_declined hdenied).trans ?_
  rw [State.declineTxn_over, hkind]

theorem State.exhausted_capture (hs : t.state = .captureWait) : (s.attemptOver t.reference).exhausted t.over =
    ((s.withoutTxn t.reference).commitAdvice .capture t).answer (pendingRecord t) := by
  have hover : t.over.state = .captureWait := hs
  unfold State.exhausted
  rw [hover]
  dsimp only
  unfold State.captureToAdvice
  rw [State.freeTxn_eq_withoutTxn rfl, show t.over.reference = t.reference from rfl, State.withoutTxn_attemptOver]
  rfl

theorem State.exhausted_remote (hs : t.state = .creditWait ∨ t.state = .enquireWait) :
    (s.attemptOver t.reference).exhausted t.over =
      (s.withoutTxn t.reference).answer (declinedRecord t.resultKind t.tag .homeUnreachable) := by
  rw [← State.declineTxn_over]
  obtain hs | hs := hs
  · have hover : t.over.state = .creditWait := hs
    unfold State.exhausted
    rw [hover]
  · have hover : t.over.state = .enquireWait := hs
    unfold State.exhausted
    rw [hover]

/-- A transaction with a request frame waits for a reply. -/
theorem Txn.waiting_of_msg {m : Msg} (h : t.msg = some m) :
    t.state = .authWait ∨ t.state = .captureWait ∨ t.state = .creditWait ∨ t.state = .enquireWait := by
  unfold Txn.msg at h
  cases hs : t.state <;> simp_all

/-- A reply timer at its instant. -/
theorem exec_replyTimeout_at {at_ : Nat} (hl : s.live = true) (ht : s.txnFor t.reference = some t) (htimer : t.timer = some at_)
    (hnow : s.now ≤ at_)
    (hstate : t.state = .authWait ∨ t.state = .captureWait ∨ t.state = .creditWait ∨ t.state = .enquireWait) :
    exec (.replyTimeout t.reference) s = .next ((s.setNow at_).failAttempt t).settle := by
  rw [exec_replyTimeout hl ht htimer hstate, State.reach_of_le hnow]

theorem exec_adviceReplyTimeout {a : Advice} {at_ : Nat} (hl : s.live = true) (ha : s.adviceFor a.reference = some a)
    (hstate : a.state = .inDelivery) (htimer : a.timer = some at_) :
    exec (.adviceReplyTimeout a.reference) s = .next ((s.reach at_).failAdvice a).settle := by
  simp only [exec, execAdviceReplyTimeout, State.event_live hl, ha, htimer, hstate, if_true]

end

/-- Settles O47: the attempt fails, and the next follows or the exchange is exhausted. -/
theorem replyTimeoutsComplete : Obligations.ReplyTimeoutsComplete := by
  refine ⟨fun s t p at_ hl ht htimer hnow hp hf => ?txn, fun s a p at_ hl ha hstate htimer hnow hp hf => ?advice⟩
  case txn =>
    intro failed changed
    have hexec := exec_replyTimeout_at hl ht htimer hnow
    refine ⟨fun m hm hleft hfew hreach => ?_, fun hout => ?_⟩
    · rw [hexec (Txn.waiting_of_msg hm), State.failAttempt_again (s := s.setNow at_) hp hm hleft hfew hreach]
      rfl
    · have hexhausted := State.failAttempt_exhausted (s := s.setNow at_) hp hf hout
      rw [hexhausted] at hexec
      refine ⟨fun hs hg => ?_, fun hs hg => ?_, fun hs => ?_, fun hs => ?_, fun hs => ?_⟩
      · rw [hexec (.inl hs), State.exhausted_granted (s := (s.setNow at_).failedOnce p) hs hg]
        rfl
      · rw [hexec (.inl hs), State.exhausted_declined (s := (s.setNow at_).failedOnce p) hs hg]
        rfl
      · rw [hexec (.inr (.inl hs)), State.exhausted_capture hs]
        rfl
      · have hkind : t.resultKind = .credit := by simp [Txn.resultKind, hs]
        rw [hexec (.inr (.inr (.inl hs))), State.exhausted_remote (.inl hs), hkind]
        rfl
      · have hkind : t.resultKind = .balance := by simp [Txn.resultKind, hs]
        rw [hexec (.inr (.inr (.inr hs))), State.exhausted_remote (.inr hs), hkind]
        rfl
  case advice =>
    rw [exec_adviceReplyTimeout hl ha hstate htimer, State.reach_of_le hnow]
    unfold State.failAdvice
    rw [hp]
    exact congrArg (fun u => Host.Outcome.next (State.settle u))
      (State.failedExchange_below (s := (s.setNow at_).modifyAdvice a.reference fun a => a.back (.frame p)) hf)

/-! ### The abandonment timer (R71, R72) -/

section
variable {s : State} {t : Txn}

theorem exec_abandonmentTimer {at_ : Nat} (hl : s.live = true) (ht : s.txnFor t.reference = some t) (htimer : t.timer = some at_)
    (hnow : s.now ≤ at_) (hstate : t.state = .localHeld ∨ t.state = .remoteHeld ∨ t.state = .standinHeld) :
    exec (.abandonmentTimer t.reference) s = .next ((s.setNow at_).voidTxn t true).settle := by
  have hwaiting : t.state.waiting = false := by rcases hstate with h | h | h <;> simp [h, TxnState.waiting]
  have htimed : s.timedTxn t.reference false = some (t, at_) := by
    unfold State.timedTxn
    rw [ht]
    simp only [htimer, hwaiting, if_true]
  simp only [exec, execAbandonmentTimer, State.event_live hl, htimed, State.reach_of_le hnow]

/-- The table without an abandoned transaction, its report in the latch. -/
def State.abandoned (s : State) (t : Txn) : State :=
  s.setBr { s.br with txns := s.br.txns.filter fun x => x.reference ≠ t.reference, latch := some (abandonedRecord t) }

theorem State.endVoid_abandonedLocal (hs : t.state = .localHeld) : s.endVoid t true = s.abandoned t := by
  simp only [State.endVoid, hs, if_true]
  rfl

theorem State.voidTxn_abandonedLocal {x : Hold} (hs : t.state = .localHeld)
    (hx : s.holdNamed t.holdId s.own t.reference t.card.key = some x) (hheld : x.state = .held) :
    s.voidTxn t true = (s.abandoned t).removeHold x.id := by
  unfold State.voidTxn
  rw [hs]
  refine (State.endVoid_abandonedLocal hs).trans ?_
  rw [State.serveRelease_held hx hheld]
  rfl

theorem State.voidTxn_abandonedStandin (hs : t.state = .standinHeld) :
    s.voidTxn t true = (s.abandoned t).releaseReservation := by
  unfold State.voidTxn
  rw [hs]
  exact (State.endVoid_abandoned (by simp [hs])).trans rfl

theorem State.abandoned_hand (s : State) (t : Txn) (d : Nat) (m : Msg) :
    ((s.abandoned t).releaseReservation).hand d m = ((s.hand d m).abandoned t).releaseReservation := by
  unfold State.abandoned State.releaseReservation
  rw [State.setAu_hand, State.setBr_hand, State.hand_br]
  exact congrArg (fun a : AdviceUnit => ((s.hand d m).setBr _).setAu { a with reservations := a.reservations - 1 })
    (s.hand_au d m).symm

theorem State.voidTxn_abandonedRemote (hs : t.state = .remoteHeld) (hroom : s.lc.hasRoom 1 = true)
    (hnew : ∀ f ∈ s.lc.waitList, f.ticket ≠ s.ticket) :
    s.voidTxn t true = ((s.abandoned t).releaseReservation).hand t.station t.releaseMsg := by
  have hplaced : (s.hand t.station t.releaseMsg).waits s.ticket = false := State.waits_hand_placed _ hroom hnew
  rw [State.abandoned_hand]
  simp only [State.voidTxn, hs, hplaced, Bool.false_eq_true, if_false]
  exact (State.endVoid_abandoned (by simp [hs])).trans rfl

theorem State.voidTxn_abandonedWaits (hs : t.state = .remoteHeld) (hroom : s.lc.hasRoom 1 = false) :
    s.voidTxn t true = (s.modifyTxn t.reference fun x =>
      { x with voiding := some (s.ticket, true), timer := none }).hand t.station t.releaseMsg := by
  have hwaits : (s.hand t.station t.releaseMsg).waits s.ticket = true := State.waits_hand_waits _ hroom
  rw [State.modifyTxn_hand]
  simp only [State.voidTxn, hs, hwaits, if_true]

end

/-- Settles O48: the void of each kind of hold, made by the timer. -/
theorem abandonmentTimerCompletes : Obligations.AbandonmentTimerCompletes := by
  intro s t at_ hl ht htimer hnow report ended released
  have hexec := exec_abandonmentTimer hl ht htimer hnow
  have hreport {st : TxnState} (hs : t.state = st) : (s.setNow at_).abandoned t = ended st.code := by
    rw [← hs]
    rfl
  refine ⟨fun h hs hx hheld => ?_, fun p hs hp hroom hnew => ?_, fun p hs hp hroom => ?_, fun hs => ?_⟩
  · rw [hexec (.inl hs), State.voidTxn_abandonedLocal (s := s.setNow at_) hs hx hheld, hreport hs]
  · have hstation : t.station = p := by simp [Txn.station, hp]
    rw [hexec (.inr (.inl hs)), State.voidTxn_abandonedRemote (s := s.setNow at_) hs hroom hnew, hreport hs, hstation]
    rfl
  · have hstation : t.station = p := by simp [Txn.station, hp]
    rw [hexec (.inr (.inl hs)), State.voidTxn_abandonedWaits (s := s.setNow at_) hs hroom, hstation]
    rfl
  · rw [hexec (.inr (.inr hs)), State.voidTxn_abandonedStandin hs, hreport hs]
    rfl

end Sys2Proof.Machine
end

