-- ==== Sys2Proof/Proofs/RoundTimers.lean ====
section
/-! PROOFS. The timers of rounds and handovers, the payout advice, and the pauses of the line. -/
namespace Sys2Proof.Machine

/-! ### The figures of a payout (R27, R28, R114) -/

/-- The sum over a list, in the library's words. -/
theorem sumOf_eq_sum {α : Type} (f : α → Nat) (l : List α) : sumOf f l = (l.map f).sum := by
  induction l with
  | nil => rfl
  | cons x l ih => simp [sumOf, ih]

/-- A sum that leaves the marked elements out. -/
theorem sumOf_unmarked {α : Type} (q : α → Bool) (f : α → Nat) (l : List α) :
    sumOf (fun x => if q x then 0 else f x) l = ((l.filter fun x => !q x).map f).sum := by
  induction l with
  | nil => rfl
  | cons x l ih => cases hx : q x <;> simp [sumOf, hx, ih]

theorem sumInt_unmarked {α : Type} (q : α → Bool) (f : α → Int) (l : List α) :
    sumInt (fun x => if q x then 0 else f x) l = ((l.filter fun x => !q x).map f).sum := by
  induction l with
  | nil => rfl
  | cons x l ih => cases hx : q x <;> simp [sumInt, hx, ih]

/-! ### The timers of a round and of a handover (R112, R118, R120, R123) -/

section
variable {s : State} {h : Handover} {at_ : Nat}

theorem exec_statementWindow (hl : s.live = true) (hw : s.su.window = some at_) :
    exec .statementWindow s = .next (s.reach at_).forcedFinish.settle := by
  simp only [exec, execStatementWindow, State.event_live hl, hw]

theorem State.forcedFinish_eq {c : Closing} (hc : s.su.closing = some c) : s.forcedFinish =
    (s.setSu { s.su with
      closing := some { c with status := Table.mapEntries {} (fun _ st => st.force) c.status } }).finishRound := by
  unfold State.forcedFinish
  rw [hc]

theorem State.timedHandover_some {sub : SubState} (hh : s.cu.handover = some h) (ht : h.timer = some at_) (hsub : h.sub = sub) :
    s.timedHandover sub = some (h, at_) := by
  unfold State.timedHandover
  rw [hh]
  dsimp only
  rw [ht]
  exact if_pos hsub

theorem exec_drainLimit (hl : s.live = true) (ht : s.timedHandover .draining = some (h, at_)) :
    exec .drainLimit s = .next ((s.reach at_).failHandover .notDrained 0).settle := by
  simp only [exec, execDrainLimit, State.event_live hl, ht]

theorem exec_offerReplyTimeout (hl : s.live = true) (ht : s.timedHandover .offering = some (h, at_)) :
    exec .offerReplyTimeout s = .next (((s.reach at_).failHandover .noReply 0).failedExchange h.custodian).settle := by
  simp only [exec, execOfferReplyTimeout, State.event_live hl, ht]

theorem exec_transferEndTimeout (hl : s.live = true) (ht : s.timedHandover .transferring = some (h, at_)) :
    exec .transferEndTimeout s = .next ((s.reach at_).failTransferEnd h).settle := by
  simp only [exec, execTransferEndTimeout, State.event_live hl, ht]

end

/-- Settles O49: the four timers, and the payout advice in the library's sums. -/
theorem roundAndHandoverTimersComplete : Obligations.RoundAndHandoverTimersComplete := by
  refine ⟨fun s c at_ hl hw hnow hc hsend hhand => ?window, fun s h at_ hl hh ht hnow => ?handover, fun c => ?payout,
    fun e => rfl, fun l p => ⟨fun hroom => if_pos hroom, fun hfull => if_neg (Nat.not_lt.mpr hfull)⟩⟩
  case window =>
    intro finished
    have hplain := State.finishRound_plain (s := (s.setNow at_).setSu { s.su with closing := some finished })
      (c := finished) rfl hsend hhand
    rw [exec_statementWindow hl hw, State.reach_of_le hnow, State.forcedFinish_eq (s := s.setNow at_) hc]
    exact congrArg (fun u => Host.Outcome.next (State.settle u)) hplain
  case handover =>
    intro t
    have htimed {sub : SubState} (hsub : h.sub = sub) := State.timedHandover_some hh ht hsub
    refine ⟨fun hsub => ?_, fun hsub => ?_, fun hsub hleft => ?_, fun hsub hleft hfailed => ?_⟩
    · rw [exec_drainLimit hl (htimed hsub), State.reach_of_le hnow]
    · rw [exec_offerReplyTimeout hl (htimed hsub), State.reach_of_le hnow]
    · rw [exec_transferEndTimeout hl (htimed hsub), State.reach_of_le hnow]
      exact congrArg (fun u => Host.Outcome.next (State.settle u)) (if_pos hleft)
    · rw [exec_transferEndTimeout hl (htimed hsub), State.reach_of_le hnow,
        State.failTransferEnd_again (s := s.setNow at_) hleft hfailed]
      rfl
  case payout =>
    intro paid total compared
    unfold Closing.payout payoutFigure
    rw [sumInt_unmarked, sumOf_unmarked, sumOf_eq_sum, sumOf_eq_sum, sumOf_eq_sum, sumOf_eq_sum]
    rfl

/-! ### Pauses (R151, R152) -/

section
variable {s : State} {f : RawFrame} {m : Msg}

/-- An accepted frame that is no PAUSE joins the inbound queue, and a full queue asks for a PAUSE. -/
theorem State.accept_eq (hm : ∀ t, m ≠ .pause t) : s.accept f m = (s.setLc { s.lc with
    inbound := s.lc.inbound ++ [{ source := f.source, msg := m }]
    ackDriven := decide (s.lineState = .active) }).pauseIfFull := by
  cases m
  case pause t => exact absurd rfl (hm t)
  all_goals rfl

theorem State.pauseIfFull_hands (hline : s.lineState = .active) (hfull : 12 ≤ s.lc.inbound.length)
    (hguard : s.lc.pauseGuard = none) (hown : s.hasOwn 15 = false) :
    s.pauseIfFull = s.broadcast (.pause s.sc.config.pauseTime) :=
  if_pos (by simp [hline, hfull, hguard, hown])

theorem State.pauseIfFull_not (h : s.lc.inbound.length < 12 ∨ s.lineState ≠ .active ∨ s.lc.pauseGuard.isSome = true
    ∨ s.hasOwn 15 = true) : s.pauseIfFull = s := by
  refine if_neg ?_
  obtain hfew | hline | hguard | hown := h
  · simp [Nat.not_le.mpr hfew]
  · simp [hline]
  · simp [Option.isSome_iff_ne_none.mp hguard]
  · simp [hown]

/-- A PAUSE that finds room is placed behind class 0, and starts its guard. -/
theorem State.broadcast_pause (t : Nat) (hroom : s.lc.outbound.length < 24) : s.broadcast (.pause t) = s.setLc { s.lc with
    nextTicket := s.lc.nextTicket + 1
    pauseGuard := some (s.now + s.sc.config.pauseTime)
    outbound := insertBy (fun g => g.msg.cls) { ticket := s.lc.nextTicket, dest := 255, msg := .pause t } s.lc.outbound } := by
  have hplaces : s.lc.hasRoom (Msg.pause t).cls = true := (s.lc.hasRoom_iff _).mpr ⟨hroom, .inl rfl⟩
  unfold State.broadcast
  rw [s.hand_placed 255 (.pause t) hplaces, State.placeFrame_of_kind (by simp [Msg.kind])]
  rfl

/-- The place behind the frames of class 0. -/
theorem insertBy_pause (t n : Nat) (l : List OutFrame) :
    insertBy (fun g => g.msg.cls) { ticket := n, dest := 255, msg := .pause t } l =
      (l.takeWhile fun g => g.msg.cls = 0) ++ { ticket := n, dest := 255, msg := .pause t }
        :: l.dropWhile fun g => g.msg.cls = 0 := by
  have hcls : (fun g : OutFrame => decide (g.msg.cls ≤ (Msg.pause t).cls)) = fun g => decide (g.msg.cls = 0) := by
    funext g
    exact decide_eq_decide.mpr Nat.le_zero
  rw [insertBy_eq, hcls]

variable {at_ : Nat}

theorem exec_pauseGuard (hl : s.live = true) (hg : s.lc.pauseGuard = some at_) (hnow : s.now ≤ at_) :
    exec .pauseGuard s = .next ((s.setNow at_).setLc { s.lc with pauseGuard := none }).pauseIfFull := by
  simp only [exec, execPauseGuard, State.event_live hl, hg, State.reach_of_le hnow]
  rfl

theorem exec_pauseEnd {a : Nat} (hl : s.live = true) (hp : s.pauseEndOf a = some at_) (hnow : s.now ≤ at_) :
    exec (.pauseEnd a) s = .next (State.settle ((s.setNow at_).setLc { s.lc with
      pauses := s.lc.pauses.filter fun e => e.1 ≠ a })) := by
  simp only [exec, execPauseEnd, State.event_live hl, hp, State.reach_of_le hnow]
  rfl

end

/-- Settles O50: `pauseIfFull` behind an acceptance and behind the guard. -/
theorem pausesAreHandedGuardedAndEnd : Obligations.PausesAreHandedGuardedAndEnd := by
  refine ⟨fun s f m hline hm hin hguard hown hroom => ?accept, fun s levels f m hl hr hf hlow hhigh hsrc hk ha hm hin => ?heard,
    fun s at_ hl hg hnow => ?guard, fun s a at_ hl ha hnow => ?ends⟩
  case accept =>
    have hfull : 12 ≤ (s.lc.inbound ++ [({ source := f.source, msg := m } : InFrame)]).length := by simp [hin]
    let joined := s.setLc { s.lc with
      inbound := s.lc.inbound ++ [{ source := f.source, msg := m }], ackDriven := decide (s.lineState = .active) }
    have hasked : s.accept f m = joined.broadcast (.pause s.sc.config.pauseTime) :=
      (State.accept_eq hm).trans (State.pauseIfFull_hands (s := joined) hline hfull hguard hown)
    rw [hasked, State.broadcast_pause (s := joined) _ hroom]
    exact ⟨rfl, rfl⟩
  case heard =>
    intro taken
    have hnoted : s.hearFrame f = ((s.noting f s .present).setLc taken).pauseIfFull := by
      rw [State.hearFrame_accepted ha, State.noted_present hk]
      exact State.accept_eq (s := s.noting f s .present) hm
    have hfull : 12 ≤ (s.lc.inbound ++ [({ source := f.source, msg := m } : InFrame)]).length := by
      simpa using Nat.succ_le_succ hin
    refine ⟨s.hearFrame f, exec_frameHeard hl hr hf hlow hhigh hsrc, fun hline hguard hown hroom => ?_, fun hnot => ?_⟩
    · rw [hnoted, State.pauseIfFull_hands (s := (s.noting f s .present).setLc taken) hline hfull hguard hown,
        State.broadcast_pause (s := (s.noting f s .present).setLc taken) _ hroom, insertBy_pause]
      rfl
    · rw [hnoted, State.pauseIfFull_not (s := (s.noting f s .present).setLc taken) (.inr hnot)]
      rfl
  case guard =>
    intro ended
    refine ⟨fun hline hfull hown => ?_, fun hnot => ?_⟩
    · rw [exec_pauseGuard hl hg hnow, State.pauseIfFull_hands (s := ended) hline hfull rfl hown]
      rfl
    · rw [exec_pauseGuard hl hg hnow, State.pauseIfFull_not (s := ended) (hnot.imp_right (Or.imp_right .inr))]
  case ends =>
    have hend : s.pauseEndOf a = some at_ := congrArg (Option.map (Prod.snd : Nat × Nat → Nat)) ha
    exact exec_pauseEnd hl hend hnow

end Sys2Proof.Machine
end

