-- ==== Sys2Proof/Proofs/LineTimers.lean ====
section
/-! PROOFS. The beacon timer, the end of listening, and the load monitor. -/
namespace Sys2Proof.Machine

/-- An address that no entry lists. -/
theorem Table.get_unlisted {α : Type} {d : α} {t : Table α} {a : Nat} (h : a ∉ t.map (·.1)) : Table.get d t a = d := by
  induction t with
  | nil => rfl
  | cons x t ih =>
    obtain ⟨hne, hrest⟩ := not_or.mp (mt List.mem_cons.mpr h)
    exact (if_neg (Ne.symm hne)).trans (ih hrest)

/-! ### Beacons and the end of listening (R88, R163, R170) -/

section
variable {s : State} {t : Nat}

/-- A BEACON of a station that is not HANDING-OVER reads the same in any other such state. -/
theorem State.beaconData_setSc {x : StationCtl} (hs : s.handing = false) (hx : x.station ≠ .handingOver) :
    (s.setSc x).beaconData = s.beaconData := by
  have hhanding : (s.setSc x).handing = s.handing := (decide_eq_false hx).trans hs.symm
  unfold State.beaconData
  rw [hhanding]
  rfl

theorem State.beaconDue_some (hline : s.onLine = true) (ht : s.pm.beaconFrom = some t) (hown : s.hasOwn 14 = false) :
    s.beaconDue = some (t + s.beaconInterval) := by
  unfold State.beaconDue
  rw [hline, hown, ht]
  rfl

theorem exec_beaconTimer (hl : s.live = true) (hdue : s.beaconDue = some t) :
    exec .beaconTimer s = .next (s.reach t).handBeacon := by
  simp only [exec, execBeaconTimer, State.event_live hl, hdue]

theorem exec_listenTimer (hl : s.live = true) (hst : s.sc.station = .listening) (ht : s.sc.listenTimer = some t) :
    exec .listenTimer s = .next (s.reach t).becomeJoined.settle := by
  simp only [exec, execListenTimer, State.event_live hl, hst, ht, if_true]

/-- The station as it becomes JOINED, before its first BEACON. -/
def State.joinedNow (s : State) : State :=
  (s.setSc { s.sc with station := .joined, listenTimer := none }).setPm { s.pm with beaconFrom := some s.now }

theorem State.joinedNow_handBeacon (h : s.sc.station = .listening) :
    s.joinedNow.handBeacon = s.joinedNow.broadcast (.beacon s.beaconData) := by
  have hdata : (s.setSc { s.sc with station := .joined, listenTimer := none }).beaconData = s.beaconData :=
    State.beaconData_setSc (by simp [State.handing, h]) (by simp)
  exact congrArg (fun d => s.joinedNow.broadcast (.beacon d)) hdata

/-- With no round open, or one whose window runs, joining starts no window. -/
theorem State.becomeJoined_plain (hst : s.sc.station = .listening) (h : s.su.closing = none) :
    s.becomeJoined = (s.joinedNow.broadcast (.beacon s.beaconData)).clearLocal := by
  have hsu : s.joinedNow.handBeacon.su = s.su := State.hand_su _ _ _
  have hnone : ¬ (s.joinedNow.handBeacon.su.closing.isSome && s.joinedNow.handBeacon.su.window.isNone) = true := by
    simp [hsu, h]
  rw [← State.joinedNow_handBeacon hst]
  exact congrArg State.clearLocal (if_neg hnone)

/-- A round that resumes gets a full statement window (R111, R116). -/
theorem State.becomeJoined_resumes (hst : s.sc.station = .listening) (h : s.su.closing.isSome = true)
    (hw : s.su.window = none) : s.becomeJoined =
      ((s.joinedNow.broadcast (.beacon s.beaconData)).setSu { s.su with
        window := some (s.now + s.sc.config.statementWindow * 1000) }).clearLocal := by
  have hsu : s.joinedNow.handBeacon.su = s.su := State.hand_su _ _ _
  have hnow : s.joinedNow.handBeacon.now = s.now := State.hand_now _ _ _
  have hsc : s.joinedNow.handBeacon.sc = s.joinedNow.sc := State.hand_sc _ _ _
  have hend : s.joinedNow.handBeacon.windowEnd = s.now + s.sc.config.statementWindow * 1000 := by
    unfold State.windowEnd
    rw [hnow, hsc]
    rfl
  have hresumes : (s.joinedNow.handBeacon.su.closing.isSome && s.joinedNow.handBeacon.su.window.isNone) = true := by
    simp [hsu, h, hw]
  rw [← State.joinedNow_handBeacon hst, ← hend, ← hsu]
  exact congrArg State.clearLocal (if_pos hresumes)

/-- The hold-offs of kind LOCAL, one case for each kind. -/
theorem State.clearLocal_cases (s : State) : s.clearLocal = s.setAu { s.au with
    queue := s.au.queue.map fun a => match a.holdOff with
      | some (.locally _) => { a with holdOff := none }
      | some (.frame _) | some (.beacon _) | none => a } := by
  refine congrArg (fun l => s.setAu { s.au with queue := l }) (List.map_congr_left fun a _ => ?_)
  match h : a.holdOff with
  | none => rfl
  | some (.frame _) => rfl
  | some (.beacon _) => rfl
  | some (.locally _) => rfl

end

/-- Settles O52: the beacon timer by `beaconDue`, the end of listening by `becomeJoined`. -/
theorem beaconAndListenTimersComplete : Obligations.BeaconAndListenTimersComplete := by
  refine ⟨fun s t hl hline ht hown hnow => ?beacon, fun s at_ hl hst ht hnow hc => ?plain,
    fun s at_ hl hst ht hnow hc hw => ?resumes, fun s => ?data⟩
  case beacon =>
    rw [exec_beaconTimer hl (State.beaconDue_some hline ht hown), State.reach_of_le hnow]
    rfl
  case plain =>
    have hau : ((s.setNow at_).joinedNow.broadcast (.beacon s.beaconData)).au = s.au := State.hand_au _ _ _
    rw [exec_listenTimer hl hst ht, State.reach_of_le hnow, State.becomeJoined_plain (s := s.setNow at_) hst hc,
      State.clearLocal_cases]
    exact congrArg (fun x : AdviceUnit => Host.Outcome.next (State.settle
      (((s.setNow at_).joinedNow.broadcast (.beacon s.beaconData)).setAu { x with queue := x.queue.map _ }))) hau
  case resumes =>
    have hau : ((s.setNow at_).joinedNow.broadcast (.beacon s.beaconData)).au = s.au := State.hand_au _ _ _
    rw [exec_listenTimer hl hst ht, State.reach_of_le hnow, State.becomeJoined_resumes (s := s.setNow at_) hst hc hw,
      State.clearLocal_cases]
    exact congrArg (fun x : AdviceUnit => Host.Outcome.next (State.settle
      ((((s.setNow at_).joinedNow.broadcast (.beacon s.beaconData)).setSu { s.su with
        window := some (at_ + s.sc.config.statementWindow * 1000) }).setAu { x with queue := x.queue.map _ }))) hau
  case data =>
    intro homes
    have hmode : s.pm.mode.code = if s.pm.mode = .normal then 0 else 1 := by cases s.pm.mode <;> rfl
    have hhanding : (if s.handing = true then 1 else 0) = if s.sc.station = .handingOver then 1 else 0 := by
      simp [State.handing]
    unfold State.beaconData
    rw [hmode, hhanding]
    simp only [List.getD_eq_getElem?_getD]
    rfl

/-! ### The load monitor (R165) -/

theorem Mode.other_eq (m : Mode) : m.other = if m = .normal then .busy else .normal := by cases m <;> rfl

theorem Mode.other_code (m : Mode) : m.other.code = if m = .normal then 1 else 0 := by cases m <;> rfl

theorem ConfigRecord.raisesRun_iff {c : ConfigRecord} {m : Mode} {n : Nat} :
    c.raisesRun m n = true ↔ m = .normal ∧ c.upper ≤ n ∨ m = .busy ∧ n ≤ c.lower := by
  cases m <;> simp [ConfigRecord.raisesRun]

theorem runBytes_eq_flatMap (l : List Nat) : runBytes l = l.flatMap fun n => toBytes 2 n := by
  induction l with
  | nil => rfl
  | cons n l ih => rw [runBytes, ih, List.flatMap_cons]

section
variable {s : State} {t : Nat}

theorem State.runAfter_raised (h : s.sc.config.raisesRun s.pm.mode s.pm.windowCount = true) :
    s.runAfter = s.pm.run ++ [s.pm.windowCount] := if_pos h

theorem State.runAfter_cleared (h : ¬ s.sc.config.raisesRun s.pm.mode s.pm.windowCount = true) : s.runAfter = [] := if_neg h

/-- The monitor after a window that leaves the mode. -/
theorem State.judgeWindow_goesOn (h : s.runAfter.length < s.sc.config.dwell) (t : Nat) :
    s.dwellReached = false ∧ s.judgeWindow t = s.setPm { s.pm with
      run := s.runAfter, window := some (t + 1000), windowCount := 0, lastWindow := s.pm.windowCount } := by
  have hdwell : s.dwellReached = false := decide_eq_false (Nat.not_le.mpr h)
  refine ⟨hdwell, ?_⟩
  unfold State.judgeWindow
  rw [hdwell]
  rfl

/-- The monitor after the window that changes the mode. -/
theorem State.judgeWindow_changes (h : s.sc.config.dwell ≤ s.runAfter.length) (t : Nat) :
    s.dwellReached = true ∧ s.judgeWindow t = s.setPm { s.pm with
      mode := s.pm.mode.other, run := [], latch := some (modeRecord s.pm.mode.other s.runAfter)
      window := some (t + 1000), windowCount := 0, lastWindow := s.pm.windowCount } := by
  have hdwell : s.dwellReached = true := decide_eq_true h
  refine ⟨hdwell, ?_⟩
  unfold State.judgeWindow
  rw [hdwell]
  rfl

theorem exec_loadWindow (hl : s.live = true) (ht : s.pm.window = some t) : exec .loadWindow s =
    .next (if s.dwellReached then ((s.reach t).judgeWindow t).modeChanged.settle else (s.reach t).judgeWindow t) := by
  simp only [exec, execLoadWindow, State.event_live hl, ht]

theorem exec_loadWindow_goesOn (hl : s.live = true) (ht : s.pm.window = some t) (hnow : s.now ≤ t)
    (h : s.runAfter.length < s.sc.config.dwell) : exec .loadWindow s = .next ((s.setNow t).setPm { s.pm with
      run := s.runAfter, window := some (t + 1000), windowCount := 0, lastWindow := s.pm.windowCount }) := by
  obtain ⟨hdwell, hjudged⟩ := State.judgeWindow_goesOn (s := s.setNow t) h t
  have hsame : s.dwellReached = false := hdwell
  rw [exec_loadWindow hl ht, State.reach_of_le hnow, hsame, hjudged]
  rfl

theorem exec_loadWindow_changes (hl : s.live = true) (ht : s.pm.window = some t) (hnow : s.now ≤ t)
    (h : s.sc.config.dwell ≤ s.runAfter.length) : exec .loadWindow s = .next (((s.setNow t).setPm { s.pm with
      mode := s.pm.mode.other, run := [], latch := some (modeRecord s.pm.mode.other s.runAfter)
      window := some (t + 1000), windowCount := 0, lastWindow := s.pm.windowCount }).modeChanged).settle := by
  obtain ⟨hdwell, hjudged⟩ := State.judgeWindow_changes (s := s.setNow t) h t
  have hsame : s.dwellReached = true := hdwell
  rw [exec_loadWindow hl ht, State.reach_of_le hnow, hsame, hjudged]
  rfl

end

/-! ### What a change of mode brings about (R159, R163) -/

/-- The entry of a station that has been silent since it was last heard. -/
def Peer.silent (e : Peer) (now interval : Nat) : Peer :=
  match e.lastHeard with
  | none => e
  | some t =>
    if (e.presence = .present ∨ e.presence = .quiet) ∧ t + 10 * interval ≤ now then { e with presence := .absent }
    else if e.presence = .present ∧ t + 3 * interval ≤ now then { e with presence := .quiet }
    else e

section
variable {e : Peer} {now interval t : Nat}

theorem Peer.silent_unheard (h : e.lastHeard = none) : e.silent now interval = e := by
  simp only [Peer.silent, h]

theorem Peer.silent_absent (h : e.lastHeard = some t) (hp : e.presence.reachable = true) (ht : t + 10 * interval ≤ now) :
    e.silent now interval = { e with presence := .absent } := by
  simp only [Peer.silent, h]
  exact if_pos ⟨Presence.reachable_iff.mp hp, ht⟩

theorem Peer.silent_quiet (h : e.lastHeard = some t) (ht : ¬ t + 10 * interval ≤ now)
    (hp : e.presence = .present) (hq : t + 3 * interval ≤ now) : e.silent now interval = { e with presence := .quiet } := by
  simp only [Peer.silent, h]
  exact (if_neg fun hgone => ht hgone.2).trans (if_pos ⟨hp, hq⟩)

theorem Peer.silent_unreachable (hp : e.presence.reachable = false) : e.silent now interval = e := by
  cases h : e.lastHeard with
  | none => exact Peer.silent_unheard h
  | some t =>
    have hnot : ¬ (e.presence = .present ∨ e.presence = .quiet) := by
      simpa [hp] using (Presence.reachable_iff (v := e.presence)).not.mp (by simp [hp])
    simp only [Peer.silent, h]
    exact (if_neg fun hgone => hnot hgone.1).trans (if_neg fun hquiet => hnot (.inl hquiet.1))

theorem Peer.silent_heard (h : e.lastHeard = some t) (ht : ¬ t + 10 * interval ≤ now)
    (hq : ¬ (e.presence = .present ∧ t + 3 * interval ≤ now)) : e.silent now interval = e := by
  simp only [Peer.silent, h]
  exact (if_neg fun hgone => ht hgone.2).trans (if_neg hq)

/-- A second test at the same moment changes nothing. -/
theorem Peer.silent_silent (e : Peer) (now interval : Nat) :
    (e.silent now interval).silent now interval = e.silent now interval := by
  cases h : e.lastHeard with
  | none => rw [Peer.silent_unheard h, Peer.silent_unheard h]
  | some t =>
    cases hp : e.presence.reachable with
    | false => rw [Peer.silent_unreachable hp, Peer.silent_unreachable hp]
    | true =>
      by_cases ht : t + 10 * interval ≤ now
      · rw [Peer.silent_absent h hp ht]
        exact Peer.silent_unreachable rfl
      · by_cases hq : e.presence = .present ∧ t + 3 * interval ≤ now
        · rw [Peer.silent_quiet h ht hq.1 hq.2]
          exact Peer.silent_heard (t := t) h ht (by simp)
        · rw [Peer.silent_heard h ht hq, Peer.silent_heard h ht hq]

end

/-- The station with other peer entries. -/
def State.withPeers (s : State) (l : Table Peer) : State := s.setPm { s.pm with peers := l }

section
variable {s : State}

/-- One silence test where no handover can fail by it: it changes the one entry. -/
theorem State.silenceTest_eq {p : Nat} (h : ∀ h, ¬ s.failsBy p h) : ∃ l, s.silenceTest p = s.withPeers l ∧
    ∀ a, Table.get {} l a = if a = p then (s.peerAt p).silent s.now s.beaconInterval else s.peerAt a := by
  have hkept {e : Peer} (he : e = s.peerAt p) (a : Nat) :
      Table.get {} s.pm.peers a = if a = p then e else s.peerAt a := by
    by_cases ha : a = p
    · rw [if_pos ha, he, ha]
      rfl
    · rw [if_neg ha]
      rfl
  have hset {t : Nat} (ht : (s.peerAt p).lastHeard = some t) (v : Presence) (a : Nat) :
      Table.get {} (Table.modify {} s.pm.peers p fun e => { e with presence := v }) a =
        if a = p then { s.peerAt p with presence := v } else s.peerAt a :=
    Table.get_modify (d := ({} : Peer)) (t := s.pm.peers) (a := p) (f := fun e => { e with presence := v })
      (fun hnew => Option.some_ne_none t (ht.symm.trans (congrArg Peer.lastHeard hnew))) a
  cases ht : (s.peerAt p).lastHeard with
  | none => exact ⟨s.pm.peers, by simp only [State.silenceTest, ht]; rfl, hkept (Peer.silent_unheard ht)⟩
  | some t =>
    cases hp : (s.peerAt p).presence.reachable with
    | false =>
      refine ⟨s.pm.peers, ?_, hkept (Peer.silent_unreachable hp)⟩
      simp only [State.silenceTest, ht, hp]
      rfl
    | true =>
      by_cases hgone : t + 10 * s.beaconInterval ≤ s.now
      · refine ⟨_, ?_, fun a => (hset ht .absent a).trans (by rw [Peer.silent_absent ht hp hgone])⟩
        simp only [State.silenceTest, ht, hp, if_true, hgone]
        exact State.makeAbsent_other (Presence.ne_absent hp) h
      · by_cases hq : (s.peerAt p).presence = .present ∧ t + 3 * s.beaconInterval ≤ s.now
        · refine ⟨_, ?_, fun a => (hset ht .quiet a).trans (by rw [Peer.silent_quiet ht hgone hq.1 hq.2])⟩
          simp only [State.silenceTest, ht, hgone, if_false, hq.1, hq.2]
          rfl
        · refine ⟨s.pm.peers, ?_, hkept (Peer.silent_heard ht hgone hq)⟩
          have hnot : ¬ ((s.peerAt p).presence = .present && t + 3 * s.beaconInterval ≤ s.now : Bool) = true := by simpa using hq
          simp only [State.silenceTest, ht, hp, if_true, hgone, if_false, hnot]
          rfl

/-- The tests of a list of peers, one for each entry however often it is listed. -/
theorem State.silenceTests_eq (ps : List Nat) : ∀ {s : State},
    (∀ h, s.cu.handover = some h → h.sub ≠ .offering ∧ h.sub ≠ .transferring) →
    ∃ l, s.silenceTests ps = s.withPeers l ∧
      ∀ a, Table.get {} l a = if a ∈ ps then (s.peerAt a).silent s.now s.beaconInterval else s.peerAt a := by
  induction ps with
  | nil => exact fun {s} _ => ⟨s.pm.peers, rfl, fun a => by simp [State.peerAt]⟩
  | cons p ps ih =>
    intro s hh
    obtain ⟨l₁, hone, hget₁⟩ := State.silenceTest_eq (p := p) (State.not_failsBy fun h hx => .inr (hh h hx))
    obtain ⟨l, hrest, hget⟩ := ih (s := s.withPeers l₁) hh
    refine ⟨l, ?_, fun a => (hget a).trans ?_⟩
    · rw [State.silenceTests, hone, hrest]
      rfl
    · have hat : (s.withPeers l₁).peerAt a = if a = p then (s.peerAt p).silent s.now s.beaconInterval else s.peerAt a := hget₁ a
      have hinterval : (s.withPeers l₁).beaconInterval = s.beaconInterval := rfl
      have hnow : (s.withPeers l₁).now = s.now := rfl
      rw [hat, hinterval, hnow]
      by_cases ha : a = p
      · subst ha
        simp [Peer.silent_silent]
      · simp [ha]

/-- Handing a BEACON does not look at the peers. -/
theorem State.withPeers_handBeacon_lc (s : State) (l : Table Peer) :
    (s.withPeers l).handBeacon.lc = (s.broadcast (.beacon s.beaconData)).lc := by
  change ((s.withPeers l).hand 255 (.beacon s.beaconData)).lc = (s.hand 255 (.beacon s.beaconData)).lc
  cases hroom : s.lc.hasRoom (Msg.beacon s.beaconData).cls
  · rw [s.hand_waits 255 _ hroom, (s.withPeers l).hand_waits 255 _ hroom]
    rfl
  · rw [s.hand_placed 255 _ hroom, (s.withPeers l).hand_placed 255 _ hroom]
    rfl

/-- A BEACON has fallen due by the interval in force. -/
def State.beaconIsDue (s : State) : Prop :=
  s.onLine = true ∧ s.hasOwn 14 = false ∧ ∃ t, s.pm.beaconFrom = some t ∧ t + s.beaconInterval ≤ s.now

theorem State.beaconIsDue_iff : s.beaconIsDue ↔ ∃ t, s.beaconDue = some t ∧ t ≤ s.now := by
  unfold State.beaconIsDue State.beaconDue
  constructor
  · rintro ⟨hline, hown, t, ht, hle⟩
    exact ⟨t + s.beaconInterval, by simp [hline, hown, ht], hle⟩
  · rintro ⟨t, hdue, hle⟩
    obtain ⟨⟨hline, hown⟩, u, hu, rfl⟩ : (s.onLine = true ∧ s.hasOwn 14 = false) ∧
        ∃ u, s.pm.beaconFrom = some u ∧ u + s.beaconInterval = t := by simpa using hdue
    exact ⟨hline, hown, u, hu, hle⟩

theorem State.modeChanged_due {u : State} {t : Nat} (h : s.silenceTests (s.pm.peers.map (·.1)) = u)
    (ht : u.beaconDue = some t) (hle : t ≤ u.now) : s.modeChanged = u.handBeacon := by
  subst h
  unfold State.modeChanged
  dsimp only
  rw [ht]
  exact if_pos hle

theorem State.modeChanged_notDue {u : State} (h : s.silenceTests (s.pm.peers.map (·.1)) = u)
    (hnot : ∀ t, u.beaconDue = some t → ¬ t ≤ u.now) : s.modeChanged = u := by
  subst h
  unfold State.modeChanged
  dsimp only
  split
  case h_1 t ht => exact if_neg (hnot t ht)
  case h_2 => rfl

/-- The silence tests, and then a BEACON where one has fallen due. -/
theorem State.modeChanged_eq (h : ∀ h, s.cu.handover = some h → h.sub ≠ .offering ∧ h.sub ≠ .transferring) :
    ∃ l, (s.beaconIsDue → s.modeChanged = (s.withPeers l).handBeacon)
      ∧ (¬ s.beaconIsDue → s.modeChanged = s.withPeers l)
      ∧ ∀ a, Table.get {} l a =
          if a ∈ s.pm.peers.map (·.1) then (s.peerAt a).silent s.now s.beaconInterval else s.peerAt a := by
  obtain ⟨l, htests, hget⟩ := State.silenceTests_eq (s.pm.peers.map (·.1)) h
  refine ⟨l, fun hdue => ?_, fun hnot => ?_, hget⟩
  · obtain ⟨t, ht, hle⟩ := State.beaconIsDue_iff.mp hdue
    exact State.modeChanged_due (u := s.withPeers l) htests ht hle
  · exact State.modeChanged_notDue (u := s.withPeers l) htests fun t ht hle => hnot (State.beaconIsDue_iff.mpr ⟨t, ht, hle⟩)

/-- What a change of mode leaves. -/
theorem State.modeChanged_keeps (h : ∀ h, s.cu.handover = some h → h.sub ≠ .offering ∧ h.sub ≠ .transferring) :
    (s.modeChanged.pm = { s.pm with peers := s.modeChanged.pm.peers })
      ∧ s.modeChanged.sc = s.sc ∧ s.modeChanged.till = s.till ∧ s.modeChanged.cu = s.cu ∧ s.modeChanged.br = s.br
      ∧ s.modeChanged.au = s.au ∧ s.modeChanged.su = s.su ∧ s.modeChanged.now = s.now := by
  obtain ⟨l, hdue, hnot, -⟩ := State.modeChanged_eq h
  by_cases hd : s.beaconIsDue
  · have hline : (s.withPeers l).LineOnly s.modeChanged := by
      rw [hdue hd]
      exact State.broadcast_lineOnly _ _
    exact ⟨by rw [hline.pm]; rfl, hline.sc, hline.till, hline.cu, hline.br, hline.au, hline.su, hline.now⟩
  · rw [hnot hd]
    exact ⟨rfl, rfl, rfl, rfl, rfl, rfl, rfl, rfl⟩

/-- Each peer's entry after a change of mode; one that is not listed has never been heard. -/
theorem State.modeChanged_peerAt (h : ∀ h, s.cu.handover = some h → h.sub ≠ .offering ∧ h.sub ≠ .transferring) (p : Nat) :
    s.modeChanged.peerAt p = (s.peerAt p).silent s.now s.beaconInterval := by
  obtain ⟨l, hdue, hnot, hget⟩ := State.modeChanged_eq h
  have hpeers : s.modeChanged.peerAt p = Table.get {} l p := by
    by_cases hd : s.beaconIsDue
    · rw [hdue hd]
      exact congrArg (fun x : PeerMon => Table.get {} x.peers p) (State.hand_pm _ _ _)
    · rw [hnot hd]
      rfl
  rw [hpeers, hget]
  by_cases hp : p ∈ s.pm.peers.map (·.1)
  · exact if_pos hp
  · have hnew : s.peerAt p = {} := Table.get_unlisted hp
    rw [if_neg hp, hnew]
    rfl

end

/-- Settles O53: a window by `judgeWindow`, and the change of mode by the silence tests and the beacon that is due. -/
theorem loadWindowsSwitchTheMode : Obligations.LoadWindowsSwitchTheMode := by
  refine ⟨fun s t hl ht hnow => ?window, fun s hh => ?changed⟩
  case window =>
    intro n next counts
    have hraised (hc : counts s.sc.config) : s.runAfter = s.pm.run ++ [n] :=
      State.runAfter_raised (ConfigRecord.raisesRun_iff.mpr hc)
    have hlength (hc : counts s.sc.config) : s.runAfter.length = s.pm.run.length + 1 := by
      rw [hraised hc, List.length_append]
      rfl
    refine ⟨fun hnot hdwell => ?_, fun hc hshort => ?_, fun hc hlong => ?_⟩
    · have hcleared : s.runAfter = [] := State.runAfter_cleared fun h => hnot (ConfigRecord.raisesRun_iff.mp h)
      rw [exec_loadWindow_goesOn hl ht hnow (by rw [hcleared]; exact hdwell), hcleared]
    · rw [exec_loadWindow_goesOn hl ht hnow (by rw [hlength hc]; exact hshort), hraised hc]
    · intro changed
      refine ⟨?_, fun hpeers hline => ?_⟩
      · rw [exec_loadWindow_changes hl ht hnow (by rw [hlength hc]; exact hlong), modeRecord, hlength hc, hraised hc,
          runBytes_eq_flatMap, Mode.other_code, Mode.other_eq]
      · have htests : changed.silenceTests (changed.pm.peers.map (·.1)) = changed :=
          congrArg (fun l : Table Peer => changed.silenceTests (l.map (·.1))) hpeers
        have hnone : changed.beaconDue = none := if_neg (by simp [changed, hline])
        exact State.modeChanged_notDue htests fun t ht => by simp [hnone] at ht
  case changed =>
    intro interval due u
    have hinterval : s.beaconInterval = interval := by
      unfold State.beaconInterval
      cases hm : s.pm.mode <;> simp [interval, hm]
    have hdue : s.beaconIsDue ↔ due := by
      unfold State.beaconIsDue
      rw [hinterval]
    obtain ⟨l, hgiven, hnot, -⟩ := State.modeChanged_eq hh
    refine ⟨fun p => ?_, (State.modeChanged_keeps hh).1, fun hd => ?_, fun hd => ?_, (State.modeChanged_keeps hh).2⟩
    · rw [State.modeChanged_peerAt hh, hinterval]
      rfl
    · exact (congrArg State.lc (hgiven (hdue.mpr hd))).trans (s.withPeers_handBeacon_lc l)
    · have hkept := congrArg State.lc (hnot fun h => hd (hdue.mp h))
      exact hkept

end Sys2Proof.Machine
end

