-- ==== Sys2Proof/Proofs/Departures.lean ====
section
/-! PROOFS. The supply warning, the departure step, and the ways RETAIN is entered. -/
namespace Sys2Proof.Machine

/-! ### RETAIN is entered (R184, R185) -/

/-- The step into RETAIN, and the return of supply where RETAIN finds one. -/
def State.enteredRetain (s : State) (outcome : DepartureOutcome) : Host.Outcome State Fault Refusal :=
  match s.sc.returned with
  | none => .next (s.retained outcome)
  | some x => exec (.supplyReturn x.straps x.held) (s.retained outcome)

section
variable {s : State} {outcome : DepartureOutcome}

theorem State.next_enterRetain (s : State) (outcome : DepartureOutcome) :
    .next (s.enterRetain outcome) = s.enteredRetain outcome := by
  unfold State.enteredRetain
  cases h : s.sc.returned with
  | none => rw [State.enterRetain_asserted h]
  | some x =>
    have hretain : (s.retained outcome).sc.station = .retain := rfl
    rw [State.enterRetain_deasserted h]
    exact (exec_supplyReturn_retain hretain).symm

/-! ### The supply warning (R184) -/

theorem State.onLine_iff_station : s.onLine = true ↔ s.sc.station = .joined ∨ s.sc.station = .handingOver := by
  simp [State.onLine]

/-- Off the line the warning leads to RETAIN at once. -/
theorem State.warn_offLine (h : s.onLine = false) :
    s.warn = (s.setSc { s.sc with supply := .warned, returned := none }).retained .notSentState :=
  (if_neg (by simp [h])).trans (State.enterRetain_asserted rfl _)

/-- The station in the departure step, before its DEPART. -/
def State.departing (s : State) : State :=
  (s.setSc { s.sc with supply := .warned, returned := none, departure := some (s.now + 20) }).setLc
    { s.lc with outbound := [], waitList := [] }

/-- Handing a frame that is neither a BEACON nor a PAUSE does not read the Station Controller. -/
theorem State.setSc_hand (x : StationCtl) (d : Nat) {m : Msg} (h : m.kind ≠ 14) (hp : m.kind ≠ 15) :
    (s.setSc x).hand d m = (s.hand d m).setSc x := by
  have hplace (t : State) (f : OutFrame) (hf : f.msg = m) : (t.setSc x).placeFrame f = (t.placeFrame f).setSc x := by
    rw [← hf] at h hp
    rw [State.placeFrame_of_kind h, State.placeFrame_of_kind h, if_neg hp, if_neg hp]
    rfl
  cases hroom : s.lc.hasRoom m.cls
  · rw [s.hand_waits d m hroom, (s.setSc x).hand_waits d m hroom]
    rfl
  · rw [s.hand_placed d m hroom, (s.setSc x).hand_placed d m hroom, ← hplace _ _ rfl]
    rfl

/-- On the line the queues are emptied and a DEPART(SUPPLY) is handed. -/
theorem State.warn_onLine (h : s.onLine = true) : s.warn = s.departing.hand 255 (.depart 1) := by
  let emptied := (s.setSc { s.sc with supply := .warned, returned := none }).setLc { s.lc with outbound := [], waitList := [] }
  have hsc : (emptied.hand 255 (.depart 1)).sc = emptied.sc := State.hand_sc _ _ _
  calc s.warn
    _ = (emptied.hand 255 (.depart 1)).setSc
        { (emptied.hand 255 (.depart 1)).sc with departure := some (s.now + 20) } := if_pos h
    _ = (emptied.hand 255 (.depart 1)).setSc { emptied.sc with departure := some (s.now + 20) } := by rw [hsc]
    _ = s.departing.hand 255 (.depart 1) :=
      (State.setSc_hand (s := emptied) _ 255 (by simp [Msg.kind]) (by simp [Msg.kind])).symm

theorem exec_supplyWarning (hl : s.live = true) : exec .supplyWarning s = .next s.warn := congrArg _ (if_pos hl)

theorem exec_supplyWarning_again (hl : s.live = false) (hs : s.sc.station ≠ .retain) :
    exec .supplyWarning s = .next (s.setSc { s.sc with returned := none }) :=
  congrArg _ ((if_neg (by simp [hl])).trans (if_neg hs))

theorem exec_supplyWarning_retain (hs : s.sc.station = .retain) : exec .supplyWarning s = .next s :=
  congrArg _ ((if_neg (by simp [State.live, hs])).trans (if_pos hs))

/-! ### The end of the departure step (R184) -/

theorem State.departStarted_idle (h : ∀ x, s.lc.activity ≠ .sending x) : s.departStarted = false := by
  unfold State.departStarted
  cases hx : s.lc.activity with
  | sending x => exact absurd hx (h x)
  | busy | free | receiving => rfl

variable {x : Sending}

theorem State.departStarted_sending {f : OutFrame} (hx : s.lc.activity = .sending x) (hk : x.kind = 16)
    (hf : f ∈ s.lc.outbound) (ht : f.ticket = x.ticket) : s.departStarted = true := by
  have hany : s.lc.outbound.any (fun f => decide (f.ticket = x.ticket)) = true :=
    List.any_eq_true.mpr ⟨f, hf, decide_eq_true ht⟩
  simp only [State.departStarted, hx, hk, hany, decide_true, Bool.and_self]

theorem exec_departureLimit {t : Nat} (ht : s.sc.departure = some t) (hd : s.departStarted = false) :
    exec .departureLimit s = .next ((s.reach t).enterRetain .notSentLine) := by
  simp only [exec, execDepartureLimit, ht, hd]
  rfl

theorem exec_sendEnd_departure (hl : s.live = false) (hx : s.lc.activity = .sending x) (hd : s.departStarted = true)
    (dominant : Bool) : exec (.sendEnd dominant) s = .next ((s.lineBusy.removeFrame x.ticket).enterRetain .sent) := by
  simp only [exec, execSendEnd, hx, hl, hd, if_true]
  rfl

theorem exec_clashMismatch_departure (hl : s.live = false) (hx : s.lc.activity = .sending x) (hd : s.departStarted = true) :
    exec .clashMismatch s = .next (s.lineBusy.enterRetain .notSentLine) := by
  simp only [exec, execClashMismatch, hx, hl, hd, if_true]
  rfl

theorem exec_stuck_departure (hl : s.live = false) (hline : s.lineUp = true) :
    exec .stuck s = .next (s.enterRetain .notSentLine) := by
  simp only [exec, execStuck, hline, hl, if_true]
  rfl

/-! ### The reset pin in the departure step (R186) -/

variable {p : Straps}

theorem exec_resetPin_warned (hs : s.sc.station ≠ .retain) (hw : s.sc.supply = .warned) :
    exec (.resetPin p true) s = .next (s.start p true).warn :=
  congrArg _ ((if_neg hs).trans (if_pos (by simp [hw])))

/-- A start leads to no state on the line. -/
theorem State.warmStart_offLine (s : State) (p : Straps) : (s.warmStart p).onLine = false := by
  refine Bool.eq_false_iff.mpr (State.onLine_iff_station.not.mpr ?_)
  unfold State.warmStart
  dsimp only
  split
  · simp
  · split <;> simp

theorem State.coldStarted_offLine (s : State) (p : Straps) : (s.coldStarted p).onLine = false := by
  refine Bool.eq_false_iff.mpr (State.onLine_iff_station.not.mpr ?_)
  unfold State.coldStarted
  dsimp only
  split <;> simp

end

/-- Settles O54: the warning by `warn`, and each end of the departure step by `enterRetain`. -/
theorem supplyWarningAndDepartureComplete : Obligations.SupplyWarningAndDepartureComplete := by
  unfold Obligations.SupplyWarningAndDepartureComplete
  intro retained entered
  have hentered (s : State) (outcome : DepartureOutcome) : .next (s.enterRetain outcome) = entered s outcome :=
    s.next_enterRetain outcome
  refine ⟨fun s hl hst => ?onLine, fun s hl hj hh => ?offLine,
    fun s hl => ⟨exec_supplyWarning_again hl, exec_supplyWarning_retain⟩, fun s t ht hnow hidle => ?limit,
    fun s x f hl hx hk hf hticket => ?sent, fun s hl hline => ?stuck, fun s p hs hw hclear hvalid => ?warm,
    fun s p hs hw hcold => ?cold⟩
  case onLine =>
    rw [exec_supplyWarning hl, State.warn_onLine (State.onLine_iff_station.mpr hst)]
    rfl
  case offLine =>
    have hoff : s.onLine = false := Bool.eq_false_iff.mpr (State.onLine_iff_station.not.mpr (by simp [hj, hh]))
    rw [exec_supplyWarning hl, State.warn_offLine hoff]
    rfl
  case limit =>
    rw [exec_departureLimit ht (State.departStarted_idle hidle), State.reach_of_le hnow]
    exact hentered _ _
  case sent =>
    have hd := State.departStarted_sending hx hk hf hticket
    refine ⟨fun dominant hw => ?_, ?_⟩
    · rw [exec_sendEnd_departure hl hx hd, State.removeFrame_of_nil (s := s.lineBusy) hw, hentered]
      rfl
    · rw [exec_clashMismatch_departure hl hx hd, hentered]
      rfl
  case stuck =>
    have hup : s.lineUp = true := by
      unfold State.lineUp
      rcases hline with h | h <;> simp [h]
    rw [exec_stuck_departure hl hup, hentered]
  case warm =>
    refine ⟨s.warmStart p, s.warmStart_warmStarted p, rfl, ?_⟩
    rw [exec_resetPin_warned hs hw, State.start_warm hclear hvalid, State.warn_offLine (s.warmStart_offLine p)]
    rfl
  case cold =>
    rw [exec_resetPin_warned hs hw, State.start_cold (hcold.imp_right .inl), State.coldStart_eq,
      State.warn_offLine (s.coldStarted_offLine p)]
    rfl

end Sys2Proof.Machine
end
